-- ==== Sys2Proof/Word.lean ====
section
/-! DEFINITION. The words of the RVP core: bytes, machine words, register and CSR numbers, and the two widths XLEN
the spec names (00_scope.md R8, R9). A machine word is held in 64 bits whatever XLEN is: with XLEN = 32 its value is
in bits 31:0 and the accessors of Machine/Ops.lean read and write those bits only (log entry 2). -/

namespace Sys2Proof

/-- One byte of the store (10_state.md R33). -/
abbrev Byte := BitVec 8

/-- A machine word: XLEN bits of value, zero-extended to 64 (log entry 2). -/
abbrev Word := BitVec 64

/-- The number of a general register, as the instruction word holds it (30_encoding.md R131). -/
abbrev Reg := BitVec 5

/-- The number of a CSR word (10_state.md R24). -/
abbrev CsrNum := BitVec 12

/-- The register width XLEN, fixed for an instance of the machine (00_scope.md R2, R8). -/
inductive Xlen where
  | rv32
  | rv64
  deriving DecidableEq, Repr

/-- XLEN as a number of bits. -/
def Xlen.bits : Xlen → Nat
  | .rv32 => 32
  | .rv64 => 64

end Sys2Proof
end

