-- ==== Sys2Proof/Machine/Types.lean ====
section
/-! DEFINITION. The data the machine's state is made of: the structures of 10_state.md, the frames of
45_ringchannel_ops.md, the effect record of 46_speclog_ops.md, and the choices the agents make (00_scope.md R15).
Everything here is plain data. -/

namespace Sys2Proof.Machine

/-- The byte store: (address, byte) pairs, addresses strictly rising, no entry for a byte that is 0, which is what an
unlisted address reads as (10_state.md R33, R48; log entry 12). -/
abbrev Memory := List Host.Cell

/-- A permission set: bit 0 R, bit 1 W, bit 2 X (10_state.md R34). -/
abbrev Perms := BitVec 3

/-- An owner-tag; 0 is the pool (10_state.md R29, R34). -/
abbrev Owner := BitVec 16

/-- A generation counter (10_state.md R34). -/
abbrev Gen := BitVec 64

/-- A frame image: 32 bytes read as one 256-bit little-endian integer (45_ringchannel_ops.md R336). -/
abbrev FrameBits := BitVec 256

/-- The kind of a trap (60_exceptions.md R400). -/
inductive Kind where
  | none
  | noExec
  | memoryViolation
  | staleHandle
  | illegalInstruction
  | misalignedTarget
  | invalidPermissions
  | speculationRolledBack
  | syscall
  | breakpoint
  deriving DecidableEq, Repr

/-- The states of the core that are seen between steps (10_state.md R27). -/
inductive CoreState where
  | fetching
  | trapped
  | halted
  | terminated
  deriving DecidableEq, Repr

/-- One slot of the capability table (10_state.md R30). -/
structure Cap where
  valid : Bool
  mask : Perms
  gen : Gen
  deriving DecidableEq, Repr

/-- A Region descriptor (10_state.md R34). -/
structure Region where
  valid : Bool
  base : BitVec 64
  length : BitVec 64
  perms : Perms
  owner : Owner
  gen : Gen
  deriving DecidableEq, Repr

/-- A handle value as the access check takes it; `rid` is a slot of the Region table (10_state.md R36). -/
structure Handle where
  rid : Nat
  mask : Perms
  gen : Gen
  deriving DecidableEq, Repr

/-- A handle value as passed at the driver port and the service port: the region-id has 16 bits there
(10_state.md R36, 92_eei_decisions.md D12). -/
structure PortHandle where
  rid : BitVec 16
  mask : Perms
  gen : Gen
  deriving DecidableEq, Repr

/-- The handle a port handle stands for. -/
def PortHandle.handle (p : PortHandle) : Handle := ⟨p.rid.toNat, p.mask, p.gen⟩

/-- A handle as a port carries it: the low 16 bits of its region-id, which is all of it at every slot below 2^16
(log entry 13). -/
def Handle.toPort (h : Handle) : PortHandle := ⟨BitVec.ofNat 16 h.rid, h.mask, h.gen⟩

/-- The trap record (10_state.md R31). -/
structure TrapRecord where
  valid : Bool
  kind : Kind
  addr : Word
  savedPc : Word
  regs : Vector Word 32
  deriving DecidableEq, Repr

/-- One ring: the two counters and the slots that do not hold 32 bytes of 0, by slot number
(10_state.md R37). -/
structure Ring where
  head : BitVec 32
  tail : BitVec 32
  slots : List (Nat × FrameBits)
  deriving DecidableEq, Repr

/-- The states of the log entry (10_state.md R41). `committed` and `rolledBack` exist only inside a transition
(46_speclog_ops.md R377). -/
inductive LogState where
  | empty
  | pending
  | committed
  | rolledBack
  deriving DecidableEq, Repr

/-- A before-image: the descriptor, the capability slot and the bytes of a Region, these listed as the byte store
lists them (10_state.md R41, 46_speclog_ops.md R374; log entry 9). -/
structure Image where
  rid : Nat
  desc : Region
  cap : Cap
  bytes : Memory
  deriving DecidableEq, Repr

/-- The SpeculativeLog's single entry (10_state.md R41). -/
structure LogEntry where
  state : LogState
  seq : BitVec 32
  svc : BitVec 16
  images : List Image
  deadline : BitVec 64
  tr : TrapRecord
  deriving DecidableEq, Repr

/-- The recorded outcome of an entry (10_state.md R42). -/
inductive LogOutcome where
  | none
  | committed
  | rolledBack
  deriving DecidableEq, Repr

/-- `log.last` (10_state.md R42). -/
structure LogLast where
  seq : BitVec 32
  outcome : LogOutcome
  reason : BitVec 8
  deriving DecidableEq, Repr

/-- The states of the TrapDispatcher (10_state.md R43, 60_exceptions.md R430). -/
inductive TdState where
  | idle
  | classify
  | waitSpec
  | waitSlot
  | waitResponse
  | waitDebug
  deriving DecidableEq, Repr

/-- `td.out`, the outstanding blocking request (10_state.md R43). -/
structure TdOut where
  valid : Bool
  seq : BitVec 32
  svc : BitVec 16
  deriving DecidableEq, Repr

/-- The class of a syscall (10_state.md R44). -/
inductive SvcClass where
  | unregistered
  | localCall
  | speculative
  | blocking
  deriving DecidableEq, Repr

/-- The local operation of a LOCAL syscall; the reserved value 3 is treated as UNREGISTERED (10_state.md R44). -/
inductive LocalOp where
  | exit
  | protect
  | revoke
  | reserved
  deriving DecidableEq, Repr

/-- The provisional effect of a SPECULATIVE syscall (10_state.md R44). -/
inductive Prov where
  | alloc
  | ext
  deriving DecidableEq, Repr

/-- One entry of the service table (10_state.md R44). -/
structure SvcEntry where
  cls : SvcClass
  serviceId : BitVec 16
  localOp : LocalOp
  prov : Prov
  deriving DecidableEq, Repr

/-- The events of the notification list (10_state.md R45). -/
inductive NoteEvent where
  | trap
  | rollback
  | terminate
  | halt
  deriving DecidableEq, Repr

/-- A notification record (10_state.md R45). -/
structure Note where
  event : NoteEvent
  kind : Kind
  addr : Word
  savedPc : Word
  sysid : Word
  deriving DecidableEq, Repr

/-- The fields of a frame (45_ringchannel_ops.md R336). -/
structure Frame where
  sequence : BitVec 32
  tag : BitVec 16
  serviceId : BitVec 16
  length : BitVec 32
  payloadOffset : BitVec 64
  status : BitVec 8
  deriving DecidableEq, Repr

/-- What a provisional effect does to one Region of its `touch` list: the new permission, owner, bytes and capability
slot (46_speclog_ops.md R361); the bytes as the byte store lists them (log entry 9). -/
structure Touch where
  rid : Nat
  perms : Perms
  owner : Owner
  bytes : Memory
  cap : Cap
  deriving DecidableEq, Repr

/-- An effect record (46_speclog_ops.md R361). -/
structure Effect where
  touch : List Touch
  a0 : Word
  a1 : Word
  reqOffset : BitVec 64
  reqLength : BitVec 32
  deriving DecidableEq, Repr

/-- The inputs of the parameter function `ProvExt` (46_speclog_ops.md R372): the service-table entry, the 32 registers of
the trap record from x0 on, the Region table, the capability table, the byte store and the owner of the core. -/
structure ProvInput where
  entry : SvcEntry
  regs : List Word
  regions : List (Nat × Region)
  caps : List (Nat × Cap)
  mem : Memory
  owner : Owner
  deriving DecidableEq, Repr

/-- The permission an access needs (20_memory.md R91). -/
inductive Need where
  | nothing
  | read
  | write
  | execute
  deriving DecidableEq, Repr

/-- The error names of the operations (00_scope.md R13). -/
inductive OpError where
  | denied
  | outOfRange
  | stale
  | invalidPermissions
  | noSpace
  deriving DecidableEq, Repr

/-- What a raise names: the kind and the recorded value (00_scope.md R12, 60_exceptions.md R401). -/
structure Raise where
  kind : Kind
  value : Word
  deriving DecidableEq, Repr

/-- The items a snapshot can ask for (10_state.md R50, 60_exceptions.md R454). How much one item holds, and so how much one
atomic read gives, is the model's choice (log entry 15): one register, CSR word, table slot or ring slot, any range of
bytes, and `core.*`, `TR`, the ring counters, `log`, `log.last`, `td.*` and `td.notes` each as a whole. -/
inductive SnapItem where
  | register (r : Reg)
  | pc
  | csr (c : CsrNum)
  | core
  | cap (rid : Nat)
  | trapRecord
  | memory (addr len : Nat)
  | region (rid : Nat)
  | ringCounters
  | requestSlot (k : Nat)
  | responseSlot (k : Nat)
  | logEntry
  | logLast
  | dispatcher
  | service (n : Nat)
  | notes
  deriving DecidableEq, Repr

/-- The value of a snapshot, by item. -/
inductive SnapValue where
  | word (v : Word)
  | core (state : CoreState) (run : Bool) (owner : Owner)
  | cap (c : Cap)
  | trapRecord (t : TrapRecord)
  | memory (bytes : List Byte)
  | region (r : Region)
  | ringCounters (reqHead reqTail rspHead rspTail : BitVec 32)
  | slot (f : FrameBits)
  | logEntry (e : LogEntry)
  | logLast (l : LogLast)
  | dispatcher (state : TdState) (deadline : BitVec 64) (dlValid : Bool) (out : TdOut) (now timeout : BitVec 64)
  | service (e : SvcEntry)
  | notes (l : List Note)
  deriving DecidableEq, Repr

/-- What a port operation answers (00_scope.md R13, 70_reset_and_hazards.md R476; log entry 5). -/
inductive Reply where
  | none
  | ok
  | handle (h : PortHandle)
  | retired
  | bytes (l : List Byte)
  | published (done : Bool)
  | consumed (f : Option FrameBits)
  | error (e : OpError)
  | refused
  | snapshot (v : SnapValue)
  deriving DecidableEq, Repr

/-- The transitions of the TrapDispatcher (60_exceptions.md R425 to R443). -/
inductive TdMove where
  | classify
  | retry
  | release
  | consume
  | logDeadline
  | requestDeadline
  deriving DecidableEq, Repr

/-- The operations of the service port (60_exceptions.md R455). -/
inductive ServiceCmd where
  | tryConsume
  | tryPublish (f : FrameBits)
  | read (h : PortHandle) (addr len : BitVec 64)
  | write (h : PortHandle) (addr : BitVec 64) (bytes : List Byte)
  deriving DecidableEq, Repr

/-- The commands of the driver port but STEP (60_exceptions.md R450). -/
inductive DriverCmd where
  | setEntry (p : Word) (owner : Owner)
  | setCap (h : PortHandle)
  | clrCap (rid : BitVec 16)
  | setSvc (n : Nat) (e : SvcEntry)
  | setTimeout (t : BitVec 64)
  | run
  | stop
  | resumeDebug
  | terminate
  | map (owner : Owner) (base len : BitVec 64) (perms : Perms)
  | protect (h : PortHandle) (perms : Perms)
  | revoke (h : PortHandle)
  | unmap (h : PortHandle)
  | loadBytes (h : PortHandle) (addr : BitVec 64) (bytes : List Byte)
  | read (h : PortHandle) (addr len : BitVec 64)
  | write (h : PortHandle) (addr : BitVec 64) (bytes : List Byte)
  | snapshot (item : SnapItem)
  deriving DecidableEq, Repr

/-- One choice of an agent and, for the environment's agents, of its input (00_scope.md R14, R15). `driverStep` is
the driver command STEP, which performs a CPU step (60_exceptions.md R452). -/
inductive Move where
  | cpu
  | td (t : TdMove)
  | tick
  | service (c : ServiceCmd)
  | driverStep
  | driver (c : DriverCmd)
  deriving DecidableEq, Repr

end Sys2Proof.Machine
end

