-- ==== Sys2Proof/Config.lean ====
section
/-! DEFINITION. The implementation parameters of 00_scope.md R8: the fields of `Params`, which the state holds and no step
changes (log entry 1). The parameter function `ProvExt` is held as its table of values (log entry 7). -/

namespace Sys2Proof

/-- The parameters of an instance (00_scope.md R8). `provExt` lists the inputs at which `ProvExt` returns an effect record,
with the record; at every other input it returns None (46_speclog_ops.md R372; log entry 7). -/
structure Params where
  xlen : Xlen
  memSize : Nat
  nregion : Nat
  ringCap : Nat
  nsys : Nat
  timeoutReset : BitVec 64
  provExt : List (Machine.ProvInput × Machine.Effect)
  deriving DecidableEq, Repr

/-- The legal values of the parameters (00_scope.md R8): MEM_SIZE in 1 .. 2^64, NREGION and NSYS at least 1,
RING_CAP = 2^k with k at most 31. Every `provExt` is legal: what fails `VALID_EFFECT` counts as None
(46_speclog_ops.md R372). -/
def Params.legal (p : Params) : Bool :=
  decide (1 ≤ p.memSize) && decide (p.memSize ≤ 2 ^ 64) && decide (1 ≤ p.nregion) && decide (1 ≤ p.nsys) &&
    (List.range 32).any fun k => p.ringCap == 2 ^ k

/-- The defaults of 00_scope.md R8 at a given XLEN; the default `ProvExt` returns None always. -/
def Params.defaults (x : Xlen) : Params :=
  { xlen := x, memSize := 0x100000, nregion := 16, ringCap := 8, nsys := 16, timeoutReset := 1000, provExt := [] }

/-- The parameters of `State.reset` and of `decodeTableWord`: the defaults with XLEN = 64, at which every mnemonic of
the table has a word (log entry 1). -/
def Config.params : Params := Params.defaults .rv64

end Sys2Proof
end

