-- ==== Sys2Proof/Syntax.lean ====
section
/-! DEFINITION. The instructions of the RVP core, one constructor for each of the 58 mnemonics of the table of
30_encoding.md R151. The operands are the fields of the instruction word, register numbers and immediates as bits;
a branch or jump offset is the 13- or 21-bit byte offset with its constant bit 0 (R142, R144). -/

namespace Sys2Proof

/-- An instruction with its operands. -/
inductive Instr where
  -- upper immediates (R171, R172)
  | lui (rd : Reg) (imm : BitVec 20)
  | auipc (rd : Reg) (imm : BitVec 20)
  -- control transfer (R232 to R239)
  | jal (rd : Reg) (off : BitVec 21)
  | jalr (rd rs1 : Reg) (imm : BitVec 12)
  | beq (rs1 rs2 : Reg) (off : BitVec 13)
  | bne (rs1 rs2 : Reg) (off : BitVec 13)
  | blt (rs1 rs2 : Reg) (off : BitVec 13)
  | bge (rs1 rs2 : Reg) (off : BitVec 13)
  | bltu (rs1 rs2 : Reg) (off : BitVec 13)
  | bgeu (rs1 rs2 : Reg) (off : BitVec 13)
  -- loads (R251 to R257)
  | lb (rd rs1 : Reg) (imm : BitVec 12)
  | lh (rd rs1 : Reg) (imm : BitVec 12)
  | lw (rd rs1 : Reg) (imm : BitVec 12)
  | lbu (rd rs1 : Reg) (imm : BitVec 12)
  | lhu (rd rs1 : Reg) (imm : BitVec 12)
  | lwu (rd rs1 : Reg) (imm : BitVec 12)
  | ld (rd rs1 : Reg) (imm : BitVec 12)
  -- stores (R258 to R261); rs1 is the base, rs2 the data
  | sb (rs1 rs2 : Reg) (imm : BitVec 12)
  | sh (rs1 rs2 : Reg) (imm : BitVec 12)
  | sw (rs1 rs2 : Reg) (imm : BitVec 12)
  | sd (rs1 rs2 : Reg) (imm : BitVec 12)
  -- register and immediate (R173 to R181)
  | addi (rd rs1 : Reg) (imm : BitVec 12)
  | slti (rd rs1 : Reg) (imm : BitVec 12)
  | sltiu (rd rs1 : Reg) (imm : BitVec 12)
  | xori (rd rs1 : Reg) (imm : BitVec 12)
  | ori (rd rs1 : Reg) (imm : BitVec 12)
  | andi (rd rs1 : Reg) (imm : BitVec 12)
  | slli (rd rs1 : Reg) (shamt : BitVec 6)
  | srli (rd rs1 : Reg) (shamt : BitVec 6)
  | srai (rd rs1 : Reg) (shamt : BitVec 6)
  -- register and register (R182 to R191)
  | add (rd rs1 rs2 : Reg)
  | sub (rd rs1 rs2 : Reg)
  | sll (rd rs1 rs2 : Reg)
  | slt (rd rs1 rs2 : Reg)
  | sltu (rd rs1 rs2 : Reg)
  | xor (rd rs1 rs2 : Reg)
  | srl (rd rs1 rs2 : Reg)
  | sra (rd rs1 rs2 : Reg)
  | or (rd rs1 rs2 : Reg)
  | and (rd rs1 rs2 : Reg)
  -- word instructions, XLEN = 64 only (R192 to R200)
  | addiw (rd rs1 : Reg) (imm : BitVec 12)
  | slliw (rd rs1 : Reg) (shamt : BitVec 5)
  | srliw (rd rs1 : Reg) (shamt : BitVec 5)
  | sraiw (rd rs1 : Reg) (shamt : BitVec 5)
  | addw (rd rs1 rs2 : Reg)
  | subw (rd rs1 rs2 : Reg)
  | sllw (rd rs1 rs2 : Reg)
  | srlw (rd rs1 rs2 : Reg)
  | sraw (rd rs1 rs2 : Reg)
  -- system (R276 to R286); the fields of FENCE are held and ignored (R161)
  | fence (fm pred succ : BitVec 4) (rs1 rd : Reg)
  | ecall
  | ebreak
  | csrrw (rd rs1 : Reg) (csr : CsrNum)
  | csrrs (rd rs1 : Reg) (csr : CsrNum)
  | csrrc (rd rs1 : Reg) (csr : CsrNum)
  | csrrwi (rd : Reg) (uimm : BitVec 5) (csr : CsrNum)
  | csrrsi (rd : Reg) (uimm : BitVec 5) (csr : CsrNum)
  | csrrci (rd : Reg) (uimm : BitVec 5) (csr : CsrNum)
  deriving DecidableEq, Repr

end Sys2Proof
end

