-- ==== Sys2Proof/WellFormed.lean ====
section
/-! DEFINITION. Which instructions have a word at a given XLEN: the checks that the operand fields of `Instr` leave
open. Bit 0 of a branch or jump offset is 0 (30_encoding.md R142, R144); a shift-immediate has a 5-bit amount at
XLEN = 32 (R145); the RV64I rows exist at XLEN = 64 only (R151, R160). -/

namespace Sys2Proof

/-- The instruction is one of the rows that exist at XLEN = 64 only (the XLEN column of R151). -/
def Instr.rv64Only : Instr → Bool
  | .lwu .. | .ld .. | .sd .. => true
  | .addiw .. | .slliw .. | .srliw .. | .sraiw .. => true
  | .addw .. | .subw .. | .sllw .. | .srlw .. | .sraw .. => true
  | .lui .. | .auipc .. | .jal .. | .jalr .. => false
  | .beq .. | .bne .. | .blt .. | .bge .. | .bltu .. | .bgeu .. => false
  | .lb .. | .lh .. | .lw .. | .lbu .. | .lhu .. | .sb .. | .sh .. | .sw .. => false
  | .addi .. | .slti .. | .sltiu .. | .xori .. | .ori .. | .andi .. | .slli .. | .srli .. | .srai .. => false
  | .add .. | .sub .. | .sll .. | .slt .. | .sltu .. | .xor .. | .srl .. | .sra .. | .or .. | .and .. => false
  | .fence .. | .ecall | .ebreak => false
  | .csrrw .. | .csrrs .. | .csrrc .. | .csrrwi .. | .csrrsi .. | .csrrci .. => false

/-- The offset of a branch or jump is even (R142, R144). -/
def Instr.evenOffset : Instr → Bool
  | .jal _ off => !off.getLsbD 0
  | .beq _ _ off | .bne _ _ off | .blt _ _ off | .bge _ _ off | .bltu _ _ off | .bgeu _ _ off => !off.getLsbD 0
  | _ => true

/-- The amount of a shift-immediate is below XLEN (R145). -/
def Instr.shamtFits (x : Xlen) : Instr → Bool
  | .slli _ _ n | .srli _ _ n | .srai _ _ n => decide (n.toNat < x.bits)
  | _ => true

/-- The instruction has an encoding at this XLEN. -/
def Instr.wf (x : Xlen) (i : Instr) : Bool :=
  (!i.rv64Only || x == .rv64) && i.evenOffset && i.shamtFits x

end Sys2Proof
end

