-- ==== Sys2Proof/Decode.lean ====
section
/-! DEFINITION. The decoder and the encoder, from the formats of 30_encoding.md R131 to R133, the immediates of R140 to
R146 and the match and mask table of R151. Decoding is a total function of the word and XLEN (R152); a word that
matches no row is rejected by name (R160). -/

namespace Sys2Proof

/-! ## Fields of an instruction word (R131, R133, R140 to R146) -/

def rdOf (w : BitVec 32) : Reg := w.extractLsb' 7 5
def rs1Of (w : BitVec 32) : Reg := w.extractLsb' 15 5
def rs2Of (w : BitVec 32) : Reg := w.extractLsb' 20 5

/-- `w[31:20]`: the I-immediate before sign extension (R140), and the CSR number (R146). -/
def immIOf (w : BitVec 32) : BitVec 12 := w.extractLsb' 20 12

/-- The S-immediate before sign extension (R141). -/
def immSOf (w : BitVec 32) : BitVec 12 := w.extractLsb' 25 7 ++ w.extractLsb' 7 5

/-- The B-immediate before sign extension (R142). -/
def immBOf (w : BitVec 32) : BitVec 13 :=
  w.extractLsb' 31 1 ++ w.extractLsb' 7 1 ++ w.extractLsb' 25 6 ++ w.extractLsb' 8 4 ++ 0#1

/-- The 20 bits of the U-immediate (R143). -/
def immUOf (w : BitVec 32) : BitVec 20 := w.extractLsb' 12 20

/-- The J-immediate before sign extension (R144). -/
def immJOf (w : BitVec 32) : BitVec 21 :=
  w.extractLsb' 31 1 ++ w.extractLsb' 12 8 ++ w.extractLsb' 20 1 ++ w.extractLsb' 21 10 ++ 0#1

/-- `w[25:20]`: the shift amount of SLLI, SRLI, SRAI; at XLEN = 32 the row fixes bit 25 at 0 (R145). -/
def shamt6Of (w : BitVec 32) : BitVec 6 := w.extractLsb' 20 6

/-! ## The table of R151 -/

/-- The XLEN column of R151. -/
inductive RowXlen where
  | both
  | only32
  | only64
  deriving DecidableEq, Repr

/-- The row's XLEN condition holds. -/
def RowXlen.holds : RowXlen → Xlen → Bool
  | .both, _ => true
  | .only32, x => x == .rv32
  | .only64, x => x == .rv64

/-- One row of R151; `pat` is its match value and `build` reads the operand fields of its format. -/
structure OpRow where
  mnemonic : String
  xlen : RowXlen
  mask : BitVec 32
  pat : BitVec 32
  build : BitVec 32 → Instr

/-- The word selects the row: `(w & mask) = match` and the XLEN condition holds (R151). -/
def OpRow.selects (r : OpRow) (x : Xlen) (w : BitVec 32) : Bool :=
  r.xlen.holds x && (w &&& r.mask) == r.pat

def buildU (c : Reg → BitVec 20 → Instr) (w : BitVec 32) : Instr := c (rdOf w) (immUOf w)
def buildI (c : Reg → Reg → BitVec 12 → Instr) (w : BitVec 32) : Instr := c (rdOf w) (rs1Of w) (immIOf w)
def buildS (c : Reg → Reg → BitVec 12 → Instr) (w : BitVec 32) : Instr := c (rs1Of w) (rs2Of w) (immSOf w)
def buildB (c : Reg → Reg → BitVec 13 → Instr) (w : BitVec 32) : Instr := c (rs1Of w) (rs2Of w) (immBOf w)
def buildJ (c : Reg → BitVec 21 → Instr) (w : BitVec 32) : Instr := c (rdOf w) (immJOf w)
def buildR (c : Reg → Reg → Reg → Instr) (w : BitVec 32) : Instr := c (rdOf w) (rs1Of w) (rs2Of w)
def buildShift (c : Reg → Reg → BitVec 6 → Instr) (w : BitVec 32) : Instr := c (rdOf w) (rs1Of w) (shamt6Of w)
def buildShiftW (c : Reg → Reg → BitVec 5 → Instr) (w : BitVec 32) : Instr := c (rdOf w) (rs1Of w) (rs2Of w)
def buildCsr (c : Reg → Reg → CsrNum → Instr) (w : BitVec 32) : Instr := c (rdOf w) (rs1Of w) (immIOf w)
def buildCsrImm (c : Reg → BitVec 5 → CsrNum → Instr) (w : BitVec 32) : Instr := c (rdOf w) (rs1Of w) (immIOf w)
def buildFence (w : BitVec 32) : Instr :=
  .fence (w.extractLsb' 28 4) (w.extractLsb' 24 4) (w.extractLsb' 20 4) (rs1Of w) (rdOf w)

/-- Upper immediates and control transfer. -/
def rowsControl : List OpRow := [
  ⟨"LUI", .both, 0x0000007F, 0x00000037, buildU .lui⟩,
  ⟨"AUIPC", .both, 0x0000007F, 0x00000017, buildU .auipc⟩,
  ⟨"JAL", .both, 0x0000007F, 0x0000006F, buildJ .jal⟩,
  ⟨"JALR", .both, 0x0000707F, 0x00000067, buildI .jalr⟩,
  ⟨"BEQ", .both, 0x0000707F, 0x00000063, buildB .beq⟩,
  ⟨"BNE", .both, 0x0000707F, 0x00001063, buildB .bne⟩,
  ⟨"BLT", .both, 0x0000707F, 0x00004063, buildB .blt⟩,
  ⟨"BGE", .both, 0x0000707F, 0x00005063, buildB .bge⟩,
  ⟨"BLTU", .both, 0x0000707F, 0x00006063, buildB .bltu⟩,
  ⟨"BGEU", .both, 0x0000707F, 0x00007063, buildB .bgeu⟩]

/-- Loads and stores. -/
def rowsMemory : List OpRow := [
  ⟨"LB", .both, 0x0000707F, 0x00000003, buildI .lb⟩,
  ⟨"LH", .both, 0x0000707F, 0x00001003, buildI .lh⟩,
  ⟨"LW", .both, 0x0000707F, 0x00002003, buildI .lw⟩,
  ⟨"LBU", .both, 0x0000707F, 0x00004003, buildI .lbu⟩,
  ⟨"LHU", .both, 0x0000707F, 0x00005003, buildI .lhu⟩,
  ⟨"LWU", .only64, 0x0000707F, 0x00006003, buildI .lwu⟩,
  ⟨"LD", .only64, 0x0000707F, 0x00003003, buildI .ld⟩,
  ⟨"SB", .both, 0x0000707F, 0x00000023, buildS .sb⟩,
  ⟨"SH", .both, 0x0000707F, 0x00001023, buildS .sh⟩,
  ⟨"SW", .both, 0x0000707F, 0x00002023, buildS .sw⟩,
  ⟨"SD", .only64, 0x0000707F, 0x00003023, buildS .sd⟩]

/-- OP-IMM. -/
def rowsImmediate : List OpRow := [
  ⟨"ADDI", .both, 0x0000707F, 0x00000013, buildI .addi⟩,
  ⟨"SLTI", .both, 0x0000707F, 0x00002013, buildI .slti⟩,
  ⟨"SLTIU", .both, 0x0000707F, 0x00003013, buildI .sltiu⟩,
  ⟨"XORI", .both, 0x0000707F, 0x00004013, buildI .xori⟩,
  ⟨"ORI", .both, 0x0000707F, 0x00006013, buildI .ori⟩,
  ⟨"ANDI", .both, 0x0000707F, 0x00007013, buildI .andi⟩,
  ⟨"SLLI", .only32, 0xFE00707F, 0x00001013, buildShift .slli⟩,
  ⟨"SLLI", .only64, 0xFC00707F, 0x00001013, buildShift .slli⟩,
  ⟨"SRLI", .only32, 0xFE00707F, 0x00005013, buildShift .srli⟩,
  ⟨"SRLI", .only64, 0xFC00707F, 0x00005013, buildShift .srli⟩,
  ⟨"SRAI", .only32, 0xFE00707F, 0x40005013, buildShift .srai⟩,
  ⟨"SRAI", .only64, 0xFC00707F, 0x40005013, buildShift .srai⟩]

/-- OP. -/
def rowsRegister : List OpRow := [
  ⟨"ADD", .both, 0xFE00707F, 0x00000033, buildR .add⟩,
  ⟨"SUB", .both, 0xFE00707F, 0x40000033, buildR .sub⟩,
  ⟨"SLL", .both, 0xFE00707F, 0x00001033, buildR .sll⟩,
  ⟨"SLT", .both, 0xFE00707F, 0x00002033, buildR .slt⟩,
  ⟨"SLTU", .both, 0xFE00707F, 0x00003033, buildR .sltu⟩,
  ⟨"XOR", .both, 0xFE00707F, 0x00004033, buildR .xor⟩,
  ⟨"SRL", .both, 0xFE00707F, 0x00005033, buildR .srl⟩,
  ⟨"SRA", .both, 0xFE00707F, 0x40005033, buildR .sra⟩,
  ⟨"OR", .both, 0xFE00707F, 0x00006033, buildR .or⟩,
  ⟨"AND", .both, 0xFE00707F, 0x00007033, buildR .and⟩]

/-- OP-IMM-32 and OP-32. -/
def rowsWord : List OpRow := [
  ⟨"ADDIW", .only64, 0x0000707F, 0x0000001B, buildI .addiw⟩,
  ⟨"SLLIW", .only64, 0xFE00707F, 0x0000101B, buildShiftW .slliw⟩,
  ⟨"SRLIW", .only64, 0xFE00707F, 0x0000501B, buildShiftW .srliw⟩,
  ⟨"SRAIW", .only64, 0xFE00707F, 0x4000501B, buildShiftW .sraiw⟩,
  ⟨"ADDW", .only64, 0xFE00707F, 0x0000003B, buildR .addw⟩,
  ⟨"SUBW", .only64, 0xFE00707F, 0x4000003B, buildR .subw⟩,
  ⟨"SLLW", .only64, 0xFE00707F, 0x0000103B, buildR .sllw⟩,
  ⟨"SRLW", .only64, 0xFE00707F, 0x0000503B, buildR .srlw⟩,
  ⟨"SRAW", .only64, 0xFE00707F, 0x4000503B, buildR .sraw⟩]

/-- MISC-MEM and SYSTEM. -/
def rowsSystem : List OpRow := [
  ⟨"FENCE", .both, 0x0000707F, 0x0000000F, buildFence⟩,
  ⟨"ECALL", .both, 0xFFFFFFFF, 0x00000073, fun _ => .ecall⟩,
  ⟨"EBREAK", .both, 0xFFFFFFFF, 0x00100073, fun _ => .ebreak⟩,
  ⟨"CSRRW", .both, 0x0000707F, 0x00001073, buildCsr .csrrw⟩,
  ⟨"CSRRS", .both, 0x0000707F, 0x00002073, buildCsr .csrrs⟩,
  ⟨"CSRRC", .both, 0x0000707F, 0x00003073, buildCsr .csrrc⟩,
  ⟨"CSRRWI", .both, 0x0000707F, 0x00005073, buildCsrImm .csrrwi⟩,
  ⟨"CSRRSI", .both, 0x0000707F, 0x00006073, buildCsrImm .csrrsi⟩,
  ⟨"CSRRCI", .both, 0x0000707F, 0x00007073, buildCsrImm .csrrci⟩]

/-- The 61 rows of R151. -/
def opRows : List OpRow :=
  rowsControl ++ rowsMemory ++ rowsImmediate ++ rowsRegister ++ rowsWord ++ rowsSystem

/-! ## Decoding -/

/-- Why bytes are no instruction: the word matches no row (R160), or fewer than four bytes are there. -/
inductive Reject where
  | illegalInstruction (w : BitVec 32)
  | truncated (n : Nat)
  deriving DecidableEq, Repr

/-- Decoding of a word (R152): the row it selects, or a rejection. -/
def decode (x : Xlen) (w : BitVec 32) : Except Reject Instr :=
  match opRows.find? (fun r => r.selects x w) with
  | some r => .ok (r.build w)
  | none => .error (.illegalInstruction w)

/-- The little-endian word of four bytes, the first at the lowest address (20_memory.md R81). -/
def wordOfBytes (b0 b1 b2 b3 : Byte) : BitVec 32 := b3 ++ b2 ++ b1 ++ b0

/-- The four bytes of a word, lowest address first (20_memory.md R81). -/
def bytesOfWord (w : BitVec 32) : List Byte :=
  [w.extractLsb' 0 8, w.extractLsb' 8 8, w.extractLsb' 16 8, w.extractLsb' 24 8]

/-- Decoding of any bytes: one instruction and the bytes after it (R130: every instruction is four bytes). -/
def decodeBytes (x : Xlen) : List Byte → Except Reject (Instr × List Byte)
  | b0 :: b1 :: b2 :: b3 :: rest => (decode x (wordOfBytes b0 b1 b2 b3)).map fun i => (i, rest)
  | short => .error (.truncated short.length)

/-- What the decoder reads from a row's word, for the host: the word's bytes as the hardware stores them, given to
`decodeBytes` at the reset parameters; bits at and above `nbits` are 0. -/
def decodeTableWord (nbits w : Nat) : Option Instr :=
  match decodeBytes Config.params.xlen (bytesOfWord (BitVec.ofNat 32 (w % 2 ^ nbits))) with
  | .ok (i, _) => some i
  | .error _ => none

/-! ## Encoding -/

/-- R format (R132). -/
def encR (f7 : BitVec 7) (rs2 rs1 : Reg) (f3 : BitVec 3) (rd : Reg) (op : BitVec 7) : BitVec 32 :=
  f7 ++ rs2 ++ rs1 ++ f3 ++ rd ++ op

/-- I format (R132), also the CSR form (R133). -/
def encI (imm : BitVec 12) (rs1 : Reg) (f3 : BitVec 3) (rd : Reg) (op : BitVec 7) : BitVec 32 :=
  imm ++ rs1 ++ f3 ++ rd ++ op

/-- S format (R132). -/
def encS (imm : BitVec 12) (rs2 rs1 : Reg) (f3 : BitVec 3) (op : BitVec 7) : BitVec 32 :=
  imm.extractLsb' 5 7 ++ rs2 ++ rs1 ++ f3 ++ imm.extractLsb' 0 5 ++ op

/-- B format (R132); bit 0 of the offset is not encoded. -/
def encB (off : BitVec 13) (rs2 rs1 : Reg) (f3 : BitVec 3) (op : BitVec 7) : BitVec 32 :=
  off.extractLsb' 12 1 ++ off.extractLsb' 5 6 ++ rs2 ++ rs1 ++ f3 ++ off.extractLsb' 1 4 ++ off.extractLsb' 11 1 ++ op

/-- U format (R132). -/
def encU (imm : BitVec 20) (rd : Reg) (op : BitVec 7) : BitVec 32 := imm ++ rd ++ op

/-- J format (R132); bit 0 of the offset is not encoded. -/
def encJ (off : BitVec 21) (rd : Reg) (op : BitVec 7) : BitVec 32 :=
  off.extractLsb' 20 1 ++ off.extractLsb' 1 10 ++ off.extractLsb' 11 1 ++ off.extractLsb' 12 8 ++ rd ++ op

/-- I-shift format with a 6-bit amount (R133); at XLEN = 32 bit 5 of the amount is 0 in a well-formed term. -/
def encShift (f6 : BitVec 6) (shamt : BitVec 6) (rs1 : Reg) (f3 : BitVec 3) (rd : Reg) (op : BitVec 7) : BitVec 32 :=
  f6 ++ shamt ++ rs1 ++ f3 ++ rd ++ op

/-- I-fence format (R133). -/
def encFence (fm pred succ : BitVec 4) (rs1 : Reg) (f3 : BitVec 3) (rd : Reg) (op : BitVec 7) : BitVec 32 :=
  fm ++ pred ++ succ ++ rs1 ++ f3 ++ rd ++ op

/-- The word of an instruction, from the opcode, funct3 and funct7 columns of R151. -/
def encode : Instr → BitVec 32
  | .lui rd imm => encU imm rd 0b0110111
  | .auipc rd imm => encU imm rd 0b0010111
  | .jal rd off => encJ off rd 0b1101111
  | .jalr rd rs1 imm => encI imm rs1 0b000 rd 0b1100111
  | .beq rs1 rs2 off => encB off rs2 rs1 0b000 0b1100011
  | .bne rs1 rs2 off => encB off rs2 rs1 0b001 0b1100011
  | .blt rs1 rs2 off => encB off rs2 rs1 0b100 0b1100011
  | .bge rs1 rs2 off => encB off rs2 rs1 0b101 0b1100011
  | .bltu rs1 rs2 off => encB off rs2 rs1 0b110 0b1100011
  | .bgeu rs1 rs2 off => encB off rs2 rs1 0b111 0b1100011
  | .lb rd rs1 imm => encI imm rs1 0b000 rd 0b0000011
  | .lh rd rs1 imm => encI imm rs1 0b001 rd 0b0000011
  | .lw rd rs1 imm => encI imm rs1 0b010 rd 0b0000011
  | .lbu rd rs1 imm => encI imm rs1 0b100 rd 0b0000011
  | .lhu rd rs1 imm => encI imm rs1 0b101 rd 0b0000011
  | .lwu rd rs1 imm => encI imm rs1 0b110 rd 0b0000011
  | .ld rd rs1 imm => encI imm rs1 0b011 rd 0b0000011
  | .sb rs1 rs2 imm => encS imm rs2 rs1 0b000 0b0100011
  | .sh rs1 rs2 imm => encS imm rs2 rs1 0b001 0b0100011
  | .sw rs1 rs2 imm => encS imm rs2 rs1 0b010 0b0100011
  | .sd rs1 rs2 imm => encS imm rs2 rs1 0b011 0b0100011
  | .addi rd rs1 imm => encI imm rs1 0b000 rd 0b0010011
  | .slti rd rs1 imm => encI imm rs1 0b010 rd 0b0010011
  | .sltiu rd rs1 imm => encI imm rs1 0b011 rd 0b0010011
  | .xori rd rs1 imm => encI imm rs1 0b100 rd 0b0010011
  | .ori rd rs1 imm => encI imm rs1 0b110 rd 0b0010011
  | .andi rd rs1 imm => encI imm rs1 0b111 rd 0b0010011
  | .slli rd rs1 n => encShift 0b000000 n rs1 0b001 rd 0b0010011
  | .srli rd rs1 n => encShift 0b000000 n rs1 0b101 rd 0b0010011
  | .srai rd rs1 n => encShift 0b010000 n rs1 0b101 rd 0b0010011
  | .add rd rs1 rs2 => encR 0b0000000 rs2 rs1 0b000 rd 0b0110011
  | .sub rd rs1 rs2 => encR 0b0100000 rs2 rs1 0b000 rd 0b0110011
  | .sll rd rs1 rs2 => encR 0b0000000 rs2 rs1 0b001 rd 0b0110011
  | .slt rd rs1 rs2 => encR 0b0000000 rs2 rs1 0b010 rd 0b0110011
  | .sltu rd rs1 rs2 => encR 0b0000000 rs2 rs1 0b011 rd 0b0110011
  | .xor rd rs1 rs2 => encR 0b0000000 rs2 rs1 0b100 rd 0b0110011
  | .srl rd rs1 rs2 => encR 0b0000000 rs2 rs1 0b101 rd 0b0110011
  | .sra rd rs1 rs2 => encR 0b0100000 rs2 rs1 0b101 rd 0b0110011
  | .or rd rs1 rs2 => encR 0b0000000 rs2 rs1 0b110 rd 0b0110011
  | .and rd rs1 rs2 => encR 0b0000000 rs2 rs1 0b111 rd 0b0110011
  | .addiw rd rs1 imm => encI imm rs1 0b000 rd 0b0011011
  | .slliw rd rs1 n => encR 0b0000000 n rs1 0b001 rd 0b0011011
  | .srliw rd rs1 n => encR 0b0000000 n rs1 0b101 rd 0b0011011
  | .sraiw rd rs1 n => encR 0b0100000 n rs1 0b101 rd 0b0011011
  | .addw rd rs1 rs2 => encR 0b0000000 rs2 rs1 0b000 rd 0b0111011
  | .subw rd rs1 rs2 => encR 0b0100000 rs2 rs1 0b000 rd 0b0111011
  | .sllw rd rs1 rs2 => encR 0b0000000 rs2 rs1 0b001 rd 0b0111011
  | .srlw rd rs1 rs2 => encR 0b0000000 rs2 rs1 0b101 rd 0b0111011
  | .sraw rd rs1 rs2 => encR 0b0100000 rs2 rs1 0b101 rd 0b0111011
  | .fence fm pred succ rs1 rd => encFence fm pred succ rs1 0b000 rd 0b0001111
  | .ecall => 0x00000073
  | .ebreak => 0x00100073
  | .csrrw rd rs1 c => encI c rs1 0b001 rd 0b1110011
  | .csrrs rd rs1 c => encI c rs1 0b010 rd 0b1110011
  | .csrrc rd rs1 c => encI c rs1 0b011 rd 0b1110011
  | .csrrwi rd u c => encI c u 0b101 rd 0b1110011
  | .csrrsi rd u c => encI c u 0b110 rd 0b1110011
  | .csrrci rd u c => encI c u 0b111 rd 0b1110011

end Sys2Proof
end

