-- ==== Sys2Proof/Machine/Bits.lean ====
section
/-! DEFINITION. Arithmetic on XLEN-bit values held in 64 bits (00_scope.md R9; log entry 2): truncation to XLEN, sign
extension, the signed reading, shifts, and the 32-bit forms of the word instructions (40_integer_computational.md
R192 to R200, R205). -/

namespace Sys2Proof.Machine

/-- The low XLEN bits of a word, zero-extended: the value modulo 2^XLEN. -/
def trunc (x : Xlen) (v : Word) : Word :=
  match x with
  | .rv32 => (v.setWidth 32).setWidth 64
  | .rv64 => v

/-- `sext_XLEN(v)` (R9). -/
def sext (x : Xlen) {n : Nat} (v : BitVec n) : Word := trunc x (v.signExtend 64)

/-- `signed(v)` of an XLEN-bit value (R9). -/
def signed (x : Xlen) (v : Word) : Int :=
  match x with
  | .rv32 => (v.setWidth 32).toInt
  | .rv64 => v.toInt

/-- `v << n` at XLEN bits (R9). -/
def shiftLeft (x : Xlen) (v : Word) (n : Nat) : Word := trunc x (v <<< n)

/-- `v >>u n` of an XLEN-bit value (R9). -/
def shiftRight (x : Xlen) (v : Word) (n : Nat) : Word := trunc x v >>> n

/-- `v >>s n` of an XLEN-bit value (R9). -/
def shiftRightArith (x : Xlen) (v : Word) (n : Nat) : Word :=
  match x with
  | .rv32 => ((v.setWidth 32).sshiftRight n).setWidth 64
  | .rv64 => v.sshiftRight n

/-- The low 32 bits of a word, the operand of a word instruction. -/
def low32 (v : Word) : BitVec 32 := v.setWidth 32

/-- `sext_64(t)` of a 32-bit result (R192 to R200). -/
def sextWord (t : BitVec 32) : Word := t.signExtend 64

/-- The truth value as the word 1 or 0 (R174). -/
def boolWord (b : Bool) : Word := if b then 1 else 0

end Sys2Proof.Machine
end

