-- ==== Sys2Proof/Machine/Sparse.lean ====
section
/-! DEFINITION. Tables listed by key: the byte store, the CSR bank, the Region and capability tables, the ring slots and
the service table are lists of (key, value) pairs in one canonical form, keys strictly rising and no entry equal to what
an unlisted key reads as. Every read and write of these tables goes through `lookup` and `put`; the wider accesses of the
byte store are built here from single bytes, so the byte order is decided once (20_memory.md R81). -/

namespace Sys2Proof.Machine

variable {α : Type}

/-- The value at a key; `z` is what an unlisted key reads as. -/
def lookup (z : α) : List (Nat × α) → Nat → α
  | [], _ => z
  | (k, v) :: m, a => if k = a then v else lookup z m a

/-- The table without a key. -/
def erase (a : Nat) (m : List (Nat × α)) : List (Nat × α) := m.filter fun c => c.1 != a

/-- The table with a value at a key, whatever the value. -/
def place (a : Nat) (v : α) : List (Nat × α) → List (Nat × α)
  | [] => [(a, v)]
  | (k, u) :: m => if k < a then (k, u) :: place a v m else if k = a then (a, v) :: m else (a, v) :: (k, u) :: m

/-- A write: the value `z` of an unlisted key takes the entry away. -/
def put [DecidableEq α] (z : α) (a : Nat) (v : α) (m : List (Nat × α)) : List (Nat × α) :=
  if v = z then erase a m else place a v m

/-- The canonical form: keys strictly rising, no entry equal to `z`. -/
abbrev TableWf (z : α) (m : List (Nat × α)) : Prop := m.Pairwise (fun p q => p.1 < q.1) ∧ ∀ p ∈ m, p.2 ≠ z

/-- The canonical form of the byte store: an unlisted address reads 0 (10_state.md R48). -/
abbrev Memory.wf (m : Memory) : Prop := TableWf (0 : Byte) m

/-! ## The byte store -/

/-- The byte at a store address (10_state.md R33). -/
def byteAt (m : Memory) (a : Nat) : Byte := lookup 0 m a

/-- `n` bytes from address `a` up. -/
def bytesAt (m : Memory) (a : Nat) : Nat → List Byte
  | 0 => []
  | n + 1 => byteAt m a :: bytesAt m (a + 1) n

/-- The store with one byte written. -/
def putByte (m : Memory) (a : Nat) (b : Byte) : Memory := put 0 a b m

/-- The store with bytes written from address `a` up. -/
def putBytes (m : Memory) (a : Nat) : List Byte → Memory
  | [] => m
  | b :: l => putBytes (putByte m a b) (a + 1) l

/-- The address lies in `[base, base + len)`. -/
def inRange (base len a : Nat) : Bool := decide (base ≤ a) && decide (a < base + len)

/-- The listed bytes of a range. -/
def cellsIn (m : Memory) (base len : Nat) : Memory := m.filter fun c => inRange base len c.1

/-- The store with 0 in every byte of a range (20_memory.md R110). -/
def clearRange (m : Memory) (base len : Nat) : Memory := m.filter fun c => !inRange base len c.1

/-- The store with listed bytes written one after another. -/
def putCells (m : Memory) : List Host.Cell → Memory
  | [] => m
  | c :: l => putCells (putByte m c.1 c.2) l

/-- The store with the bytes of a range replaced by those of an image: the image's listed bytes, 0 elsewhere in the
range (46_speclog_ops.md R375, R378; log entry 9). -/
def putImage (m : Memory) (base len : Nat) (image : Memory) : Memory :=
  putCells (clearRange m base len) (cellsIn image base len)

/-- The value of bytes, the first the least significant (20_memory.md R81). -/
def leValue : List Byte → Nat
  | [] => 0
  | b :: l => b.toNat + 256 * leValue l

/-- The low `n` bytes of a word, least significant first (20_memory.md R81). -/
def leBytes (v : Word) : Nat → List Byte
  | 0 => []
  | n + 1 => v.setWidth 8 :: leBytes (v >>> 8) n

end Sys2Proof.Machine
end

