-- ==== Sys2Proof/Machine/State.lean ====
section
/-! DEFINITION. The state of the RVP core, every item of 10_state.md under its own name, and the state after reset
(10_state.md R48, 70_reset_and_hazards.md R471). Four fields are the model's own: `par`, `env`, `reply` and `given` (log
entries 1, 3, 5 and 16). -/

namespace Sys2Proof.Machine

/-- The state of the machine. -/
structure State where
  /-- The parameters of the instance (00_scope.md R8): the model's own field, changed by no step. -/
  par : Params
  /-- `x[0..31]`; slot 0 is never read (10_state.md R20, R21). -/
  regs : Vector Word 32
  /-- The program counter (10_state.md R22). -/
  pc : Word
  /-- The CSR bank, by CSR number (10_state.md R24, R25). -/
  csrs : List (Nat × Word)
  /-- `core.state` (10_state.md R27). -/
  coreState : CoreState
  /-- `core.run` (10_state.md R28). -/
  coreRun : Bool
  /-- `core.owner` (10_state.md R29). -/
  coreOwner : Owner
  /-- The capability table, by slot (10_state.md R30). -/
  caps : List (Nat × Cap)
  /-- `TR` (10_state.md R31). -/
  tr : TrapRecord
  /-- The byte store (10_state.md R33). -/
  mem : Memory
  /-- The Region table, by region-id (10_state.md R34). -/
  regions : List (Nat × Region)
  /-- `REQ` (10_state.md R37). -/
  req : Ring
  /-- `RSP` (10_state.md R37). -/
  rsp : Ring
  /-- `log` (10_state.md R41). -/
  log : LogEntry
  /-- `log.last` (10_state.md R42). -/
  logLast : LogLast
  /-- `td.state` (10_state.md R43). -/
  tdState : TdState
  /-- `td.deadline` (10_state.md R43). -/
  tdDeadline : BitVec 64
  /-- `td.dl_valid` (10_state.md R43). -/
  tdDlValid : Bool
  /-- `td.out` (10_state.md R43). -/
  tdOut : TdOut
  /-- `td.now` (10_state.md R43). -/
  tdNow : BitVec 64
  /-- `td.timeout` (10_state.md R43). -/
  tdTimeout : BitVec 64
  /-- The service table, by syscall id (10_state.md R44). -/
  svcs : List (Nat × SvcEntry)
  /-- `td.notes`, oldest first (10_state.md R45). -/
  notes : List Note
  /-- The choices of the agents still to come, the next first (00_scope.md R14): the model's own field. -/
  env : List Move
  /-- What the latest port operation answered (00_scope.md R13): the model's own field. -/
  reply : Reply
  /-- The handle values that MAP, PROTECT and REVOKE returned to the driver, without repeats: those the port agents may
  present (60_exceptions.md R457): the model's own field. -/
  given : List PortHandle
  deriving DecidableEq, Repr

/-- Reasons a step stops with a fault. -/
inductive Fault where
  /-- Raised by `step` alone, on a state whose parameters lie outside the legal values of 00_scope.md R8: there is no
  such machine. Safe: no step changes the parameters, and those of reset are legal. -/
  | illegalParameters
  deriving DecidableEq, Repr

/-- Reasons an instruction is refused. -/
inductive Refusal where
  /-- Raised by an arm of `exec` for an instruction that has no meaning yet; no arm does. Safe. -/
  | notModelled (mnemonic : String)
  deriving DecidableEq, Repr

/-- A capability slot after reset, and what an unlisted slot holds (10_state.md R48). -/
def Cap.absent : Cap := ⟨false, 0, 0⟩

/-- A Region slot after reset, and what an unlisted slot holds (10_state.md R48). -/
def Region.absent : Region := ⟨false, 0, 0, 0, 0, 0⟩

/-- A service-table entry after reset, and what an unlisted id holds (10_state.md R48). -/
def SvcEntry.absent : SvcEntry := ⟨.unregistered, 0, .exit, .alloc⟩

/-- The trap record after reset (10_state.md R48). -/
def TrapRecord.absent : TrapRecord := ⟨false, .none, 0, 0, Vector.replicate 32 0⟩

/-- The log entry after reset (10_state.md R48). -/
def LogEntry.absent : LogEntry := ⟨.empty, 0, 0, [], 0, TrapRecord.absent⟩

/-- The state after reset of the instance with the given parameters (10_state.md R48). -/
def State.resetFor (p : Params) : State where
  par := p
  regs := Vector.replicate 32 0
  pc := 0
  csrs := []
  coreState := .fetching
  coreRun := false
  coreOwner := 0
  caps := []
  tr := TrapRecord.absent
  mem := []
  regions := []
  req := ⟨0, 0, []⟩
  rsp := ⟨0, 0, []⟩
  log := LogEntry.absent
  logLast := ⟨0, .none, 0⟩
  tdState := .idle
  tdDeadline := 0
  tdDlValid := false
  tdOut := ⟨false, 0, 0⟩
  tdNow := 0
  tdTimeout := p.timeoutReset
  svcs := []
  notes := []
  env := []
  reply := .none
  given := []

/-- The state right after reset, at the default parameters with XLEN = 64 (log entry 1). -/
def State.reset : State := State.resetFor Config.params

end Sys2Proof.Machine
end

