-- ==== Sys2Proof/Machine/Ops.lean ====
section
/-! DEFINITION. The named operations over registers, CSRs, tables and memory, the access check (20_memory.md R90 to R97),
taking a trap (60_exceptions.md R410), and what ends one: fault delivery (R415), termination (R417) and resumption
(R429). All reads and writes of the state by instructions go through these. -/

namespace Sys2Proof.Machine

/-- The outcome of an instruction or of a step. -/
abbrev Result := Host.Outcome State Fault Refusal

/-! ## Registers, pc, CSR bank -/

/-- `x[r]`: 0 for x0 (10_state.md R20, R21). -/
def State.readReg (s : State) (r : Reg) : Word :=
  if r = 0 then 0 else trunc s.par.xlen (s.regs[r.toNat]'(r.isLt))

/-- `x[r] <- v`: discarded for x0 (10_state.md R21). -/
def State.writeReg (s : State) (r : Reg) (v : Word) : State :=
  { s with regs := if r = 0 then s.regs else s.regs.set r.toNat (trunc s.par.xlen v) r.isLt }

/-- The value of `pc` (10_state.md R22). -/
def State.pcVal (s : State) : Word := trunc s.par.xlen s.pc

/-- `pc <- v`, modulo 2^XLEN (10_state.md R22). -/
def State.setPc (s : State) (v : Word) : State := { s with pc := trunc s.par.xlen v }

/-- `pc <- pc + 4` (10_state.md R22). -/
def State.advance (s : State) : State := s.setPc (s.pcVal + 4)

/-- `csr[c]` (10_state.md R24). -/
def State.readCsr (s : State) (c : CsrNum) : Word := trunc s.par.xlen (lookup 0 s.csrs c.toNat)

/-- `csr[c] <- v` (10_state.md R24). -/
def State.writeCsr (s : State) (c : CsrNum) (v : Word) : State :=
  { s with csrs := put 0 c.toNat (trunc s.par.xlen v) s.csrs }

/-- The CSRs with hardware meaning (10_state.md R25). -/
def csrTcause : CsrNum := 0x7C0
def csrTval : CsrNum := 0x7C1
def csrTepc : CsrNum := 0x7C2
def csrThandler : CsrNum := 0x7C3

/-- Register `r` of a trap record (10_state.md R31). -/
def TrapRecord.reg (t : TrapRecord) (x : Xlen) (r : Reg) : Word :=
  if r = 0 then 0 else trunc x (t.regs[r.toNat]'(r.isLt))

/-- `TR.regs[r]`. -/
def State.trapReg (s : State) (r : Reg) : Word := s.tr.reg s.par.xlen r

/-! ## Tables -/

/-- `region[i]` (10_state.md R34). -/
def State.region (s : State) (i : Nat) : Region := lookup Region.absent s.regions i

/-- `region[i] <- r`. -/
def State.setRegion (s : State) (i : Nat) (r : Region) : State := { s with regions := put Region.absent i r s.regions }

/-- `cap[i]` (10_state.md R30). -/
def State.cap (s : State) (i : Nat) : Cap := lookup Cap.absent s.caps i

/-- `cap[i] <- c`. -/
def State.setCap (s : State) (i : Nat) (c : Cap) : State := { s with caps := put Cap.absent i c s.caps }

/-- `svc[n]` (10_state.md R44). -/
def State.svc (s : State) (n : Nat) : SvcEntry := lookup SvcEntry.absent s.svcs n

/-- `svc[n] <- e`. -/
def State.setSvc (s : State) (n : Nat) (e : SvcEntry) : State := { s with svcs := put SvcEntry.absent n e s.svcs }

/-- `mem[a]` (10_state.md R33). -/
def State.byte (s : State) (a : Nat) : Byte := byteAt s.mem a

/-- The state with another byte store. -/
def State.setMem (s : State) (m : Memory) : State := { s with mem := m }

/-- One record appended to `td.notes` (10_state.md R45). -/
def State.addNote (s : State) (n : Note) : State := { s with notes := s.notes ++ [n] }

/-! ## The access check -/

/-- Permission bits (10_state.md R34). -/
def permR : Perms := 1
def permW : Perms := 2
def permX : Perms := 4

/-- The permission has W and X both set (10_state.md R35 a). -/
def Perms.writeAndExecute (p : Perms) : Bool := p.getLsbD 1 && p.getLsbD 2

/-- `need` is a subset of the permission (20_memory.md R90, test 4). -/
def grants (p : Perms) : Need → Bool
  | .nothing => true
  | .read => p.getLsbD 0
  | .write => p.getLsbD 1
  | .execute => p.getLsbD 2

/-- `[addr, addr + len)` lies in the Region's range, in unbounded integers (20_memory.md R90, test 3). -/
def Region.contains (r : Region) (addr len : Nat) : Bool :=
  decide (r.base.toNat ≤ addr) && decide (addr + len ≤ r.base.toNat + r.length.toNat)

/-- `STALE(h)`: tests 1 and 2 of 20_memory.md R90 (44_addressspace_ops.md R300). -/
def State.stale (s : State) (h : Handle) : Bool :=
  decide (s.par.nregion ≤ h.rid) || !(s.region h.rid).valid || (s.region h.rid).gen != h.gen

/-- `AS_CHECK(h, addr, len, need)` (20_memory.md R90): the first test that fails gives the error. -/
def State.asCheck (s : State) (h : Handle) (addr len : Nat) (need : Need) : Except OpError Unit :=
  if s.stale h then .error .stale
  else if !(s.region h.rid).contains addr len then .error .outOfRange
  else if !grants (h.mask &&& (s.region h.rid).perms) need then .error .denied
  else .ok ()

/-- Slot `i` is a candidate for an access whose first byte is at `addr` (20_memory.md R92). -/
def State.capCandidate (s : State) (addr i : Nat) : Bool :=
  (s.cap i).valid && (s.region i).valid && inRange (s.region i).base.toNat (s.region i).length.toNat addr

/-- `CAP_LOOKUP(addr)` (20_memory.md R92); valid Regions are disjoint, so there is at most one candidate (log entry 10). -/
def State.capLookup (s : State) (addr : Nat) : Option Handle :=
  ((List.range s.par.nregion).find? (s.capCandidate addr)).map fun i => ⟨i, (s.cap i).mask, (s.cap i).gen⟩

/-- The last byte of the access lies beyond 2^XLEN - 1, where the CPU cannot reach (20_memory.md R98). -/
def State.pastReach (s : State) (addr len : Nat) : Bool := decide (2 ^ s.par.xlen.bits < addr + len)

/-- `CPU_ACCESS(addr, len, need)` (20_memory.md R93). An access past 2^XLEN - 1 is out of range (R98): it fails at the
range test, which a stale handle precedes and the permission follows (R90). -/
def State.cpuAccess (s : State) (addr len : Nat) (need : Need) : Except OpError Unit :=
  match s.capLookup addr with
  | none => .error .outOfRange
  | some h => if !s.stale h && s.pastReach addr len then .error .outOfRange else s.asCheck h addr len need

/-- The fault of a refused instruction fetch at `a` (20_memory.md R94). -/
def fetchRaise (a : Word) : OpError → Raise
  | .stale => ⟨.staleHandle, a⟩
  | .denied | .outOfRange | .invalidPermissions | .noSpace => ⟨.noExec, a⟩

/-- The fault of a refused load or store at `a` (20_memory.md R94). -/
def dataRaise (a : Word) : OpError → Raise
  | .stale => ⟨.staleHandle, a⟩
  | .denied | .outOfRange | .invalidPermissions | .noSpace => ⟨.memoryViolation, a⟩

/-- `Fetch(pc)` (20_memory.md R95). -/
def State.fetch (s : State) : Except Raise (BitVec 32) :=
  match s.cpuAccess s.pcVal.toNat 4 .execute with
  | .error e => .error (fetchRaise s.pcVal e)
  | .ok () => .ok (BitVec.ofNat 32 (leValue (bytesAt s.mem s.pcVal.toNat 4)))

/-- `MemRead(a, n)`, the value zero-extended (20_memory.md R96). -/
def State.memRead (s : State) (a : Word) (n : Nat) : Except Raise Word :=
  match s.cpuAccess a.toNat n .read with
  | .error e => .error (dataRaise a e)
  | .ok () => .ok (BitVec.ofNat 64 (leValue (bytesAt s.mem a.toNat n)))

/-- `MemWrite(a, n, v)` (20_memory.md R97). -/
def State.memWrite (s : State) (a : Word) (n : Nat) (v : Word) : Except Raise State :=
  match s.cpuAccess a.toNat n .write with
  | .error e => .error (dataRaise a e)
  | .ok () => .ok (s.setMem (putBytes s.mem a.toNat (leBytes v n)))

/-! ## Taking a trap -/

/-- The 4-bit code of a kind (60_exceptions.md R400). -/
def Kind.code : Kind → BitVec 4
  | .none => 0
  | .noExec => 1
  | .memoryViolation => 2
  | .staleHandle => 3
  | .illegalInstruction => 4
  | .misalignedTarget => 5
  | .invalidPermissions => 6
  | .speculationRolledBack => 7
  | .syscall => 8
  | .breakpoint => 9

/-- The 32 registers as a snapshot; x0 is 0 (10_state.md R31). -/
def State.snapshotRegs (s : State) : Vector Word 32 := s.regs.set 0 0

/-- Trap entry with kind `k` and value `a` (60_exceptions.md R410). -/
def trapEntry (k : Kind) (a : Word) (s : State) : State :=
  { s with
    tr := ⟨true, k, trunc s.par.xlen a, s.pcVal, s.snapshotRegs⟩
    coreState := .trapped
    tdState := .classify
    tdDlValid := false
    notes := s.notes ++ [⟨.trap, k, trunc s.par.xlen a, s.pcVal, if k = .syscall then s.readReg 17 else 0⟩] }

/-- A raise inside an instruction: trap entry and no other effect (00_scope.md R12). -/
def raise (r : Raise) (s : State) : Result := .next (trapEntry r.kind r.value s)

/-! ## Ending a trap -/

/-- The trap record discarded, the dispatcher idle: common to R415, R417, R429 of 60_exceptions.md and to rollback. -/
def State.closeTrap (s : State) : State :=
  { s with tr := { s.tr with valid := false }, tdState := .idle, tdDlValid := false }

/-- `RESUME` (60_exceptions.md R429). -/
def resume (s : State) : State :=
  ({ s.setPc (trunc s.par.xlen s.tr.savedPc + 4) with coreState := .fetching }).closeTrap

/-- A Region descriptor with nothing but its generation left (44_addressspace_ops.md R307, R309). -/
def Region.cleared (r : Region) : Region := { Region.absent with gen := r.gen }

/-- The greatest generation; a slot that has it is retired (44_addressspace_ops.md R309). -/
def genMax : Gen := BitVec.allOnes 64

/-- The state with 0 in every byte of Region `i` (20_memory.md R110). -/
def State.zeroFill (s : State) (i : Nat) : State :=
  s.setMem (clearRange s.mem (s.region i).base.toNat (s.region i).length.toNat)

/-- `BUMP(i)` (44_addressspace_ops.md R309). -/
def State.bump (s : State) (i : Nat) : State :=
  if (s.region i).gen ≠ genMax then s.setRegion i { s.region i with gen := (s.region i).gen + 1 }
  else if (s.region i).valid then (s.zeroFill i).setRegion i (s.region i).cleared
  else s

/-- The restoration of one before-image (46_speclog_ops.md R378, step 1). -/
def restoreImage (i : Image) (s : State) : State :=
  let r := s.region i.rid
  let s1 := s.setRegion i.rid { i.desc with gen := r.gen }
  let s2 := s1.setMem (putImage s1.mem i.desc.base.toNat i.desc.length.toNat i.bytes)
  let s3 := s2.setCap i.rid i.cap
  if r.owner ≠ i.desc.owner then s3.bump i.rid else s3

/-- `RESTORE_IMAGES`, the last image first (46_speclog_ops.md R378, step 1). -/
def restoreImages : List Image → State → State
  | [], s => s
  | i :: l, s => restoreImage i (restoreImages l s)

/-- The entry consumed with its outcome recorded (46_speclog_ops.md R376, R378 step 3, R379). -/
def State.closeLog (s : State) (o : LogOutcome) (reason : BitVec 8) : State :=
  { s with logLast := ⟨s.log.seq, o, reason⟩, log := { s.log with images := [], state := .empty } }

/-- What termination does to a pending entry (46_speclog_ops.md R379). -/
def restoreAtTermination (s : State) : State :=
  if s.log.state = .pending then (restoreImages s.log.images s).closeLog .rolledBack 0xFD else s

/-- `TERMINATE_CORE(K, V, P)` (60_exceptions.md R417). -/
def terminateCore (k : Kind) (v p : Word) (s : State) : State :=
  let s1 := restoreAtTermination { s with coreState := .terminated }
  let s2 := { s1 with tdOut := { s1.tdOut with valid := false } }
  s2.closeTrap.addNote ⟨.terminate, k, trunc s.par.xlen v, trunc s.par.xlen p, 0⟩

/-- A fault handler is armed: bit 0 of `thandler` (10_state.md R25). -/
def State.armed (s : State) : Bool := (s.readCsr csrThandler).getLsbD 0

/-- `DELIVER_FAULT(K, V, E)` (60_exceptions.md R415). -/
def deliverFault (k : Kind) (v e : Word) (s : State) : State :=
  let s1 := ((s.writeCsr csrTcause (k.code.setWidth 64)).writeCsr csrTval v).writeCsr csrTepc e
  let s2 := s1.closeTrap
  if s2.armed then
    let h := s2.readCsr csrThandler
    { (s2.setPc (h &&& ~~~3)).writeCsr csrThandler (h &&& ~~~1) with coreState := .fetching }
  else terminateCore k v e s2

end Sys2Proof.Machine
end

