-- ==== Sys2Proof/Machine/Operands.lean ====
section
/-! DEFINITION. The operand forms of the instructions: immediates (30_encoding.md R140 to R146), shift amounts (R145),
the effective address (42_load_store.md R250), branch and jump targets (41_control_transfer.md R230, R231), the common
end of an instruction (10_state.md R40), and the words that exist at one XLEN only (30_encoding.md R160). -/

namespace Sys2Proof.Machine

/-- The U-immediate: 20 bits in bits 31:12, sign-extended to XLEN (30_encoding.md R143). -/
def upperImm (x : Xlen) (imm : BitVec 20) : Word := sext x (imm ++ 0#12)

/-- The amount of a register shift: the low 5 or 6 bits of `x[rs2]` (30_encoding.md R145). -/
def State.shiftAmount (s : State) (rs2 : Reg) : Nat := (s.readReg rs2).toNat % s.par.xlen.bits

/-- The amount of a register shift on words: the low 5 bits of `x[rs2]` (30_encoding.md R145). -/
def State.shiftAmountW (s : State) (rs2 : Reg) : Nat := (s.readReg rs2).toNat % 32

/-- The effective address `x[rs1] + imm` modulo 2^XLEN (42_load_store.md R250). -/
def State.effectiveAddress (s : State) (rs1 : Reg) (imm : BitVec 12) : Word :=
  trunc s.par.xlen (s.readReg rs1 + sext s.par.xlen imm)

/-- The target `pc + off` of a branch or of JAL, modulo 2^XLEN (41_control_transfer.md R230). -/
def State.pcTarget (s : State) {n : Nat} (off : BitVec n) : Word :=
  trunc s.par.xlen (s.pcVal + sext s.par.xlen off)

/-- The target of JALR: `x[rs1] + imm` modulo 2^XLEN with bit 0 cleared (41_control_transfer.md R233). -/
def State.regTarget (s : State) (rs1 : Reg) (imm : BitVec 12) : Word := s.effectiveAddress rs1 imm &&& ~~~1

/-- The link value `pc + 4` (41_control_transfer.md R230). -/
def State.linkValue (s : State) : Word := trunc s.par.xlen (s.pcVal + 4)

/-- `target[1:0] = 0` (41_control_transfer.md R231). -/
def aligned (t : Word) : Bool := t.toNat % 4 == 0

/-- The end of an instruction that does not assign the pc (10_state.md R40). -/
def retire (s : State) : Result := .next s.advance

/-- The end of an instruction that writes one register (40_integer_computational.md R170). -/
def retireWith (rd : Reg) (v : Word) (s : State) : Result := retire (s.writeReg rd v)

/-- Control transfer to `t`, linking `rd` where there is one; a misaligned target raises and does nothing else
(41_control_transfer.md R231). -/
def transfer (t : Word) (s' s : State) : Result :=
  if aligned t then .next (s'.setPc t) else raise ⟨.misalignedTarget, t⟩ s

/-- A word that is no instruction at this XLEN (30_encoding.md R160). -/
def illegal (w : BitVec 32) (s : State) : Result := raise ⟨.illegalInstruction, w.setWidth 64⟩ s

/-- An instruction of a row that exists at XLEN = 64 only; at XLEN = 32 its word is illegal (30_encoding.md R160; log
entry 14). -/
def onlyRv64 (i : Instr) (s : State) (k : Result) : Result :=
  if s.par.xlen = .rv64 then k else illegal (encode i) s

/-- A shift-immediate; at XLEN = 32 its word with bit 25 set is illegal (30_encoding.md R145, R160; log entry 14). -/
def shamtBelowXlen (i : Instr) (n : BitVec 6) (s : State) (k : Result) : Result :=
  if n.toNat < s.par.xlen.bits then k else illegal (encode i) s

end Sys2Proof.Machine
end

