-- ==== Sys2Proof/Machine/Flags.lean ====
section
/-! DEFINITION. Comparisons. The machine has no flags (10_state.md R26): a comparison writes a register (SLT, SLTU, SLTI,
SLTIU) or decides a branch, and nothing else holds its result. -/

namespace Sys2Proof.Machine

/-- `a <s b` on XLEN-bit values (00_scope.md R9). -/
def lessSigned (x : Xlen) (a b : Word) : Bool := decide (signed x a < signed x b)

/-- `a <u b` on XLEN-bit values (00_scope.md R9). -/
def lessUnsigned (x : Xlen) (a b : Word) : Bool := decide ((trunc x a).toNat < (trunc x b).toNat)

/-- `a = b` on XLEN-bit values. -/
def same (x : Xlen) (a b : Word) : Bool := trunc x a == trunc x b

/-- A branch whose condition is `c` (41_control_transfer.md R234): to the target if it holds, else to `pc + 4`. -/
def branch (c : Bool) (off : BitVec 13) (s : State) : Result :=
  if c then transfer (s.pcTarget off) s s else retire s

end Sys2Proof.Machine
end

