-- ==== Sys2Proof/Machine/Arith.lean ====
section
/-! DEFINITION. The integer computational instructions (40_integer_computational.md R170 to R200): each reads its
sources, writes `x[rd]` and advances the pc; none raises, and arithmetic wraps (R205). -/

namespace Sys2Proof.Machine

/-! ## Upper immediates -/

/-- R171: `x[rd] <- sext({imm, 12'b0})`. -/
def execLui (rd : Reg) (imm : BitVec 20) (s : State) : Result := retireWith rd (upperImm s.par.xlen imm) s

/-- R172: `x[rd] <- pc + sext({imm, 12'b0})`. -/
def execAuipc (rd : Reg) (imm : BitVec 20) (s : State) : Result :=
  retireWith rd (s.pcVal + upperImm s.par.xlen imm) s

/-! ## Register and immediate -/

/-- R173: `x[rd] <- x[rs1] + sext(imm)`. -/
def execAddi (rd rs1 : Reg) (imm : BitVec 12) (s : State) : Result :=
  retireWith rd (s.readReg rs1 + sext s.par.xlen imm) s

/-- R174: `x[rd] <- (x[rs1] <s sext(imm)) ? 1 : 0`. -/
def execSlti (rd rs1 : Reg) (imm : BitVec 12) (s : State) : Result :=
  retireWith rd (boolWord (lessSigned s.par.xlen (s.readReg rs1) (sext s.par.xlen imm))) s

/-- R175: `x[rd] <- (x[rs1] <u sext(imm)) ? 1 : 0`. -/
def execSltiu (rd rs1 : Reg) (imm : BitVec 12) (s : State) : Result :=
  retireWith rd (boolWord (lessUnsigned s.par.xlen (s.readReg rs1) (sext s.par.xlen imm))) s

/-- R176: `x[rd] <- x[rs1] ^ sext(imm)`. -/
def execXori (rd rs1 : Reg) (imm : BitVec 12) (s : State) : Result :=
  retireWith rd (s.readReg rs1 ^^^ sext s.par.xlen imm) s

/-- R177: `x[rd] <- x[rs1] | sext(imm)`. -/
def execOri (rd rs1 : Reg) (imm : BitVec 12) (s : State) : Result :=
  retireWith rd (s.readReg rs1 ||| sext s.par.xlen imm) s

/-- R178: `x[rd] <- x[rs1] & sext(imm)`. -/
def execAndi (rd rs1 : Reg) (imm : BitVec 12) (s : State) : Result :=
  retireWith rd (s.readReg rs1 &&& sext s.par.xlen imm) s

/-- R179: `x[rd] <- x[rs1] << shamt`. -/
def execSlli (rd rs1 : Reg) (n : BitVec 6) (s : State) : Result :=
  shamtBelowXlen (.slli rd rs1 n) n s (retireWith rd (shiftLeft s.par.xlen (s.readReg rs1) n.toNat) s)

/-- R180: `x[rd] <- x[rs1] >>u shamt`. -/
def execSrli (rd rs1 : Reg) (n : BitVec 6) (s : State) : Result :=
  shamtBelowXlen (.srli rd rs1 n) n s (retireWith rd (shiftRight s.par.xlen (s.readReg rs1) n.toNat) s)

/-- R181: `x[rd] <- x[rs1] >>s shamt`. -/
def execSrai (rd rs1 : Reg) (n : BitVec 6) (s : State) : Result :=
  shamtBelowXlen (.srai rd rs1 n) n s (retireWith rd (shiftRightArith s.par.xlen (s.readReg rs1) n.toNat) s)

/-! ## Register and register -/

/-- R182: `x[rd] <- x[rs1] + x[rs2]`. -/
def execAdd (rd rs1 rs2 : Reg) (s : State) : Result := retireWith rd (s.readReg rs1 + s.readReg rs2) s

/-- R183: `x[rd] <- x[rs1] - x[rs2]`. -/
def execSub (rd rs1 rs2 : Reg) (s : State) : Result := retireWith rd (s.readReg rs1 - s.readReg rs2) s

/-- R184: `x[rd] <- x[rs1] << n`. -/
def execSll (rd rs1 rs2 : Reg) (s : State) : Result :=
  retireWith rd (shiftLeft s.par.xlen (s.readReg rs1) (s.shiftAmount rs2)) s

/-- R185: `x[rd] <- (x[rs1] <s x[rs2]) ? 1 : 0`. -/
def execSlt (rd rs1 rs2 : Reg) (s : State) : Result :=
  retireWith rd (boolWord (lessSigned s.par.xlen (s.readReg rs1) (s.readReg rs2))) s

/-- R186: `x[rd] <- (x[rs1] <u x[rs2]) ? 1 : 0`. -/
def execSltu (rd rs1 rs2 : Reg) (s : State) : Result :=
  retireWith rd (boolWord (lessUnsigned s.par.xlen (s.readReg rs1) (s.readReg rs2))) s

/-- R187: `x[rd] <- x[rs1] ^ x[rs2]`. -/
def execXor (rd rs1 rs2 : Reg) (s : State) : Result := retireWith rd (s.readReg rs1 ^^^ s.readReg rs2) s

/-- R188: `x[rd] <- x[rs1] >>u n`. -/
def execSrl (rd rs1 rs2 : Reg) (s : State) : Result :=
  retireWith rd (shiftRight s.par.xlen (s.readReg rs1) (s.shiftAmount rs2)) s

/-- R189: `x[rd] <- x[rs1] >>s n`. -/
def execSra (rd rs1 rs2 : Reg) (s : State) : Result :=
  retireWith rd (shiftRightArith s.par.xlen (s.readReg rs1) (s.shiftAmount rs2)) s

/-- R190: `x[rd] <- x[rs1] | x[rs2]`. -/
def execOr (rd rs1 rs2 : Reg) (s : State) : Result := retireWith rd (s.readReg rs1 ||| s.readReg rs2) s

/-- R191: `x[rd] <- x[rs1] & x[rs2]`. -/
def execAnd (rd rs1 rs2 : Reg) (s : State) : Result := retireWith rd (s.readReg rs1 &&& s.readReg rs2) s

/-! ## Word instructions, XLEN = 64 only -/

/-- R192: the low 32 bits of `x[rs1] + sext(imm)`, sign-extended. -/
def execAddiw (rd rs1 : Reg) (imm : BitVec 12) (s : State) : Result :=
  onlyRv64 (.addiw rd rs1 imm) s (retireWith rd (sextWord (low32 (s.readReg rs1 + sext s.par.xlen imm))) s)

/-- R193: `x[rs1][31:0] << shamt`, sign-extended. -/
def execSlliw (rd rs1 : Reg) (n : BitVec 5) (s : State) : Result :=
  onlyRv64 (.slliw rd rs1 n) s (retireWith rd (sextWord (low32 (s.readReg rs1) <<< n.toNat)) s)

/-- R194: `x[rs1][31:0] >>u shamt`, sign-extended. -/
def execSrliw (rd rs1 : Reg) (n : BitVec 5) (s : State) : Result :=
  onlyRv64 (.srliw rd rs1 n) s (retireWith rd (sextWord (low32 (s.readReg rs1) >>> n.toNat)) s)

/-- R195: `x[rs1][31:0] >>s shamt`, sign-extended. -/
def execSraiw (rd rs1 : Reg) (n : BitVec 5) (s : State) : Result :=
  onlyRv64 (.sraiw rd rs1 n) s (retireWith rd (sextWord ((low32 (s.readReg rs1)).sshiftRight n.toNat)) s)

/-- R196: the low 32 bits of `x[rs1] + x[rs2]`, sign-extended. -/
def execAddw (rd rs1 rs2 : Reg) (s : State) : Result :=
  onlyRv64 (.addw rd rs1 rs2) s (retireWith rd (sextWord (low32 (s.readReg rs1 + s.readReg rs2))) s)

/-- R197: the low 32 bits of `x[rs1] - x[rs2]`, sign-extended. -/
def execSubw (rd rs1 rs2 : Reg) (s : State) : Result :=
  onlyRv64 (.subw rd rs1 rs2) s (retireWith rd (sextWord (low32 (s.readReg rs1 - s.readReg rs2))) s)

/-- R198: `x[rs1][31:0] << x[rs2][4:0]`, sign-extended. -/
def execSllw (rd rs1 rs2 : Reg) (s : State) : Result :=
  onlyRv64 (.sllw rd rs1 rs2) s (retireWith rd (sextWord (low32 (s.readReg rs1) <<< s.shiftAmountW rs2)) s)

/-- R199: `x[rs1][31:0] >>u x[rs2][4:0]`, sign-extended. -/
def execSrlw (rd rs1 rs2 : Reg) (s : State) : Result :=
  onlyRv64 (.srlw rd rs1 rs2) s (retireWith rd (sextWord (low32 (s.readReg rs1) >>> s.shiftAmountW rs2)) s)

/-- R200: `x[rs1][31:0] >>s x[rs2][4:0]`, sign-extended. -/
def execSraw (rd rs1 rs2 : Reg) (s : State) : Result :=
  onlyRv64 (.sraw rd rs1 rs2) s (retireWith rd (sextWord ((low32 (s.readReg rs1)).sshiftRight (s.shiftAmountW rs2))) s)

end Sys2Proof.Machine
end

