-- ==== Sys2Proof/Machine/Control.lean ====
section
/-! DEFINITION. The control transfer instructions (41_control_transfer.md R230 to R239). -/

namespace Sys2Proof.Machine

/-- R232: `t <- pc + off`; `x[rd] <- pc + 4`; `pc <- t`. -/
def execJal (rd : Reg) (off : BitVec 21) (s : State) : Result :=
  transfer (s.pcTarget off) (s.writeReg rd s.linkValue) s

/-- R233: `t <- (x[rs1] + imm) & ~1`; `x[rd] <- pc + 4`; `pc <- t`. -/
def execJalr (rd rs1 : Reg) (imm : BitVec 12) (s : State) : Result :=
  transfer (s.regTarget rs1 imm) (s.writeReg rd s.linkValue) s

/-- R234: taken if `x[rs1] = x[rs2]`. -/
def execBeq (rs1 rs2 : Reg) (off : BitVec 13) (s : State) : Result :=
  branch (same s.par.xlen (s.readReg rs1) (s.readReg rs2)) off s

/-- R235: taken if `x[rs1] != x[rs2]`. -/
def execBne (rs1 rs2 : Reg) (off : BitVec 13) (s : State) : Result :=
  branch (!same s.par.xlen (s.readReg rs1) (s.readReg rs2)) off s

/-- R236: taken if `x[rs1] <s x[rs2]`. -/
def execBlt (rs1 rs2 : Reg) (off : BitVec 13) (s : State) : Result :=
  branch (lessSigned s.par.xlen (s.readReg rs1) (s.readReg rs2)) off s

/-- R237: taken if not `x[rs1] <s x[rs2]`. -/
def execBge (rs1 rs2 : Reg) (off : BitVec 13) (s : State) : Result :=
  branch (!lessSigned s.par.xlen (s.readReg rs1) (s.readReg rs2)) off s

/-- R238: taken if `x[rs1] <u x[rs2]`. -/
def execBltu (rs1 rs2 : Reg) (off : BitVec 13) (s : State) : Result :=
  branch (lessUnsigned s.par.xlen (s.readReg rs1) (s.readReg rs2)) off s

/-- R239: taken if not `x[rs1] <u x[rs2]`. -/
def execBgeu (rs1 rs2 : Reg) (off : BitVec 13) (s : State) : Result :=
  branch (!lessUnsigned s.par.xlen (s.readReg rs1) (s.readReg rs2)) off s

end Sys2Proof.Machine
end

