-- ==== Sys2Proof/Machine/LoadStore.lean ====
section
/-! DEFINITION. The load and store instructions (42_load_store.md R250 to R261): one addressing mode, no alignment rule,
and a fault that writes neither register nor byte. -/

namespace Sys2Proof.Machine

/-- A load of `n` bytes into `rd`, the value read put through `f` (42_load_store.md R250). -/
def load (n : Nat) (f : Word → Word) (rd rs1 : Reg) (imm : BitVec 12) (s : State) : Result :=
  match s.memRead (s.effectiveAddress rs1 imm) n with
  | .error r => raise r s
  | .ok v => retireWith rd (f v) s

/-- A store of the low `n` bytes of `x[rs2]` (42_load_store.md R250). -/
def store (n : Nat) (rs1 rs2 : Reg) (imm : BitVec 12) (s : State) : Result :=
  match s.memWrite (s.effectiveAddress rs1 imm) n (s.readReg rs2) with
  | .error r => raise r s
  | .ok s' => retire s'

/-- The low byte, sign-extended. -/
def sextByte (x : Xlen) (v : Word) : Word := sext x (v.setWidth 8)

/-- The low halfword, sign-extended. -/
def sextHalf (x : Xlen) (v : Word) : Word := sext x (v.setWidth 16)

/-- The low word, sign-extended. -/
def sextLow (x : Xlen) (v : Word) : Word := sext x (v.setWidth 32)

/-- R251: `x[rd] <- sext(MemRead(ea, 1))`. -/
def execLb (rd rs1 : Reg) (imm : BitVec 12) (s : State) : Result := load 1 (sextByte s.par.xlen) rd rs1 imm s

/-- R252: `x[rd] <- sext(MemRead(ea, 2))`. -/
def execLh (rd rs1 : Reg) (imm : BitVec 12) (s : State) : Result := load 2 (sextHalf s.par.xlen) rd rs1 imm s

/-- R253: `x[rd] <- sext(MemRead(ea, 4))`. -/
def execLw (rd rs1 : Reg) (imm : BitVec 12) (s : State) : Result := load 4 (sextLow s.par.xlen) rd rs1 imm s

/-- R254: `x[rd] <- zext(MemRead(ea, 1))`. -/
def execLbu (rd rs1 : Reg) (imm : BitVec 12) (s : State) : Result := load 1 id rd rs1 imm s

/-- R255: `x[rd] <- zext(MemRead(ea, 2))`. -/
def execLhu (rd rs1 : Reg) (imm : BitVec 12) (s : State) : Result := load 2 id rd rs1 imm s

/-- R256: `x[rd] <- zext(MemRead(ea, 4))`; XLEN = 64 only. -/
def execLwu (rd rs1 : Reg) (imm : BitVec 12) (s : State) : Result :=
  onlyRv64 (.lwu rd rs1 imm) s (load 4 id rd rs1 imm s)

/-- R257: `x[rd] <- MemRead(ea, 8)`; XLEN = 64 only. -/
def execLd (rd rs1 : Reg) (imm : BitVec 12) (s : State) : Result :=
  onlyRv64 (.ld rd rs1 imm) s (load 8 id rd rs1 imm s)

/-- R258: `MemWrite(ea, 1, x[rs2][7:0])`. -/
def execSb (rs1 rs2 : Reg) (imm : BitVec 12) (s : State) : Result := store 1 rs1 rs2 imm s

/-- R259: `MemWrite(ea, 2, x[rs2][15:0])`. -/
def execSh (rs1 rs2 : Reg) (imm : BitVec 12) (s : State) : Result := store 2 rs1 rs2 imm s

/-- R260: `MemWrite(ea, 4, x[rs2][31:0])`. -/
def execSw (rs1 rs2 : Reg) (imm : BitVec 12) (s : State) : Result := store 4 rs1 rs2 imm s

/-- R261: `MemWrite(ea, 8, x[rs2])`; XLEN = 64 only. -/
def execSd (rs1 rs2 : Reg) (imm : BitVec 12) (s : State) : Result :=
  onlyRv64 (.sd rs1 rs2 imm) s (store 8 rs1 rs2 imm s)

end Sys2Proof.Machine
end

