-- ==== Sys2Proof/Machine/System.lean ====
section
/-! DEFINITION. The system instructions (43_system.md R275 to R286). None needs a mode, none has a privilege check, and
every CSR number is a plain word (R280). -/

namespace Sys2Proof.Machine

/-- The common form of the CSR instructions (R280): the old value `t` and the operand are read before anything is
written; `csr[c] <- f t`; `x[rd] <- t`. -/
def csrUpdate (c : CsrNum) (rd : Reg) (f : Word → Word) (s : State) : Result :=
  retireWith rd (s.readCsr c) (s.writeCsr c (f (s.readCsr c)))

/-- `uimm`, zero-extended (30_encoding.md R146). -/
def immWord (u : BitVec 5) : Word := u.setWidth 64

/-- R276: no effect; every field is ignored (30_encoding.md R161). -/
def execFence (_fm _pred _succ : BitVec 4) (_rs1 _rd : Reg) (s : State) : Result := retire s

/-- R277: `raise Trap::Syscall`, value 0. -/
def execEcall (s : State) : Result := raise ⟨.syscall, 0⟩ s

/-- R278: `raise Trap::Breakpoint`, value pc. -/
def execEbreak (s : State) : Result := raise ⟨.breakpoint, s.pcVal⟩ s

/-- R281: `csr[c] <- x[rs1]`. -/
def execCsrrw (rd rs1 : Reg) (c : CsrNum) (s : State) : Result := csrUpdate c rd (fun _ => s.readReg rs1) s

/-- R282: `csr[c] <- t | x[rs1]`. -/
def execCsrrs (rd rs1 : Reg) (c : CsrNum) (s : State) : Result := csrUpdate c rd (fun t => t ||| s.readReg rs1) s

/-- R283: `csr[c] <- t & ~x[rs1]`. -/
def execCsrrc (rd rs1 : Reg) (c : CsrNum) (s : State) : Result := csrUpdate c rd (fun t => t &&& ~~~s.readReg rs1) s

/-- R284: `csr[c] <- uimm`. -/
def execCsrrwi (rd : Reg) (u : BitVec 5) (c : CsrNum) (s : State) : Result := csrUpdate c rd (fun _ => immWord u) s

/-- R285: `csr[c] <- t | uimm`. -/
def execCsrrsi (rd : Reg) (u : BitVec 5) (c : CsrNum) (s : State) : Result := csrUpdate c rd (fun t => t ||| immWord u) s

/-- R286: `csr[c] <- t & ~uimm`. -/
def execCsrrci (rd : Reg) (u : BitVec 5) (c : CsrNum) (s : State) : Result :=
  csrUpdate c rd (fun t => t &&& ~~~immWord u) s

end Sys2Proof.Machine
end

