-- ==== Sys2Proof/Machine/AddressSpace.lean ====
section
/-! DEFINITION. The AddressSpace operations (44_addressspace_ops.md R301 to R309). In each all checks come before all
effects, so an operation that answers an error changes nothing (R311). -/

namespace Sys2Proof.Machine

/-- READ (R301). -/
def opRead (s : State) (h : Handle) (addr len : Nat) : Except OpError (List Byte) :=
  match s.asCheck h addr len .read with
  | .error e => .error e
  | .ok () => .ok (bytesAt s.mem addr len)

/-- WRITE (R302). -/
def opWrite (s : State) (h : Handle) (addr : Nat) (bytes : List Byte) : Except OpError State :=
  match s.asCheck h addr bytes.length .write with
  | .error e => .error e
  | .ok () => .ok (s.setMem (putBytes s.mem addr bytes))

/-- LOAD_BYTES (R303): no permission test, pool Regions refused. -/
def opLoadBytes (s : State) (h : Handle) (addr : Nat) (bytes : List Byte) : Except OpError State :=
  match s.asCheck h addr bytes.length .nothing with
  | .error e => .error e
  | .ok () => if (s.region h.rid).owner = 0 then .error .denied else .ok (s.setMem (putBytes s.mem addr bytes))

/-- A permission MAP and PROTECT refuse for an owner: W with X, or any for the pool (R304 check 1, R305 check 2). -/
def badPerms (owner : Owner) (p : Perms) : Bool := p.writeAndExecute || (owner == 0 && p != 0)

/-- `[base, base + len)` meets the range of a valid Region (R304 check 3). -/
def State.overlaps (s : State) (base len j : Nat) : Bool :=
  (s.region j).valid && decide (max base (s.region j).base.toNat <
    min (base + len) ((s.region j).base.toNat + (s.region j).length.toNat))

/-- Slot `i` is free for MAP (R304 check 4). -/
def State.slotFree (s : State) (i : Nat) : Bool := !(s.region i).valid && (s.region i).gen != genMax

/-- MAP (R304). -/
def opMap (s : State) (owner : Owner) (base len : BitVec 64) (perms : Perms) : Except OpError (Handle × State) :=
  if badPerms owner perms then .error .invalidPermissions
  else if len = 0 ∨ s.par.memSize < base.toNat + len.toNat then .error .outOfRange
  else if (List.range s.par.nregion).any (s.overlaps base.toNat len.toNat) then .error .noSpace
  else
    match (List.range s.par.nregion).find? s.slotFree with
    | none => .error .noSpace
    | some i => .ok (⟨i, perms, (s.region i).gen⟩, s.setRegion i ⟨true, base, len, perms, owner, (s.region i).gen⟩)

/-- PROTECT (R305): the caller's permission is not tested, the generation stays. -/
def opProtect (s : State) (h : Handle) (perms : Perms) : Except OpError (Handle × State) :=
  if s.stale h then .error .stale
  else if badPerms (s.region h.rid).owner perms then .error .invalidPermissions
  else .ok (⟨h.rid, perms, h.gen⟩, s.setRegion h.rid { s.region h.rid with perms := perms })

/-- UNMAP (R307). -/
def opUnmap (s : State) (h : Handle) : Except OpError State :=
  if s.stale h then .error .stale
  else .ok (((s.zeroFill h.rid).setRegion h.rid (s.region h.rid).cleared).bump h.rid)

/-- REVOKE (R308): the new handle, or none when the slot is retired. -/
def opRevoke (s : State) (h : Handle) : Except OpError (Option Handle × State) :=
  if s.stale h then .error .stale
  else
    let s' := s.bump h.rid
    .ok (if (s'.region h.rid).valid then some ⟨h.rid, h.mask, (s'.region h.rid).gen⟩ else none, s')

end Sys2Proof.Machine
end

