-- ==== Sys2Proof/Machine/Rings.lean ====
section
/-! DEFINITION. The frame layout and the RingChannel operations (45_ringchannel_ops.md R336 to R348). -/

namespace Sys2Proof.Machine

/-- The 32 bytes of a frame, packed and little-endian, padding 0 (R336). -/
def Frame.toBits (f : Frame) : FrameBits :=
  0#88 ++ f.status ++ f.payloadOffset ++ f.length ++ f.serviceId ++ f.tag ++ f.sequence

/-- The fields of 32 bytes; the padding is ignored (R336). -/
def frameOf (b : FrameBits) : Frame where
  sequence := b.extractLsb' 0 32
  tag := b.extractLsb' 32 16
  serviceId := b.extractLsb' 48 16
  length := b.extractLsb' 64 32
  payloadOffset := b.extractLsb' 96 64
  status := b.extractLsb' 160 8

/-- The number of frames in a ring (10_state.md R38). -/
def Ring.count (r : Ring) : Nat := (r.head - r.tail).toNat

/-- The ring is full (10_state.md R38). -/
def Ring.full (r : Ring) (cap : Nat) : Bool := r.count == cap

/-- The ring is empty (10_state.md R38). -/
def Ring.isEmpty (r : Ring) : Bool := r.head == r.tail

/-- `slot[k]`. -/
def Ring.slot (r : Ring) (k : Nat) : FrameBits := lookup 0 r.slots k

/-- `TRY_PUBLISH` (R340): nothing when the ring is full. -/
def tryPublish (cap : Nat) (r : Ring) (f : FrameBits) : Option Ring :=
  if r.full cap then none
  else some { r with slots := put 0 (r.head.toNat % cap) f r.slots, head := r.head + 1 }

/-- `TRY_CONSUME` (R341): nothing when the ring is empty. -/
def tryConsume (cap : Nat) (r : Ring) : Option (FrameBits × Ring) :=
  if r.isEmpty then none
  else some (r.slot (r.tail.toNat % cap), { r with tail := r.tail + 1 })

end Sys2Proof.Machine
end

