-- ==== Sys2Proof/Machine/SpecLog.lean ====
section
/-! DEFINITION. The SpeculativeLog: the provisional effects and BEGIN, APPLY_PROVISIONAL, COMMIT and ROLLBACK
(46_speclog_ops.md R361 to R378). Only the TrapDispatcher performs them. -/

namespace Sys2Proof.Machine

/-- Slot `i` serves PROV_ALLOC for `n` bytes (R370). -/
def State.poolFits (s : State) (n i : Nat) : Bool :=
  let r := s.region i
  r.valid && r.owner == 0 && decide (n ≤ r.length.toNat) &&
    decide (r.base.toNat + r.length.toNat ≤ 2 ^ s.par.xlen.bits)

/-- PROV_ALLOC (R370). For a slot at or above 2^XLEN, which R370's `a1 = i` does not fit, x11 gets the slot modulo 2^XLEN: the
model's choice (log entry 18). -/
def provAlloc (s : State) : Option Effect :=
  let n := (s.trapReg 10).toNat
  if n = 0 ∨ 2 ^ 32 ≤ n then none
  else
    match (List.range s.par.nregion).find? (s.poolFits n) with
    | none => none
    | some i =>
      let r := s.region i
      some {
        touch := [⟨i, permR ||| permW, s.coreOwner, cellsIn s.mem r.base.toNat r.length.toNat,
          ⟨true, permR ||| permW, r.gen⟩⟩]
        a0 := trunc s.par.xlen r.base
        a1 := BitVec.ofNat 64 i
        reqOffset := r.base
        reqLength := BitVec.ofNat 32 n }

/-- The part of `VALID_EFFECT` (b) about one touched Region, and that the Region is there (R372 a, b). -/
def State.validTouch (s : State) (t : Touch) : Bool :=
  let r := s.region t.rid
  decide (t.rid < s.par.nregion) && r.valid && !t.perms.writeAndExecute &&
    decide (Memory.wf t.bytes) && t.bytes.all (fun c => inRange r.base.toNat r.length.toNat c.1) &&
    (t.owner != 0 || (t.perms == 0 && t.bytes.isEmpty)) && (!t.cap.valid || t.cap.gen == r.gen)

/-- `VALID_EFFECT(E)` (R372). -/
def State.validEffect (s : State) (e : Effect) : Bool :=
  !e.touch.isEmpty && decide (e.touch.map (·.rid)).Nodup && e.touch.all s.validTouch &&
    (e.reqLength == 0 || (List.range s.par.nregion).any fun i =>
      (s.region i).valid && (s.region i).contains e.reqOffset.toNat e.reqLength.toNat)

/-- The inputs of `ProvExt` for the service-table entry `e` (R372). -/
def State.provInput (s : State) (e : SvcEntry) : ProvInput :=
  ⟨e, s.tr.regs.toList.map (trunc s.par.xlen), s.regions, s.caps, s.mem, s.coreOwner⟩

/-- The value of `ProvExt`: that of the first row for the input, None where there is no row (R372; log entry 7). -/
def provExtAt (rows : List (ProvInput × Effect)) (i : ProvInput) : Option Effect :=
  (rows.find? fun r => r.1 == i).map Prod.snd

/-- PROV_EXT: `ProvExt`, filtered by `VALID_EFFECT` (R372). -/
def provExtFiltered (s : State) (e : SvcEntry) : Option Effect :=
  (provExtAt s.par.provExt (s.provInput e)).filter s.validEffect

/-- The before-image of a Region (R374). -/
def State.imageOf (s : State) (rid : Nat) : Image :=
  let r := s.region rid
  ⟨rid, r, s.cap rid, cellsIn s.mem r.base.toNat r.length.toNat⟩

/-- `BEGIN(seq, svc, deadline, touch)` (R374). -/
def beginEntry (seq : BitVec 32) (svc : BitVec 16) (deadline : BitVec 64) (touch : List Nat) (s : State) : State :=
  { s with log := ⟨.pending, seq, svc, touch.map s.imageOf, deadline, s.tr⟩ }

/-- What an effect does to one touched Region (R375). -/
def applyTouch (t : Touch) (s : State) : State :=
  let r := s.region t.rid
  let s1 := s.setRegion t.rid { r with perms := t.perms, owner := t.owner }
  let s2 := s1.setMem (putImage s1.mem r.base.toNat r.length.toNat t.bytes)
  s2.setCap t.rid t.cap

/-- The touched Regions one after another. -/
def applyTouches : List Touch → State → State
  | [], s => s
  | t :: l, s => applyTouches l (applyTouch t s)

/-- `APPLY_PROVISIONAL(E)` (R375). -/
def applyProvisional (e : Effect) (s : State) : State := applyTouches e.touch s

/-- `COMMIT` (R376). -/
def commit (s : State) : State := s.closeLog .committed 0

/-- `ROLLBACK(reason)` (R378), steps 1 to 6 in order. -/
def rollback (reason : BitVec 8) (s : State) : State :=
  let t := s.log.tr
  let s1 := restoreImages s.log.images s
  let s2 := { s1.setPc t.savedPc with regs := t.regs.set 0 0 }
  let s3 := s2.closeLog .rolledBack reason
  let s4 := s3.addNote ⟨.rollback, .speculationRolledBack, reason.setWidth 64, trunc s.par.xlen t.savedPc,
    t.reg s.par.xlen 17⟩
  deliverFault .speculationRolledBack (reason.setWidth 64) t.savedPc s4.closeTrap

end Sys2Proof.Machine
end

