-- ==== Sys2Proof/Machine/Dispatcher.lean ====
section
/-! DEFINITION. The TrapDispatcher (60_exceptions.md R420 to R445): the class of a syscall, the local, speculative and
blocking syscalls, and the transitions with their enabling conditions. -/

namespace Sys2Proof.Machine

/-- `2^XLEN - 1`, the failed result (R440, R444). -/
def allOnesWord : Word := BitVec.allOnes 64

/-- `FAIL_REQUEST(reason)` (R444). -/
def failRequest (reason : BitVec 8) (s : State) : State :=
  let s1 := { s with tdOut := { s.tdOut with valid := false } }
  resume ((s1.writeReg 10 allOnesWord).writeReg 11 (reason.setWidth 64))

/-- The service-table entry of the syscall in the trap record; an id at or above NSYS is unregistered (R420). -/
def State.syscallEntry (s : State) : SvcEntry :=
  if s.par.nsys ≤ (s.trapReg 17).toNat then SvcEntry.absent else s.svc (s.trapReg 17).toNat

/-- UNREGISTERED (R427). -/
def unregisteredCall (s : State) : State := deliverFault .illegalInstruction 0x73 s.tr.savedPc s

/-- LOCAL EXIT (R431). -/
def localExit (s : State) : State :=
  let s1 := { s with coreState := .halted, tr := { s.tr with valid := false }, tdState := .idle }
  s1.addNote ⟨.halt, .syscall, s.trapReg 10, trunc s.par.xlen s.tr.savedPc, s.trapReg 17⟩

/-- A LOCAL PROTECT or REVOKE names no capability the core holds: step (1) of R432 and R433. -/
def State.noLocalCap (s : State) : Bool :=
  decide (s.par.nregion ≤ (s.trapReg 10).toNat) || !(s.cap (s.trapReg 10).toNat).valid

/-- The handle the core holds to Region `rid`. -/
def State.heldHandle (s : State) (rid : Nat) : Handle := ⟨rid, (s.cap rid).mask, (s.cap rid).gen⟩

/-- The fault of a LOCAL operation through a stale or absent handle (R432, R433). -/
def localStale (s : State) : State := deliverFault .staleHandle (s.trapReg 10) s.tr.savedPc s

/-- LOCAL PROTECT (R432). -/
def localProtect (s : State) : State :=
  let rid := (s.trapReg 10).toNat
  let p := s.trapReg 11
  if s.noLocalCap then localStale s
  else if 8 ≤ p.toNat then deliverFault .invalidPermissions p s.tr.savedPc s
  else
    match opProtect s (s.heldHandle rid) (p.setWidth 3) with
    | .error .stale => localStale s
    | .error _ => deliverFault .invalidPermissions p s.tr.savedPc s
    | .ok (h, s') => resume ((s'.setCap rid ⟨true, h.mask, h.gen⟩).writeReg 10 0)

/-- LOCAL REVOKE (R433). -/
def localRevoke (s : State) : State :=
  let rid := (s.trapReg 10).toNat
  if s.noLocalCap then localStale s
  else
    match opRevoke s (s.heldHandle rid) with
    | .error _ => localStale s
    | .ok (some h, s') => resume ((s'.setCap rid ⟨true, h.mask, h.gen⟩).writeReg 10 0)
    | .ok (none, s') => resume ((s'.setCap rid { s'.cap rid with valid := false }).writeReg 10 0)

/-- LOCAL (R428). -/
def localCall (e : SvcEntry) (s : State) : State :=
  match e.localOp with
  | .exit => localExit s
  | .protect => localProtect s
  | .revoke => localRevoke s
  | .reserved => unregisteredCall s

/-- `min(a + b, 2^64 - 1)`. -/
def satAdd (a b : BitVec 64) : BitVec 64 := BitVec.ofNat 64 (min (a.toNat + b.toNat) (2 ^ 64 - 1))

/-- The deadline of the trap, set at its first ring-bound classification (R434 step 3, R435 step 2). -/
def State.setDeadline (s : State) : State :=
  { s with
    tdDeadline := if s.tdDlValid then s.tdDeadline else satAdd s.tdNow s.tdTimeout
    tdDlValid := true }

/-- REQ is full. -/
def State.reqFull (s : State) : Bool := s.req.full s.par.ringCap

/-- `TRY_PUBLISH(REQ, ...)` of a request with sequence REQ.head (R434 step 5, R435 step 4; 45_ringchannel_ops.md R346). -/
def State.publishRequest (s : State) (svc : BitVec 16) (offset : BitVec 64) (len : BitVec 32) : State :=
  { s with req := (tryPublish s.par.ringCap s.req (Frame.toBits ⟨s.req.head, 0, svc, len, offset, 0⟩)).getD s.req }

/-- The payload check of a BLOCKING syscall (R435 step 1). -/
def State.payloadCheck (s : State) : Except OpError Unit :=
  let len := (s.trapReg 11).setWidth 32
  if len = 0 then .ok () else s.cpuAccess (s.trapReg 10).toNat len.toNat .read

/-- BLOCKING, steps 2 to 4 (R435). -/
def blockingPublish (e : SvcEntry) (s : State) : State :=
  let s1 := s.setDeadline
  if s1.reqFull then { s1 with tdState := .waitSlot }
  else
    { s1.publishRequest e.serviceId (s.trapReg 10) ((s.trapReg 11).setWidth 32) with
      tdOut := ⟨true, s1.req.head, e.serviceId⟩, tdState := .waitResponse }

/-- BLOCKING (R435). -/
def blockingCall (e : SvcEntry) (s : State) : State :=
  match s.payloadCheck with
  | .error .stale => deliverFault .staleHandle (s.trapReg 10) s.tr.savedPc s
  | .error _ => deliverFault .memoryViolation (s.trapReg 10) s.tr.savedPc s
  | .ok () => blockingPublish e s

/-- SPECULATIVE with an available effect, steps 3 to 5 (R434). -/
def speculate (e : SvcEntry) (eff : Effect) (s : State) : State :=
  let s1 := s.setDeadline
  if s1.reqFull then { s1 with tdState := .waitSlot }
  else
    let s2 := beginEntry s1.req.head e.serviceId s1.tdDeadline (eff.touch.map (·.rid)) s1
    let s3 := (applyProvisional eff s2).publishRequest e.serviceId eff.reqOffset eff.reqLength
    resume ((s3.writeReg 10 eff.a0).writeReg 11 eff.a1)

/-- SPECULATIVE (R434). -/
def speculativeCall (e : SvcEntry) (s : State) : State :=
  match e.prov with
  | .alloc =>
    match provAlloc s with
    | none => failRequest 0xFE s
    | some eff => speculate e eff s
  | .ext =>
    match provExtFiltered s e with
    | none => blockingCall e s
    | some eff => speculate e eff s

/-- A syscall with no entry pending, by its class (R425). -/
def syscallByClass (s : State) : State :=
  match s.syscallEntry.cls with
  | .unregistered => unregisteredCall s
  | .localCall => localCall s.syscallEntry s
  | .speculative => speculativeCall s.syscallEntry s
  | .blocking => blockingCall s.syscallEntry s

/-- CLASSIFY (R425, R426). A CPU step gives the trap record a kind from 1 to 5, 8 or 9 (R400); the other kinds, which
never stand there, are delivered like the faults (log entry 10). -/
def classify (s : State) : State :=
  match s.tr.kind with
  | .syscall => if s.log.state = .pending then { s with tdState := .waitSpec } else syscallByClass s
  | .breakpoint => { s with tdState := .waitDebug }
  | .noExec | .memoryViolation | .staleHandle | .illegalInstruction | .misalignedTarget
  | .none | .invalidPermissions | .speculationRolledBack => deliverFault s.tr.kind s.tr.addr s.tr.savedPc s

/-- A response to the pending entry (R439). -/
def entryResponse (f : Frame) (s : State) : State := if f.status = 1 then commit s else rollback f.status s

/-- A response to the outstanding blocking request (R440). -/
def requestResponse (f : Frame) (s : State) : State :=
  let s1 := { s with tdOut := { s.tdOut with valid := false } }
  if f.status = 1 then resume ((s1.writeReg 10 f.payloadOffset).writeReg 11 (f.length.setWidth 64))
  else resume ((s1.writeReg 10 allOnesWord).writeReg 11 (f.status.setWidth 64))

/-- What a consumed response does (R438): case (a), (b), or discarded (R441). -/
def dispatchResponse (f : Frame) (s : State) : State :=
  if f.tag = 1 ∧ s.log.state = .pending ∧ f.sequence = s.log.seq ∧ f.serviceId = s.log.svc then entryResponse f s
  else if f.tag = 1 ∧ s.tdOut.valid ∧ f.sequence = s.tdOut.seq ∧ f.serviceId = s.tdOut.svc then requestResponse f s
  else s

/-- Response consumption (R438). -/
def consumeResponse (s : State) : State :=
  match tryConsume s.par.ringCap s.rsp with
  | none => s
  | some (b, r) => dispatchResponse (frameOf b) { s with rsp := r }

/-- The enabling condition of a TrapDispatcher transition (R425, R436, R437, R438, R442, R443). -/
def tdEnabled (s : State) : TdMove → Bool
  | .classify => s.tdState == .classify
  | .retry => s.tdState == .waitSlot && !s.reqFull
  | .release => s.tdState == .waitSpec && s.log.state == .empty
  | .consume => !s.rsp.isEmpty
  | .logDeadline => s.log.state == .pending && decide (s.log.deadline.toNat ≤ s.tdNow.toNat)
  | .requestDeadline =>
    (s.tdState == .waitResponse || s.tdState == .waitSlot) && s.tdDlValid &&
      decide (s.tdDeadline.toNat ≤ s.tdNow.toNat)

/-- The effect of an enabled transition. -/
def tdEffect (s : State) : TdMove → State
  | .classify => classify s
  | .retry => { s with tdState := .classify }
  | .release => { s with tdState := .classify }
  | .consume => consumeResponse s
  | .logDeadline => rollback 0xFF s
  | .requestDeadline => failRequest 0xFF s

/-- A TrapDispatcher transition; one that is not enabled does nothing (log entry 4). -/
def tdMove (t : TdMove) (s : State) : State := if tdEnabled s t then tdEffect s t else s

/-- TICK (R445). -/
def tick (s : State) : State := { s with tdNow := satAdd s.tdNow 1 }

end Sys2Proof.Machine
end

