-- ==== Sys2Proof/Machine/Ports.lean ====
section
/-! DEFINITION. The service port (60_exceptions.md R455) and the driver port (R450 to R454) but its STEP command. A
command whose condition does not hold is refused and changes nothing (R450). Every command leaves its answer in `reply`
(log entry 5), and a handle that MAP, PROTECT or REVOKE returns joins `given` (R457; log entry 16). -/

namespace Sys2Proof.Machine

/-- The state with an answer to the port's caller. -/
def State.answer (s : State) (r : Reply) : State := { s with reply := r }

/-- An operation that answers its caller, or an error that changes nothing (00_scope.md R13). -/
def State.answerOp {α : Type} (s : State) (r : Except OpError α) (k : α → State) : State :=
  match r with
  | .error e => s.answer (.error e)
  | .ok v => k v

/-- A command with a condition (R450). -/
def State.guarded (s : State) (c : Bool) (s' : State) : State := if c then s'.answer .ok else s.answer .refused

/-- "Quiescent" (R450). -/
def State.quiescent (s : State) : Bool := !s.coreRun && s.tdState == .idle && s.log.state == .empty

/-- The state with a handle answered to the driver, which from then on has it to present (R457). -/
def State.handOut (s : State) (h : Handle) : State :=
  { s with given := s.given.insert h.toPort }.answer (.handle h.toPort)

/-- READ, at either port (R454, R455). -/
def portRead (h : PortHandle) (addr len : BitVec 64) (s : State) : State :=
  s.answerOp (opRead s h.handle addr.toNat len.toNat) fun l => s.answer (.bytes l)

/-- WRITE, at either port (R454, R455). -/
def portWrite (h : PortHandle) (addr : BitVec 64) (bytes : List Byte) (s : State) : State :=
  s.answerOp (opWrite s h.handle addr.toNat bytes) fun s' => s'.answer .ok

/-- The service port's TRY_CONSUME(REQ) (45_ringchannel_ops.md R341). -/
def serviceConsume (s : State) : State :=
  match tryConsume s.par.ringCap s.req with
  | none => s.answer (.consumed none)
  | some (f, r) => { s with req := r }.answer (.consumed (some f))

/-- The service port's TRY_PUBLISH(RSP, f) (45_ringchannel_ops.md R340). -/
def servicePublish (f : FrameBits) (s : State) : State :=
  match tryPublish s.par.ringCap s.rsp f with
  | none => s.answer (.published false)
  | some r => { s with rsp := r }.answer (.published true)

/-- An operation of the service port (R455). -/
def serviceCmd (c : ServiceCmd) (s : State) : State :=
  match c with
  | .tryConsume => serviceConsume s
  | .tryPublish f => servicePublish f s
  | .read h addr len => portRead h addr len s
  | .write h addr bytes => portWrite h addr bytes s

/-- SET_ENTRY (R450, R451). -/
def setEntry (p : Word) (owner : Owner) (s : State) : State :=
  s.guarded (s.quiescent && s.coreState == .fetching && p.toNat % 4 == 0 && owner != 0)
    { s.setPc p with coreOwner := owner }

/-- TERMINATE (R450, R453). -/
def driverTerminate (s : State) : State :=
  s.guarded (s.coreState == .fetching || s.coreState == .trapped) (terminateCore .none 0 s.pcVal s)

/-- The value of a state item (10_state.md R50); bytes outside the store read 0 (log entry 12). -/
def State.snapshot (s : State) : SnapItem → SnapValue
  | .register r => .word (s.readReg r)
  | .pc => .word s.pcVal
  | .csr c => .word (s.readCsr c)
  | .core => .core s.coreState s.coreRun s.coreOwner
  | .cap i => .cap (s.cap i)
  | .trapRecord => .trapRecord s.tr
  | .memory addr len => .memory (bytesAt s.mem addr len)
  | .region i => .region (s.region i)
  | .ringCounters => .ringCounters s.req.head s.req.tail s.rsp.head s.rsp.tail
  | .requestSlot k => .slot (s.req.slot k)
  | .responseSlot k => .slot (s.rsp.slot k)
  | .logEntry => .logEntry s.log
  | .logLast => .logLast s.logLast
  | .dispatcher => .dispatcher s.tdState s.tdDeadline s.tdDlValid s.tdOut s.tdNow s.tdTimeout
  | .service n => .service (s.svc n)
  | .notes => .notes s.notes

/-- A command of the driver port (R450). -/
def driverCmd (c : DriverCmd) (s : State) : State :=
  match c with
  | .setEntry p owner => setEntry p owner s
  | .setCap h =>
    s.guarded (s.quiescent && decide (h.rid.toNat < s.par.nregion)) (s.setCap h.rid.toNat ⟨true, h.mask, h.gen⟩)
  | .clrCap rid => s.guarded (s.quiescent && decide (rid.toNat < s.par.nregion)) (s.setCap rid.toNat Cap.absent)
  | .setSvc n e => s.guarded (s.quiescent && decide (n < s.par.nsys)) (s.setSvc n e)
  | .setTimeout t => s.guarded s.quiescent { s with tdTimeout := t }
  | .run => s.guarded (s.coreOwner != 0) { s with coreRun := true }
  | .stop => s.guarded true { s with coreRun := false }
  | .resumeDebug => s.guarded (s.tdState == .waitDebug) (resume s)
  | .terminate => driverTerminate s
  | .map owner base len perms => s.answerOp (opMap s owner base len perms) fun r => r.2.handOut r.1
  | .protect h perms => s.answerOp (opProtect s h.handle perms) fun r => r.2.handOut r.1
  | .revoke h => s.answerOp (opRevoke s h.handle) fun r => r.1.elim (r.2.answer .retired) r.2.handOut
  | .unmap h => s.answerOp (opUnmap s h.handle) fun s' => s'.answer .ok
  | .loadBytes h addr bytes => s.answerOp (opLoadBytes s h.handle addr.toNat bytes) fun s' => s'.answer .ok
  | .read h addr len => portRead h addr len s
  | .write h addr bytes => portWrite h addr bytes s
  | .snapshot item => s.answer (.snapshot (s.snapshot item))

end Sys2Proof.Machine
end

