-- ==== Sys2Proof/Machine/Cycle.lean ====
section
/-! DEFINITION. The CPU step (10_state.md R40), the driver's STEP, which agent moves next (00_scope.md R14, R15; log
entry 3), the handle values a port agent may present (60_exceptions.md R457; log entry 16), and the placement of one
instruction where the CPU fetches next (log entry 6). Machine/Step.lean calls these. -/

namespace Sys2Proof.Machine

/-- One CPU step: fetch, decode, execute; the first raise ends it (10_state.md R40, 60_exceptions.md R403). -/
def cpuStep (s : State) : Result :=
  match s.fetch with
  | .error r => raise r s
  | .ok w =>
    match decode s.par.xlen w with
    | .error _ => illegal w s
    | .ok i => exec i s

/-- The CPU agent's step is enabled (10_state.md R40). -/
def cpuEnabled (s : State) : Bool := s.coreRun && s.coreState == .fetching

/-- The condition of the driver command STEP (60_exceptions.md R450). -/
def stepAllowed (s : State) : Bool := !s.coreRun && s.coreState == .fetching && s.coreOwner != 0

/-- The TrapDispatcher's transitions in the default order. -/
def tdOrder : List TdMove := [.classify, .retry, .release, .consume, .logDeadline, .requestDeadline]

/-- The move when no choice is listed: an enabled TrapDispatcher transition, else a CPU step if enabled, else a tick
(log entry 3). -/
def defaultMove (s : State) : Move :=
  match tdOrder.find? (tdEnabled s) with
  | some t => .td t
  | none => if cpuEnabled s then .cpu else .tick

/-- The next move: the first listed choice, else the default. -/
def nextMove (s : State) : Move :=
  match s.env with
  | m :: _ => m
  | [] => defaultMove s

/-- The state with its first listed choice taken. -/
def popEnv (s : State) : State := { s with env := s.env.tail }

/-- One transition of one agent; a CPU step that is not enabled does nothing (log entry 4). -/
def perform (m : Move) (s : State) : Result :=
  match m with
  | .cpu => if cpuEnabled s then cpuStep s else .next s
  | .td t => .next (tdMove t s)
  | .tick => .next (tick s)
  | .service c => .next (serviceCmd c s)
  | .driverStep => if stepAllowed s then cpuStep (s.answer .ok) else .next (s.answer .refused)
  | .driver c => .next (driverCmd c s)

/-- The handle value a port agent presents in the move (60_exceptions.md R450, R455). -/
def presented : Move → Option PortHandle
  | .service (.read h _ _) | .service (.write h _ _) => some h
  | .service .tryConsume | .service (.tryPublish _) => none
  | .driver (.setCap h) | .driver (.protect h _) | .driver (.revoke h) | .driver (.unmap h)
  | .driver (.loadBytes h _ _) | .driver (.read h _ _) | .driver (.write h _ _) => some h
  | .driver (.setEntry _ _) | .driver (.clrCap _) | .driver (.setSvc _ _) | .driver (.setTimeout _) | .driver .run
  | .driver .stop | .driver .resumeDebug | .driver .terminate | .driver (.map _ _ _ _) | .driver (.snapshot _) => none
  | .cpu | .td _ | .tick | .driverStep => none

/-- The move presents no handle value but one the port agents have been given (60_exceptions.md R457). -/
def presentsGiven (s : State) (m : Move) : Bool := (presented m).all fun h => decide (h ∈ s.given)

/-- A listed choice made a transition: one that presents a handle value no agent was given is no move, and nothing happens
(60_exceptions.md R457, 93_implementation_defined.md row 13; log entry 16). -/
def transition (m : Move) (s : State) : Result := if presentsGiven s m then perform m s else .next s

/-- The CPU may fetch the word at pc. -/
def fetchable (s : State) : Bool :=
  match s.cpuAccess s.pcVal.toNat 4 .execute with
  | .ok () => true
  | .error _ => false

/-- Region 0 and the core's handle to it made the four bytes at pc, readable and executable (log entry 6). -/
def openCodeAtPc (s : State) : State :=
  let g := (s.region 0).gen
  (s.setRegion 0 ⟨true, s.pcVal, 4, permR ||| permX, 1, g⟩).setCap 0 ⟨true, permR ||| permX, g⟩

/-- The core ready to fetch: running, no trap in progress. -/
def readyToFetch (s : State) : State := { s.closeTrap with coreRun := true, coreState := .fetching }

/-- The CPU made the agent that moves next. -/
def cpuMovesNext (s : State) : State := if nextMove s = .cpu then s else { s with env := .cpu :: s.env }

/-- The instruction whose bits are `w` placed at pc, reachable by the fetch, the CPU to move next (log entry 6). -/
def placeAtPc (s : State) (w : BitVec 32) : State :=
  let s1 := readyToFetch (if fetchable s then s else openCodeAtPc s)
  cpuMovesNext (s1.setMem (putBytes s1.mem s1.pcVal.toNat (bytesOfWord w)))

end Sys2Proof.Machine
end

