-- ==== Sys2Proof/Machine/Step.lean ====
section
/-! DEFINITION. One step of the machine: one atomic transition of one agent (00_scope.md R14). -/

namespace Sys2Proof.Machine

/-- One step. -/
def step (s : State) : Host.Outcome State Fault Refusal :=
  if s.par.legal then transition (nextMove s) (popEnv s) else .fault .illegalParameters

/-- The state with the instruction `w` placed where `step` fetches its next instruction; bits at and above `nbits` are
0 (log entry 6). -/
def State.withFetchWord (s : State) (nbits w : Nat) : State := placeAtPc s (BitVec.ofNat 32 (w % 2 ^ nbits))

end Sys2Proof.Machine
end

