-- ==== Sys2Proof/Safety.lean ====
section
/-! DEFINITION. The terms the statements use: values as integers, written apart from the bit operations of the machine;
what an instruction leaves unchanged; what a trap and a delivered fault leave; the invariants of 10_state.md R23, R35, R38
and R46; and the environment's duty (b) of 60_exceptions.md R458. -/

namespace Sys2Proof.Safety

open Sys2Proof.Machine

/-! ## Values -/

/-- `z` modulo 2^XLEN, as a word (00_scope.md R9). -/
def wrap (x : Xlen) (z : Int) : Word := BitVec.ofInt 64 (z % 2 ^ x.bits)

/-- `signed(v)` of an XLEN-bit value: v, or v - 2^XLEN where bit XLEN-1 is set (00_scope.md R9). -/
def signedValue (x : Xlen) (v : Word) : Int :=
  if v.toNat < 2 ^ (x.bits - 1) then (v.toNat : Int) else (v.toNat : Int) - 2 ^ x.bits

/-- The `n`-byte little-endian value at store address `a` (20_memory.md R81). -/
def littleEndian (s : State) (a n : Nat) : Nat := ((List.range n).map fun k => (s.byte (a + k)).toNat * 256 ^ k).sum

/-- Byte `k` of a value: bits 8k+7 .. 8k (20_memory.md R81). -/
def byteOf (v : Word) (k : Nat) : Byte := BitVec.ofNat 8 (v.toNat / 256 ^ k)

/-- `pc + 4` modulo 2^XLEN (10_state.md R22). -/
def nextPc (s : State) : Word := wrap s.par.xlen (s.pcVal.toNat + 4)

/-! ## Words -/

/-- `w[6:0]` (30_encoding.md R131). -/
def opcodeOf (w : BitVec 32) : Nat := w.toNat % 2 ^ 7

/-- `w[14:12]` (30_encoding.md R131). -/
def funct3Of (w : BitVec 32) : Nat := w.toNat / 2 ^ 12 % 8

/-- `w[31:25]` (30_encoding.md R131). -/
def funct7Of (w : BitVec 32) : Nat := w.toNat / 2 ^ 25

/-- The word is no instruction at this XLEN (30_encoding.md R160). -/
def Rejected (x : Xlen) (w : BitVec 32) : Prop := decode x w = .error (.illegalInstruction w)

/-! ## What an instruction leaves -/

/-- From `s` to `t` the instruction wrote `v` to `x[rd]`, or nothing for x0, and set the pc to `target`: every other
register, every byte and every other field of the state is as before. -/
structure Wrote (s t : State) (rd : Reg) (v target : Word) : Prop where
  pc : t.pcVal = target
  result : t.readReg rd = if rd = 0 then 0 else v
  others : ∀ r, r ≠ rd → t.readReg r = s.readReg r
  bytes : ∀ a, t.byte a = s.byte a
  rest : t = { s with regs := t.regs, pc := t.pc }

/-- The instruction only set the pc to `target`. -/
structure OnlyPc (s t : State) (target : Word) : Prop where
  pc : t.pcVal = target
  registers : ∀ r, t.readReg r = s.readReg r
  bytes : ∀ a, t.byte a = s.byte a
  rest : t = { s with pc := t.pc }

/-- The instruction stored the low `n` bytes of `v` at address `a`, least significant first, and advanced the pc. -/
structure Stored (s t : State) (a n : Nat) (v : Word) : Prop where
  pc : t.pcVal = nextPc s
  registers : ∀ r, t.readReg r = s.readReg r
  inside : ∀ k, k < n → t.byte (a + k) = byteOf v k
  outside : ∀ b, b < a ∨ a + n ≤ b → t.byte b = s.byte b
  rest : t = { s with mem := t.mem, pc := t.pc }

/-- The instruction wrote `v` to `x[rd]` and `w` to CSR word `c`, and advanced the pc. -/
structure WroteCsr (s t : State) (rd : Reg) (v : Word) (c : CsrNum) (w : Word) : Prop where
  pc : t.pcVal = nextPc s
  result : t.readReg rd = if rd = 0 then 0 else v
  others : ∀ r, r ≠ rd → t.readReg r = s.readReg r
  word : t.readCsr c = w
  otherWords : ∀ d, d ≠ c → t.readCsr d = s.readCsr d
  bytes : ∀ a, t.byte a = s.byte a
  rest : t = { s with regs := t.regs, pc := t.pc, csrs := t.csrs }

/-- The instruction completes with the result `v` in `rd` and the pc at the next instruction. -/
def Computes (i : Instr) (s : State) (rd : Reg) (v : Word) : Prop := ∃ t, exec i s = .next t ∧ Wrote s t rd v (nextPc s)

/-! ## Traps and faults -/

/-- Trap entry with kind `k` and value `v` (60_exceptions.md R410): the trap record, the core and dispatcher state and one
note; registers, pc, CSR words, bytes and all else as before. -/
structure Trapped (s t : State) (k : Kind) (v : Word) : Prop where
  recordValid : t.tr.valid = true
  kind : t.tr.kind = k
  addr : t.tr.addr = v
  savedPc : t.tr.savedPc = s.pcVal
  savedRegs : ∀ r, t.trapReg r = s.readReg r
  core : t.coreState = .trapped
  dispatcher : t.tdState = .classify
  noDeadline : t.tdDlValid = false
  note : t.notes = s.notes ++ [⟨.trap, k, v, s.pcVal, if k = .syscall then s.readReg 17 else 0⟩]
  rest : t = { s with
    tr := t.tr, coreState := t.coreState, tdState := t.tdState, tdDlValid := t.tdDlValid, notes := t.notes }

/-- The three cause words written at fault delivery (60_exceptions.md R415). -/
structure CausesWritten (t : State) (k : Kind) (v e : Word) : Prop where
  tcause : t.readCsr csrTcause = k.code.setWidth 64
  tval : t.readCsr csrTval = v
  tepc : t.readCsr csrTepc = e

/-- A CSR word fault delivery does not write. -/
def otherCsr (c : CsrNum) : Prop := c ≠ csrTcause ∧ c ≠ csrTval ∧ c ≠ csrTepc ∧ c ≠ csrThandler

/-- The fault `k` with value `v` attributed to the pc `e` was delivered to the handler armed in `s`
(60_exceptions.md R415). -/
structure Delivered (s t : State) (k : Kind) (v e : Word) : Prop where
  causes : CausesWritten t k v e
  pc : t.pcVal = wrap s.par.xlen (4 * ((s.readCsr csrThandler).toNat / 4))
  disarmed : t.readCsr csrThandler = wrap s.par.xlen (2 * ((s.readCsr csrThandler).toNat / 2))
  otherWords : ∀ c, otherCsr c → t.readCsr c = s.readCsr c
  core : t.coreState = .fetching
  dispatcher : t.tdState = .idle ∧ t.tdDlValid = false
  record : t.tr = { s.tr with valid := false }
  rest : t = { s with
    csrs := t.csrs, pc := t.pc, coreState := t.coreState, tdState := t.tdState, tdDlValid := t.tdDlValid, tr := t.tr }

/-- The core was terminated with no entry pending (60_exceptions.md R417): the note and the cleared dispatcher; the CSR
bank may differ from that of `s`, all else is as before. -/
structure Terminated (s t : State) (k : Kind) (v e : Word) : Prop where
  core : t.coreState = .terminated
  dispatcher : t.tdState = .idle ∧ t.tdDlValid = false ∧ t.tdOut = { s.tdOut with valid := false }
  record : t.tr = { s.tr with valid := false }
  note : t.notes = s.notes ++ [⟨.terminate, k, v, e, 0⟩]
  rest : t = { s with
    csrs := t.csrs, coreState := t.coreState, tdState := t.tdState, tdDlValid := t.tdDlValid, tdOut := t.tdOut,
    tr := t.tr, notes := t.notes }

/-- The core resumed at the instruction after the trapping one (60_exceptions.md R429), with `x[10]` and `x[11]` as given
and no other register changed. -/
structure Resumed (s t : State) (a0 a1 : Word) : Prop where
  pc : t.pcVal = wrap s.par.xlen (s.tr.savedPc.toNat + 4)
  core : t.coreState = .fetching
  dispatcher : t.tdState = .idle ∧ t.tdDlValid = false
  record : t.tr.valid = false
  x10 : t.readReg 10 = a0
  x11 : t.readReg 11 = a1
  others : ∀ r, r ≠ 10 → r ≠ 11 → t.readReg r = s.readReg r
  csrs : t.csrs = s.csrs

/-- The instruction traps with kind `k` and value `v` and does nothing else. -/
def Traps (i : Instr) (s : State) (k : Kind) (v : Word) : Prop := ∃ t, exec i s = .next t ∧ Trapped s t k v

/-- A branch with condition `c` to `target`: to an aligned target where `c` holds, to `pc + 4` where it does not, and
nothing else changes (41_control_transfer.md R234). -/
def Branches (i : Instr) (s : State) (c : Prop) (target : Word) : Prop :=
  (c → target.toNat % 4 = 0 → ∃ t, exec i s = .next t ∧ OnlyPc s t target) ∧
    (¬c → ∃ t, exec i s = .next t ∧ OnlyPc s t (nextPc s))

/-- A load or store refused with `e` traps at the first byte `a` of the access (20_memory.md R94). -/
def AccessTraps (i : Instr) (s : State) (e : OpError) (a : Word) : Prop :=
  Traps i s (if e = .stale then .staleHandle else .memoryViolation) a

/-- The target of a branch or of JAL: pc plus the offset, modulo 2^XLEN (41_control_transfer.md R230). -/
def targetOf (s : State) {n : Nat} (off : BitVec n) : Word := wrap s.par.xlen (s.pcVal.toNat + off.toInt)

/-- The effective address: base plus displacement, modulo 2^XLEN (42_load_store.md R250). -/
def addressOf (s : State) (rs1 : Reg) (imm : BitVec 12) : Word :=
  wrap s.par.xlen ((s.readReg rs1).toNat + imm.toInt)

/-- The target of JALR: the sum with bit 0 cleared (41_control_transfer.md R233). -/
def jumpTarget (s : State) (rs1 : Reg) (imm : BitVec 12) : Word :=
  BitVec.ofNat 64 ((addressOf s rs1 imm).toNat / 2 * 2)

/-- The permission bit a need asks for is in both permission sets (20_memory.md R90 test 4, R91). -/
def Granted (mask perms : Perms) : Need → Prop
  | .nothing => True
  | .read => mask.getLsbD 0 = true ∧ perms.getLsbD 0 = true
  | .write => mask.getLsbD 1 = true ∧ perms.getLsbD 1 = true
  | .execute => mask.getLsbD 2 = true ∧ perms.getLsbD 2 = true

/-- The handle is stale: tests 1 and 2 of 20_memory.md R90. -/
def IsStale (s : State) (h : Handle) : Prop :=
  s.par.nregion ≤ h.rid ∨ (s.region h.rid).valid = false ∨ (s.region h.rid).gen ≠ h.gen

/-- `[addr, addr + len)` lies in the Region's range, in unbounded integers (20_memory.md R90 test 3). -/
def Inside (r : Region) (addr len : Nat) : Prop :=
  r.base.toNat ≤ addr ∧ addr + len ≤ r.base.toNat + r.length.toNat

/-- The access stays within what the CPU reaches: its last byte is not beyond 2^XLEN - 1 (20_memory.md R98). -/
def InReach (s : State) (addr len : Nat) : Prop := addr + len ≤ 2 ^ s.par.xlen.bits

/-- The address lies in the range of slot `i`, which is a valid Region. -/
def Covers (s : State) (i a : Nat) : Prop :=
  (s.region i).valid = true ∧ (s.region i).base.toNat ≤ a ∧ a < (s.region i).base.toNat + (s.region i).length.toNat

/-- Slot `i` is a candidate of `CAP_LOOKUP(a)` (20_memory.md R92). -/
def Candidate (s : State) (a i : Nat) : Prop := i < s.par.nregion ∧ (s.cap i).valid = true ∧ Covers s i a

/-! ## Rings -/

/-- The frames of a ring, oldest first (10_state.md R38). -/
def framesOf (cap : Nat) (r : Ring) : List FrameBits :=
  (List.range r.count).map fun k => r.slot ((r.tail.toNat + k) % cap)

/-! ## Operations of the dispatcher and of the ports -/

/-- `region[i]` is `r` in `t`, and every other Region is as in `s`. -/
def OnlyRegion (s t : State) (i : Nat) (r : Region) : Prop := t.region i = r ∧ ∀ j, j ≠ i → t.region j = s.region j

/-- `cap[i]` is `c` in `t`, and every other slot is as in `s`. -/
def OnlyCap (s t : State) (i : Nat) (c : Cap) : Prop := t.cap i = c ∧ ∀ j, j ≠ i → t.cap j = s.cap j

/-- The driver port is quiescent (60_exceptions.md R450). -/
def Quiescent (s : State) : Prop := s.coreRun = false ∧ s.tdState = .idle ∧ s.log.state = .empty

/-- The driver command is refused and changes nothing (60_exceptions.md R450). -/
def Refuses (s : State) (c : DriverCmd) : Prop := perform (.driver c) s = .next { s with reply := .refused }

/-- The driver's operation answers an error and changes nothing (44_addressspace_ops.md R311). -/
def Errs (s : State) (c : DriverCmd) (e : OpError) : Prop := perform (.driver c) s = .next { s with reply := .error e }

/-- MAP and PROTECT refuse the permission for this owner: W with X, or any for the pool (44_addressspace_ops.md R304
check 1, R305 check 2). -/
def BadPerms (owner : Owner) (p : Perms) : Prop := p.getLsbD 1 = true ∧ p.getLsbD 2 = true ∨ owner = 0 ∧ p ≠ 0

/-- A syscall whose service-table entry is `e` is to be classified with no entry pending (60_exceptions.md R420, R425). -/
structure Calls (s : State) (e : SvcEntry) : Prop where
  state : s.tdState = .classify
  kind : s.tr.kind = .syscall
  quiet : s.log.state ≠ .pending
  known : (s.trapReg 17).toNat < s.par.nsys
  entry : s.svc (s.trapReg 17).toNat = e

/-- The classification of the trap ends in `DELIVER_FAULT(k, v, TR.saved_pc)`. -/
def ClassifiesToFault (s : State) (k : Kind) (v : Word) : Prop :=
  perform (.td .classify) s = .next (deliverFault k v s.tr.savedPc s)

/-- The deadline of the trap: the one it has, else now plus the timeout, saturating (60_exceptions.md R434 step 3). -/
def deadlineOf (s : State) : BitVec 64 :=
  if s.tdDlValid then s.tdDeadline else BitVec.ofNat 64 (min (s.tdNow.toNat + s.tdTimeout.toNat) (2 ^ 64 - 1))

/-- `2^XLEN - 1`. -/
def allOnes (x : Xlen) : Word := wrap x (-1)

/-- Slot `i` can serve an allocation of `n` bytes (46_speclog_ops.md R370). -/
def Serves (s : State) (n i : Nat) : Prop :=
  i < s.par.nregion ∧ (s.region i).valid = true ∧ (s.region i).owner = 0 ∧ n ≤ (s.region i).length.toNat ∧
    (s.region i).base.toNat + (s.region i).length.toNat ≤ 2 ^ s.par.xlen.bits

/-- What `VALID_EFFECT` (b) asks of one touched Region, and that the Region is there (46_speclog_ops.md R372 a, b); the bytes
are listed in the canonical form, in the Region's range (log entry 9). -/
structure ValidTouch (s : State) (k : Touch) : Prop where
  slot : k.rid < s.par.nregion
  valid : (s.region k.rid).valid = true
  notBoth : ¬(k.perms.getLsbD 1 = true ∧ k.perms.getLsbD 2 = true)
  canonical : k.bytes.wf
  inside : ∀ c ∈ k.bytes, Covers s k.rid c.1
  pool : k.owner = 0 → k.perms = 0 ∧ k.bytes = []
  cap : k.cap.valid = true → k.cap.gen = (s.region k.rid).gen

/-- `VALID_EFFECT` (46_speclog_ops.md R372). -/
structure ValidEffect (s : State) (eff : Effect) : Prop where
  some : eff.touch ≠ []
  distinct : (eff.touch.map (·.rid)).Nodup
  touches : ∀ k ∈ eff.touch, ValidTouch s k
  payload : eff.reqLength = 0 ∨ ∃ i, i < s.par.nregion ∧ (s.region i).valid = true ∧
    Inside (s.region i) eff.reqOffset.toNat eff.reqLength.toNat

/-- `ProvExt` gives the service-table entry this effect, and it passes `VALID_EFFECT` (46_speclog_ops.md R372). -/
def Provides (s : State) (e : SvcEntry) (eff : Effect) : Prop :=
  provExtAt s.par.provExt (s.provInput e) = some eff ∧ ValidEffect s eff

/-- Between `s` and `t` the effect was applied for a request to service `svc`: the entry opened with the before-images of the
touched Regions in order, the Regions, their capability slots and their bytes as the effect says and all others as before, the
request appended to REQ, and the core resumed with the effect's results (46_speclog_ops.md R374, R375, 60_exceptions.md R434
steps 3 and 5). -/
structure Speculated (s t : State) (svc : BitVec 16) (eff : Effect) : Prop where
  resumed : Resumed s t (wrap s.par.xlen eff.a0.toNat) (wrap s.par.xlen eff.a1.toNat)
  touched : ∀ k ∈ eff.touch,
    t.region k.rid = { s.region k.rid with perms := k.perms, owner := k.owner } ∧ t.cap k.rid = k.cap ∧
      ∀ a, Covers s k.rid a → t.byte a = byteAt k.bytes a
  others : ∀ i, i ∉ eff.touch.map (·.rid) → t.region i = s.region i ∧ t.cap i = s.cap i
  otherBytes : ∀ a, (∀ k ∈ eff.touch, ¬Covers s k.rid a) → t.byte a = s.byte a
  imageOrder : t.log.images.map (·.rid) = eff.touch.map (·.rid)
  image : ∀ m ∈ t.log.images, m.desc = s.region m.rid ∧ m.cap = s.cap m.rid ∧
    ∀ a, Covers s m.rid a → byteAt m.bytes a = s.byte a
  entry : t.log = ⟨.pending, s.req.head, svc, t.log.images, deadlineOf s, s.tr⟩
  request : framesOf s.par.ringCap t.req = framesOf s.par.ringCap s.req ++
    [Frame.toBits ⟨s.req.head, 0, svc, eff.reqLength, eff.reqOffset, 0⟩]
  rest : t = { s with
    regs := t.regs, pc := t.pc, coreState := t.coreState, tdState := t.tdState, tdDlValid := t.tdDlValid, tr := t.tr
    regions := t.regions, caps := t.caps, mem := t.mem, req := t.req, log := t.log, tdDeadline := deadlineOf s }

/-! ## Invariants -/

/-- The pc is 4-byte aligned, and so are the saved pc of the trap record and of the log entry, to which it can return
(10_state.md R23). -/
structure AlignedPc (s : State) : Prop where
  pc : s.pcVal.toNat % 4 = 0
  saved : s.tr.savedPc.toNat % 4 = 0
  logged : s.log.tr.savedPc.toNat % 4 = 0

/-- No Region is writable and executable at once, and no before-image would make it so (10_state.md R35 a). -/
structure WriteXorExecute (s : State) : Prop where
  regions : ∀ i, (s.region i).perms.writeAndExecute = false
  images : ∀ m ∈ s.log.images, m.desc.perms.writeAndExecute = false

/-- The cross-block invariants (10_state.md R46). -/
structure CrossBlock (s : State) : Prop where
  trappedBusy : s.coreState = .trapped ↔ s.tdState ≠ .idle
  trappedRecord : s.coreState = .trapped ↔ s.tr.valid = true
  outstanding : s.tdOut.valid = true → s.tdState = .waitResponse
  entryState : s.log.state = .empty ∨ s.log.state = .pending
  pendingQuiet : s.log.state = .pending → s.tdOut.valid = false ∧
    (s.tdState = .idle ∨ s.tdState = .classify ∨ s.tdState = .waitSpec ∨ s.tdState = .waitDebug)
  ended : s.coreState = .halted ∨ s.coreState = .terminated →
    s.tdState = .idle ∧ s.log.state = .empty ∧ s.tdOut.valid = false

/-- The number of frames in each ring is at most its capacity (10_state.md R38). -/
def RingBounds (s : State) : Prop := s.req.count ≤ s.par.ringCap ∧ s.rsp.count ≤ s.par.ringCap

/-- Every table of the state is in its canonical form. -/
structure Canonical (s : State) : Prop where
  mem : s.mem.wf
  csrs : TableWf 0 s.csrs
  caps : TableWf Cap.absent s.caps
  regions : TableWf Region.absent s.regions
  svcs : TableWf SvcEntry.absent s.svcs
  req : TableWf 0 s.req.slots
  rsp : TableWf 0 s.rsp.slots

/-- Every Region, every before-image and every byte that is not 0 lies in the store (10_state.md R33, R35 c). -/
structure InStore (s : State) : Prop where
  regions : ∀ i, (s.region i).base.toNat + (s.region i).length.toNat ≤ s.par.memSize
  images : ∀ m ∈ s.log.images, m.desc.base.toNat + m.desc.length.toNat ≤ s.par.memSize
  bytes : ∀ a, s.par.memSize ≤ a → s.byte a = 0

/-- The byte is free: in no valid Region, or in one of the pool (20_memory.md R112). -/
def Free (s : State) (a : Nat) : Prop := ∀ i, Covers s i a → (s.region i).owner = 0

/-- A before-image that restores what it was taken from: its Region is still the same range, and an image of a pool Region
has permission 0 and all bytes 0. -/
structure ImageOk (s : State) (m : Image) : Prop where
  slot : m.rid < s.par.nregion
  valid : m.desc.valid = true ∧ (s.region m.rid).valid = true
  range : (s.region m.rid).base = m.desc.base ∧ (s.region m.rid).length = m.desc.length
  pool : m.desc.owner = 0 → m.desc.perms = 0 ∧ ∀ a, inRange m.desc.base.toNat m.desc.length.toNat a → byteAt m.bytes a = 0
  bytes : m.bytes.wf

/-- The before-images name distinct Regions, their ranges do not meet, their bytes are listed in the canonical form, and no
named slot is at the last generation. -/
structure ImagesApart (s : State) : Prop where
  bytes : ∀ m ∈ s.log.images, m.bytes.wf
  rids : (s.log.images.map (·.rid)).Nodup
  ranges : s.log.images.Pairwise fun m n =>
    ∀ a, ¬(inRange m.desc.base.toNat m.desc.length.toNat a = true ∧ inRange n.desc.base.toNat n.desc.length.toNat a = true)
  generations : ∀ m ∈ s.log.images, (s.region m.rid).gen ≠ genMax

/-- RESTORE_IMAGES (46_speclog_ops.md R378 step 1): every touched Region as in its before-image but for the generation,
one more where the owner had moved; its capability slot and every byte as in the before-image; everything else of the
Region table, the capability table and the byte store as before. -/
structure Restored (s t : State) : Prop where
  regions : ∀ m ∈ s.log.images, t.region m.rid = { m.desc with
    gen := if (s.region m.rid).owner = m.desc.owner then (s.region m.rid).gen else (s.region m.rid).gen + 1 }
  caps : ∀ m ∈ s.log.images, t.cap m.rid = m.cap
  bytes : ∀ m ∈ s.log.images, ∀ a, inRange m.desc.base.toNat m.desc.length.toNat a = true → t.byte a = byteAt m.bytes a
  otherRegions : ∀ i, i ∉ s.log.images.map (·.rid) → t.region i = s.region i ∧ t.cap i = s.cap i
  otherBytes : ∀ a, (∀ m ∈ s.log.images, inRange m.desc.base.toNat m.desc.length.toNat a = false) → t.byte a = s.byte a
  entry : t.log = { s.log with images := [], state := .empty }

/-- The zero pool (20_memory.md R112) and the disjointness of Regions (10_state.md R35 b), with what keeps them: slots
beyond the table are empty, pool Regions have permission 0, a core with no owner has not run, and the before-images of a
pending entry restore what they were taken from. -/
structure ZeroPool (s : State) : Prop where
  zero : ∀ a, Free s a → s.byte a = 0
  disjoint : ∀ i j a, Covers s i a → Covers s j a → i = j
  slots : ∀ i, s.par.nregion ≤ i → (s.region i).valid = false
  poolPerms : ∀ i, (s.region i).valid = true → (s.region i).owner = 0 → (s.region i).perms = 0
  owner : s.coreOwner = 0 → s.coreRun = false ∧ s.tdState = .idle
  mem : s.mem.wf
  images : s.log.state = .pending → (s.log.images.map (·.rid)).Nodup ∧ ∀ m ∈ s.log.images, ImageOk s m

/-- The move keeps the environment's duty (b) of 60_exceptions.md R458 (duty (a) is the step's own: it makes no move with a
handle value not given, R457): while the entry is pending the driver does not
MAP, and does not UNMAP, PROTECT, REVOKE or LOAD_BYTES a Region that has a before-image. -/
def keepsDuty (s : State) : Move → Prop
  | .driver (.map ..) => s.log.state ≠ .pending
  | .driver (.unmap h) | .driver (.protect h _) | .driver (.revoke h) | .driver (.loadBytes h _ _) =>
    s.log.state = .pending → h.rid.toNat ∉ s.log.images.map (·.rid)
  | .cpu | .td _ | .tick | .service _ | .driverStep | .driver _ => True

end Sys2Proof.Safety
end

