-- ==== Sys2Proof/Certificates/Slice0/Obligations.lean ====
section
/-! DEFINITION. The statements for the provers. Each says what numbered rules of spec/ say the machine does, for every
state and every operand that meets its hypotheses, whatever the parameters. -/

open Sys2Proof Sys2Proof.Machine Sys2Proof.Safety

/-! ## Encoding -/

/-- Decoding the word of a well-formed instruction gives it back: no operand bit is lost (30_encoding.md R131 to R133,
R151). -/
def Obligations.DecodeAfterEncode : Prop :=
  ∀ (x : Xlen) (i : Instr), i.wf x = true → decode x (encode i) = .ok i

/-- A word that decodes is the word of the decoded instruction, and that instruction is well-formed
(30_encoding.md R151, R161: the fields of FENCE are kept too). -/
def Obligations.EncodeAfterDecode : Prop :=
  ∀ (x : Xlen) (w : BitVec 32) (i : Instr), decode x w = .ok i → i.wf x = true ∧ encode i = w

/-- No two rows of the table select one word at one XLEN; a selected row is the decoding, and a word no row selects is
rejected (30_encoding.md R151, R152). -/
def Obligations.DecodingSelectsTheOneRow : Prop :=
  ∀ (x : Xlen) (w : BitVec 32),
    (opRows.filter fun r => r.selects x w).length ≤ 1 ∧
    (∀ r ∈ opRows, r.selects x w = true → decode x w = .ok (r.build w)) ∧
    ((∀ r ∈ opRows, r.selects x w = false) → Rejected x w)

/-- The operand fields of a word as integers (30_encoding.md R131, R140 to R146); `w.toInt / 2^k` is the value of bits
31:k read as signed, so that each immediate has its sign bit in `w[31]`. -/
def Obligations.OperandFieldsOfAWord : Prop :=
  ∀ w : BitVec 32,
    (rdOf w).toNat = w.toNat / 2 ^ 7 % 32 ∧
    (rs1Of w).toNat = w.toNat / 2 ^ 15 % 32 ∧
    (rs2Of w).toNat = w.toNat / 2 ^ 20 % 32 ∧
    (immIOf w).toNat = w.toNat / 2 ^ 20 ∧
    (immIOf w).toInt = w.toInt / 2 ^ 20 ∧
    (immSOf w).toInt = w.toInt / 2 ^ 25 * 2 ^ 5 + (w.toNat / 2 ^ 7 % 2 ^ 5 : Nat) ∧
    (immBOf w).toInt = w.toInt / 2 ^ 31 * 2 ^ 12 + (w.toNat / 2 ^ 7 % 2 * 2 ^ 11 : Nat) +
      (w.toNat / 2 ^ 25 % 2 ^ 6 * 2 ^ 5 : Nat) + (w.toNat / 2 ^ 8 % 2 ^ 4 * 2 : Nat) ∧
    (immUOf w).toInt = w.toInt / 2 ^ 12 ∧
    (immJOf w).toInt = w.toInt / 2 ^ 31 * 2 ^ 20 + (w.toNat / 2 ^ 12 % 2 ^ 8 * 2 ^ 12 : Nat) +
      (w.toNat / 2 ^ 20 % 2 * 2 ^ 11 : Nat) + (w.toNat / 2 ^ 21 % 2 ^ 10 * 2 : Nat) ∧
    (shamt6Of w).toNat = w.toNat / 2 ^ 20 % 64

/-- Words written out in the spec's examples decode to the instructions they stand for (the Example clauses of
40_integer_computational.md, 41_control_transfer.md, 42_load_store.md and 43_system.md). -/
def Obligations.SpecExampleWordsDecode : Prop :=
  decode .rv32 0x123452B7 = .ok (.lui 5 0x12345) ∧
  decode .rv32 0x00001297 = .ok (.auipc 5 1) ∧
  decode .rv32 0xFFDFF06F = .ok (.jal 0 (BitVec.ofInt 21 (-4))) ∧
  decode .rv32 0x004280E7 = .ok (.jalr 1 5 4) ∧
  decode .rv32 0xFE629EE3 = .ok (.bne 5 6 (BitVec.ofInt 13 (-4))) ∧
  decode .rv32 0xFFC32283 = .ok (.lw 5 6 (BitVec.ofInt 12 (-4))) ∧
  decode .rv32 0xFE531F23 = .ok (.sh 6 5 (BitVec.ofInt 12 (-2))) ∧
  decode .rv32 0xFFF30293 = .ok (.addi 5 6 (BitVec.ofInt 12 (-1))) ∧
  decode .rv64 0x03F31293 = .ok (.slli 5 6 63) ∧
  decode .rv32 0x407302B3 = .ok (.sub 5 6 7) ∧
  decode .rv64 0x4043529B = .ok (.sraiw 5 6 4) ∧
  decode .rv64 0x407352BB = .ok (.sraw 5 6 7) ∧
  decode .rv32 0x0FF0000F = .ok (.fence 0 15 15 0 0) ∧
  decode .rv32 0x00000073 = .ok .ecall ∧
  decode .rv32 0x00100073 = .ok .ebreak ∧
  decode .rv32 0x7C3312F3 = .ok (.csrrw 5 6 0x7C3) ∧
  decode .rv32 0x340AD2F3 = .ok (.csrrwi 5 21 0x340)

/-- The words 30_encoding.md R160 lists as illegal, and those of R130 and R163, are rejected; so are the shift-immediates of
OP-IMM and the words of OP-IMM-32 with a funct3, funct6 or funct7 that no row of R151 has, and the words of the two major
opcodes left, 1101011 and 1110111, which no row of R151 has. -/
def Obligations.ListedWordsAreIllegal : Prop :=
  ∀ (x : Xlen) (w : BitVec 32),
    (w.toNat % 4 ≠ 3 → Rejected x w) ∧
    (w.toNat / 4 % 8 = 7 → Rejected x w) ∧
    (opcodeOf w ∈ [0b0000111, 0b0100111, 0b0101111, 0b1000011, 0b1000111, 0b1001011, 0b1001111, 0b1010011, 0b1010111,
      0b0001011, 0b0101011, 0b1011011, 0b1111011, 0b1101011, 0b1110111] → Rejected x w) ∧
    (opcodeOf w = 0b0110011 → funct7Of w ≠ 0 → ¬(funct7Of w = 0b0100000 ∧ funct3Of w ∈ [0, 5]) → Rejected x w) ∧
    (opcodeOf w = 0b0111011 → ¬(funct7Of w = 0 ∧ funct3Of w ∈ [0, 1, 5]) →
      ¬(funct7Of w = 0b0100000 ∧ funct3Of w ∈ [0, 5]) → Rejected x w) ∧
    (opcodeOf w = 0b0010011 → funct3Of w = 1 → w.toNat / 2 ^ 26 ≠ 0 → Rejected x w) ∧
    (opcodeOf w = 0b0010011 → funct3Of w = 5 → w.toNat / 2 ^ 26 ∉ [0, 0b010000] → Rejected x w) ∧
    (opcodeOf w = 0b0011011 → funct3Of w ≠ 0 → ¬(funct7Of w = 0 ∧ funct3Of w ∈ [1, 5]) →
      ¬(funct7Of w = 0b0100000 ∧ funct3Of w = 5) → Rejected x w) ∧
    (x = .rv32 → opcodeOf w ∈ [0b0011011, 0b0111011] → Rejected x w) ∧
    (x = .rv32 → opcodeOf w = 0b0010011 → funct3Of w ∈ [1, 5] → w.toNat / 2 ^ 25 % 2 = 1 → Rejected x w) ∧
    (opcodeOf w = 0b1100111 → funct3Of w ≠ 0 → Rejected x w) ∧
    (opcodeOf w = 0b0000011 → funct3Of w = 7 ∨ x = .rv32 ∧ funct3Of w ∈ [3, 6] → Rejected x w) ∧
    (opcodeOf w = 0b0100011 → 4 ≤ funct3Of w ∨ x = .rv32 ∧ funct3Of w = 3 → Rejected x w) ∧
    (opcodeOf w = 0b1100011 → funct3Of w ∈ [2, 3] → Rejected x w) ∧
    (opcodeOf w = 0b0001111 → funct3Of w ≠ 0 → Rejected x w) ∧
    (opcodeOf w = 0b1110011 → funct3Of w = 4 ∨ funct3Of w = 0 ∧ w.toNat / 2 ^ 7 ∉ [0, 0x2000] → Rejected x w)

/-- A fetched word that decodes to nothing raises IllegalInstruction, kind 4, with the word as the value, and the step has
no other effect (30_encoding.md R160, 60_exceptions.md R400, R401, R410). -/
def Obligations.UndecodedWordTraps : Prop :=
  ∀ (s : State) (w : BitVec 32), s.fetch = .ok w → (∀ i, decode s.par.xlen w ≠ .ok i) →
    Kind.illegalInstruction.code = 4 ∧
    ∃ t, cpuStep s = .next t ∧ Trapped s t .illegalInstruction (w.setWidth 64)

/-! ## A step -/

/-- When the CPU moves next and the bytes at the pc decode to an instruction, the step is the meaning of that instruction,
on the state with the listed choice taken; with the driver's STEP the same, with the answer to STEP recorded (10_state.md
R40, 60_exceptions.md R452). -/
def Obligations.StepRunsTheDecodedInstruction : Prop :=
  ∀ (s : State) (i : Instr), s.par.legal = true → s.cpuAccess s.pcVal.toNat 4 .execute = .ok () →
    decodeBytes s.par.xlen (bytesAt s.mem s.pcVal.toNat 4) = .ok (i, []) →
    (nextMove s = .cpu → s.coreRun = true → s.coreState = .fetching → step s = exec i (popEnv s)) ∧
    (nextMove s = .driverStep → s.coreRun = false → s.coreState = .fetching → s.coreOwner ≠ 0 →
      step s = exec i ((popEnv s).answer .ok))

/-- A step is one transition of one agent: the first listed choice, taken off the list, or with none listed a move of the
default order; a CPU that is not enabled does nothing (00_scope.md R14, R15; log entries 3 and 4). A choice that presents a
handle value the port agents have not been given is no move, and they are given one only by the answer to a command
(60_exceptions.md R457; log entry 16). -/
def Obligations.StepIsOneTransition : Prop :=
  ∀ s : State, s.par.legal = true →
    (∀ m rest, s.env = m :: rest →
      ((∀ h, presented m = some h → h ∈ s.given) → step s = perform m { s with env := rest }) ∧
      (∀ h, presented m = some h → h ∉ s.given → step s = .next { s with env := rest })) ∧
    (∀ t h, step s = .next t → h ∈ t.given → h ∈ s.given ∨ t.reply = .handle h) ∧
    (s.env = [] → ∃ m, step s = perform m s ∧ (m = .tick ∨ (m = .cpu ∧ cpuEnabled s = true) ∨
      ∃ d, m = .td d ∧ tdEnabled s d = true)) ∧
    (s.coreRun = false ∨ s.coreState ≠ .fetching → perform .cpu s = .next s)

/-- A fetch makes the execute check on the four bytes at the pc and reads them little-endian; a refused fetch traps with
StaleHandle or NoExec at the pc (20_memory.md R81, R94, R95). -/
def Obligations.FetchChecksThenReads : Prop :=
  ∀ s : State,
    (s.cpuAccess s.pcVal.toNat 4 .execute = .ok () →
      s.fetch = .ok (BitVec.ofNat 32 (littleEndian s s.pcVal.toNat 4))) ∧
    (∀ e, s.cpuAccess s.pcVal.toNat 4 .execute = .error e →
      ∃ t, cpuStep s = .next t ∧ Trapped s t (if e = .stale then .staleHandle else .noExec) s.pcVal)

/-- The state after reset, item by item, for every choice of the parameters (10_state.md R48). -/
def Obligations.ResetState : Prop :=
  ∀ p : Params, ∃ s, s = State.resetFor p ∧ s.par = p ∧
    (∀ r, s.readReg r = 0) ∧ s.pcVal = 0 ∧ (∀ c, s.readCsr c = 0) ∧ s.armed = false ∧
    s.coreState = .fetching ∧ s.coreRun = false ∧ s.coreOwner = 0 ∧
    (∀ i, s.cap i = ⟨false, 0, 0⟩) ∧
    (s.tr.valid = false ∧ s.tr.kind.code = 0 ∧ s.tr.addr = 0 ∧ s.tr.savedPc = 0 ∧ ∀ r, s.trapReg r = 0) ∧
    (∀ a, s.byte a = 0) ∧ (∀ i, s.region i = ⟨false, 0, 0, 0, 0, 0⟩) ∧
    (s.req.head = 0 ∧ s.req.tail = 0 ∧ s.rsp.head = 0 ∧ s.rsp.tail = 0) ∧
    (∀ k, s.req.slot k = 0 ∧ s.rsp.slot k = 0) ∧
    (s.log.state = .empty ∧ s.log.images = [] ∧ s.log.seq = 0 ∧ s.log.svc = 0 ∧ s.log.deadline = 0 ∧
      s.log.tr = s.tr) ∧
    s.logLast = ⟨0, .none, 0⟩ ∧
    (s.tdState = .idle ∧ s.tdDeadline = 0 ∧ s.tdDlValid = false ∧ s.tdOut = ⟨false, 0, 0⟩ ∧ s.tdNow = 0) ∧
    s.tdTimeout = p.timeoutReset ∧ (∀ n, s.svc n = ⟨.unregistered, 0, .exit, .alloc⟩) ∧ s.notes = []

/-! ## Integer computational instructions -/

/-- LUI and AUIPC (40_integer_computational.md R171, R172). -/
def Obligations.UpperImmediateResults : Prop :=
  ∀ (s : State) (rd : Reg) (imm : BitVec 20),
    Computes (.lui rd imm) s rd (wrap s.par.xlen (imm.toInt * 2 ^ 12)) ∧
    Computes (.auipc rd imm) s rd (wrap s.par.xlen (s.pcVal.toNat + imm.toInt * 2 ^ 12))

/-- ADDI, ADD and SUB wrap modulo 2^XLEN (40_integer_computational.md R173, R182, R183, R205). -/
def Obligations.AddSubtractResults : Prop :=
  ∀ (s : State) (rd rs1 rs2 : Reg) (imm : BitVec 12),
    Computes (.addi rd rs1 imm) s rd (wrap s.par.xlen ((s.readReg rs1).toNat + imm.toInt)) ∧
    Computes (.add rd rs1 rs2) s rd (wrap s.par.xlen ((s.readReg rs1).toNat + (s.readReg rs2).toNat)) ∧
    Computes (.sub rd rs1 rs2) s rd (wrap s.par.xlen ((s.readReg rs1).toNat - (s.readReg rs2).toNat))

/-- SLTI, SLTIU, SLT and SLTU: exactly 1 or 0 (40_integer_computational.md R174, R175, R185, R186). -/
def Obligations.SetLessResults : Prop :=
  ∀ (s : State) (rd rs1 rs2 : Reg) (imm : BitVec 12),
    Computes (.slti rd rs1 imm) s rd (if signedValue s.par.xlen (s.readReg rs1) < imm.toInt then 1 else 0) ∧
    Computes (.sltiu rd rs1 imm) s rd
      (if (s.readReg rs1).toNat < (wrap s.par.xlen imm.toInt).toNat then 1 else 0) ∧
    Computes (.slt rd rs1 rs2) s rd
      (if signedValue s.par.xlen (s.readReg rs1) < signedValue s.par.xlen (s.readReg rs2) then 1 else 0) ∧
    Computes (.sltu rd rs1 rs2) s rd (if (s.readReg rs1).toNat < (s.readReg rs2).toNat then 1 else 0)

/-- XORI, ORI, ANDI, XOR, OR and AND (40_integer_computational.md R176 to R178, R187, R190, R191). -/
def Obligations.LogicalResults : Prop :=
  ∀ (s : State) (rd rs1 rs2 : Reg) (imm : BitVec 12),
    Computes (.xori rd rs1 imm) s rd (s.readReg rs1 ^^^ wrap s.par.xlen imm.toInt) ∧
    Computes (.ori rd rs1 imm) s rd (s.readReg rs1 ||| wrap s.par.xlen imm.toInt) ∧
    Computes (.andi rd rs1 imm) s rd (s.readReg rs1 &&& wrap s.par.xlen imm.toInt) ∧
    Computes (.xor rd rs1 rs2) s rd (s.readReg rs1 ^^^ s.readReg rs2) ∧
    Computes (.or rd rs1 rs2) s rd (s.readReg rs1 ||| s.readReg rs2) ∧
    Computes (.and rd rs1 rs2) s rd (s.readReg rs1 &&& s.readReg rs2)

/-- SLLI, SRLI and SRAI by every amount below XLEN, as multiplication, division and division rounded toward minus infinity
(40_integer_computational.md R179 to R181). -/
def Obligations.ShiftImmediateResults : Prop :=
  ∀ (s : State) (rd rs1 : Reg) (n : BitVec 6), n.toNat < s.par.xlen.bits →
    Computes (.slli rd rs1 n) s rd (wrap s.par.xlen ((s.readReg rs1).toNat * 2 ^ n.toNat)) ∧
    Computes (.srli rd rs1 n) s rd (wrap s.par.xlen ((s.readReg rs1).toNat / 2 ^ n.toNat)) ∧
    Computes (.srai rd rs1 n) s rd (wrap s.par.xlen (signedValue s.par.xlen (s.readReg rs1) / 2 ^ n.toNat))

/-- SLL, SRL and SRA by the low 5 or 6 bits of `x[rs2]` (40_integer_computational.md R184, R188, R189). -/
def Obligations.RegisterShiftResults : Prop :=
  ∀ (s : State) (rd rs1 rs2 : Reg) (n : Nat), n = (s.readReg rs2).toNat % s.par.xlen.bits →
    Computes (.sll rd rs1 rs2) s rd (wrap s.par.xlen ((s.readReg rs1).toNat * 2 ^ n)) ∧
    Computes (.srl rd rs1 rs2) s rd (wrap s.par.xlen ((s.readReg rs1).toNat / 2 ^ n)) ∧
    Computes (.sra rd rs1 rs2) s rd (wrap s.par.xlen (signedValue s.par.xlen (s.readReg rs1) / 2 ^ n))

/-- ADDIW, ADDW and SUBW: the sum or difference modulo 2^32, read as signed (40_integer_computational.md R192, R196,
R197). -/
def Obligations.WordAddSubtractResults : Prop :=
  ∀ (s : State) (rd rs1 rs2 : Reg) (imm : BitVec 12), s.par.xlen = .rv64 →
    Computes (.addiw rd rs1 imm) s rd (wrap .rv64 (Int.bmod ((s.readReg rs1).toNat + imm.toInt) (2 ^ 32))) ∧
    Computes (.addw rd rs1 rs2) s rd
      (wrap .rv64 (Int.bmod ((s.readReg rs1).toNat + (s.readReg rs2).toNat) (2 ^ 32))) ∧
    Computes (.subw rd rs1 rs2) s rd
      (wrap .rv64 (Int.bmod ((s.readReg rs1).toNat - (s.readReg rs2).toNat) (2 ^ 32)))

/-- SLLIW, SRLIW, SRAIW, SLLW, SRLW and SRAW: 32-bit shifts of the low word, read as signed
(40_integer_computational.md R193 to R195, R198 to R200). -/
def Obligations.WordShiftResults : Prop :=
  ∀ (s : State) (rd rs1 rs2 : Reg) (k : BitVec 5) (n : Nat), s.par.xlen = .rv64 →
    n = (s.readReg rs2).toNat % 32 →
    Computes (.slliw rd rs1 k) s rd (wrap .rv64 (Int.bmod ((s.readReg rs1).toNat * 2 ^ k.toNat) (2 ^ 32))) ∧
    Computes (.srliw rd rs1 k) s rd
      (wrap .rv64 (Int.bmod ((s.readReg rs1).toNat % 2 ^ 32 / 2 ^ k.toNat) (2 ^ 32))) ∧
    Computes (.sraiw rd rs1 k) s rd (wrap .rv64 (Int.bmod (s.readReg rs1).toNat (2 ^ 32) / 2 ^ k.toNat)) ∧
    Computes (.sllw rd rs1 rs2) s rd (wrap .rv64 (Int.bmod ((s.readReg rs1).toNat * 2 ^ n) (2 ^ 32))) ∧
    Computes (.srlw rd rs1 rs2) s rd
      (wrap .rv64 (Int.bmod ((s.readReg rs1).toNat % 2 ^ 32 / 2 ^ n) (2 ^ 32))) ∧
    Computes (.sraw rd rs1 rs2) s rd (wrap .rv64 (Int.bmod (s.readReg rs1).toNat (2 ^ 32) / 2 ^ n))

/-- At XLEN = 32 an instruction of the RV64I rows, and a shift-immediate with bit 5 of the amount set, traps as its word
does (30_encoding.md R145, R160); that such a term, which no word decodes to, has this meaning is the model's choice (log
entry 14). -/
def Obligations.Rv64FormsTrapAtXlen32 : Prop :=
  ∀ (s : State) (i : Instr), s.par.xlen = .rv32 → (i.rv64Only = true ∨ i.shamtFits .rv32 = false) →
    Traps i s .illegalInstruction ((encode i).setWidth 64)

/-! ## Control transfer -/

/-- JAL and JALR to an aligned target: the link register and the pc, and nothing else; `x[rs1]` is read first
(41_control_transfer.md R232, R233). -/
def Obligations.JumpsLinkAndTransfer : Prop :=
  ∀ (s : State) (rd rs1 : Reg) (off : BitVec 21) (imm : BitVec 12),
    ((targetOf s off).toNat % 4 = 0 → ∃ t, exec (.jal rd off) s = .next t ∧ Wrote s t rd (nextPc s) (targetOf s off)) ∧
    ((jumpTarget s rs1 imm).toNat % 4 = 0 →
      ∃ t, exec (.jalr rd rs1 imm) s = .next t ∧ Wrote s t rd (nextPc s) (jumpTarget s rs1 imm))

/-- The six branches: taken or not by their condition (41_control_transfer.md R234 to R239). -/
def Obligations.BranchesFollowTheirCondition : Prop :=
  ∀ (s : State) (rs1 rs2 : Reg) (off : BitVec 13) (a b : Word), a = s.readReg rs1 → b = s.readReg rs2 →
    Branches (.beq rs1 rs2 off) s (a = b) (targetOf s off) ∧
    Branches (.bne rs1 rs2 off) s (a ≠ b) (targetOf s off) ∧
    Branches (.blt rs1 rs2 off) s (signedValue s.par.xlen a < signedValue s.par.xlen b) (targetOf s off) ∧
    Branches (.bge rs1 rs2 off) s (¬signedValue s.par.xlen a < signedValue s.par.xlen b) (targetOf s off) ∧
    Branches (.bltu rs1 rs2 off) s (a.toNat < b.toNat) (targetOf s off) ∧
    Branches (.bgeu rs1 rs2 off) s (¬a.toNat < b.toNat) (targetOf s off)

/-- A jump, or a branch whose condition holds, to a target not 4-byte aligned raises MisalignedTarget with the target as
the value; neither the pc nor `rd` is written (41_control_transfer.md R231). -/
def Obligations.MisalignedTargetsTrap : Prop :=
  ∀ (s : State) (rd rs1 rs2 : Reg) (joff : BitVec 21) (imm : BitVec 12) (off : BitVec 13) (a b : Word),
    a = s.readReg rs1 → b = s.readReg rs2 →
    ((targetOf s joff).toNat % 4 ≠ 0 → Traps (.jal rd joff) s .misalignedTarget (targetOf s joff)) ∧
    ((jumpTarget s rs1 imm).toNat % 4 ≠ 0 → Traps (.jalr rd rs1 imm) s .misalignedTarget (jumpTarget s rs1 imm)) ∧
    ((targetOf s off).toNat % 4 ≠ 0 →
      (a = b → Traps (.beq rs1 rs2 off) s .misalignedTarget (targetOf s off)) ∧
      (a ≠ b → Traps (.bne rs1 rs2 off) s .misalignedTarget (targetOf s off)) ∧
      (signedValue s.par.xlen a < signedValue s.par.xlen b →
        Traps (.blt rs1 rs2 off) s .misalignedTarget (targetOf s off)) ∧
      (¬signedValue s.par.xlen a < signedValue s.par.xlen b →
        Traps (.bge rs1 rs2 off) s .misalignedTarget (targetOf s off)) ∧
      (a.toNat < b.toNat → Traps (.bltu rs1 rs2 off) s .misalignedTarget (targetOf s off)) ∧
      (¬a.toNat < b.toNat → Traps (.bgeu rs1 rs2 off) s .misalignedTarget (targetOf s off)))

/-! ## Loads and stores -/

/-- The seven loads, where the read check passes: the little-endian value, sign- or zero-extended
(42_load_store.md R251 to R257). -/
def Obligations.LoadResults : Prop :=
  ∀ (s : State) (rd rs1 : Reg) (imm : BitVec 12) (a : Nat), a = (addressOf s rs1 imm).toNat →
    (s.cpuAccess a 1 .read = .ok () →
      Computes (.lb rd rs1 imm) s rd (wrap s.par.xlen (Int.bmod (littleEndian s a 1) (2 ^ 8))) ∧
      Computes (.lbu rd rs1 imm) s rd (BitVec.ofNat 64 (littleEndian s a 1))) ∧
    (s.cpuAccess a 2 .read = .ok () →
      Computes (.lh rd rs1 imm) s rd (wrap s.par.xlen (Int.bmod (littleEndian s a 2) (2 ^ 16))) ∧
      Computes (.lhu rd rs1 imm) s rd (BitVec.ofNat 64 (littleEndian s a 2))) ∧
    (s.cpuAccess a 4 .read = .ok () →
      Computes (.lw rd rs1 imm) s rd (wrap s.par.xlen (Int.bmod (littleEndian s a 4) (2 ^ 32))) ∧
      (s.par.xlen = .rv64 → Computes (.lwu rd rs1 imm) s rd (BitVec.ofNat 64 (littleEndian s a 4)))) ∧
    (s.cpuAccess a 8 .read = .ok () → s.par.xlen = .rv64 →
      Computes (.ld rd rs1 imm) s rd (BitVec.ofNat 64 (littleEndian s a 8)))

/-- The four stores, where the write check passes: the low bytes of `x[rs2]` at the effective address, every other byte
and every register as before (42_load_store.md R258 to R261). -/
def Obligations.StoreResults : Prop :=
  ∀ (s : State) (rs1 rs2 : Reg) (imm : BitVec 12) (a : Nat), a = (addressOf s rs1 imm).toNat →
    (s.cpuAccess a 1 .write = .ok () →
      ∃ t, exec (.sb rs1 rs2 imm) s = .next t ∧ Stored s t a 1 (s.readReg rs2)) ∧
    (s.cpuAccess a 2 .write = .ok () →
      ∃ t, exec (.sh rs1 rs2 imm) s = .next t ∧ Stored s t a 2 (s.readReg rs2)) ∧
    (s.cpuAccess a 4 .write = .ok () →
      ∃ t, exec (.sw rs1 rs2 imm) s = .next t ∧ Stored s t a 4 (s.readReg rs2)) ∧
    (s.cpuAccess a 8 .write = .ok () → s.par.xlen = .rv64 →
      ∃ t, exec (.sd rs1 rs2 imm) s = .next t ∧ Stored s t a 8 (s.readReg rs2))

/-- A load or store whose check fails traps with StaleHandle or MemoryViolation at the first byte of the access; no
register and no byte is written and the pc stays (42_load_store.md R250, 20_memory.md R94). -/
def Obligations.RefusedAccessesTrap : Prop :=
  ∀ (s : State) (rd rs1 rs2 : Reg) (imm : BitVec 12) (e : OpError) (a : Word), a = addressOf s rs1 imm →
    (s.cpuAccess a.toNat 1 .read = .error e →
      AccessTraps (.lb rd rs1 imm) s e a ∧ AccessTraps (.lbu rd rs1 imm) s e a) ∧
    (s.cpuAccess a.toNat 2 .read = .error e →
      AccessTraps (.lh rd rs1 imm) s e a ∧ AccessTraps (.lhu rd rs1 imm) s e a) ∧
    (s.cpuAccess a.toNat 4 .read = .error e →
      AccessTraps (.lw rd rs1 imm) s e a ∧ (s.par.xlen = .rv64 → AccessTraps (.lwu rd rs1 imm) s e a)) ∧
    (s.cpuAccess a.toNat 8 .read = .error e → s.par.xlen = .rv64 → AccessTraps (.ld rd rs1 imm) s e a) ∧
    (s.cpuAccess a.toNat 1 .write = .error e → AccessTraps (.sb rs1 rs2 imm) s e a) ∧
    (s.cpuAccess a.toNat 2 .write = .error e → AccessTraps (.sh rs1 rs2 imm) s e a) ∧
    (s.cpuAccess a.toNat 4 .write = .error e → AccessTraps (.sw rs1 rs2 imm) s e a) ∧
    (s.cpuAccess a.toNat 8 .write = .error e → s.par.xlen = .rv64 → AccessTraps (.sd rs1 rs2 imm) s e a)

/-- `AS_CHECK`: the first test that fails gives the result, in the order stale, out of range, denied (20_memory.md R90,
R91). -/
def Obligations.AccessCheckOrder : Prop :=
  ∀ (s : State) (h : Handle) (addr len : Nat) (need : Need),
    (IsStale s h → s.asCheck h addr len need = .error .stale) ∧
    (¬IsStale s h → ¬Inside (s.region h.rid) addr len → s.asCheck h addr len need = .error .outOfRange) ∧
    (¬IsStale s h → Inside (s.region h.rid) addr len → ¬Granted h.mask (s.region h.rid).perms need →
      s.asCheck h addr len need = .error .denied) ∧
    (¬IsStale s h → Inside (s.region h.rid) addr len → Granted h.mask (s.region h.rid).perms need →
      s.asCheck h addr len need = .ok ())

/-- `CAP_LOOKUP` and `CPU_ACCESS`: the handle is that of the one candidate slot, whose valid Region contains the first byte,
and the access is its `AS_CHECK`, but that an access past 2^XLEN - 1 is out of range (20_memory.md R92, R93, R98), for which the
stale test comes first, as in R90 (log entry 17); with no candidate the access is out of range. -/
def Obligations.CpuAccessUsesTheHeldHandle : Prop :=
  ∀ (s : State) (addr len : Nat) (need : Need),
    (∀ i h, Candidate s addr i → (∀ j, Candidate s addr j → j = i) → h = ⟨i, (s.cap i).mask, (s.cap i).gen⟩ →
      (¬IsStale s h → ¬InReach s addr len → s.cpuAccess addr len need = .error .outOfRange) ∧
      (IsStale s h ∨ InReach s addr len → s.cpuAccess addr len need = s.asCheck h addr len need)) ∧
    ((∀ i, ¬Candidate s addr i) → s.cpuAccess addr len need = .error .outOfRange)

/-! ## System instructions and registers -/

/-- FENCE, whatever its fields, only advances the pc (43_system.md R276, 30_encoding.md R161). -/
def Obligations.FenceOnlyAdvances : Prop :=
  ∀ (s : State) (fm pred succ : BitVec 4) (rs1 rd : Reg),
    ∃ t, exec (.fence fm pred succ rs1 rd) s = .next t ∧ OnlyPc s t (nextPc s)

/-- ECALL and EBREAK, the single words 0x00000073 and 0x00100073, take their traps, of kinds 8 and 9, with values 0 and pc
(43_system.md R277, R278, 60_exceptions.md R410). -/
def Obligations.EnvironmentCallsTrap : Prop :=
  Kind.syscall.code = 8 ∧ Kind.breakpoint.code = 9 ∧
  (∀ x, decode x 0x00000073 = .ok .ecall ∧ decode x 0x00100073 = .ok .ebreak) ∧
  ∀ s : State, Traps .ecall s .syscall 0 ∧ Traps .ebreak s .breakpoint s.pcVal

/-- CSRRW, CSRRS and CSRRC: the old word to `rd`, the new word to the CSR, both operands read first
(43_system.md R281 to R283). -/
def Obligations.CsrRegisterForms : Prop :=
  ∀ (s : State) (rd rs1 : Reg) (c : CsrNum) (old v : Word), old = s.readCsr c → v = s.readReg rs1 →
    (∃ t, exec (.csrrw rd rs1 c) s = .next t ∧ WroteCsr s t rd old c v) ∧
    (∃ t, exec (.csrrs rd rs1 c) s = .next t ∧ WroteCsr s t rd old c (old ||| v)) ∧
    (∃ t, exec (.csrrc rd rs1 c) s = .next t ∧ WroteCsr s t rd old c (old &&& ~~~v))

/-- CSRRWI, CSRRSI and CSRRCI with the 5-bit immediate zero-extended (43_system.md R284 to R286). -/
def Obligations.CsrImmediateForms : Prop :=
  ∀ (s : State) (rd : Reg) (u : BitVec 5) (c : CsrNum) (old v : Word), old = s.readCsr c →
    v = BitVec.ofNat 64 u.toNat →
    (∃ t, exec (.csrrwi rd u c) s = .next t ∧ WroteCsr s t rd old c v) ∧
    (∃ t, exec (.csrrsi rd u c) s = .next t ∧ WroteCsr s t rd old c (old ||| v)) ∧
    (∃ t, exec (.csrrci rd u c) s = .next t ∧ WroteCsr s t rd old c (old &&& ~~~v))

/-- `x[0]` reads 0 and a write to it is discarded; any other register reads the value last written, and a write leaves
every other register (10_state.md R20, R21); at rollback too (46_speclog_ops.md R378 step 2). -/
def Obligations.RegisterZeroIsHardWired : Prop :=
  ∀ (s : State) (r q : Reg) (v : Word) (reason : BitVec 8),
    s.readReg 0 = 0 ∧ s.writeReg 0 v = s ∧ (rollback reason s).readReg 0 = 0 ∧
    (q ≠ 0 → (s.writeReg r v).readReg q = if q = r then wrap s.par.xlen v.toNat else s.readReg q) ∧
    (q ≠ 0 → (rollback reason s).readReg q = s.log.tr.reg s.par.xlen q)

/-! ## Faults and the classification of traps -/

/-- DELIVER_FAULT: the three cause words, then the armed handler or, with no handler armed, termination
(60_exceptions.md R415, R417); with an entry pending the termination restores its Regions, records the outcome with reason 0xFD
and keeps the registers, the pc and the other CSR words (46_speclog_ops.md R379). -/
def Obligations.FaultDelivery : Prop :=
  ∀ (s : State) (k : Kind) (v e v' e' : Word), v' = wrap s.par.xlen v.toNat → e' = wrap s.par.xlen e.toNat →
    ((s.readCsr csrThandler).toNat % 2 = 1 → Delivered s (deliverFault k v e s) k v' e') ∧
    ((s.readCsr csrThandler).toNat % 2 = 0 → s.log.state ≠ .pending →
      Terminated s (deliverFault k v e s) k v' e' ∧ CausesWritten (deliverFault k v e s) k v' e' ∧
      ∀ c, c ≠ csrTcause → c ≠ csrTval → c ≠ csrTepc → (deliverFault k v e s).readCsr c = s.readCsr c) ∧
    ((s.readCsr csrThandler).toNat % 2 = 0 → s.log.state = .pending → ImagesApart s →
      ∃ t, deliverFault k v e s = t ∧ Restored s t ∧ t.logLast = ⟨s.log.seq, .rolledBack, 0xFD⟩ ∧
        CausesWritten t k v' e' ∧ (∀ c, c ≠ csrTcause → c ≠ csrTval → c ≠ csrTepc → t.readCsr c = s.readCsr c) ∧
        t = { s with
          csrs := t.csrs, coreState := .terminated, tdState := .idle, tdDlValid := false
          tdOut := { s.tdOut with valid := false }, tr := { s.tr with valid := false }
          notes := s.notes ++ [⟨.terminate, k, v', e', 0⟩]
          regions := t.regions, caps := t.caps, mem := t.mem, log := t.log, logLast := t.logLast })

/-- CLASSIFY by the kind of the trap and, for a syscall with no entry pending, the class of its id: what is a fault is
delivered, a breakpoint waits for the driver, a syscall behind a pending entry waits, an unregistered syscall is
IllegalInstruction with the word of ECALL, EXIT halts (60_exceptions.md R420, R425 to R428, R431). -/
def Obligations.TrapClassification : Prop :=
  ∀ s : State, s.tdState = .classify →
    (s.tr.kind ∈ [.noExec, .memoryViolation, .staleHandle, .illegalInstruction, .misalignedTarget] →
      ClassifiesToFault s s.tr.kind s.tr.addr) ∧
    (s.tr.kind = .breakpoint → perform (.td .classify) s = .next { s with tdState := .waitDebug }) ∧
    (s.tr.kind = .syscall → s.log.state = .pending →
      perform (.td .classify) s = .next { s with tdState := .waitSpec }) ∧
    (s.tr.kind = .syscall → s.log.state ≠ .pending → s.par.nsys ≤ (s.trapReg 17).toNat →
      ClassifiesToFault s .illegalInstruction 0x73) ∧
    (∀ e, Calls s e → (e.cls = .unregistered ∨ e.cls = .localCall ∧ e.localOp = .reserved) →
      ClassifiesToFault s .illegalInstruction 0x73) ∧
    (∀ e, Calls s e → e.cls = .localCall → e.localOp = .exit → perform (.td .classify) s = .next { s with
      coreState := .halted, tr := { s.tr with valid := false }, tdState := .idle
      notes := s.notes ++
        [⟨.halt, .syscall, s.trapReg 10, wrap s.par.xlen s.tr.savedPc.toNat, s.trapReg 17⟩] })

/-! ## The driver port -/

/-- The configuration commands: accepted on their conditions with their one effect, refused otherwise
(60_exceptions.md R450, R451). -/
def Obligations.DriverConfiguration : Prop :=
  ∀ (s : State) (p : Word) (o : Owner) (h : PortHandle) (i : BitVec 16) (n : Nat) (e : SvcEntry) (x : BitVec 64),
    (Quiescent s → s.coreState = .fetching → p.toNat % 4 = 0 → o ≠ 0 →
      ∃ t, perform (.driver (.setEntry p o)) s = .next t ∧ t.pcVal = wrap s.par.xlen p.toNat ∧
        t = { s with pc := t.pc, coreOwner := o, reply := .ok }) ∧
    (¬(Quiescent s ∧ s.coreState = .fetching ∧ p.toNat % 4 = 0 ∧ o ≠ 0) → Refuses s (.setEntry p o)) ∧
    (Quiescent s → h.rid.toNat < s.par.nregion →
      ∃ t, perform (.driver (.setCap h)) s = .next t ∧ OnlyCap s t h.rid.toNat ⟨true, h.mask, h.gen⟩ ∧
        t = { s with caps := t.caps, reply := .ok }) ∧
    (Quiescent s → i.toNat < s.par.nregion →
      ∃ t, perform (.driver (.clrCap i)) s = .next t ∧ OnlyCap s t i.toNat ⟨false, 0, 0⟩ ∧
        t = { s with caps := t.caps, reply := .ok }) ∧
    (¬(Quiescent s ∧ h.rid.toNat < s.par.nregion) → Refuses s (.setCap h)) ∧
    (¬(Quiescent s ∧ i.toNat < s.par.nregion) → Refuses s (.clrCap i)) ∧
    (Quiescent s → n < s.par.nsys →
      ∃ t, perform (.driver (.setSvc n e)) s = .next t ∧ t.svc n = e ∧ (∀ k, k ≠ n → t.svc k = s.svc k) ∧
        t = { s with svcs := t.svcs, reply := .ok }) ∧
    (¬(Quiescent s ∧ n < s.par.nsys) → Refuses s (.setSvc n e)) ∧
    (Quiescent s → perform (.driver (.setTimeout x)) s = .next { s with tdTimeout := x, reply := .ok }) ∧
    (¬Quiescent s → Refuses s (.setTimeout x))

/-- RUN, STOP, RESUME_DEBUG, TERMINATE with no entry pending, the refusals of these and of STEP, and snapshots, which
change nothing (60_exceptions.md R450, R452 to R454). -/
def Obligations.DriverRunControl : Prop :=
  ∀ s : State,
    (s.coreOwner ≠ 0 → perform (.driver .run) s = .next { s with coreRun := true, reply := .ok }) ∧
    (s.coreOwner = 0 → Refuses s .run) ∧
    perform (.driver .stop) s = .next { s with coreRun := false, reply := .ok } ∧
    (s.tdState = .waitDebug → ∃ t, perform (.driver .resumeDebug) s = .next t ∧
      Resumed s t (s.readReg 10) (s.readReg 11) ∧ t = { s with
        pc := t.pc, coreState := t.coreState, tdState := t.tdState, tdDlValid := t.tdDlValid, tr := t.tr
        reply := .ok }) ∧
    (s.tdState ≠ .waitDebug → Refuses s .resumeDebug) ∧
    (s.coreState = .fetching ∨ s.coreState = .trapped → s.log.state ≠ .pending →
      ∃ t, perform (.driver .terminate) s = .next { t with reply := .ok } ∧
        Terminated s t .none 0 s.pcVal ∧ t.csrs = s.csrs) ∧
    (s.coreState = .halted ∨ s.coreState = .terminated → Refuses s .terminate) ∧
    (¬(s.coreRun = false ∧ s.coreState = .fetching ∧ s.coreOwner ≠ 0) →
      perform .driverStep s = .next { s with reply := .refused }) ∧
    (∀ item, ∃ v, perform (.driver (.snapshot item)) s = .next { s with reply := .snapshot v })

/-! ## AddressSpace operations -/

/-- MAP: its four checks in order, the lowest free slot, and no byte changed; the returned handle names the new Region and is
given to the driver (44_addressspace_ops.md R304, R311, 60_exceptions.md R457). Of the returned region-id of a slot at or above
2^16, which log entry 13 chooses, nothing is said. -/
def Obligations.MapOperation : Prop :=
  ∀ (s : State) (owner : Owner) (base len : BitVec 64) (perms : Perms) (c : DriverCmd),
    c = .map owner base len perms →
    (BadPerms owner perms → Errs s c .invalidPermissions) ∧
    (¬BadPerms owner perms → (len = 0 ∨ s.par.memSize < base.toNat + len.toNat) → Errs s c .outOfRange) ∧
    (¬BadPerms owner perms → len ≠ 0 → base.toNat + len.toNat ≤ s.par.memSize →
      ((∃ j a, j < s.par.nregion ∧ Covers s j a ∧ base.toNat ≤ a ∧ a < base.toNat + len.toNat) → Errs s c .noSpace) ∧
      ((∀ i, i < s.par.nregion → (s.region i).valid = true ∨ (s.region i).gen.toNat = 2 ^ 64 - 1) →
        Errs s c .noSpace) ∧
      (∀ i, (∀ j a, j < s.par.nregion → Covers s j a → ¬(base.toNat ≤ a ∧ a < base.toNat + len.toNat)) →
        i < s.par.nregion → (s.region i).valid = false → (s.region i).gen.toNat < 2 ^ 64 - 1 →
        (∀ j, j < i → (s.region j).valid = true ∨ (s.region j).gen.toNat = 2 ^ 64 - 1) →
        ∃ t h, perform (.driver c) s = .next t ∧
          OnlyRegion s t i ⟨true, base, len, perms, owner, (s.region i).gen⟩ ∧
          (i < 2 ^ 16 → h.handle = ⟨i, perms, (s.region i).gen⟩) ∧
          t = { s with regions := t.regions, given := s.given.insert h, reply := .handle h }))

/-- PROTECT: stale, then the permission, then the new permission alone, and the new handle given to the driver; the generation
and every byte stay (44_addressspace_ops.md R305, R311, 60_exceptions.md R457). -/
def Obligations.ProtectOperation : Prop :=
  ∀ (s : State) (h h' : PortHandle) (i : Nat) (p : Perms), i = h.rid.toNat → h' = ⟨h.rid, p, h.gen⟩ →
    (IsStale s h.handle → Errs s (.protect h p) .stale) ∧
    (¬IsStale s h.handle → BadPerms (s.region i).owner p → Errs s (.protect h p) .invalidPermissions) ∧
    (¬IsStale s h.handle → ¬BadPerms (s.region i).owner p →
      ∃ t, perform (.driver (.protect h p)) s = .next t ∧ OnlyRegion s t i { s.region i with perms := p } ∧
        t = { s with regions := t.regions, given := s.given.insert h', reply := .handle h' })

/-- UNMAP and REVOKE with the generation increment: after either the handle is stale; REVOKE gives the driver the new handle;
UNMAP, and REVOKE at the last generation, clear the descriptor and zero the bytes (44_addressspace_ops.md R307 to R309, R311,
60_exceptions.md R457). -/
def Obligations.UnmapAndRevoke : Prop :=
  ∀ (s : State) (h h' : PortHandle) (i : Nat) (g : Gen),
    i = h.rid.toNat → g = (s.region i).gen → h' = ⟨h.rid, h.mask, g + 1⟩ →
    (IsStale s h.handle → Errs s (.unmap h) .stale ∧ Errs s (.revoke h) .stale) ∧
    (¬IsStale s h.handle →
      (∃ t, perform (.driver (.unmap h)) s = .next t ∧ IsStale t h.handle ∧
        OnlyRegion s t i ⟨false, 0, 0, 0, 0, if g.toNat = 2 ^ 64 - 1 then g else g + 1⟩ ∧
        (∀ a, Covers s i a → t.byte a = 0) ∧ (∀ a, ¬Covers s i a → t.byte a = s.byte a) ∧
        t = { s with regions := t.regions, mem := t.mem, reply := .ok }) ∧
      (g.toNat < 2 ^ 64 - 1 → ∃ t, perform (.driver (.revoke h)) s = .next t ∧ IsStale t h.handle ∧
        ¬IsStale t h'.handle ∧ OnlyRegion s t i { s.region i with gen := g + 1 } ∧
        t = { s with regions := t.regions, given := s.given.insert h', reply := .handle h' }) ∧
      (g.toNat = 2 ^ 64 - 1 → ∃ t, perform (.driver (.revoke h)) s = .next t ∧ IsStale t h.handle ∧
        OnlyRegion s t i ⟨false, 0, 0, 0, 0, g⟩ ∧
        (∀ a, Covers s i a → t.byte a = 0) ∧ (∀ a, ¬Covers s i a → t.byte a = s.byte a) ∧
        t = { s with regions := t.regions, mem := t.mem, reply := .retired }))

/-- READ and WRITE at both ports and LOAD_BYTES at the driver's: the access check, then exactly the bytes asked for
(44_addressspace_ops.md R301 to R303, R311). -/
def Obligations.PortAccesses : Prop :=
  ∀ (s : State) (h : PortHandle) (addr len : BitVec 64) (l : List Byte) (e : OpError),
    (s.asCheck h.handle addr.toNat len.toNat .read = .ok () → ∃ b : List Byte, b.length = len.toNat ∧
      (∀ k, k < len.toNat → b[k]? = some (s.byte (addr.toNat + k))) ∧
      perform (.driver (.read h addr len)) s = .next { s with reply := .bytes b } ∧
      perform (.service (.read h addr len)) s = .next { s with reply := .bytes b }) ∧
    (s.asCheck h.handle addr.toNat len.toNat .read = .error e → Errs s (.read h addr len) e ∧
      perform (.service (.read h addr len)) s = .next { s with reply := .error e }) ∧
    (s.asCheck h.handle addr.toNat l.length .write = .ok () → ∃ t, perform (.driver (.write h addr l)) s = .next t ∧
      perform (.service (.write h addr l)) s = .next t ∧
      (∀ k, k < l.length → l[k]? = some (t.byte (addr.toNat + k))) ∧
      (∀ a, a < addr.toNat ∨ addr.toNat + l.length ≤ a → t.byte a = s.byte a) ∧
      t = { s with mem := t.mem, reply := .ok }) ∧
    (s.asCheck h.handle addr.toNat l.length .write = .error e → Errs s (.write h addr l) e ∧
      perform (.service (.write h addr l)) s = .next { s with reply := .error e }) ∧
    (s.asCheck h.handle addr.toNat l.length .nothing = .error e → Errs s (.loadBytes h addr l) e) ∧
    (s.asCheck h.handle addr.toNat l.length .nothing = .ok () → (s.region h.rid.toNat).owner = 0 →
      Errs s (.loadBytes h addr l) .denied) ∧
    (s.asCheck h.handle addr.toNat l.length .nothing = .ok () → (s.region h.rid.toNat).owner ≠ 0 →
      ∃ t, perform (.driver (.loadBytes h addr l)) s = .next t ∧
      (∀ k, k < l.length → l[k]? = some (t.byte (addr.toNat + k))) ∧
      (∀ a, a < addr.toNat ∨ addr.toNat + l.length ≤ a → t.byte a = s.byte a) ∧
      t = { s with mem := t.mem, reply := .ok })

/-! ## The rings -/

/-- The frame layout: the fields at their bit positions with zero padding, and back, the padding ignored
(45_ringchannel_ops.md R336). -/
def Obligations.FrameLayout : Prop :=
  (∀ f : Frame, frameOf f.toBits = f ∧ f.toBits.toNat = f.sequence.toNat + f.tag.toNat * 2 ^ 32 +
    f.serviceId.toNat * 2 ^ 48 + f.length.toNat * 2 ^ 64 + f.payloadOffset.toNat * 2 ^ 96 + f.status.toNat * 2 ^ 160) ∧
  ∀ b : FrameBits, (frameOf b).sequence.toNat = b.toNat % 2 ^ 32 ∧ (frameOf b).tag.toNat = b.toNat / 2 ^ 32 % 2 ^ 16 ∧
    (frameOf b).serviceId.toNat = b.toNat / 2 ^ 48 % 2 ^ 16 ∧ (frameOf b).length.toNat = b.toNat / 2 ^ 64 % 2 ^ 32 ∧
    (frameOf b).payloadOffset.toNat = b.toNat / 2 ^ 96 % 2 ^ 64 ∧ (frameOf b).status.toNat = b.toNat / 2 ^ 160 % 2 ^ 8

/-- A ring of 2^k slots is a first-in first-out queue of at most 2^k frames, at every value of the counters; at the service
port its operations are those of REQ and RSP (45_ringchannel_ops.md R340, R341, 60_exceptions.md R455). -/
def Obligations.RingIsFifoQueue : Prop :=
  (∀ (k cap : Nat) (r : Ring) (f : FrameBits), k ≤ 31 → cap = 2 ^ k → r.count ≤ cap →
    (framesOf cap r).length = r.count ∧
    (r.count = cap → tryPublish cap r f = none) ∧
    (r.count < cap → ∃ r', tryPublish cap r f = some r' ∧ framesOf cap r' = framesOf cap r ++ [f] ∧
      r'.head = r.head + 1 ∧ r'.tail = r.tail ∧
      ∀ j, r'.slot j = if j = r.head.toNat % cap then f else r.slot j) ∧
    (framesOf cap r = [] → tryConsume cap r = none) ∧
    (∀ g l, framesOf cap r = g :: l → g = r.slot (r.tail.toNat % cap) ∧
      ∃ r', tryConsume cap r = some (g, r') ∧ framesOf cap r' = l ∧ r'.head = r.head ∧ r'.tail = r.tail + 1 ∧ r'.slots = r.slots)) ∧
  ∀ (s : State) (f : FrameBits),
    perform (.service (.tryPublish f)) s = .next (match tryPublish s.par.ringCap s.rsp f with
      | some r => { s with rsp := r, reply := .published true }
      | none => { s with reply := .published false }) ∧
    perform (.service .tryConsume) s = .next (match tryConsume s.par.ringCap s.req with
      | some (g, r) => { s with req := r, reply := .consumed (some g) }
      | none => { s with reply := .consumed none })

/-! ## Syscalls -/

/-- LOCAL PROTECT and LOCAL REVOKE: the faults in the order of their tests; otherwise the operation through the held handle,
the new handle held, 0 in x10 and the core resumed (60_exceptions.md R432, R433). -/
def Obligations.LocalProtectRevoke : Prop :=
  ∀ (s : State) (e : SvcEntry) (rid : Nat) (p : Word) (c : Cap) (r : Region), Calls s e → e.cls = .localCall →
    rid = (s.trapReg 10).toNat → p = s.trapReg 11 → c = s.cap rid → r = s.region rid →
    (e.localOp = .protect ∨ e.localOp = .revoke → (s.par.nregion ≤ rid ∨ c.valid = false) →
      ClassifiesToFault s .staleHandle (s.trapReg 10)) ∧
    (e.localOp = .protect → rid < s.par.nregion → c.valid = true →
      (8 ≤ p.toNat → ClassifiesToFault s .invalidPermissions p) ∧
      (p.toNat < 8 → IsStale s ⟨rid, c.mask, c.gen⟩ → ClassifiesToFault s .staleHandle (s.trapReg 10)) ∧
      (p.toNat < 8 → ¬IsStale s ⟨rid, c.mask, c.gen⟩ → BadPerms r.owner (p.setWidth 3) →
        ClassifiesToFault s .invalidPermissions p) ∧
      (p.toNat < 8 → ¬IsStale s ⟨rid, c.mask, c.gen⟩ → ¬BadPerms r.owner (p.setWidth 3) →
        ∃ t, perform (.td .classify) s = .next t ∧ Resumed s t 0 (s.readReg 11) ∧
          OnlyRegion s t rid { r with perms := p.setWidth 3 } ∧ OnlyCap s t rid ⟨true, p.setWidth 3, c.gen⟩ ∧
          t = { s with
            regs := t.regs, pc := t.pc, coreState := t.coreState, tdState := t.tdState, tdDlValid := t.tdDlValid
            tr := t.tr, regions := t.regions, caps := t.caps })) ∧
    (e.localOp = .revoke → rid < s.par.nregion → c.valid = true →
      (IsStale s ⟨rid, c.mask, c.gen⟩ → ClassifiesToFault s .staleHandle (s.trapReg 10)) ∧
      (¬IsStale s ⟨rid, c.mask, c.gen⟩ → r.gen.toNat < 2 ^ 64 - 1 →
        ∃ t, perform (.td .classify) s = .next t ∧ Resumed s t 0 (s.readReg 11) ∧
          OnlyRegion s t rid { r with gen := r.gen + 1 } ∧ OnlyCap s t rid ⟨true, c.mask, r.gen + 1⟩ ∧
          t = { s with
            regs := t.regs, pc := t.pc, coreState := t.coreState, tdState := t.tdState, tdDlValid := t.tdDlValid
            tr := t.tr, regions := t.regions, caps := t.caps }) ∧
      (¬IsStale s ⟨rid, c.mask, c.gen⟩ → r.gen.toNat = 2 ^ 64 - 1 →
        ∃ t, perform (.td .classify) s = .next t ∧ Resumed s t 0 (s.readReg 11) ∧
          OnlyRegion s t rid ⟨false, 0, 0, 0, 0, r.gen⟩ ∧ OnlyCap s t rid { c with valid := false } ∧
          (∀ a, Covers s rid a → t.byte a = 0) ∧ (∀ a, ¬Covers s rid a → t.byte a = s.byte a) ∧
          t = { s with
            regs := t.regs, pc := t.pc, coreState := t.coreState, tdState := t.tdState, tdDlValid := t.tdDlValid
            tr := t.tr, regions := t.regions, caps := t.caps, mem := t.mem }))

/-- A BLOCKING syscall, or one of class PROV_EXT for which `ProvExt` gives no effect that passes VALID_EFFECT: the payload
check, then the deadline and, with a free slot, the request frame in REQ and the core left waiting (60_exceptions.md R435,
46_speclog_ops.md R372). The default `ProvExt` gives none (00_scope.md R8). -/
def Obligations.BlockingPublish : Prop :=
  (∀ (x : Xlen) (s : State) (e : SvcEntry) (eff : Effect), s.par = Params.defaults x → ¬Provides s e eff) ∧
  ∀ (s : State) (e : SvcEntry) (len : BitVec 32), Calls s e →
    (e.cls = .blocking ∨ e.cls = .speculative ∧ e.prov = .ext ∧ ∀ eff, ¬Provides s e eff) →
    len.toNat = (s.trapReg 11).toNat % 2 ^ 32 →
    (len ≠ 0 → ∀ x, s.cpuAccess (s.trapReg 10).toNat len.toNat .read = .error x →
      ClassifiesToFault s (if x = .stale then .staleHandle else .memoryViolation) (s.trapReg 10)) ∧
    (len = 0 ∨ s.cpuAccess (s.trapReg 10).toNat len.toNat .read = .ok () →
      (s.req.count = s.par.ringCap → perform (.td .classify) s = .next { s with
        tdDeadline := deadlineOf s, tdDlValid := true, tdState := .waitSlot }) ∧
      (s.req.count < s.par.ringCap → s.par.legal = true → ∃ t, perform (.td .classify) s = .next t ∧
        framesOf s.par.ringCap t.req = framesOf s.par.ringCap s.req ++
          [Frame.toBits ⟨s.req.head, 0, e.serviceId, len, s.trapReg 10, 0⟩] ∧
        t = { s with
          req := t.req, tdDeadline := deadlineOf s, tdDlValid := true
          tdOut := ⟨true, s.req.head, e.serviceId⟩, tdState := .waitResponse }))

/-- A response to the outstanding request gives its result, or all ones and the status; a response that matches neither the
entry nor the request is consumed and discarded (60_exceptions.md R438, R440, R441). That a consumption tried on an empty ring,
which the rules do not enable, passes and changes nothing is the model's choice (log entry 4). -/
def Obligations.BlockingResponse : Prop :=
  ∀ (s : State) (b : FrameBits) (l : List FrameBits) (f : Frame) (entry request : Prop), s.par.legal = true → f = frameOf b →
    (entry ↔ s.log.state = .pending ∧ f.sequence = s.log.seq ∧ f.serviceId = s.log.svc) →
    (request ↔ s.tdOut.valid = true ∧ f.sequence = s.tdOut.seq ∧ f.serviceId = s.tdOut.svc) →
    (framesOf s.par.ringCap s.rsp = [] → perform (.td .consume) s = .next s) ∧
    (framesOf s.par.ringCap s.rsp = b :: l → f.tag = 1 → ¬entry → request →
      ∃ t, perform (.td .consume) s = .next t ∧ framesOf s.par.ringCap t.rsp = l ∧
        (if f.status = 1 then Resumed s t (wrap s.par.xlen f.payloadOffset.toNat) (wrap s.par.xlen f.length.toNat)
          else Resumed s t (allOnes s.par.xlen) (wrap s.par.xlen f.status.toNat)) ∧
        t = { s with
          rsp := t.rsp, tdOut := { s.tdOut with valid := false }, regs := t.regs, pc := t.pc
          coreState := t.coreState, tdState := t.tdState, tdDlValid := t.tdDlValid, tr := t.tr }) ∧
    (framesOf s.par.ringCap s.rsp = b :: l → (f.tag ≠ 1 ∨ ¬entry ∧ ¬request) →
      ∃ t, perform (.td .consume) s = .next t ∧ framesOf s.par.ringCap t.rsp = l ∧ t = { s with rsp := t.rsp })

/-- A SPECULATIVE syscall. With PROV_ALLOC: no resource, REQ full, or the lowest pool Region that fits handed to the program
with the entry opened, the request published and the core resumed (46_speclog_ops.md R370, R374, R375, 60_exceptions.md R434,
R444); what x11 holds for a slot at or above 2^XLEN is the model's choice (log entry 18). With PROV_EXT and an effect that passes
VALID_EFFECT: REQ full, or the effect applied in the same way (46_speclog_ops.md R372); valid Regions are disjoint, as
10_state.md R35 b says. -/
def Obligations.SpeculativeAllocation : Prop :=
  (∀ (s : State) (e : SvcEntry) (eff : Effect), Calls s e → e.cls = .speculative → e.prov = .ext → Provides s e eff →
    (∀ i j a, Covers s i a → Covers s j a → i = j) →
    (s.req.count = s.par.ringCap → perform (.td .classify) s = .next { s with
      tdDeadline := deadlineOf s, tdDlValid := true, tdState := .waitSlot }) ∧
    (s.req.count < s.par.ringCap → s.par.legal = true →
      ∃ t, perform (.td .classify) s = .next t ∧ Speculated s t e.serviceId eff)) ∧
  ∀ (s : State) (e : SvcEntry) (n : Nat), Calls s e → e.cls = .speculative → e.prov = .alloc →
    n = (s.trapReg 10).toNat → s.mem.wf →
    ((n = 0 ∨ 2 ^ 32 ≤ n ∨ ∀ i, ¬Serves s n i) → ∃ t, perform (.td .classify) s = .next t ∧
      Resumed s t (allOnes s.par.xlen) 0xFE ∧ t = { s with
        regs := t.regs, pc := t.pc, coreState := t.coreState, tdState := t.tdState, tdDlValid := t.tdDlValid
        tr := t.tr, tdOut := { s.tdOut with valid := false } }) ∧
    (∀ i, n ≠ 0 → n < 2 ^ 32 → Serves s n i → (∀ j, j < i → ¬Serves s n j) →
      (s.req.count = s.par.ringCap → perform (.td .classify) s = .next { s with
        tdDeadline := deadlineOf s, tdDlValid := true, tdState := .waitSlot }) ∧
      (s.req.count < s.par.ringCap → s.par.legal = true → ∃ t, perform (.td .classify) s = .next t ∧
        Resumed s t (wrap s.par.xlen (s.region i).base.toNat) (wrap s.par.xlen i) ∧
        OnlyRegion s t i { s.region i with perms := 3, owner := s.coreOwner } ∧
        OnlyCap s t i ⟨true, 3, (s.region i).gen⟩ ∧ (∀ a, t.byte a = s.byte a) ∧
        framesOf s.par.ringCap t.req = framesOf s.par.ringCap s.req ++
          [Frame.toBits ⟨s.req.head, 0, e.serviceId, BitVec.ofNat 32 n, (s.region i).base, 0⟩] ∧
        (∃ m, t.log = ⟨.pending, s.req.head, e.serviceId, [m], deadlineOf s, s.tr⟩ ∧ m.rid = i ∧
          m.desc = s.region i ∧ m.cap = s.cap i ∧
          ∀ a, inRange (s.region i).base.toNat (s.region i).length.toNat a = true → byteAt m.bytes a = s.byte a) ∧
        t = { s with
          regs := t.regs, pc := t.pc, coreState := t.coreState, tdState := t.tdState, tdDlValid := t.tdDlValid
          tr := t.tr, regions := t.regions, caps := t.caps, mem := t.mem, req := t.req, log := t.log
          tdDeadline := deadlineOf s }))

/-! ## The pending entry -/

/-- A matching response commits the pending entry or rolls it back with its status, and the deadline rolls it back with
0xFF (46_speclog_ops.md R376, 60_exceptions.md R438, R439, R442). That the deadline's transition, tried off its enabling
condition, passes and changes nothing is the model's choice (log entry 4). -/
def Obligations.EntryResolution : Prop :=
  ∀ s : State, s.par.legal = true →
    (∀ b l f, f = frameOf b → framesOf s.par.ringCap s.rsp = b :: l → s.log.state = .pending → f.tag = 1 →
      f.sequence = s.log.seq → f.serviceId = s.log.svc →
      (f.status = 1 → ∃ t, perform (.td .consume) s = .next t ∧ framesOf s.par.ringCap t.rsp = l ∧ t = { s with
        rsp := t.rsp, log := { s.log with images := [], state := .empty }
        logLast := ⟨s.log.seq, .committed, 0⟩ }) ∧
      (f.status ≠ 1 → ∃ r, perform (.td .consume) s = .next (rollback f.status { s with rsp := r }) ∧
        framesOf s.par.ringCap r = l)) ∧
    (s.log.state = .pending → s.log.deadline.toNat ≤ s.tdNow.toNat →
      perform (.td .logDeadline) s = .next (rollback 0xFF s)) ∧
    (s.log.state ≠ .pending ∨ s.tdNow.toNat < s.log.deadline.toNat → perform (.td .logDeadline) s = .next s)

/-- ROLLBACK: the touched Regions, their bytes and capability slots as in the before-images, the registers of the syscall,
the outcome and the note recorded, a later trap discarded, and SpeculationRolledBack delivered at the syscall
(46_speclog_ops.md R378, R380, R381). -/
def Obligations.RollbackRestores : Prop :=
  ∀ (s t : State) (reason : BitVec 8) (v e h : Word), ImagesApart s → t = rollback reason s →
    v = wrap s.par.xlen reason.toNat → e = wrap s.par.xlen s.log.tr.savedPc.toNat → h = s.readCsr csrThandler →
    Restored s t ∧
    (∀ r, r ≠ 0 → t.readReg r = s.log.tr.reg s.par.xlen r) ∧
    t.logLast = ⟨s.log.seq, .rolledBack, reason⟩ ∧
    CausesWritten t .speculationRolledBack v e ∧
    t.tr.valid = false ∧ t.tdState = .idle ∧ t.tdDlValid = false ∧
    (h.toNat % 2 = 1 → t.coreState = .fetching ∧ t.pcVal = wrap s.par.xlen (4 * (h.toNat / 4)) ∧
      t.readCsr csrThandler = wrap s.par.xlen (2 * (h.toNat / 2)) ∧ t.tdOut = s.tdOut ∧
      t.notes = s.notes ++ [⟨.rollback, .speculationRolledBack, v, e, s.log.tr.reg s.par.xlen 17⟩]) ∧
    (h.toNat % 2 = 0 → t.coreState = .terminated ∧ t.pcVal = e ∧ t.readCsr csrThandler = h ∧
      t.tdOut = { s.tdOut with valid := false } ∧
      t.notes = s.notes ++ [⟨.rollback, .speculationRolledBack, v, e, s.log.tr.reg s.par.xlen 17⟩,
        ⟨.terminate, .speculationRolledBack, v, e, 0⟩]) ∧
    (∀ c, otherCsr c → t.readCsr c = s.readCsr c) ∧
    t = { s with
      regs := t.regs, pc := t.pc, csrs := t.csrs, coreState := t.coreState, tdState := t.tdState
      tdDlValid := t.tdDlValid, tdOut := t.tdOut, tr := { s.tr with valid := false }, regions := t.regions
      caps := t.caps, mem := t.mem, log := t.log, logLast := t.logLast, notes := t.notes }

/-- TERMINATE with an entry pending: the touched Regions are restored, the outcome is recorded with reason 0xFD, and the
registers, the pc and the CSR bank stay (46_speclog_ops.md R379, 60_exceptions.md R417, R453). -/
def Obligations.TerminationRestores : Prop :=
  ∀ s : State, ImagesApart s → s.log.state = .pending → s.coreState = .fetching ∨ s.coreState = .trapped →
    ∃ t, perform (.driver .terminate) s = .next { t with reply := .ok } ∧ Restored s t ∧
      t.logLast = ⟨s.log.seq, .rolledBack, 0xFD⟩ ∧
      t = { s with
        coreState := .terminated, tdState := .idle, tdDlValid := false, tdOut := { s.tdOut with valid := false }
        tr := { s.tr with valid := false }, notes := s.notes ++ [⟨.terminate, .none, 0, s.pcVal, 0⟩]
        regions := t.regions, caps := t.caps, mem := t.mem, log := t.log, logLast := t.logLast }

/-- TICK, the deadline of a request, the retry after backpressure and the release of a waiting syscall, each with its
enabling condition (60_exceptions.md R436, R437, R443 to R445). That the last three, tried off their conditions, pass and change
nothing is the model's choice (log entry 4). -/
def Obligations.TimeoutsAndRetries : Prop :=
  ∀ (s : State) (late : Prop), (late ↔ (s.tdState = .waitResponse ∨ s.tdState = .waitSlot) ∧ s.tdDlValid = true ∧
      s.tdDeadline.toNat ≤ s.tdNow.toNat) →
    perform .tick s = .next { s with tdNow := BitVec.ofNat 64 (min (s.tdNow.toNat + 1) (2 ^ 64 - 1)) } ∧
    (late → ∃ t, perform (.td .requestDeadline) s = .next t ∧ Resumed s t (allOnes s.par.xlen) 0xFF ∧ t = { s with
      regs := t.regs, pc := t.pc, coreState := t.coreState, tdState := t.tdState, tdDlValid := t.tdDlValid
      tr := t.tr, tdOut := { s.tdOut with valid := false } }) ∧
    (¬late → perform (.td .requestDeadline) s = .next s) ∧
    (s.tdState = .waitSlot → s.req.count ≠ s.par.ringCap →
      perform (.td .retry) s = .next { s with tdState := .classify }) ∧
    (s.tdState ≠ .waitSlot ∨ s.req.count = s.par.ringCap → perform (.td .retry) s = .next s) ∧
    (s.tdState = .waitSpec → s.log.state = .empty →
      perform (.td .release) s = .next { s with tdState := .classify }) ∧
    (s.tdState ≠ .waitSpec ∨ s.log.state ≠ .empty → perform (.td .release) s = .next s)

/-! ## The machine as a whole -/

/-- No instruction changes the Region table, the capability table, the rings, the log, the service table, the owner, the
run bit, the clock or the handle values given to the port agents, and a byte changes only inside a range the write check passed
(10_state.md R28, R30, R34, R44, 20_memory.md R97, 60_exceptions.md R457). -/
def Obligations.InstructionsLeaveProtectionState : Prop :=
  ∀ (i : Instr) (s t : State), exec i s = .next t →
    (t.regions = s.regions ∧ t.caps = s.caps ∧ t.req = s.req ∧ t.rsp = s.rsp ∧ t.log = s.log ∧ t.logLast = s.logLast ∧
      t.svcs = s.svcs ∧ t.coreOwner = s.coreOwner ∧ t.coreRun = s.coreRun ∧ t.par = s.par ∧ t.given = s.given ∧
      t.tdOut = s.tdOut ∧ t.tdDeadline = s.tdDeadline ∧ t.tdNow = s.tdNow ∧ t.tdTimeout = s.tdTimeout) ∧
    (∀ a, t.byte a ≠ s.byte a → ∃ b n, s.cpuAccess b n .write = .ok () ∧ b ≤ a ∧ a < b + n)

/-- The pc stays 4-byte aligned, with every saved pc it can return to (10_state.md R23). -/
def Obligations.PcStaysAligned : Prop :=
  ∀ s t : State, step s = .next t → AlignedPc s → AlignedPc t

/-- No Region is ever writable and executable (10_state.md R35 a, 20_memory.md R102). -/
def Obligations.WriteXorExecuteIsKept : Prop :=
  ∀ s t : State, step s = .next t → WriteXorExecute s → WriteXorExecute t

/-- The cross-block invariants are kept (10_state.md R46). -/
def Obligations.CrossBlockIsKept : Prop :=
  ∀ s t : State, step s = .next t → CrossBlock s → CrossBlock t

/-- Every table stays in its canonical form, every Region and every byte that is not 0 stays in the store, and the rings stay
within their capacity (10_state.md R33, R35 c, R38). -/
def Obligations.StoredFormIsKept : Prop :=
  ∀ s t : State, step s = .next t → Canonical s → InStore s → RingBounds s → Canonical t ∧ InStore t ∧ RingBounds t

/-- No generation ever decreases (10_state.md R35 d). -/
def Obligations.GenerationsNeverDecrease : Prop :=
  ∀ s t : State, step s = .next t → ∀ i, (s.region i).gen.toNat ≤ (t.region i).gen.toNat

/-- Every free byte is 0 and valid Regions are disjoint, after every step that keeps the driver's duty (10_state.md R35 b, e,
20_memory.md R112, 60_exceptions.md R458 b). -/
def Obligations.ZeroPoolIsKept : Prop :=
  ∀ s t : State, step s = .next t → keepsDuty s (nextMove s) → ZeroPool s → ZeroPool t

/-- HALTED and TERMINATED are final, and the registers, the pc and the CSR bank keep their values (10_state.md R27,
60_exceptions.md R417, R431). -/
def Obligations.FinalStatesStay : Prop :=
  ∀ s t : State, step s = .next t → CrossBlock s → s.coreState = .halted ∨ s.coreState = .terminated →
    t.coreState = s.coreState ∧ t.regs = s.regs ∧ t.pc = s.pc ∧ t.csrs = s.csrs ∧ t.tdState = .idle ∧ t.log = s.log

/-- Every invariant holds at reset, whatever the parameters (10_state.md R48); `State.reset` is the instance at the default
parameters with XLEN = 64, the model's choice (log entry 1). -/
def Obligations.InvariantsHoldAtReset : Prop :=
  State.reset = State.resetFor (Params.defaults .rv64) ∧
  ∀ (p : Params) (s : State), s = State.resetFor p →
    AlignedPc s ∧ WriteXorExecute s ∧ CrossBlock s ∧ Canonical s ∧ InStore s ∧ RingBounds s ∧ ZeroPool s
end

