-- ==== Sys2Proof/Laws/Bits.lean ====
section
/-! SUPPORT. The bit operations of Machine/Bits.lean as integer arithmetic modulo 2^XLEN, in the terms of Safety.lean. -/

namespace Sys2Proof.Machine

open Sys2Proof.Safety

theorem bits_cases (x : Xlen) : x.bits = 32 ∨ x.bits = 64 := by cases x <;> simp [Xlen.bits]

theorem trunc_toNat (x : Xlen) (v : Word) : (trunc x v).toNat = v.toNat % 2 ^ x.bits := by
  cases x
  · simp only [trunc, Xlen.bits, BitVec.toNat_setWidth]
    omega
  · simp only [trunc, Xlen.bits]
    omega

theorem trunc_lt (x : Xlen) (v : Word) : (trunc x v).toNat < 2 ^ x.bits := by
  rw [trunc_toNat]
  exact Nat.mod_lt _ (Nat.two_pow_pos _)

theorem trunc_of_lt {x : Xlen} {v : Word} (h : v.toNat < 2 ^ x.bits) : trunc x v = v :=
  BitVec.eq_of_toNat_eq (by rw [trunc_toNat, Nat.mod_eq_of_lt h])

@[simp] theorem trunc_trunc (x : Xlen) (v : Word) : trunc x (trunc x v) = trunc x v := trunc_of_lt (trunc_lt x v)

@[simp] theorem trunc_zero (x : Xlen) : trunc x 0#64 = 0#64 := by cases x <;> rfl

theorem wrap_toNat (x : Xlen) (z : Int) : (wrap x z).toNat = (z % 2 ^ x.bits).toNat := by
  have h0 : 0 ≤ z % (2 ^ x.bits : Int) := Int.emod_nonneg _ (by positivity)
  have h1 : z % (2 ^ x.bits : Int) < 2 ^ x.bits := Int.emod_lt_of_pos _ (by positivity)
  unfold wrap
  rw [BitVec.toNat_ofInt]
  rcases bits_cases x with h | h <;> (rw [h] at h0 h1 ⊢; norm_num at h0 h1 ⊢ <;> omega)

@[simp] theorem trunc_wrap (x : Xlen) (z : Int) : trunc x (wrap x z) = wrap x z := by
  apply trunc_of_lt
  rw [wrap_toNat]
  rcases bits_cases x with h | h <;> rw [h] <;> norm_num <;> omega

theorem wrap_congr {x : Xlen} {a b : Int} (h : a % 2 ^ x.bits = b % 2 ^ x.bits) : wrap x a = wrap x b := by
  unfold wrap
  rw [h]

/-- A word is determined modulo 2^XLEN by any integer that agrees with it modulo 2^64. -/
theorem trunc_eq_wrap {x : Xlen} {v : Word} {z : Int} (h : (v.toNat : Int) % 2 ^ 64 = z % 2 ^ 64) :
    trunc x v = wrap x z := by
  refine BitVec.eq_of_toNat_eq ?_
  rw [trunc_toNat, wrap_toNat]
  rcases bits_cases x with hb | hb <;> rw [hb] <;> norm_num at h ⊢ <;> omega

theorem trunc_eq_wrap_toNat (x : Xlen) (v : Word) : trunc x v = wrap x v.toNat := trunc_eq_wrap rfl

/-- Truncation of an operand does not change a truncated sum. -/
theorem trunc_add_left (x : Xlen) (a b : Word) : trunc x (trunc x a + b) = trunc x (a + b) := by
  refine BitVec.eq_of_toNat_eq ?_
  simp only [trunc_toNat, BitVec.toNat_add]
  rcases bits_cases x with hb | hb <;> rw [hb] <;> omega

theorem trunc_add_right (x : Xlen) (a b : Word) : trunc x (a + trunc x b) = trunc x (a + b) := by
  rw [BitVec.add_comm, trunc_add_left, BitVec.add_comm]

theorem trunc_and (x : Xlen) (a b : Word) : trunc x (a &&& b) = trunc x a &&& trunc x b := by
  cases x <;> simp [trunc, BitVec.setWidth_and]

theorem trunc_or (x : Xlen) (a b : Word) : trunc x (a ||| b) = trunc x a ||| trunc x b := by
  cases x <;> simp [trunc, BitVec.setWidth_or]

theorem trunc_xor (x : Xlen) (a b : Word) : trunc x (a ^^^ b) = trunc x a ^^^ trunc x b := by
  cases x <;> simp [trunc, BitVec.setWidth_xor]

/-- Truncation keeps the two low bits. -/
theorem trunc_mod_four (x : Xlen) (v : Word) : (trunc x v).toNat % 4 = v.toNat % 4 := by
  rw [trunc_toNat]
  rcases bits_cases x with h | h <;> rw [h] <;> omega

@[simp] theorem trunc_sext (x : Xlen) {n : Nat} (v : BitVec n) : trunc x (sext x v) = sext x v := trunc_trunc _ _

theorem toInt_signExtend_of_le {n : Nat} (v : BitVec n) (h : n ≤ 64) : (v.signExtend 64).toInt = v.toInt :=
  BitVec.toInt_signExtend_of_le h

/-- `sext` is the signed value modulo 2^XLEN. -/
theorem sext_eq_wrap (x : Xlen) {n : Nat} (v : BitVec n) (h : n ≤ 64) : sext x v = wrap x v.toInt := by
  refine trunc_eq_wrap ?_
  rw [← toInt_signExtend_of_le v h, BitVec.toInt_eq_toNat_bmod]
  exact Int.bmod_emod.symm

/-- An XLEN-bit value plus a signed one. -/
theorem trunc_add_sext (x : Xlen) (a : Word) {n : Nat} (v : BitVec n) (h : n ≤ 64) :
    trunc x (a + sext x v) = wrap x (a.toNat + v.toInt) := by
  unfold sext
  rw [trunc_add_right]
  refine trunc_eq_wrap ?_
  rw [← toInt_signExtend_of_le v h, BitVec.toInt_eq_toNat_bmod]
  generalize v.signExtend 64 = w
  rw [BitVec.toNat_add]
  have := Int.bmod_emod (x := (w.toNat : Int)) (m := 2 ^ 64)
  push_cast at this ⊢
  omega

theorem trunc_add_eq_wrap (x : Xlen) (a b : Word) : trunc x (a + b) = wrap x (a.toNat + b.toNat) := by
  refine trunc_eq_wrap ?_
  rw [BitVec.toNat_add]
  push_cast
  omega

theorem trunc_sub_eq_wrap (x : Xlen) (a b : Word) : trunc x (a - b) = wrap x (a.toNat - b.toNat) := by
  refine trunc_eq_wrap ?_
  rw [BitVec.toNat_sub]
  have := b.isLt
  push_cast
  omega

/-- The signed reading of an XLEN-bit value. -/
theorem signed_eq {x : Xlen} {v : Word} (h : v.toNat < 2 ^ x.bits) : signed x v = signedValue x v := by
  unfold signedValue
  cases x
  · simp only [Xlen.bits] at h
    simp only [signed, BitVec.toInt_eq_toNat_cond, BitVec.toNat_setWidth, Xlen.bits, Nat.mod_eq_of_lt h]
    split_ifs <;> omega
  · simp only [signed, BitVec.toInt_eq_toNat_cond, Xlen.bits]
    split_ifs <;> omega

/-- The signed reading of a sign-extended 12-bit immediate is the immediate. -/
theorem signed_sext (x : Xlen) (imm : BitVec 12) : signed x (sext x imm) = imm.toInt := by
  rw [signed_eq (by rw [← trunc_sext]; exact trunc_lt ..), sext_eq_wrap _ _ (by norm_num), signedValue, wrap_toNat]
  have h1 := BitVec.toInt_lt (x := imm)
  have h2 := BitVec.le_toInt (x := imm)
  rcases bits_cases x with h | h <;> rw [h] <;> norm_num at h1 h2 ⊢ <;> split_ifs <;> omega

/-- A truth value as a result. -/
theorem trunc_boolWord (x : Xlen) {b : Bool} {p : Prop} [Decidable p] (h : b = true ↔ p) :
    trunc x (boolWord b) = if p then 1 else 0 := by
  have hb : b = decide p := by cases b <;> simp_all
  subst hb
  by_cases hp : p <;> cases x <;> simp [boolWord, hp, trunc]

theorem shiftLeft_eq_wrap (x : Xlen) (v : Word) (n : Nat) : shiftLeft x v n = wrap x (v.toNat * 2 ^ n) := by
  refine trunc_eq_wrap ?_
  rw [BitVec.toNat_shiftLeft, Nat.shiftLeft_eq]
  push_cast
  omega

theorem shiftRight_eq {x : Xlen} {v : Word} (h : v.toNat < 2 ^ x.bits) (n : Nat) :
    shiftRight x v n = wrap x ((v.toNat / 2 ^ n : Nat) : Int) := by
  have hd : v.toNat / 2 ^ n < 2 ^ x.bits := (Nat.div_le_self _ _).trans_lt h
  refine BitVec.eq_of_toNat_eq ?_
  rw [wrap_toNat, shiftRight, trunc_of_lt h, BitVec.toNat_ushiftRight, Nat.shiftRight_eq_div_pow]
  generalize v.toNat / 2 ^ n = d at hd
  rcases bits_cases x with hb | hb <;> rw [hb] at hd ⊢ <;> norm_num at hd ⊢ <;> omega

theorem shiftRightArith_eq {x : Xlen} {v : Word} (h : v.toNat < 2 ^ x.bits) (n : Nat) :
    shiftRightArith x v n = wrap x (signedValue x v / 2 ^ n) := by
  rw [← signed_eq h]
  cases x
  · refine BitVec.eq_of_toNat_eq ?_
    have key : ((v.setWidth 32).sshiftRight n).toInt = (v.setWidth 32).toInt / 2 ^ n := by
      rw [BitVec.toInt_sshiftRight, Int.shiftRight_eq_div_pow]
      norm_num
    simp only [signed, ← key, shiftRightArith]
    generalize (v.setWidth 32).sshiftRight n = w
    rw [wrap_toNat, BitVec.toInt_eq_toNat_cond]
    simp only [BitVec.toNat_setWidth, Xlen.bits]
    have := w.isLt
    split_ifs <;> omega
  · refine BitVec.eq_of_toNat_eq ?_
    have key : (v.sshiftRight n).toInt = v.toInt / 2 ^ n := by
      rw [BitVec.toInt_sshiftRight, Int.shiftRight_eq_div_pow]
      norm_num
    simp only [signed, ← key, shiftRightArith]
    generalize v.sshiftRight n = w
    rw [wrap_toNat, BitVec.toInt_eq_toNat_cond]
    simp only [Xlen.bits]
    have := w.isLt
    split_ifs <;> omega

/-- A 32-bit result sign-extended to 64 bits. -/
theorem sextWord_eq_wrap (t : BitVec 32) : sextWord t = wrap .rv64 t.toInt :=
  sext_eq_wrap .rv64 t (by norm_num)

theorem sextWord_eq {t : BitVec 32} {z : Int} (h : (t.toNat : Int) % 2 ^ 32 = z % 2 ^ 32) :
    sextWord t = wrap .rv64 (Int.bmod z (2 ^ 32)) := by
  rw [sextWord_eq_wrap, BitVec.toInt_eq_toNat_bmod]
  refine congrArg (wrap .rv64) ?_
  unfold Int.bmod
  have : ((2 ^ 32 : Nat) : Int) = 2 ^ 32 := by norm_num
  rw [this, h]

/-- A word with its low `k` bits cleared. -/
theorem shiftRight_shiftLeft_toNat (v : Word) (k : Nat) : ((v >>> k) <<< k).toNat = v.toNat / 2 ^ k * 2 ^ k := by
  rw [BitVec.toNat_shiftLeft, BitVec.toNat_ushiftRight, Nat.shiftLeft_eq, Nat.shiftRight_eq_div_pow]
  exact Nat.mod_eq_of_lt ((Nat.div_mul_le_self _ _).trans_lt v.isLt)

theorem and_not_low (v : Word) (k : Nat) : v &&& ~~~(BitVec.ofNat 64 (2 ^ k - 1)) = (v >>> k) <<< k := by
  apply BitVec.eq_of_getLsbD_eq
  intro i hi
  rw [BitVec.getLsbD_and, BitVec.getLsbD_shiftLeft, BitVec.getLsbD_ushiftRight, BitVec.getLsbD_not, BitVec.getLsbD_ofNat,
    Nat.testBit_two_pow_sub_one]
  by_cases h : i < k
  · simp [h, hi]
  · rw [Nat.add_sub_cancel' (by omega)]
    simp [h, hi]

/-- A word with bit 0 cleared. -/
theorem and_not_one (v : Word) : v &&& ~~~1 = BitVec.ofNat 64 (2 * (v.toNat / 2)) := by
  apply BitVec.eq_of_toNat_eq
  rw [show (1 : Word) = BitVec.ofNat 64 (2 ^ 1 - 1) from rfl, and_not_low, shiftRight_shiftLeft_toNat, BitVec.toNat_ofNat]
  have := v.isLt
  omega

/-- A word with bits 1 and 0 cleared. -/
theorem and_not_three (v : Word) : v &&& ~~~3 = BitVec.ofNat 64 (4 * (v.toNat / 4)) := by
  apply BitVec.eq_of_toNat_eq
  rw [show (3 : Word) = BitVec.ofNat 64 (2 ^ 2 - 1) from rfl, and_not_low, shiftRight_shiftLeft_toNat, BitVec.toNat_ofNat]
  have := v.isLt
  omega

theorem trunc_ofNat (x : Xlen) (n : Nat) : trunc x (BitVec.ofNat 64 n) = wrap x n := by
  apply trunc_eq_wrap
  simp

@[simp] theorem wrap_wrap_toNat (x : Xlen) (z : Int) : wrap x (wrap x z).toNat = wrap x z := by
  rw [← trunc_eq_wrap_toNat, trunc_wrap]

end Sys2Proof.Machine
end

