-- ==== Sys2Proof/Laws/Sparse.lean ====
section
/-! SUPPORT. The tables of Machine/Sparse.lean: a read after a write, and that every operation keeps the canonical
form. The read laws hold for every list, canonical or not. -/

namespace Sys2Proof.Machine

variable {α : Type}

/-! ## Reads -/

@[simp] theorem lookup_nil (z : α) (a : Nat) : lookup z [] a = z := rfl

theorem lookup_erase (z : α) (a b : Nat) (m : List (Nat × α)) :
    lookup z (erase a m) b = if b = a then z else lookup z m b := by
  induction m with
  | nil => simp [erase]
  | cons c m ih =>
    unfold erase at ih ⊢
    by_cases hc : c.1 = a
    · simp only [hc, bne_self_eq_false, Bool.false_eq_true, not_false_eq_true, List.filter_cons_of_neg, ih, lookup]
      split_ifs <;> simp_all
    · simp only [bne_iff_ne, ne_eq, hc, not_false_eq_true, List.filter_cons_of_pos, lookup, ih]
      split_ifs <;> simp_all

theorem lookup_place (z : α) (a b : Nat) (v : α) (m : List (Nat × α)) :
    lookup z (place a v m) b = if b = a then v else lookup z m b := by
  induction m with
  | nil => simp [place, lookup, eq_comm]
  | cons c m ih =>
    obtain ⟨k, u⟩ := c
    by_cases h1 : k < a
    · simp only [place, if_pos h1, lookup, ih]
      by_cases hb : k = b
      · have : b ≠ a := by omega
        simp [hb, this]
      · simp [hb]
    · by_cases h2 : k = a
      · subst h2
        by_cases hb : k = b
        · simp [place, lookup, hb]
        · simp [place, lookup, hb, Ne.symm hb]
      · simp only [place, if_neg h1, if_neg h2, lookup, eq_comm (a := a)]

/-- A read after a write: the value written at that key, the old value elsewhere. -/
theorem lookup_put [DecidableEq α] (z : α) (a b : Nat) (v : α) (m : List (Nat × α)) :
    lookup z (put z a v m) b = if b = a then v else lookup z m b := by
  unfold put
  split_ifs with h <;> simp_all [lookup_erase, lookup_place]

@[simp] theorem lookup_put_self [DecidableEq α] (z : α) (a : Nat) (v : α) (m : List (Nat × α)) :
    lookup z (put z a v m) a = v := by simp [lookup_put]

theorem lookup_put_ne [DecidableEq α] (z : α) {a b : Nat} (v : α) (m : List (Nat × α)) (h : b ≠ a) :
    lookup z (put z a v m) b = lookup z m b := by simp [lookup_put, h]

/-- A read through a filter on keys: what the filter drops reads `z`. -/
theorem lookup_filter (z : α) (f : Nat → Bool) (a : Nat) (m : List (Nat × α)) :
    lookup z (m.filter fun c => f c.1) a = if f a then lookup z m a else z := by
  induction m with
  | nil => simp
  | cons c m ih =>
    by_cases hc : f c.1
    · rw [List.filter_cons_of_pos (by simpa using hc)]
      simp only [lookup, ih]
      split_ifs <;> simp_all
    · rw [List.filter_cons_of_neg (by simpa using hc), ih]
      simp only [lookup]
      split_ifs <;> simp_all

/-! ## The canonical form -/

theorem tableWf_nil (z : α) : TableWf z [] := by simp [TableWf]

theorem tableWf_filter {z : α} {m : List (Nat × α)} (f : Nat × α → Bool) (h : TableWf z m) : TableWf z (m.filter f) :=
  ⟨h.1.filter _, fun p hp => h.2 p (List.mem_of_mem_filter hp)⟩

theorem mem_place {a : Nat} {v : α} {m : List (Nat × α)} {p : Nat × α} (h : p ∈ place a v m) :
    p = (a, v) ∨ p ∈ m := by
  induction m with
  | nil => simpa [place] using h
  | cons c m ih =>
    obtain ⟨k, u⟩ := c
    unfold place at h
    split_ifs at h with h1 h2
    · rcases List.mem_cons.1 h with h | h
      · exact .inr (by simp [h])
      · exact (ih h).imp id (List.mem_cons_of_mem _)
    · rcases List.mem_cons.1 h with h | h
      · exact .inl h
      · exact .inr (List.mem_cons_of_mem _ h)
    · rcases List.mem_cons.1 h with h | h
      · exact .inl h
      · exact .inr h

theorem tableWf_place {z : α} {a : Nat} {v : α} {m : List (Nat × α)} (hv : v ≠ z) (h : TableWf z m) :
    TableWf z (place a v m) := by
  refine ⟨?_, fun p hp => (mem_place hp).elim (fun e => by simpa [e] using hv) (h.2 p)⟩
  have hs := h.1
  clear h hv
  induction m with
  | nil => simp [place]
  | cons c m ih =>
    obtain ⟨k, u⟩ := c
    have hc := List.pairwise_cons.1 hs
    unfold place
    split_ifs with h1 h2
    · refine List.pairwise_cons.2 ⟨fun q hq => ?_, ih hc.2⟩
      rcases mem_place hq with rfl | hq
      · exact h1
      · exact hc.1 q hq
    · subst h2
      exact List.pairwise_cons.2 ⟨hc.1, hc.2⟩
    · have hak : a < k := by omega
      refine List.pairwise_cons.2 ⟨fun q hq => ?_, hs⟩
      rcases List.mem_cons.1 hq with rfl | hq
      · exact hak
      · exact hak.trans (hc.1 q hq)

/-- A write keeps the canonical form. -/
theorem tableWf_put [DecidableEq α] {z : α} (a : Nat) (v : α) {m : List (Nat × α)} (h : TableWf z m) :
    TableWf z (put z a v m) := by
  unfold put
  split_ifs with hv
  · exact tableWf_filter _ h
  · exact tableWf_place hv h

/-- Two canonical tables that read alike are equal. -/
theorem table_ext [DecidableEq α] {z : α} {m n : List (Nat × α)} (hm : TableWf z m) (hn : TableWf z n)
    (h : ∀ a, lookup z m a = lookup z n a) : m = n := by
  have below : ∀ {l : List (Nat × α)} {a : Nat}, (∀ p ∈ l, a < p.1) → lookup z l a = z := by
    intro l a hl
    induction l with
    | nil => rfl
    | cons c l ih =>
      have := hl c (by simp)
      simp only [lookup, Nat.ne_of_gt this, if_false]
      exact ih fun p hp => hl p (List.mem_cons_of_mem _ hp)
  induction m generalizing n with
  | nil =>
    cases n with
    | nil => rfl
    | cons d n =>
      have := h d.1
      simp only [lookup, if_true] at this
      exact absurd this.symm (hn.2 d (by simp))
  | cons c m ih =>
    cases n with
    | nil =>
      have := h c.1
      simp only [lookup, if_true] at this
      exact absurd this (hm.2 c (by simp))
    | cons d n =>
      have hc := List.pairwise_cons.1 hm.1
      have hd := List.pairwise_cons.1 hn.1
      have key : c.1 = d.1 := by
        rcases Nat.lt_trichotomy c.1 d.1 with hlt | heq | hgt
        · have hb := below (l := d :: n) (a := c.1) (by
            intro p hp
            rcases List.mem_cons.1 hp with rfl | hp
            · exact hlt
            · exact hlt.trans (hd.1 p hp))
          have := h c.1
          rw [hb] at this
          simp only [lookup, if_true] at this
          exact absurd this (hm.2 c (by simp))
        · exact heq
        · have hb := below (l := c :: m) (a := d.1) (by
            intro p hp
            rcases List.mem_cons.1 hp with rfl | hp
            · exact hgt
            · exact hgt.trans (hc.1 p hp))
          have := h d.1
          rw [hb] at this
          simp only [lookup, if_true] at this
          exact absurd this.symm (hn.2 d (by simp))
      have val : c.2 = d.2 := by
        have := h c.1
        simpa [lookup, key] using this
      have tail : m = n := by
        refine ih ⟨hc.2, fun p hp => hm.2 p (List.mem_cons_of_mem _ hp)⟩
          ⟨hd.2, fun p hp => hn.2 p (List.mem_cons_of_mem _ hp)⟩ fun a => ?_
        by_cases ha : c.1 = a
        · rw [below (l := m) (fun p hp => ha ▸ hc.1 p hp),
            below (l := n) (fun p hp => ha ▸ key ▸ hd.1 p hp)]
        · have := h a
          simpa [lookup, ha, key ▸ ha] using this
      rw [Prod.ext key val, tail]

/-! ## The byte store -/

theorem byteAt_putByte (m : Memory) (a b : Nat) (v : Byte) :
    byteAt (putByte m a v) b = if b = a then v else byteAt m b := lookup_put 0 a b v m

/-- Bytes written: the byte of the list in its range, the old byte elsewhere. -/
theorem byteAt_putBytes (m : Memory) (a b : Nat) (l : List Byte) :
    byteAt (putBytes m a l) b = if a ≤ b then (l[b - a]?).getD (byteAt m b) else byteAt m b := by
  induction l generalizing m a with
  | nil => simp [putBytes]
  | cons v l ih =>
    rw [putBytes, ih, byteAt_putByte]
    rcases Nat.lt_trichotomy a b with h | h | h
    · obtain ⟨d, rfl⟩ : ∃ d, b = a + 1 + d := ⟨b - (a + 1), by omega⟩
      have e1 : a + 1 + d - (a + 1) = d := by omega
      have e2 : a + 1 + d - a = d + 1 := by omega
      have e3 : ¬ a + 1 + d = a := by omega
      have e4 : a + 1 ≤ a + 1 + d := by omega
      have e5 : a ≤ a + 1 + d := by omega
      simp [e1, e2, e3, e4, e5]
    · subst h; simp
    · have e1 : ¬ a + 1 ≤ b := by omega
      have e2 : ¬ a ≤ b := by omega
      have e3 : ¬ b = a := by omega
      simp [e1, e2, e3]

/-- A write changes only the bytes written (20_memory.md R89). -/
theorem byteAt_putBytes_outside (m : Memory) {a b : Nat} (l : List Byte) (h : b < a ∨ a + l.length ≤ b) :
    byteAt (putBytes m a l) b = byteAt m b := by
  rw [byteAt_putBytes]
  split_ifs with hab
  · rw [List.getElem?_eq_none (by omega)]; rfl
  · rfl

theorem byteAt_putBytes_inside (m : Memory) (a k : Nat) (l : List Byte) (h : k < l.length) :
    byteAt (putBytes m a l) (a + k) = l[k] := by
  rw [byteAt_putBytes]
  simp [h]

@[simp] theorem bytesAt_length (m : Memory) (a n : Nat) : (bytesAt m a n).length = n := by
  induction n generalizing a with
  | zero => rfl
  | succ n ih => simp [bytesAt, ih]

theorem bytesAt_getElem? (m : Memory) (a n k : Nat) :
    (bytesAt m a n)[k]? = if k < n then some (byteAt m (a + k)) else none := by
  induction n generalizing a k with
  | zero => simp [bytesAt]
  | succ n ih =>
    cases k with
    | zero => simp [bytesAt]
    | succ k => simp [bytesAt, ih, Nat.add_assoc, Nat.add_comm 1 k]

@[simp] theorem leBytes_length (v : Word) (n : Nat) : (leBytes v n).length = n := by
  induction n generalizing v with
  | zero => rfl
  | succ n ih => simp [leBytes, ih]

/-- Byte `k` of the little-endian bytes is bits 8k+7 .. 8k (20_memory.md R81). -/
theorem leBytes_getElem (v : Word) (n k : Nat) (h : k < (leBytes v n).length) :
    (leBytes v n)[k] = (v >>> (8 * k)).setWidth 8 := by
  induction n generalizing v k with
  | zero => simp [leBytes] at h
  | succ n ih =>
    cases k with
    | zero => simp [leBytes]
    | succ k =>
      simp only [leBytes, List.getElem_cons_succ, ih]
      rw [← BitVec.shiftRight_add, Nat.mul_add, Nat.add_comm]

theorem putByte_wf {m : Memory} (a : Nat) (b : Byte) (h : m.wf) : (putByte m a b).wf := tableWf_put a b h

theorem putBytes_wf {m : Memory} (a : Nat) (l : List Byte) (h : m.wf) : (putBytes m a l).wf := by
  induction l generalizing m a with
  | nil => exact h
  | cons b l ih => exact ih _ (putByte_wf a b h)

theorem putCells_wf {m : Memory} (l : List Host.Cell) (h : m.wf) : (putCells m l).wf := by
  induction l generalizing m with
  | nil => exact h
  | cons c l ih => exact ih (putByte_wf _ _ h)

theorem clearRange_wf {m : Memory} (base len : Nat) (h : m.wf) : (clearRange m base len).wf := tableWf_filter _ h

theorem cellsIn_wf {m : Memory} (base len : Nat) (h : m.wf) : (cellsIn m base len).wf := tableWf_filter _ h

theorem putImage_wf {m : Memory} (base len : Nat) (image : Memory) (h : m.wf) : (putImage m base len image).wf :=
  putCells_wf _ (clearRange_wf _ _ h)

/-- Zero-fill: 0 in the range, the old byte elsewhere (20_memory.md R110). -/
theorem byteAt_clearRange (m : Memory) (base len a : Nat) :
    byteAt (clearRange m base len) a = if inRange base len a then 0 else byteAt m a := by
  unfold clearRange byteAt
  rw [lookup_filter 0 (fun k => !inRange base len k)]
  by_cases h : inRange base len a <;> simp [h]

theorem byteAt_cellsIn (m : Memory) (base len a : Nat) :
    byteAt (cellsIn m base len) a = if inRange base len a then byteAt m a else 0 := by
  unfold cellsIn byteAt
  exact lookup_filter 0 (fun k => inRange base len k) a m

/-- Canonical cells written one after another: the listed byte at a listed address, the old byte elsewhere. -/
theorem byteAt_putCells (m : Memory) (l : Memory) (hl : l.wf) (a : Nat) :
    byteAt (putCells m l) a = if byteAt l a = 0 then byteAt m a else byteAt l a := by
  induction l generalizing m with
  | nil => simp [putCells, byteAt]
  | cons c l ih =>
    have hc := List.pairwise_cons.1 hl.1
    have hl' : Memory.wf l := ⟨hc.2, fun p hp => hl.2 p (List.mem_cons_of_mem _ hp)⟩
    rw [putCells, ih _ hl', byteAt_putByte]
    have hne : c.2 ≠ 0 := hl.2 c (by simp)
    have habs : byteAt l c.1 = 0 := by
      have : ∀ l' : Memory, (∀ p ∈ l', c.1 < p.1) → byteAt l' c.1 = 0 := by
        intro l' h'
        induction l' with
        | nil => rfl
        | cons d l' ih' =>
          have := h' d (by simp)
          simp only [byteAt, lookup, Nat.ne_of_gt this, if_false]
          exact ih' fun p hp => h' p (List.mem_cons_of_mem _ hp)
      exact this l hc.1
    by_cases ha : a = c.1
    · subst ha
      have hself : byteAt (c :: l) c.1 = c.2 := by simp [byteAt, lookup]
      simp only [habs, hself, if_true, if_neg hne]
    · have hcons : byteAt (c :: l) a = byteAt l a := by simp [byteAt, lookup, Ne.symm ha]
      simp [hcons, ha]

/-- A range replaced by a canonical image: the image's byte in the range, the old byte elsewhere. -/
theorem byteAt_putImage (m : Memory) (base len : Nat) (image : Memory) (hi : image.wf) (a : Nat) :
    byteAt (putImage m base len image) a = if inRange base len a then byteAt image a else byteAt m a := by
  unfold putImage
  rw [byteAt_putCells _ _ (cellsIn_wf _ _ hi), byteAt_cellsIn, byteAt_clearRange]
  split_ifs <;> simp_all

/-- Replacing a range by its own image changes nothing. -/
theorem putImage_cellsIn {m : Memory} (base len : Nat) (h : m.wf) : putImage m base len (cellsIn m base len) = m := by
  refine table_ext (putImage_wf _ _ _ h) h fun a => ?_
  have := byteAt_putImage m base len (cellsIn m base len) (cellsIn_wf _ _ h) a
  rw [byteAt_cellsIn] at this
  unfold byteAt at this
  rw [this]
  split_ifs <;> rfl

end Sys2Proof.Machine
end

