-- ==== Sys2Proof/Laws/State.lean ====
section
/-! SUPPORT. What each update of the state does to each field, one lemma a field, true by definition: so no later proof
unfolds a record update. -/

namespace Sys2Proof.Machine

section writeReg

variable (s : State) (r : Reg) (v : Word)

@[simp] theorem State.writeReg_par : (s.writeReg r v).par = s.par := rfl
@[simp] theorem State.writeReg_regs :
    (s.writeReg r v).regs =
      if r = 0 then s.regs else s.regs.set r.toNat (trunc s.par.xlen v) r.isLt := rfl
@[simp] theorem State.writeReg_pc : (s.writeReg r v).pc = s.pc := rfl
@[simp] theorem State.writeReg_csrs : (s.writeReg r v).csrs = s.csrs := rfl
@[simp] theorem State.writeReg_coreState : (s.writeReg r v).coreState = s.coreState := rfl
@[simp] theorem State.writeReg_coreRun : (s.writeReg r v).coreRun = s.coreRun := rfl
@[simp] theorem State.writeReg_coreOwner : (s.writeReg r v).coreOwner = s.coreOwner := rfl
@[simp] theorem State.writeReg_caps : (s.writeReg r v).caps = s.caps := rfl
@[simp] theorem State.writeReg_tr : (s.writeReg r v).tr = s.tr := rfl
@[simp] theorem State.writeReg_mem : (s.writeReg r v).mem = s.mem := rfl
@[simp] theorem State.writeReg_regions : (s.writeReg r v).regions = s.regions := rfl
@[simp] theorem State.writeReg_req : (s.writeReg r v).req = s.req := rfl
@[simp] theorem State.writeReg_rsp : (s.writeReg r v).rsp = s.rsp := rfl
@[simp] theorem State.writeReg_log : (s.writeReg r v).log = s.log := rfl
@[simp] theorem State.writeReg_logLast : (s.writeReg r v).logLast = s.logLast := rfl
@[simp] theorem State.writeReg_tdState : (s.writeReg r v).tdState = s.tdState := rfl
@[simp] theorem State.writeReg_tdDeadline : (s.writeReg r v).tdDeadline = s.tdDeadline := rfl
@[simp] theorem State.writeReg_tdDlValid : (s.writeReg r v).tdDlValid = s.tdDlValid := rfl
@[simp] theorem State.writeReg_tdOut : (s.writeReg r v).tdOut = s.tdOut := rfl
@[simp] theorem State.writeReg_tdNow : (s.writeReg r v).tdNow = s.tdNow := rfl
@[simp] theorem State.writeReg_tdTimeout : (s.writeReg r v).tdTimeout = s.tdTimeout := rfl
@[simp] theorem State.writeReg_svcs : (s.writeReg r v).svcs = s.svcs := rfl
@[simp] theorem State.writeReg_notes : (s.writeReg r v).notes = s.notes := rfl
@[simp] theorem State.writeReg_env : (s.writeReg r v).env = s.env := rfl
@[simp] theorem State.writeReg_reply : (s.writeReg r v).reply = s.reply := rfl
@[simp] theorem State.writeReg_given : (s.writeReg r v).given = s.given := rfl
@[simp] theorem State.writeReg_pcVal : (s.writeReg r v).pcVal = s.pcVal := rfl
@[simp] theorem State.writeReg_readCsr (d : CsrNum) : (s.writeReg r v).readCsr d = s.readCsr d := rfl
@[simp] theorem State.writeReg_region (j : Nat) : (s.writeReg r v).region j = s.region j := rfl
@[simp] theorem State.writeReg_cap (j : Nat) : (s.writeReg r v).cap j = s.cap j := rfl
@[simp] theorem State.writeReg_svc (j : Nat) : (s.writeReg r v).svc j = s.svc j := rfl
@[simp] theorem State.writeReg_byte (a : Nat) : (s.writeReg r v).byte a = s.byte a := rfl
@[simp] theorem State.writeReg_trapReg (q : Reg) : (s.writeReg r v).trapReg q = s.trapReg q := rfl
@[simp] theorem State.writeReg_stale (h : Handle) : (s.writeReg r v).stale h = s.stale h := rfl
@[simp] theorem State.writeReg_reqFull : (s.writeReg r v).reqFull = s.reqFull := rfl

end writeReg

section setPc

variable (s : State) (v : Word)

@[simp] theorem State.setPc_par : (s.setPc v).par = s.par := rfl
@[simp] theorem State.setPc_regs : (s.setPc v).regs = s.regs := rfl
@[simp] theorem State.setPc_pc : (s.setPc v).pc = trunc s.par.xlen v := rfl
@[simp] theorem State.setPc_csrs : (s.setPc v).csrs = s.csrs := rfl
@[simp] theorem State.setPc_coreState : (s.setPc v).coreState = s.coreState := rfl
@[simp] theorem State.setPc_coreRun : (s.setPc v).coreRun = s.coreRun := rfl
@[simp] theorem State.setPc_coreOwner : (s.setPc v).coreOwner = s.coreOwner := rfl
@[simp] theorem State.setPc_caps : (s.setPc v).caps = s.caps := rfl
@[simp] theorem State.setPc_tr : (s.setPc v).tr = s.tr := rfl
@[simp] theorem State.setPc_mem : (s.setPc v).mem = s.mem := rfl
@[simp] theorem State.setPc_regions : (s.setPc v).regions = s.regions := rfl
@[simp] theorem State.setPc_req : (s.setPc v).req = s.req := rfl
@[simp] theorem State.setPc_rsp : (s.setPc v).rsp = s.rsp := rfl
@[simp] theorem State.setPc_log : (s.setPc v).log = s.log := rfl
@[simp] theorem State.setPc_logLast : (s.setPc v).logLast = s.logLast := rfl
@[simp] theorem State.setPc_tdState : (s.setPc v).tdState = s.tdState := rfl
@[simp] theorem State.setPc_tdDeadline : (s.setPc v).tdDeadline = s.tdDeadline := rfl
@[simp] theorem State.setPc_tdDlValid : (s.setPc v).tdDlValid = s.tdDlValid := rfl
@[simp] theorem State.setPc_tdOut : (s.setPc v).tdOut = s.tdOut := rfl
@[simp] theorem State.setPc_tdNow : (s.setPc v).tdNow = s.tdNow := rfl
@[simp] theorem State.setPc_tdTimeout : (s.setPc v).tdTimeout = s.tdTimeout := rfl
@[simp] theorem State.setPc_svcs : (s.setPc v).svcs = s.svcs := rfl
@[simp] theorem State.setPc_notes : (s.setPc v).notes = s.notes := rfl
@[simp] theorem State.setPc_env : (s.setPc v).env = s.env := rfl
@[simp] theorem State.setPc_reply : (s.setPc v).reply = s.reply := rfl
@[simp] theorem State.setPc_given : (s.setPc v).given = s.given := rfl
@[simp] theorem State.setPc_readReg (q : Reg) : (s.setPc v).readReg q = s.readReg q := rfl
@[simp] theorem State.setPc_readCsr (d : CsrNum) : (s.setPc v).readCsr d = s.readCsr d := rfl
@[simp] theorem State.setPc_region (j : Nat) : (s.setPc v).region j = s.region j := rfl
@[simp] theorem State.setPc_cap (j : Nat) : (s.setPc v).cap j = s.cap j := rfl
@[simp] theorem State.setPc_svc (j : Nat) : (s.setPc v).svc j = s.svc j := rfl
@[simp] theorem State.setPc_byte (a : Nat) : (s.setPc v).byte a = s.byte a := rfl
@[simp] theorem State.setPc_trapReg (q : Reg) : (s.setPc v).trapReg q = s.trapReg q := rfl
@[simp] theorem State.setPc_stale (h : Handle) : (s.setPc v).stale h = s.stale h := rfl
@[simp] theorem State.setPc_reqFull : (s.setPc v).reqFull = s.reqFull := rfl

end setPc

section advance

variable (s : State)

@[simp] theorem State.advance_par : (s.advance).par = s.par := rfl
@[simp] theorem State.advance_regs : (s.advance).regs = s.regs := rfl
@[simp] theorem State.advance_pc : (s.advance).pc = trunc s.par.xlen (s.pcVal + 4) := rfl
@[simp] theorem State.advance_csrs : (s.advance).csrs = s.csrs := rfl
@[simp] theorem State.advance_coreState : (s.advance).coreState = s.coreState := rfl
@[simp] theorem State.advance_coreRun : (s.advance).coreRun = s.coreRun := rfl
@[simp] theorem State.advance_coreOwner : (s.advance).coreOwner = s.coreOwner := rfl
@[simp] theorem State.advance_caps : (s.advance).caps = s.caps := rfl
@[simp] theorem State.advance_tr : (s.advance).tr = s.tr := rfl
@[simp] theorem State.advance_mem : (s.advance).mem = s.mem := rfl
@[simp] theorem State.advance_regions : (s.advance).regions = s.regions := rfl
@[simp] theorem State.advance_req : (s.advance).req = s.req := rfl
@[simp] theorem State.advance_rsp : (s.advance).rsp = s.rsp := rfl
@[simp] theorem State.advance_log : (s.advance).log = s.log := rfl
@[simp] theorem State.advance_logLast : (s.advance).logLast = s.logLast := rfl
@[simp] theorem State.advance_tdState : (s.advance).tdState = s.tdState := rfl
@[simp] theorem State.advance_tdDeadline : (s.advance).tdDeadline = s.tdDeadline := rfl
@[simp] theorem State.advance_tdDlValid : (s.advance).tdDlValid = s.tdDlValid := rfl
@[simp] theorem State.advance_tdOut : (s.advance).tdOut = s.tdOut := rfl
@[simp] theorem State.advance_tdNow : (s.advance).tdNow = s.tdNow := rfl
@[simp] theorem State.advance_tdTimeout : (s.advance).tdTimeout = s.tdTimeout := rfl
@[simp] theorem State.advance_svcs : (s.advance).svcs = s.svcs := rfl
@[simp] theorem State.advance_notes : (s.advance).notes = s.notes := rfl
@[simp] theorem State.advance_env : (s.advance).env = s.env := rfl
@[simp] theorem State.advance_reply : (s.advance).reply = s.reply := rfl
@[simp] theorem State.advance_given : (s.advance).given = s.given := rfl
@[simp] theorem State.advance_readReg (q : Reg) : (s.advance).readReg q = s.readReg q := rfl
@[simp] theorem State.advance_readCsr (d : CsrNum) : (s.advance).readCsr d = s.readCsr d := rfl
@[simp] theorem State.advance_region (j : Nat) : (s.advance).region j = s.region j := rfl
@[simp] theorem State.advance_cap (j : Nat) : (s.advance).cap j = s.cap j := rfl
@[simp] theorem State.advance_svc (j : Nat) : (s.advance).svc j = s.svc j := rfl
@[simp] theorem State.advance_byte (a : Nat) : (s.advance).byte a = s.byte a := rfl
@[simp] theorem State.advance_trapReg (q : Reg) : (s.advance).trapReg q = s.trapReg q := rfl
@[simp] theorem State.advance_stale (h : Handle) : (s.advance).stale h = s.stale h := rfl
@[simp] theorem State.advance_reqFull : (s.advance).reqFull = s.reqFull := rfl

end advance

section writeCsr

variable (s : State) (c : CsrNum) (v : Word)

@[simp] theorem State.writeCsr_par : (s.writeCsr c v).par = s.par := rfl
@[simp] theorem State.writeCsr_regs : (s.writeCsr c v).regs = s.regs := rfl
@[simp] theorem State.writeCsr_pc : (s.writeCsr c v).pc = s.pc := rfl
@[simp] theorem State.writeCsr_csrs : (s.writeCsr c v).csrs = put 0 c.toNat (trunc s.par.xlen v) s.csrs := rfl
@[simp] theorem State.writeCsr_coreState : (s.writeCsr c v).coreState = s.coreState := rfl
@[simp] theorem State.writeCsr_coreRun : (s.writeCsr c v).coreRun = s.coreRun := rfl
@[simp] theorem State.writeCsr_coreOwner : (s.writeCsr c v).coreOwner = s.coreOwner := rfl
@[simp] theorem State.writeCsr_caps : (s.writeCsr c v).caps = s.caps := rfl
@[simp] theorem State.writeCsr_tr : (s.writeCsr c v).tr = s.tr := rfl
@[simp] theorem State.writeCsr_mem : (s.writeCsr c v).mem = s.mem := rfl
@[simp] theorem State.writeCsr_regions : (s.writeCsr c v).regions = s.regions := rfl
@[simp] theorem State.writeCsr_req : (s.writeCsr c v).req = s.req := rfl
@[simp] theorem State.writeCsr_rsp : (s.writeCsr c v).rsp = s.rsp := rfl
@[simp] theorem State.writeCsr_log : (s.writeCsr c v).log = s.log := rfl
@[simp] theorem State.writeCsr_logLast : (s.writeCsr c v).logLast = s.logLast := rfl
@[simp] theorem State.writeCsr_tdState : (s.writeCsr c v).tdState = s.tdState := rfl
@[simp] theorem State.writeCsr_tdDeadline : (s.writeCsr c v).tdDeadline = s.tdDeadline := rfl
@[simp] theorem State.writeCsr_tdDlValid : (s.writeCsr c v).tdDlValid = s.tdDlValid := rfl
@[simp] theorem State.writeCsr_tdOut : (s.writeCsr c v).tdOut = s.tdOut := rfl
@[simp] theorem State.writeCsr_tdNow : (s.writeCsr c v).tdNow = s.tdNow := rfl
@[simp] theorem State.writeCsr_tdTimeout : (s.writeCsr c v).tdTimeout = s.tdTimeout := rfl
@[simp] theorem State.writeCsr_svcs : (s.writeCsr c v).svcs = s.svcs := rfl
@[simp] theorem State.writeCsr_notes : (s.writeCsr c v).notes = s.notes := rfl
@[simp] theorem State.writeCsr_env : (s.writeCsr c v).env = s.env := rfl
@[simp] theorem State.writeCsr_reply : (s.writeCsr c v).reply = s.reply := rfl
@[simp] theorem State.writeCsr_given : (s.writeCsr c v).given = s.given := rfl
@[simp] theorem State.writeCsr_readReg (q : Reg) : (s.writeCsr c v).readReg q = s.readReg q := rfl
@[simp] theorem State.writeCsr_pcVal : (s.writeCsr c v).pcVal = s.pcVal := rfl
@[simp] theorem State.writeCsr_region (j : Nat) : (s.writeCsr c v).region j = s.region j := rfl
@[simp] theorem State.writeCsr_cap (j : Nat) : (s.writeCsr c v).cap j = s.cap j := rfl
@[simp] theorem State.writeCsr_svc (j : Nat) : (s.writeCsr c v).svc j = s.svc j := rfl
@[simp] theorem State.writeCsr_byte (a : Nat) : (s.writeCsr c v).byte a = s.byte a := rfl
@[simp] theorem State.writeCsr_trapReg (q : Reg) : (s.writeCsr c v).trapReg q = s.trapReg q := rfl
@[simp] theorem State.writeCsr_stale (h : Handle) : (s.writeCsr c v).stale h = s.stale h := rfl
@[simp] theorem State.writeCsr_reqFull : (s.writeCsr c v).reqFull = s.reqFull := rfl

end writeCsr

section setRegion

variable (s : State) (i : Nat) (r : Region)

@[simp] theorem State.setRegion_par : (s.setRegion i r).par = s.par := rfl
@[simp] theorem State.setRegion_regs : (s.setRegion i r).regs = s.regs := rfl
@[simp] theorem State.setRegion_pc : (s.setRegion i r).pc = s.pc := rfl
@[simp] theorem State.setRegion_csrs : (s.setRegion i r).csrs = s.csrs := rfl
@[simp] theorem State.setRegion_coreState : (s.setRegion i r).coreState = s.coreState := rfl
@[simp] theorem State.setRegion_coreRun : (s.setRegion i r).coreRun = s.coreRun := rfl
@[simp] theorem State.setRegion_coreOwner : (s.setRegion i r).coreOwner = s.coreOwner := rfl
@[simp] theorem State.setRegion_caps : (s.setRegion i r).caps = s.caps := rfl
@[simp] theorem State.setRegion_tr : (s.setRegion i r).tr = s.tr := rfl
@[simp] theorem State.setRegion_mem : (s.setRegion i r).mem = s.mem := rfl
@[simp] theorem State.setRegion_regions : (s.setRegion i r).regions = put Region.absent i r s.regions := rfl
@[simp] theorem State.setRegion_req : (s.setRegion i r).req = s.req := rfl
@[simp] theorem State.setRegion_rsp : (s.setRegion i r).rsp = s.rsp := rfl
@[simp] theorem State.setRegion_log : (s.setRegion i r).log = s.log := rfl
@[simp] theorem State.setRegion_logLast : (s.setRegion i r).logLast = s.logLast := rfl
@[simp] theorem State.setRegion_tdState : (s.setRegion i r).tdState = s.tdState := rfl
@[simp] theorem State.setRegion_tdDeadline : (s.setRegion i r).tdDeadline = s.tdDeadline := rfl
@[simp] theorem State.setRegion_tdDlValid : (s.setRegion i r).tdDlValid = s.tdDlValid := rfl
@[simp] theorem State.setRegion_tdOut : (s.setRegion i r).tdOut = s.tdOut := rfl
@[simp] theorem State.setRegion_tdNow : (s.setRegion i r).tdNow = s.tdNow := rfl
@[simp] theorem State.setRegion_tdTimeout : (s.setRegion i r).tdTimeout = s.tdTimeout := rfl
@[simp] theorem State.setRegion_svcs : (s.setRegion i r).svcs = s.svcs := rfl
@[simp] theorem State.setRegion_notes : (s.setRegion i r).notes = s.notes := rfl
@[simp] theorem State.setRegion_env : (s.setRegion i r).env = s.env := rfl
@[simp] theorem State.setRegion_reply : (s.setRegion i r).reply = s.reply := rfl
@[simp] theorem State.setRegion_given : (s.setRegion i r).given = s.given := rfl
@[simp] theorem State.setRegion_readReg (q : Reg) : (s.setRegion i r).readReg q = s.readReg q := rfl
@[simp] theorem State.setRegion_pcVal : (s.setRegion i r).pcVal = s.pcVal := rfl
@[simp] theorem State.setRegion_readCsr (d : CsrNum) : (s.setRegion i r).readCsr d = s.readCsr d := rfl
@[simp] theorem State.setRegion_cap (j : Nat) : (s.setRegion i r).cap j = s.cap j := rfl
@[simp] theorem State.setRegion_svc (j : Nat) : (s.setRegion i r).svc j = s.svc j := rfl
@[simp] theorem State.setRegion_byte (a : Nat) : (s.setRegion i r).byte a = s.byte a := rfl
@[simp] theorem State.setRegion_trapReg (q : Reg) : (s.setRegion i r).trapReg q = s.trapReg q := rfl
@[simp] theorem State.setRegion_reqFull : (s.setRegion i r).reqFull = s.reqFull := rfl

end setRegion

section setCap

variable (s : State) (i : Nat) (c : Cap)

@[simp] theorem State.setCap_par : (s.setCap i c).par = s.par := rfl
@[simp] theorem State.setCap_regs : (s.setCap i c).regs = s.regs := rfl
@[simp] theorem State.setCap_pc : (s.setCap i c).pc = s.pc := rfl
@[simp] theorem State.setCap_csrs : (s.setCap i c).csrs = s.csrs := rfl
@[simp] theorem State.setCap_coreState : (s.setCap i c).coreState = s.coreState := rfl
@[simp] theorem State.setCap_coreRun : (s.setCap i c).coreRun = s.coreRun := rfl
@[simp] theorem State.setCap_coreOwner : (s.setCap i c).coreOwner = s.coreOwner := rfl
@[simp] theorem State.setCap_caps : (s.setCap i c).caps = put Cap.absent i c s.caps := rfl
@[simp] theorem State.setCap_tr : (s.setCap i c).tr = s.tr := rfl
@[simp] theorem State.setCap_mem : (s.setCap i c).mem = s.mem := rfl
@[simp] theorem State.setCap_regions : (s.setCap i c).regions = s.regions := rfl
@[simp] theorem State.setCap_req : (s.setCap i c).req = s.req := rfl
@[simp] theorem State.setCap_rsp : (s.setCap i c).rsp = s.rsp := rfl
@[simp] theorem State.setCap_log : (s.setCap i c).log = s.log := rfl
@[simp] theorem State.setCap_logLast : (s.setCap i c).logLast = s.logLast := rfl
@[simp] theorem State.setCap_tdState : (s.setCap i c).tdState = s.tdState := rfl
@[simp] theorem State.setCap_tdDeadline : (s.setCap i c).tdDeadline = s.tdDeadline := rfl
@[simp] theorem State.setCap_tdDlValid : (s.setCap i c).tdDlValid = s.tdDlValid := rfl
@[simp] theorem State.setCap_tdOut : (s.setCap i c).tdOut = s.tdOut := rfl
@[simp] theorem State.setCap_tdNow : (s.setCap i c).tdNow = s.tdNow := rfl
@[simp] theorem State.setCap_tdTimeout : (s.setCap i c).tdTimeout = s.tdTimeout := rfl
@[simp] theorem State.setCap_svcs : (s.setCap i c).svcs = s.svcs := rfl
@[simp] theorem State.setCap_notes : (s.setCap i c).notes = s.notes := rfl
@[simp] theorem State.setCap_env : (s.setCap i c).env = s.env := rfl
@[simp] theorem State.setCap_reply : (s.setCap i c).reply = s.reply := rfl
@[simp] theorem State.setCap_given : (s.setCap i c).given = s.given := rfl
@[simp] theorem State.setCap_readReg (q : Reg) : (s.setCap i c).readReg q = s.readReg q := rfl
@[simp] theorem State.setCap_pcVal : (s.setCap i c).pcVal = s.pcVal := rfl
@[simp] theorem State.setCap_readCsr (d : CsrNum) : (s.setCap i c).readCsr d = s.readCsr d := rfl
@[simp] theorem State.setCap_region (j : Nat) : (s.setCap i c).region j = s.region j := rfl
@[simp] theorem State.setCap_svc (j : Nat) : (s.setCap i c).svc j = s.svc j := rfl
@[simp] theorem State.setCap_byte (a : Nat) : (s.setCap i c).byte a = s.byte a := rfl
@[simp] theorem State.setCap_trapReg (q : Reg) : (s.setCap i c).trapReg q = s.trapReg q := rfl
@[simp] theorem State.setCap_stale (h : Handle) : (s.setCap i c).stale h = s.stale h := rfl
@[simp] theorem State.setCap_reqFull : (s.setCap i c).reqFull = s.reqFull := rfl

end setCap

section setSvc

variable (s : State) (n : Nat) (e : SvcEntry)

@[simp] theorem State.setSvc_par : (s.setSvc n e).par = s.par := rfl
@[simp] theorem State.setSvc_regs : (s.setSvc n e).regs = s.regs := rfl
@[simp] theorem State.setSvc_pc : (s.setSvc n e).pc = s.pc := rfl
@[simp] theorem State.setSvc_csrs : (s.setSvc n e).csrs = s.csrs := rfl
@[simp] theorem State.setSvc_coreState : (s.setSvc n e).coreState = s.coreState := rfl
@[simp] theorem State.setSvc_coreRun : (s.setSvc n e).coreRun = s.coreRun := rfl
@[simp] theorem State.setSvc_coreOwner : (s.setSvc n e).coreOwner = s.coreOwner := rfl
@[simp] theorem State.setSvc_caps : (s.setSvc n e).caps = s.caps := rfl
@[simp] theorem State.setSvc_tr : (s.setSvc n e).tr = s.tr := rfl
@[simp] theorem State.setSvc_mem : (s.setSvc n e).mem = s.mem := rfl
@[simp] theorem State.setSvc_regions : (s.setSvc n e).regions = s.regions := rfl
@[simp] theorem State.setSvc_req : (s.setSvc n e).req = s.req := rfl
@[simp] theorem State.setSvc_rsp : (s.setSvc n e).rsp = s.rsp := rfl
@[simp] theorem State.setSvc_log : (s.setSvc n e).log = s.log := rfl
@[simp] theorem State.setSvc_logLast : (s.setSvc n e).logLast = s.logLast := rfl
@[simp] theorem State.setSvc_tdState : (s.setSvc n e).tdState = s.tdState := rfl
@[simp] theorem State.setSvc_tdDeadline : (s.setSvc n e).tdDeadline = s.tdDeadline := rfl
@[simp] theorem State.setSvc_tdDlValid : (s.setSvc n e).tdDlValid = s.tdDlValid := rfl
@[simp] theorem State.setSvc_tdOut : (s.setSvc n e).tdOut = s.tdOut := rfl
@[simp] theorem State.setSvc_tdNow : (s.setSvc n e).tdNow = s.tdNow := rfl
@[simp] theorem State.setSvc_tdTimeout : (s.setSvc n e).tdTimeout = s.tdTimeout := rfl
@[simp] theorem State.setSvc_svcs : (s.setSvc n e).svcs = put SvcEntry.absent n e s.svcs := rfl
@[simp] theorem State.setSvc_notes : (s.setSvc n e).notes = s.notes := rfl
@[simp] theorem State.setSvc_env : (s.setSvc n e).env = s.env := rfl
@[simp] theorem State.setSvc_reply : (s.setSvc n e).reply = s.reply := rfl
@[simp] theorem State.setSvc_given : (s.setSvc n e).given = s.given := rfl
@[simp] theorem State.setSvc_readReg (q : Reg) : (s.setSvc n e).readReg q = s.readReg q := rfl
@[simp] theorem State.setSvc_pcVal : (s.setSvc n e).pcVal = s.pcVal := rfl
@[simp] theorem State.setSvc_readCsr (d : CsrNum) : (s.setSvc n e).readCsr d = s.readCsr d := rfl
@[simp] theorem State.setSvc_region (j : Nat) : (s.setSvc n e).region j = s.region j := rfl
@[simp] theorem State.setSvc_cap (j : Nat) : (s.setSvc n e).cap j = s.cap j := rfl
@[simp] theorem State.setSvc_byte (a : Nat) : (s.setSvc n e).byte a = s.byte a := rfl
@[simp] theorem State.setSvc_trapReg (q : Reg) : (s.setSvc n e).trapReg q = s.trapReg q := rfl
@[simp] theorem State.setSvc_stale (h : Handle) : (s.setSvc n e).stale h = s.stale h := rfl
@[simp] theorem State.setSvc_reqFull : (s.setSvc n e).reqFull = s.reqFull := rfl

end setSvc

section setMem

variable (s : State) (m : Memory)

@[simp] theorem State.setMem_par : (s.setMem m).par = s.par := rfl
@[simp] theorem State.setMem_regs : (s.setMem m).regs = s.regs := rfl
@[simp] theorem State.setMem_pc : (s.setMem m).pc = s.pc := rfl
@[simp] theorem State.setMem_csrs : (s.setMem m).csrs = s.csrs := rfl
@[simp] theorem State.setMem_coreState : (s.setMem m).coreState = s.coreState := rfl
@[simp] theorem State.setMem_coreRun : (s.setMem m).coreRun = s.coreRun := rfl
@[simp] theorem State.setMem_coreOwner : (s.setMem m).coreOwner = s.coreOwner := rfl
@[simp] theorem State.setMem_caps : (s.setMem m).caps = s.caps := rfl
@[simp] theorem State.setMem_tr : (s.setMem m).tr = s.tr := rfl
@[simp] theorem State.setMem_mem : (s.setMem m).mem = m := rfl
@[simp] theorem State.setMem_regions : (s.setMem m).regions = s.regions := rfl
@[simp] theorem State.setMem_req : (s.setMem m).req = s.req := rfl
@[simp] theorem State.setMem_rsp : (s.setMem m).rsp = s.rsp := rfl
@[simp] theorem State.setMem_log : (s.setMem m).log = s.log := rfl
@[simp] theorem State.setMem_logLast : (s.setMem m).logLast = s.logLast := rfl
@[simp] theorem State.setMem_tdState : (s.setMem m).tdState = s.tdState := rfl
@[simp] theorem State.setMem_tdDeadline : (s.setMem m).tdDeadline = s.tdDeadline := rfl
@[simp] theorem State.setMem_tdDlValid : (s.setMem m).tdDlValid = s.tdDlValid := rfl
@[simp] theorem State.setMem_tdOut : (s.setMem m).tdOut = s.tdOut := rfl
@[simp] theorem State.setMem_tdNow : (s.setMem m).tdNow = s.tdNow := rfl
@[simp] theorem State.setMem_tdTimeout : (s.setMem m).tdTimeout = s.tdTimeout := rfl
@[simp] theorem State.setMem_svcs : (s.setMem m).svcs = s.svcs := rfl
@[simp] theorem State.setMem_notes : (s.setMem m).notes = s.notes := rfl
@[simp] theorem State.setMem_env : (s.setMem m).env = s.env := rfl
@[simp] theorem State.setMem_reply : (s.setMem m).reply = s.reply := rfl
@[simp] theorem State.setMem_given : (s.setMem m).given = s.given := rfl
@[simp] theorem State.setMem_readReg (q : Reg) : (s.setMem m).readReg q = s.readReg q := rfl
@[simp] theorem State.setMem_pcVal : (s.setMem m).pcVal = s.pcVal := rfl
@[simp] theorem State.setMem_readCsr (d : CsrNum) : (s.setMem m).readCsr d = s.readCsr d := rfl
@[simp] theorem State.setMem_region (j : Nat) : (s.setMem m).region j = s.region j := rfl
@[simp] theorem State.setMem_cap (j : Nat) : (s.setMem m).cap j = s.cap j := rfl
@[simp] theorem State.setMem_svc (j : Nat) : (s.setMem m).svc j = s.svc j := rfl
@[simp] theorem State.setMem_trapReg (q : Reg) : (s.setMem m).trapReg q = s.trapReg q := rfl
@[simp] theorem State.setMem_stale (h : Handle) : (s.setMem m).stale h = s.stale h := rfl
@[simp] theorem State.setMem_reqFull : (s.setMem m).reqFull = s.reqFull := rfl

end setMem

section zeroFill

variable (s : State) (i : Nat)

@[simp] theorem State.zeroFill_par : (s.zeroFill i).par = s.par := rfl
@[simp] theorem State.zeroFill_regs : (s.zeroFill i).regs = s.regs := rfl
@[simp] theorem State.zeroFill_pc : (s.zeroFill i).pc = s.pc := rfl
@[simp] theorem State.zeroFill_csrs : (s.zeroFill i).csrs = s.csrs := rfl
@[simp] theorem State.zeroFill_coreState : (s.zeroFill i).coreState = s.coreState := rfl
@[simp] theorem State.zeroFill_coreRun : (s.zeroFill i).coreRun = s.coreRun := rfl
@[simp] theorem State.zeroFill_coreOwner : (s.zeroFill i).coreOwner = s.coreOwner := rfl
@[simp] theorem State.zeroFill_caps : (s.zeroFill i).caps = s.caps := rfl
@[simp] theorem State.zeroFill_tr : (s.zeroFill i).tr = s.tr := rfl
@[simp] theorem State.zeroFill_mem :
    (s.zeroFill i).mem =
      clearRange s.mem (s.region i).base.toNat (s.region i).length.toNat := rfl
@[simp] theorem State.zeroFill_regions : (s.zeroFill i).regions = s.regions := rfl
@[simp] theorem State.zeroFill_req : (s.zeroFill i).req = s.req := rfl
@[simp] theorem State.zeroFill_rsp : (s.zeroFill i).rsp = s.rsp := rfl
@[simp] theorem State.zeroFill_log : (s.zeroFill i).log = s.log := rfl
@[simp] theorem State.zeroFill_logLast : (s.zeroFill i).logLast = s.logLast := rfl
@[simp] theorem State.zeroFill_tdState : (s.zeroFill i).tdState = s.tdState := rfl
@[simp] theorem State.zeroFill_tdDeadline : (s.zeroFill i).tdDeadline = s.tdDeadline := rfl
@[simp] theorem State.zeroFill_tdDlValid : (s.zeroFill i).tdDlValid = s.tdDlValid := rfl
@[simp] theorem State.zeroFill_tdOut : (s.zeroFill i).tdOut = s.tdOut := rfl
@[simp] theorem State.zeroFill_tdNow : (s.zeroFill i).tdNow = s.tdNow := rfl
@[simp] theorem State.zeroFill_tdTimeout : (s.zeroFill i).tdTimeout = s.tdTimeout := rfl
@[simp] theorem State.zeroFill_svcs : (s.zeroFill i).svcs = s.svcs := rfl
@[simp] theorem State.zeroFill_notes : (s.zeroFill i).notes = s.notes := rfl
@[simp] theorem State.zeroFill_env : (s.zeroFill i).env = s.env := rfl
@[simp] theorem State.zeroFill_reply : (s.zeroFill i).reply = s.reply := rfl
@[simp] theorem State.zeroFill_given : (s.zeroFill i).given = s.given := rfl
@[simp] theorem State.zeroFill_readReg (q : Reg) : (s.zeroFill i).readReg q = s.readReg q := rfl
@[simp] theorem State.zeroFill_pcVal : (s.zeroFill i).pcVal = s.pcVal := rfl
@[simp] theorem State.zeroFill_readCsr (d : CsrNum) : (s.zeroFill i).readCsr d = s.readCsr d := rfl
@[simp] theorem State.zeroFill_region (j : Nat) : (s.zeroFill i).region j = s.region j := rfl
@[simp] theorem State.zeroFill_cap (j : Nat) : (s.zeroFill i).cap j = s.cap j := rfl
@[simp] theorem State.zeroFill_svc (j : Nat) : (s.zeroFill i).svc j = s.svc j := rfl
@[simp] theorem State.zeroFill_trapReg (q : Reg) : (s.zeroFill i).trapReg q = s.trapReg q := rfl
@[simp] theorem State.zeroFill_stale (h : Handle) : (s.zeroFill i).stale h = s.stale h := rfl
@[simp] theorem State.zeroFill_reqFull : (s.zeroFill i).reqFull = s.reqFull := rfl

end zeroFill

section addNote

variable (s : State) (n : Note)

@[simp] theorem State.addNote_par : (s.addNote n).par = s.par := rfl
@[simp] theorem State.addNote_regs : (s.addNote n).regs = s.regs := rfl
@[simp] theorem State.addNote_pc : (s.addNote n).pc = s.pc := rfl
@[simp] theorem State.addNote_csrs : (s.addNote n).csrs = s.csrs := rfl
@[simp] theorem State.addNote_coreState : (s.addNote n).coreState = s.coreState := rfl
@[simp] theorem State.addNote_coreRun : (s.addNote n).coreRun = s.coreRun := rfl
@[simp] theorem State.addNote_coreOwner : (s.addNote n).coreOwner = s.coreOwner := rfl
@[simp] theorem State.addNote_caps : (s.addNote n).caps = s.caps := rfl
@[simp] theorem State.addNote_tr : (s.addNote n).tr = s.tr := rfl
@[simp] theorem State.addNote_mem : (s.addNote n).mem = s.mem := rfl
@[simp] theorem State.addNote_regions : (s.addNote n).regions = s.regions := rfl
@[simp] theorem State.addNote_req : (s.addNote n).req = s.req := rfl
@[simp] theorem State.addNote_rsp : (s.addNote n).rsp = s.rsp := rfl
@[simp] theorem State.addNote_log : (s.addNote n).log = s.log := rfl
@[simp] theorem State.addNote_logLast : (s.addNote n).logLast = s.logLast := rfl
@[simp] theorem State.addNote_tdState : (s.addNote n).tdState = s.tdState := rfl
@[simp] theorem State.addNote_tdDeadline : (s.addNote n).tdDeadline = s.tdDeadline := rfl
@[simp] theorem State.addNote_tdDlValid : (s.addNote n).tdDlValid = s.tdDlValid := rfl
@[simp] theorem State.addNote_tdOut : (s.addNote n).tdOut = s.tdOut := rfl
@[simp] theorem State.addNote_tdNow : (s.addNote n).tdNow = s.tdNow := rfl
@[simp] theorem State.addNote_tdTimeout : (s.addNote n).tdTimeout = s.tdTimeout := rfl
@[simp] theorem State.addNote_svcs : (s.addNote n).svcs = s.svcs := rfl
@[simp] theorem State.addNote_notes : (s.addNote n).notes = s.notes ++ [n] := rfl
@[simp] theorem State.addNote_env : (s.addNote n).env = s.env := rfl
@[simp] theorem State.addNote_reply : (s.addNote n).reply = s.reply := rfl
@[simp] theorem State.addNote_given : (s.addNote n).given = s.given := rfl
@[simp] theorem State.addNote_readReg (q : Reg) : (s.addNote n).readReg q = s.readReg q := rfl
@[simp] theorem State.addNote_pcVal : (s.addNote n).pcVal = s.pcVal := rfl
@[simp] theorem State.addNote_readCsr (d : CsrNum) : (s.addNote n).readCsr d = s.readCsr d := rfl
@[simp] theorem State.addNote_region (j : Nat) : (s.addNote n).region j = s.region j := rfl
@[simp] theorem State.addNote_cap (j : Nat) : (s.addNote n).cap j = s.cap j := rfl
@[simp] theorem State.addNote_svc (j : Nat) : (s.addNote n).svc j = s.svc j := rfl
@[simp] theorem State.addNote_byte (a : Nat) : (s.addNote n).byte a = s.byte a := rfl
@[simp] theorem State.addNote_trapReg (q : Reg) : (s.addNote n).trapReg q = s.trapReg q := rfl
@[simp] theorem State.addNote_stale (h : Handle) : (s.addNote n).stale h = s.stale h := rfl
@[simp] theorem State.addNote_reqFull : (s.addNote n).reqFull = s.reqFull := rfl

end addNote

section answer

variable (s : State) (r : Reply)

@[simp] theorem State.answer_par : (s.answer r).par = s.par := rfl
@[simp] theorem State.answer_regs : (s.answer r).regs = s.regs := rfl
@[simp] theorem State.answer_pc : (s.answer r).pc = s.pc := rfl
@[simp] theorem State.answer_csrs : (s.answer r).csrs = s.csrs := rfl
@[simp] theorem State.answer_coreState : (s.answer r).coreState = s.coreState := rfl
@[simp] theorem State.answer_coreRun : (s.answer r).coreRun = s.coreRun := rfl
@[simp] theorem State.answer_coreOwner : (s.answer r).coreOwner = s.coreOwner := rfl
@[simp] theorem State.answer_caps : (s.answer r).caps = s.caps := rfl
@[simp] theorem State.answer_tr : (s.answer r).tr = s.tr := rfl
@[simp] theorem State.answer_mem : (s.answer r).mem = s.mem := rfl
@[simp] theorem State.answer_regions : (s.answer r).regions = s.regions := rfl
@[simp] theorem State.answer_req : (s.answer r).req = s.req := rfl
@[simp] theorem State.answer_rsp : (s.answer r).rsp = s.rsp := rfl
@[simp] theorem State.answer_log : (s.answer r).log = s.log := rfl
@[simp] theorem State.answer_logLast : (s.answer r).logLast = s.logLast := rfl
@[simp] theorem State.answer_tdState : (s.answer r).tdState = s.tdState := rfl
@[simp] theorem State.answer_tdDeadline : (s.answer r).tdDeadline = s.tdDeadline := rfl
@[simp] theorem State.answer_tdDlValid : (s.answer r).tdDlValid = s.tdDlValid := rfl
@[simp] theorem State.answer_tdOut : (s.answer r).tdOut = s.tdOut := rfl
@[simp] theorem State.answer_tdNow : (s.answer r).tdNow = s.tdNow := rfl
@[simp] theorem State.answer_tdTimeout : (s.answer r).tdTimeout = s.tdTimeout := rfl
@[simp] theorem State.answer_svcs : (s.answer r).svcs = s.svcs := rfl
@[simp] theorem State.answer_notes : (s.answer r).notes = s.notes := rfl
@[simp] theorem State.answer_env : (s.answer r).env = s.env := rfl
@[simp] theorem State.answer_reply : (s.answer r).reply = r := rfl
@[simp] theorem State.answer_given : (s.answer r).given = s.given := rfl
@[simp] theorem State.answer_readReg (q : Reg) : (s.answer r).readReg q = s.readReg q := rfl
@[simp] theorem State.answer_pcVal : (s.answer r).pcVal = s.pcVal := rfl
@[simp] theorem State.answer_readCsr (d : CsrNum) : (s.answer r).readCsr d = s.readCsr d := rfl
@[simp] theorem State.answer_region (j : Nat) : (s.answer r).region j = s.region j := rfl
@[simp] theorem State.answer_cap (j : Nat) : (s.answer r).cap j = s.cap j := rfl
@[simp] theorem State.answer_svc (j : Nat) : (s.answer r).svc j = s.svc j := rfl
@[simp] theorem State.answer_byte (a : Nat) : (s.answer r).byte a = s.byte a := rfl
@[simp] theorem State.answer_trapReg (q : Reg) : (s.answer r).trapReg q = s.trapReg q := rfl
@[simp] theorem State.answer_stale (h : Handle) : (s.answer r).stale h = s.stale h := rfl
@[simp] theorem State.answer_reqFull : (s.answer r).reqFull = s.reqFull := rfl

end answer

section handOut

variable (s : State) (h : Handle)

@[simp] theorem State.handOut_par : (s.handOut h).par = s.par := rfl
@[simp] theorem State.handOut_regs : (s.handOut h).regs = s.regs := rfl
@[simp] theorem State.handOut_pc : (s.handOut h).pc = s.pc := rfl
@[simp] theorem State.handOut_csrs : (s.handOut h).csrs = s.csrs := rfl
@[simp] theorem State.handOut_coreState : (s.handOut h).coreState = s.coreState := rfl
@[simp] theorem State.handOut_coreRun : (s.handOut h).coreRun = s.coreRun := rfl
@[simp] theorem State.handOut_coreOwner : (s.handOut h).coreOwner = s.coreOwner := rfl
@[simp] theorem State.handOut_caps : (s.handOut h).caps = s.caps := rfl
@[simp] theorem State.handOut_tr : (s.handOut h).tr = s.tr := rfl
@[simp] theorem State.handOut_mem : (s.handOut h).mem = s.mem := rfl
@[simp] theorem State.handOut_regions : (s.handOut h).regions = s.regions := rfl
@[simp] theorem State.handOut_req : (s.handOut h).req = s.req := rfl
@[simp] theorem State.handOut_rsp : (s.handOut h).rsp = s.rsp := rfl
@[simp] theorem State.handOut_log : (s.handOut h).log = s.log := rfl
@[simp] theorem State.handOut_logLast : (s.handOut h).logLast = s.logLast := rfl
@[simp] theorem State.handOut_tdState : (s.handOut h).tdState = s.tdState := rfl
@[simp] theorem State.handOut_tdDeadline : (s.handOut h).tdDeadline = s.tdDeadline := rfl
@[simp] theorem State.handOut_tdDlValid : (s.handOut h).tdDlValid = s.tdDlValid := rfl
@[simp] theorem State.handOut_tdOut : (s.handOut h).tdOut = s.tdOut := rfl
@[simp] theorem State.handOut_tdNow : (s.handOut h).tdNow = s.tdNow := rfl
@[simp] theorem State.handOut_tdTimeout : (s.handOut h).tdTimeout = s.tdTimeout := rfl
@[simp] theorem State.handOut_svcs : (s.handOut h).svcs = s.svcs := rfl
@[simp] theorem State.handOut_notes : (s.handOut h).notes = s.notes := rfl
@[simp] theorem State.handOut_env : (s.handOut h).env = s.env := rfl
@[simp] theorem State.handOut_reply : (s.handOut h).reply = .handle h.toPort := rfl
@[simp] theorem State.handOut_given : (s.handOut h).given = s.given.insert h.toPort := rfl
@[simp] theorem State.handOut_readReg (q : Reg) : (s.handOut h).readReg q = s.readReg q := rfl
@[simp] theorem State.handOut_pcVal : (s.handOut h).pcVal = s.pcVal := rfl
@[simp] theorem State.handOut_readCsr (d : CsrNum) : (s.handOut h).readCsr d = s.readCsr d := rfl
@[simp] theorem State.handOut_region (j : Nat) : (s.handOut h).region j = s.region j := rfl
@[simp] theorem State.handOut_cap (j : Nat) : (s.handOut h).cap j = s.cap j := rfl
@[simp] theorem State.handOut_svc (j : Nat) : (s.handOut h).svc j = s.svc j := rfl
@[simp] theorem State.handOut_byte (a : Nat) : (s.handOut h).byte a = s.byte a := rfl
@[simp] theorem State.handOut_trapReg (q : Reg) : (s.handOut h).trapReg q = s.trapReg q := rfl
@[simp] theorem State.handOut_stale (g : Handle) : (s.handOut h).stale g = s.stale g := rfl
@[simp] theorem State.handOut_reqFull : (s.handOut h).reqFull = s.reqFull := rfl

end handOut

section closeTrap

variable (s : State)

@[simp] theorem State.closeTrap_par : (s.closeTrap).par = s.par := rfl
@[simp] theorem State.closeTrap_regs : (s.closeTrap).regs = s.regs := rfl
@[simp] theorem State.closeTrap_pc : (s.closeTrap).pc = s.pc := rfl
@[simp] theorem State.closeTrap_csrs : (s.closeTrap).csrs = s.csrs := rfl
@[simp] theorem State.closeTrap_coreState : (s.closeTrap).coreState = s.coreState := rfl
@[simp] theorem State.closeTrap_coreRun : (s.closeTrap).coreRun = s.coreRun := rfl
@[simp] theorem State.closeTrap_coreOwner : (s.closeTrap).coreOwner = s.coreOwner := rfl
@[simp] theorem State.closeTrap_caps : (s.closeTrap).caps = s.caps := rfl
@[simp] theorem State.closeTrap_tr : (s.closeTrap).tr = { s.tr with valid := false } := rfl
@[simp] theorem State.closeTrap_mem : (s.closeTrap).mem = s.mem := rfl
@[simp] theorem State.closeTrap_regions : (s.closeTrap).regions = s.regions := rfl
@[simp] theorem State.closeTrap_req : (s.closeTrap).req = s.req := rfl
@[simp] theorem State.closeTrap_rsp : (s.closeTrap).rsp = s.rsp := rfl
@[simp] theorem State.closeTrap_log : (s.closeTrap).log = s.log := rfl
@[simp] theorem State.closeTrap_logLast : (s.closeTrap).logLast = s.logLast := rfl
@[simp] theorem State.closeTrap_tdState : (s.closeTrap).tdState = .idle := rfl
@[simp] theorem State.closeTrap_tdDeadline : (s.closeTrap).tdDeadline = s.tdDeadline := rfl
@[simp] theorem State.closeTrap_tdDlValid : (s.closeTrap).tdDlValid = false := rfl
@[simp] theorem State.closeTrap_tdOut : (s.closeTrap).tdOut = s.tdOut := rfl
@[simp] theorem State.closeTrap_tdNow : (s.closeTrap).tdNow = s.tdNow := rfl
@[simp] theorem State.closeTrap_tdTimeout : (s.closeTrap).tdTimeout = s.tdTimeout := rfl
@[simp] theorem State.closeTrap_svcs : (s.closeTrap).svcs = s.svcs := rfl
@[simp] theorem State.closeTrap_notes : (s.closeTrap).notes = s.notes := rfl
@[simp] theorem State.closeTrap_env : (s.closeTrap).env = s.env := rfl
@[simp] theorem State.closeTrap_reply : (s.closeTrap).reply = s.reply := rfl
@[simp] theorem State.closeTrap_given : (s.closeTrap).given = s.given := rfl
@[simp] theorem State.closeTrap_readReg (q : Reg) : (s.closeTrap).readReg q = s.readReg q := rfl
@[simp] theorem State.closeTrap_pcVal : (s.closeTrap).pcVal = s.pcVal := rfl
@[simp] theorem State.closeTrap_readCsr (d : CsrNum) : (s.closeTrap).readCsr d = s.readCsr d := rfl
@[simp] theorem State.closeTrap_region (j : Nat) : (s.closeTrap).region j = s.region j := rfl
@[simp] theorem State.closeTrap_cap (j : Nat) : (s.closeTrap).cap j = s.cap j := rfl
@[simp] theorem State.closeTrap_svc (j : Nat) : (s.closeTrap).svc j = s.svc j := rfl
@[simp] theorem State.closeTrap_byte (a : Nat) : (s.closeTrap).byte a = s.byte a := rfl
@[simp] theorem State.closeTrap_trapReg (q : Reg) : (s.closeTrap).trapReg q = s.trapReg q := rfl
@[simp] theorem State.closeTrap_stale (h : Handle) : (s.closeTrap).stale h = s.stale h := rfl
@[simp] theorem State.closeTrap_reqFull : (s.closeTrap).reqFull = s.reqFull := rfl

end closeTrap

section closeLog

variable (s : State) (o : LogOutcome) (reason : BitVec 8)

@[simp] theorem State.closeLog_par : (s.closeLog o reason).par = s.par := rfl
@[simp] theorem State.closeLog_regs : (s.closeLog o reason).regs = s.regs := rfl
@[simp] theorem State.closeLog_pc : (s.closeLog o reason).pc = s.pc := rfl
@[simp] theorem State.closeLog_csrs : (s.closeLog o reason).csrs = s.csrs := rfl
@[simp] theorem State.closeLog_coreState : (s.closeLog o reason).coreState = s.coreState := rfl
@[simp] theorem State.closeLog_coreRun : (s.closeLog o reason).coreRun = s.coreRun := rfl
@[simp] theorem State.closeLog_coreOwner : (s.closeLog o reason).coreOwner = s.coreOwner := rfl
@[simp] theorem State.closeLog_caps : (s.closeLog o reason).caps = s.caps := rfl
@[simp] theorem State.closeLog_tr : (s.closeLog o reason).tr = s.tr := rfl
@[simp] theorem State.closeLog_mem : (s.closeLog o reason).mem = s.mem := rfl
@[simp] theorem State.closeLog_regions : (s.closeLog o reason).regions = s.regions := rfl
@[simp] theorem State.closeLog_req : (s.closeLog o reason).req = s.req := rfl
@[simp] theorem State.closeLog_rsp : (s.closeLog o reason).rsp = s.rsp := rfl
@[simp] theorem State.closeLog_log : (s.closeLog o reason).log = { s.log with images := [], state := .empty } := rfl
@[simp] theorem State.closeLog_logLast : (s.closeLog o reason).logLast = ⟨s.log.seq, o, reason⟩ := rfl
@[simp] theorem State.closeLog_tdState : (s.closeLog o reason).tdState = s.tdState := rfl
@[simp] theorem State.closeLog_tdDeadline : (s.closeLog o reason).tdDeadline = s.tdDeadline := rfl
@[simp] theorem State.closeLog_tdDlValid : (s.closeLog o reason).tdDlValid = s.tdDlValid := rfl
@[simp] theorem State.closeLog_tdOut : (s.closeLog o reason).tdOut = s.tdOut := rfl
@[simp] theorem State.closeLog_tdNow : (s.closeLog o reason).tdNow = s.tdNow := rfl
@[simp] theorem State.closeLog_tdTimeout : (s.closeLog o reason).tdTimeout = s.tdTimeout := rfl
@[simp] theorem State.closeLog_svcs : (s.closeLog o reason).svcs = s.svcs := rfl
@[simp] theorem State.closeLog_notes : (s.closeLog o reason).notes = s.notes := rfl
@[simp] theorem State.closeLog_env : (s.closeLog o reason).env = s.env := rfl
@[simp] theorem State.closeLog_reply : (s.closeLog o reason).reply = s.reply := rfl
@[simp] theorem State.closeLog_given : (s.closeLog o reason).given = s.given := rfl
@[simp] theorem State.closeLog_readReg (q : Reg) : (s.closeLog o reason).readReg q = s.readReg q := rfl
@[simp] theorem State.closeLog_pcVal : (s.closeLog o reason).pcVal = s.pcVal := rfl
@[simp] theorem State.closeLog_readCsr (d : CsrNum) : (s.closeLog o reason).readCsr d = s.readCsr d := rfl
@[simp] theorem State.closeLog_region (j : Nat) : (s.closeLog o reason).region j = s.region j := rfl
@[simp] theorem State.closeLog_cap (j : Nat) : (s.closeLog o reason).cap j = s.cap j := rfl
@[simp] theorem State.closeLog_svc (j : Nat) : (s.closeLog o reason).svc j = s.svc j := rfl
@[simp] theorem State.closeLog_byte (a : Nat) : (s.closeLog o reason).byte a = s.byte a := rfl
@[simp] theorem State.closeLog_trapReg (q : Reg) : (s.closeLog o reason).trapReg q = s.trapReg q := rfl
@[simp] theorem State.closeLog_stale (h : Handle) : (s.closeLog o reason).stale h = s.stale h := rfl
@[simp] theorem State.closeLog_reqFull : (s.closeLog o reason).reqFull = s.reqFull := rfl

end closeLog

section setDeadline

variable (s : State)

@[simp] theorem State.setDeadline_par : (s.setDeadline).par = s.par := rfl
@[simp] theorem State.setDeadline_regs : (s.setDeadline).regs = s.regs := rfl
@[simp] theorem State.setDeadline_pc : (s.setDeadline).pc = s.pc := rfl
@[simp] theorem State.setDeadline_csrs : (s.setDeadline).csrs = s.csrs := rfl
@[simp] theorem State.setDeadline_coreState : (s.setDeadline).coreState = s.coreState := rfl
@[simp] theorem State.setDeadline_coreRun : (s.setDeadline).coreRun = s.coreRun := rfl
@[simp] theorem State.setDeadline_coreOwner : (s.setDeadline).coreOwner = s.coreOwner := rfl
@[simp] theorem State.setDeadline_caps : (s.setDeadline).caps = s.caps := rfl
@[simp] theorem State.setDeadline_tr : (s.setDeadline).tr = s.tr := rfl
@[simp] theorem State.setDeadline_mem : (s.setDeadline).mem = s.mem := rfl
@[simp] theorem State.setDeadline_regions : (s.setDeadline).regions = s.regions := rfl
@[simp] theorem State.setDeadline_req : (s.setDeadline).req = s.req := rfl
@[simp] theorem State.setDeadline_rsp : (s.setDeadline).rsp = s.rsp := rfl
@[simp] theorem State.setDeadline_log : (s.setDeadline).log = s.log := rfl
@[simp] theorem State.setDeadline_logLast : (s.setDeadline).logLast = s.logLast := rfl
@[simp] theorem State.setDeadline_tdState : (s.setDeadline).tdState = s.tdState := rfl
@[simp] theorem State.setDeadline_tdDeadline :
    (s.setDeadline).tdDeadline =
      if s.tdDlValid then s.tdDeadline else satAdd s.tdNow s.tdTimeout := rfl
@[simp] theorem State.setDeadline_tdDlValid : (s.setDeadline).tdDlValid = true := rfl
@[simp] theorem State.setDeadline_tdOut : (s.setDeadline).tdOut = s.tdOut := rfl
@[simp] theorem State.setDeadline_tdNow : (s.setDeadline).tdNow = s.tdNow := rfl
@[simp] theorem State.setDeadline_tdTimeout : (s.setDeadline).tdTimeout = s.tdTimeout := rfl
@[simp] theorem State.setDeadline_svcs : (s.setDeadline).svcs = s.svcs := rfl
@[simp] theorem State.setDeadline_notes : (s.setDeadline).notes = s.notes := rfl
@[simp] theorem State.setDeadline_env : (s.setDeadline).env = s.env := rfl
@[simp] theorem State.setDeadline_reply : (s.setDeadline).reply = s.reply := rfl
@[simp] theorem State.setDeadline_given : (s.setDeadline).given = s.given := rfl
@[simp] theorem State.setDeadline_readReg (q : Reg) : (s.setDeadline).readReg q = s.readReg q := rfl
@[simp] theorem State.setDeadline_pcVal : (s.setDeadline).pcVal = s.pcVal := rfl
@[simp] theorem State.setDeadline_readCsr (d : CsrNum) : (s.setDeadline).readCsr d = s.readCsr d := rfl
@[simp] theorem State.setDeadline_region (j : Nat) : (s.setDeadline).region j = s.region j := rfl
@[simp] theorem State.setDeadline_cap (j : Nat) : (s.setDeadline).cap j = s.cap j := rfl
@[simp] theorem State.setDeadline_svc (j : Nat) : (s.setDeadline).svc j = s.svc j := rfl
@[simp] theorem State.setDeadline_byte (a : Nat) : (s.setDeadline).byte a = s.byte a := rfl
@[simp] theorem State.setDeadline_trapReg (q : Reg) : (s.setDeadline).trapReg q = s.trapReg q := rfl
@[simp] theorem State.setDeadline_stale (h : Handle) : (s.setDeadline).stale h = s.stale h := rfl
@[simp] theorem State.setDeadline_reqFull : (s.setDeadline).reqFull = s.reqFull := rfl

end setDeadline

section publishRequest

variable (s : State) (svc : BitVec 16) (offset : BitVec 64) (len : BitVec 32)

@[simp] theorem State.publishRequest_par : (s.publishRequest svc offset len).par = s.par := rfl
@[simp] theorem State.publishRequest_regs : (s.publishRequest svc offset len).regs = s.regs := rfl
@[simp] theorem State.publishRequest_pc : (s.publishRequest svc offset len).pc = s.pc := rfl
@[simp] theorem State.publishRequest_csrs : (s.publishRequest svc offset len).csrs = s.csrs := rfl
@[simp] theorem State.publishRequest_coreState : (s.publishRequest svc offset len).coreState = s.coreState := rfl
@[simp] theorem State.publishRequest_coreRun : (s.publishRequest svc offset len).coreRun = s.coreRun := rfl
@[simp] theorem State.publishRequest_coreOwner : (s.publishRequest svc offset len).coreOwner = s.coreOwner := rfl
@[simp] theorem State.publishRequest_caps : (s.publishRequest svc offset len).caps = s.caps := rfl
@[simp] theorem State.publishRequest_tr : (s.publishRequest svc offset len).tr = s.tr := rfl
@[simp] theorem State.publishRequest_mem : (s.publishRequest svc offset len).mem = s.mem := rfl
@[simp] theorem State.publishRequest_regions : (s.publishRequest svc offset len).regions = s.regions := rfl
@[simp] theorem State.publishRequest_req :
    (s.publishRequest svc offset len).req =
      (tryPublish s.par.ringCap s.req (Frame.toBits ⟨s.req.head, 0, svc, len, offset, 0⟩)).getD s.req := rfl
@[simp] theorem State.publishRequest_rsp : (s.publishRequest svc offset len).rsp = s.rsp := rfl
@[simp] theorem State.publishRequest_log : (s.publishRequest svc offset len).log = s.log := rfl
@[simp] theorem State.publishRequest_logLast : (s.publishRequest svc offset len).logLast = s.logLast := rfl
@[simp] theorem State.publishRequest_tdState : (s.publishRequest svc offset len).tdState = s.tdState := rfl
@[simp] theorem State.publishRequest_tdDeadline : (s.publishRequest svc offset len).tdDeadline = s.tdDeadline := rfl
@[simp] theorem State.publishRequest_tdDlValid : (s.publishRequest svc offset len).tdDlValid = s.tdDlValid := rfl
@[simp] theorem State.publishRequest_tdOut : (s.publishRequest svc offset len).tdOut = s.tdOut := rfl
@[simp] theorem State.publishRequest_tdNow : (s.publishRequest svc offset len).tdNow = s.tdNow := rfl
@[simp] theorem State.publishRequest_tdTimeout : (s.publishRequest svc offset len).tdTimeout = s.tdTimeout := rfl
@[simp] theorem State.publishRequest_svcs : (s.publishRequest svc offset len).svcs = s.svcs := rfl
@[simp] theorem State.publishRequest_notes : (s.publishRequest svc offset len).notes = s.notes := rfl
@[simp] theorem State.publishRequest_env : (s.publishRequest svc offset len).env = s.env := rfl
@[simp] theorem State.publishRequest_reply : (s.publishRequest svc offset len).reply = s.reply := rfl
@[simp] theorem State.publishRequest_given : (s.publishRequest svc offset len).given = s.given := rfl
@[simp] theorem State.publishRequest_readReg (q : Reg) : (s.publishRequest svc offset len).readReg q = s.readReg q := rfl
@[simp] theorem State.publishRequest_pcVal : (s.publishRequest svc offset len).pcVal = s.pcVal := rfl
@[simp] theorem State.publishRequest_readCsr (d : CsrNum) : (s.publishRequest svc offset len).readCsr d = s.readCsr d := rfl
@[simp] theorem State.publishRequest_region (j : Nat) : (s.publishRequest svc offset len).region j = s.region j := rfl
@[simp] theorem State.publishRequest_cap (j : Nat) : (s.publishRequest svc offset len).cap j = s.cap j := rfl
@[simp] theorem State.publishRequest_svc (j : Nat) : (s.publishRequest svc offset len).svc j = s.svc j := rfl
@[simp] theorem State.publishRequest_byte (a : Nat) : (s.publishRequest svc offset len).byte a = s.byte a := rfl
@[simp] theorem State.publishRequest_trapReg (q : Reg) : (s.publishRequest svc offset len).trapReg q = s.trapReg q := rfl
@[simp] theorem State.publishRequest_stale (h : Handle) : (s.publishRequest svc offset len).stale h = s.stale h := rfl

end publishRequest

section popEnv

variable (s : State)

@[simp] theorem popEnv_par : (popEnv s).par = s.par := rfl
@[simp] theorem popEnv_regs : (popEnv s).regs = s.regs := rfl
@[simp] theorem popEnv_pc : (popEnv s).pc = s.pc := rfl
@[simp] theorem popEnv_csrs : (popEnv s).csrs = s.csrs := rfl
@[simp] theorem popEnv_coreState : (popEnv s).coreState = s.coreState := rfl
@[simp] theorem popEnv_coreRun : (popEnv s).coreRun = s.coreRun := rfl
@[simp] theorem popEnv_coreOwner : (popEnv s).coreOwner = s.coreOwner := rfl
@[simp] theorem popEnv_caps : (popEnv s).caps = s.caps := rfl
@[simp] theorem popEnv_tr : (popEnv s).tr = s.tr := rfl
@[simp] theorem popEnv_mem : (popEnv s).mem = s.mem := rfl
@[simp] theorem popEnv_regions : (popEnv s).regions = s.regions := rfl
@[simp] theorem popEnv_req : (popEnv s).req = s.req := rfl
@[simp] theorem popEnv_rsp : (popEnv s).rsp = s.rsp := rfl
@[simp] theorem popEnv_log : (popEnv s).log = s.log := rfl
@[simp] theorem popEnv_logLast : (popEnv s).logLast = s.logLast := rfl
@[simp] theorem popEnv_tdState : (popEnv s).tdState = s.tdState := rfl
@[simp] theorem popEnv_tdDeadline : (popEnv s).tdDeadline = s.tdDeadline := rfl
@[simp] theorem popEnv_tdDlValid : (popEnv s).tdDlValid = s.tdDlValid := rfl
@[simp] theorem popEnv_tdOut : (popEnv s).tdOut = s.tdOut := rfl
@[simp] theorem popEnv_tdNow : (popEnv s).tdNow = s.tdNow := rfl
@[simp] theorem popEnv_tdTimeout : (popEnv s).tdTimeout = s.tdTimeout := rfl
@[simp] theorem popEnv_svcs : (popEnv s).svcs = s.svcs := rfl
@[simp] theorem popEnv_notes : (popEnv s).notes = s.notes := rfl
@[simp] theorem popEnv_env : (popEnv s).env = s.env.tail := rfl
@[simp] theorem popEnv_reply : (popEnv s).reply = s.reply := rfl
@[simp] theorem popEnv_given : (popEnv s).given = s.given := rfl
@[simp] theorem popEnv_readReg (q : Reg) : (popEnv s).readReg q = s.readReg q := rfl
@[simp] theorem popEnv_pcVal : (popEnv s).pcVal = s.pcVal := rfl
@[simp] theorem popEnv_readCsr (d : CsrNum) : (popEnv s).readCsr d = s.readCsr d := rfl
@[simp] theorem popEnv_region (j : Nat) : (popEnv s).region j = s.region j := rfl
@[simp] theorem popEnv_cap (j : Nat) : (popEnv s).cap j = s.cap j := rfl
@[simp] theorem popEnv_svc (j : Nat) : (popEnv s).svc j = s.svc j := rfl
@[simp] theorem popEnv_byte (a : Nat) : (popEnv s).byte a = s.byte a := rfl
@[simp] theorem popEnv_trapReg (q : Reg) : (popEnv s).trapReg q = s.trapReg q := rfl
@[simp] theorem popEnv_stale (h : Handle) : (popEnv s).stale h = s.stale h := rfl
@[simp] theorem popEnv_reqFull : (popEnv s).reqFull = s.reqFull := rfl

end popEnv

section trapEntry

variable (s : State) (k : Kind) (a : Word)

@[simp] theorem trapEntry_par : (trapEntry k a s).par = s.par := rfl
@[simp] theorem trapEntry_regs : (trapEntry k a s).regs = s.regs := rfl
@[simp] theorem trapEntry_pc : (trapEntry k a s).pc = s.pc := rfl
@[simp] theorem trapEntry_csrs : (trapEntry k a s).csrs = s.csrs := rfl
@[simp] theorem trapEntry_coreState : (trapEntry k a s).coreState = .trapped := rfl
@[simp] theorem trapEntry_coreRun : (trapEntry k a s).coreRun = s.coreRun := rfl
@[simp] theorem trapEntry_coreOwner : (trapEntry k a s).coreOwner = s.coreOwner := rfl
@[simp] theorem trapEntry_caps : (trapEntry k a s).caps = s.caps := rfl
@[simp] theorem trapEntry_tr : (trapEntry k a s).tr = ⟨true, k, trunc s.par.xlen a, s.pcVal, s.snapshotRegs⟩ := rfl
@[simp] theorem trapEntry_mem : (trapEntry k a s).mem = s.mem := rfl
@[simp] theorem trapEntry_regions : (trapEntry k a s).regions = s.regions := rfl
@[simp] theorem trapEntry_req : (trapEntry k a s).req = s.req := rfl
@[simp] theorem trapEntry_rsp : (trapEntry k a s).rsp = s.rsp := rfl
@[simp] theorem trapEntry_log : (trapEntry k a s).log = s.log := rfl
@[simp] theorem trapEntry_logLast : (trapEntry k a s).logLast = s.logLast := rfl
@[simp] theorem trapEntry_tdState : (trapEntry k a s).tdState = .classify := rfl
@[simp] theorem trapEntry_tdDeadline : (trapEntry k a s).tdDeadline = s.tdDeadline := rfl
@[simp] theorem trapEntry_tdDlValid : (trapEntry k a s).tdDlValid = false := rfl
@[simp] theorem trapEntry_tdOut : (trapEntry k a s).tdOut = s.tdOut := rfl
@[simp] theorem trapEntry_tdNow : (trapEntry k a s).tdNow = s.tdNow := rfl
@[simp] theorem trapEntry_tdTimeout : (trapEntry k a s).tdTimeout = s.tdTimeout := rfl
@[simp] theorem trapEntry_svcs : (trapEntry k a s).svcs = s.svcs := rfl
@[simp] theorem trapEntry_notes :
    (trapEntry k a s).notes =
      s.notes ++ [⟨.trap, k, trunc s.par.xlen a, s.pcVal, if k = .syscall then s.readReg 17 else 0⟩] := rfl
@[simp] theorem trapEntry_env : (trapEntry k a s).env = s.env := rfl
@[simp] theorem trapEntry_reply : (trapEntry k a s).reply = s.reply := rfl
@[simp] theorem trapEntry_given : (trapEntry k a s).given = s.given := rfl
@[simp] theorem trapEntry_readReg (q : Reg) : (trapEntry k a s).readReg q = s.readReg q := rfl
@[simp] theorem trapEntry_pcVal : (trapEntry k a s).pcVal = s.pcVal := rfl
@[simp] theorem trapEntry_readCsr (d : CsrNum) : (trapEntry k a s).readCsr d = s.readCsr d := rfl
@[simp] theorem trapEntry_region (j : Nat) : (trapEntry k a s).region j = s.region j := rfl
@[simp] theorem trapEntry_cap (j : Nat) : (trapEntry k a s).cap j = s.cap j := rfl
@[simp] theorem trapEntry_svc (j : Nat) : (trapEntry k a s).svc j = s.svc j := rfl
@[simp] theorem trapEntry_byte (b : Nat) : (trapEntry k a s).byte b = s.byte b := rfl
@[simp] theorem trapEntry_stale (h : Handle) : (trapEntry k a s).stale h = s.stale h := rfl
@[simp] theorem trapEntry_reqFull : (trapEntry k a s).reqFull = s.reqFull := rfl

end trapEntry

section resume

variable (s : State)

@[simp] theorem resume_par : (resume s).par = s.par := rfl
@[simp] theorem resume_regs : (resume s).regs = s.regs := rfl
@[simp] theorem resume_pc : (resume s).pc = trunc s.par.xlen (trunc s.par.xlen s.tr.savedPc + 4) := rfl
@[simp] theorem resume_csrs : (resume s).csrs = s.csrs := rfl
@[simp] theorem resume_coreState : (resume s).coreState = .fetching := rfl
@[simp] theorem resume_coreRun : (resume s).coreRun = s.coreRun := rfl
@[simp] theorem resume_coreOwner : (resume s).coreOwner = s.coreOwner := rfl
@[simp] theorem resume_caps : (resume s).caps = s.caps := rfl
@[simp] theorem resume_tr : (resume s).tr = { s.tr with valid := false } := rfl
@[simp] theorem resume_mem : (resume s).mem = s.mem := rfl
@[simp] theorem resume_regions : (resume s).regions = s.regions := rfl
@[simp] theorem resume_req : (resume s).req = s.req := rfl
@[simp] theorem resume_rsp : (resume s).rsp = s.rsp := rfl
@[simp] theorem resume_log : (resume s).log = s.log := rfl
@[simp] theorem resume_logLast : (resume s).logLast = s.logLast := rfl
@[simp] theorem resume_tdState : (resume s).tdState = .idle := rfl
@[simp] theorem resume_tdDeadline : (resume s).tdDeadline = s.tdDeadline := rfl
@[simp] theorem resume_tdDlValid : (resume s).tdDlValid = false := rfl
@[simp] theorem resume_tdOut : (resume s).tdOut = s.tdOut := rfl
@[simp] theorem resume_tdNow : (resume s).tdNow = s.tdNow := rfl
@[simp] theorem resume_tdTimeout : (resume s).tdTimeout = s.tdTimeout := rfl
@[simp] theorem resume_svcs : (resume s).svcs = s.svcs := rfl
@[simp] theorem resume_notes : (resume s).notes = s.notes := rfl
@[simp] theorem resume_env : (resume s).env = s.env := rfl
@[simp] theorem resume_reply : (resume s).reply = s.reply := rfl
@[simp] theorem resume_given : (resume s).given = s.given := rfl
@[simp] theorem resume_readReg (q : Reg) : (resume s).readReg q = s.readReg q := rfl
@[simp] theorem resume_readCsr (d : CsrNum) : (resume s).readCsr d = s.readCsr d := rfl
@[simp] theorem resume_region (j : Nat) : (resume s).region j = s.region j := rfl
@[simp] theorem resume_cap (j : Nat) : (resume s).cap j = s.cap j := rfl
@[simp] theorem resume_svc (j : Nat) : (resume s).svc j = s.svc j := rfl
@[simp] theorem resume_byte (a : Nat) : (resume s).byte a = s.byte a := rfl
@[simp] theorem resume_trapReg (q : Reg) : (resume s).trapReg q = s.trapReg q := rfl
@[simp] theorem resume_stale (h : Handle) : (resume s).stale h = s.stale h := rfl
@[simp] theorem resume_reqFull : (resume s).reqFull = s.reqFull := rfl

end resume

end Sys2Proof.Machine
end

