-- ==== Sys2Proof/Laws/Ops.lean ====
section
/-! SUPPORT. The operations of Machine/Ops.lean and Machine/SpecLog.lean: a read after a write of every table, and for each
composed operation which fields it can change. -/

namespace Sys2Proof.Machine

open Sys2Proof.Safety

/-! ## Reads after writes -/

@[simp] theorem State.readReg_zero (s : State) : s.readReg 0 = 0 := rfl

/-- A register write: the value modulo 2^XLEN in its register, none in x0, no other register (10_state.md R20, R21). -/
theorem State.readReg_writeReg (s : State) (r q : Reg) (v : Word) :
    (s.writeReg r v).readReg q = if q = 0 then 0 else if q = r then trunc s.par.xlen v else s.readReg q := by
  by_cases hq : q = 0
  · rw [if_pos hq, hq]
    rfl
  · rw [if_neg hq]
    unfold State.readReg
    rw [if_neg hq, if_neg hq]
    simp only [State.writeReg_par, State.writeReg_regs]
    by_cases hqr : q = r
    · subst hqr
      simp only [if_neg hq, if_true, Vector.getElem_set_self, trunc_trunc]
    · have hne : r.toNat ≠ q.toNat := fun h => hqr (BitVec.eq_of_toNat_eq h.symm)
      rw [if_neg hqr]
      by_cases hr : r = 0
      · simp only [if_pos hr]
      · simp only [if_neg hr, Vector.getElem_set_ne _ _ hne]

theorem State.readReg_lt (s : State) (r : Reg) : (s.readReg r).toNat < 2 ^ s.par.xlen.bits := by
  unfold State.readReg
  split_ifs
  · exact Nat.two_pow_pos _
  · exact trunc_lt _ _

@[simp] theorem State.trunc_readReg (s : State) (r : Reg) : trunc s.par.xlen (s.readReg r) = s.readReg r :=
  trunc_of_lt (s.readReg_lt r)

@[simp] theorem State.pcVal_setPc (s : State) (v : Word) : (s.setPc v).pcVal = trunc s.par.xlen v := by
  simp [State.pcVal]

@[simp] theorem State.pcVal_advance (s : State) : s.advance.pcVal = nextPc s := by
  simp only [State.pcVal, State.advance_pc, State.advance_par, trunc_trunc, nextPc]
  rw [trunc_add_eq_wrap]
  rfl

theorem State.pcVal_lt (s : State) : s.pcVal.toNat < 2 ^ s.par.xlen.bits := trunc_lt _ _

@[simp] theorem State.trunc_pcVal (s : State) : trunc s.par.xlen s.pcVal = s.pcVal := trunc_trunc _ _

/-- A CSR write changes that word only (10_state.md R24). -/
theorem State.readCsr_writeCsr (s : State) (c d : CsrNum) (v : Word) :
    (s.writeCsr c v).readCsr d = if d = c then trunc s.par.xlen v else s.readCsr d := by
  unfold State.readCsr
  simp only [State.writeCsr_csrs, State.writeCsr_par, lookup_put]
  by_cases h : d = c
  · simp [h]
  · have : d.toNat ≠ c.toNat := fun e => h (BitVec.eq_of_toNat_eq e)
    simp [h, this]

@[simp] theorem State.trunc_readCsr (s : State) (c : CsrNum) : trunc s.par.xlen (s.readCsr c) = s.readCsr c :=
  trunc_trunc _ _

theorem State.region_setRegion (s : State) (i j : Nat) (r : Region) :
    (s.setRegion i r).region j = if j = i then r else s.region j := lookup_put ..

theorem State.cap_setCap (s : State) (i j : Nat) (c : Cap) :
    (s.setCap i c).cap j = if j = i then c else s.cap j := lookup_put ..

theorem State.svc_setSvc (s : State) (n k : Nat) (e : SvcEntry) :
    (s.setSvc n e).svc k = if k = n then e else s.svc k := lookup_put ..

@[simp] theorem State.byte_setMem (s : State) (m : Memory) (a : Nat) : (s.setMem m).byte a = byteAt m a := rfl

theorem State.byte_zeroFill (s : State) (i a : Nat) :
    (s.zeroFill i).byte a =
      if inRange (s.region i).base.toNat (s.region i).length.toNat a then 0 else s.byte a :=
  byteAt_clearRange ..

/-- The snapshot of a trap holds every register (10_state.md R31). -/
theorem trapReg_trapEntry (k : Kind) (a : Word) (s : State) (q : Reg) : (trapEntry k a s).trapReg q = s.readReg q := by
  by_cases hq : q = 0
  · rw [hq]
    rfl
  · have hne : (0 : Nat) ≠ q.toNat := fun h => hq (BitVec.eq_of_toNat_eq h.symm)
    unfold State.trapReg TrapRecord.reg State.readReg
    rw [if_neg hq, if_neg hq]
    simp only [trapEntry_tr, trapEntry_par, State.snapshotRegs, Vector.getElem_set_ne _ _ hne]

/-! ## The generation increment and the restoration of images -/

theorem State.bump_rest (s : State) (i : Nat) :
    s.bump i = { s with regions := (s.bump i).regions, mem := (s.bump i).mem } := by
  unfold State.bump
  split_ifs <;> rfl

/-- `BUMP(i)` on the Region table (44_addressspace_ops.md R309). -/
theorem State.region_bump (s : State) (i j : Nat) :
    (s.bump i).region j =
      if j = i then
        if (s.region i).gen ≠ genMax then { s.region i with gen := (s.region i).gen + 1 }
        else if (s.region i).valid then (s.region i).cleared else s.region i
      else s.region j := by
  unfold State.bump
  split_ifs with h1 h2 h3 h3 h4 <;> simp_all [State.region_setRegion]

/-- `BUMP(i)` on the store: zero-fill where it retires a Region (44_addressspace_ops.md R309). -/
theorem State.byte_bump (s : State) (i a : Nat) :
    (s.bump i).byte a =
      if (s.region i).gen = genMax ∧ (s.region i).valid = true ∧
          inRange (s.region i).base.toNat (s.region i).length.toNat a then 0 else s.byte a := by
  unfold State.bump
  split_ifs with h1 h2 h3 h3 h4 <;> simp_all [State.byte_zeroFill]

/-- The generation of no slot goes down in `BUMP` (10_state.md R35 d). -/
theorem State.gen_bump_le (s : State) (i j : Nat) : (s.region j).gen.toNat ≤ ((s.bump i).region j).gen.toNat := by
  rw [State.region_bump]
  split_ifs with h1 h2 h3
  · subst h1
    have hlt : (s.region j).gen.toNat < 2 ^ 64 - 1 := by
      have := (s.region j).gen.isLt
      have hne : (s.region j).gen.toNat ≠ genMax.toNat := fun h => h2 (BitVec.eq_of_toNat_eq h)
      simp [genMax] at hne
      omega
    show _ ≤ ((s.region j).gen + 1).toNat
    rw [BitVec.toNat_add]
    simp
    omega
  · subst h1; exact le_rfl
  · subst h1; exact le_rfl
  · exact le_rfl

theorem restoreImage_rest (m : Image) (s : State) : restoreImage m s =
    { s with regions := (restoreImage m s).regions, mem := (restoreImage m s).mem, caps := (restoreImage m s).caps } := by
  unfold restoreImage
  simp only
  split_ifs
  · rw [State.bump_rest]
    rfl
  · rfl

/-- Restoring a before-image, on the Region table: the descriptor with the generation kept, bumped where the owner moved
(46_speclog_ops.md R378, step 1). -/
theorem region_restoreImage (m : Image) (s : State) (j : Nat) :
    (restoreImage m s).region j =
      if j = m.rid then
        if (s.region m.rid).owner ≠ m.desc.owner then
          if (s.region m.rid).gen ≠ genMax then { m.desc with gen := (s.region m.rid).gen + 1 }
          else if m.desc.valid then { m.desc with gen := (s.region m.rid).gen }.cleared
          else { m.desc with gen := (s.region m.rid).gen }
        else { m.desc with gen := (s.region m.rid).gen }
      else s.region j := by
  unfold restoreImage
  simp only
  split_ifs with h1 h2 h3 h4 <;>
    simp_all [State.region_bump, State.region_setRegion]

/-- Restoring a before-image, on the store: the image's bytes in the descriptor's range, unless the slot is retired by the
bump that follows, which zero-fills it. -/
theorem byte_restoreImage (m : Image) (hm : m.bytes.wf) (s : State) (a : Nat) :
    (restoreImage m s).byte a =
      if inRange m.desc.base.toNat m.desc.length.toNat a then
        if (s.region m.rid).owner ≠ m.desc.owner ∧ (s.region m.rid).gen = genMax ∧ m.desc.valid = true then 0
        else byteAt m.bytes a
      else s.byte a := by
  have hput : ∀ t : State, t.mem = putImage s.mem m.desc.base.toNat m.desc.length.toNat m.bytes → t.byte a =
      if inRange m.desc.base.toNat m.desc.length.toNat a then byteAt m.bytes a else s.byte a := by
    intro t ht
    unfold State.byte
    rw [ht, byteAt_putImage _ _ _ _ hm]
  unfold restoreImage
  simp only
  by_cases h1 : (s.region m.rid).owner = m.desc.owner
  · rw [if_neg (not_not.2 h1), hput _ rfl]
    simp [h1]
  · rw [if_pos h1, State.byte_bump, hput _ rfl]
    simp only [State.setCap_region, State.setMem_region, State.region_setRegion, if_true, h1, not_false_eq_true,
      true_and, ne_eq]
    by_cases h2 : inRange m.desc.base.toNat m.desc.length.toNat a <;> simp [h2]

theorem cap_restoreImage (m : Image) (s : State) (j : Nat) :
    (restoreImage m s).cap j = if j = m.rid then m.cap else s.cap j := by
  unfold restoreImage
  simp only
  split_ifs with h1 h2 h2
  · rw [State.bump_rest]; simp only [State.cap, State.setCap_caps, lookup_put, h2, if_true]
  · rw [State.bump_rest]; simp only [State.cap, State.setCap_caps, lookup_put, h2, if_false]; rfl
  · simp [State.cap_setCap, h2]
  · simp [State.cap_setCap, h2]

theorem gen_restoreImage_le (m : Image) (s : State) (j : Nat) :
    (s.region j).gen.toNat ≤ ((restoreImage m s).region j).gen.toNat := by
  unfold restoreImage
  simp only
  have key : ∀ t : State, (t.region j).gen = (s.region j).gen →
      (s.region j).gen.toNat ≤ ((t.bump m.rid).region j).gen.toNat := by
    intro t ht
    have := t.gen_bump_le m.rid j
    rwa [ht] at this
  split_ifs
  · apply key
    by_cases hj : j = m.rid <;> simp [State.region_setRegion, hj]
  · by_cases hj : j = m.rid <;> simp [State.region_setRegion, hj]

theorem restoreImages_rest (l : List Image) (s : State) : restoreImages l s =
    { s with
      regions := (restoreImages l s).regions, mem := (restoreImages l s).mem, caps := (restoreImages l s).caps } := by
  induction l with
  | nil => rfl
  | cons m l ih =>
    rw [restoreImages, restoreImage_rest, ih]

theorem gen_restoreImages_le (l : List Image) (s : State) (j : Nat) :
    (s.region j).gen.toNat ≤ ((restoreImages l s).region j).gen.toNat := by
  induction l with
  | nil => exact le_rfl
  | cons m l ih => exact ih.trans (gen_restoreImage_le m _ j)

theorem applyTouch_rest (t : Touch) (s : State) : applyTouch t s =
    { s with regions := (applyTouch t s).regions, mem := (applyTouch t s).mem, caps := (applyTouch t s).caps } := rfl

theorem applyTouches_rest (l : List Touch) (s : State) : applyTouches l s =
    { s with
      regions := (applyTouches l s).regions, mem := (applyTouches l s).mem, caps := (applyTouches l s).caps } := by
  induction l generalizing s with
  | nil => rfl
  | cons t l ih =>
    rw [applyTouches, ih]
    rfl

/-- A provisional effect on the Region table (46_speclog_ops.md R375). -/
theorem region_applyTouch (t : Touch) (s : State) (j : Nat) :
    (applyTouch t s).region j =
      if j = t.rid then { s.region t.rid with perms := t.perms, owner := t.owner } else s.region j :=
  lookup_put ..

theorem gen_applyTouches (l : List Touch) (s : State) (j : Nat) :
    ((applyTouches l s).region j).gen = (s.region j).gen := by
  induction l generalizing s with
  | nil => rfl
  | cons t l ih =>
    rw [applyTouches, ih, region_applyTouch]
    split_ifs with h
    · rw [h]
    · rfl

theorem restoreAtTermination_rest (s : State) : restoreAtTermination s =
    { s with
      regions := (restoreAtTermination s).regions, mem := (restoreAtTermination s).mem
      caps := (restoreAtTermination s).caps, log := (restoreAtTermination s).log
      logLast := (restoreAtTermination s).logLast } := by
  unfold restoreAtTermination
  split_ifs
  · rw [restoreImages_rest]; rfl
  · rfl

section

variable (s : State) (i : Nat)

@[simp] theorem State.bump_par : (s.bump i).par = s.par := by rw [State.bump_rest]
@[simp] theorem State.bump_regs : (s.bump i).regs = s.regs := by rw [State.bump_rest]
@[simp] theorem State.bump_pc : (s.bump i).pc = s.pc := by rw [State.bump_rest]
@[simp] theorem State.bump_csrs : (s.bump i).csrs = s.csrs := by rw [State.bump_rest]
@[simp] theorem State.bump_coreState : (s.bump i).coreState = s.coreState := by rw [State.bump_rest]
@[simp] theorem State.bump_coreRun : (s.bump i).coreRun = s.coreRun := by rw [State.bump_rest]
@[simp] theorem State.bump_coreOwner : (s.bump i).coreOwner = s.coreOwner := by rw [State.bump_rest]
@[simp] theorem State.bump_caps : (s.bump i).caps = s.caps := by rw [State.bump_rest]
@[simp] theorem State.bump_tr : (s.bump i).tr = s.tr := by rw [State.bump_rest]
@[simp] theorem State.bump_req : (s.bump i).req = s.req := by rw [State.bump_rest]
@[simp] theorem State.bump_rsp : (s.bump i).rsp = s.rsp := by rw [State.bump_rest]
@[simp] theorem State.bump_log : (s.bump i).log = s.log := by rw [State.bump_rest]
@[simp] theorem State.bump_logLast : (s.bump i).logLast = s.logLast := by rw [State.bump_rest]
@[simp] theorem State.bump_tdState : (s.bump i).tdState = s.tdState := by rw [State.bump_rest]
@[simp] theorem State.bump_tdDeadline : (s.bump i).tdDeadline = s.tdDeadline := by rw [State.bump_rest]
@[simp] theorem State.bump_tdDlValid : (s.bump i).tdDlValid = s.tdDlValid := by rw [State.bump_rest]
@[simp] theorem State.bump_tdOut : (s.bump i).tdOut = s.tdOut := by rw [State.bump_rest]
@[simp] theorem State.bump_tdNow : (s.bump i).tdNow = s.tdNow := by rw [State.bump_rest]
@[simp] theorem State.bump_tdTimeout : (s.bump i).tdTimeout = s.tdTimeout := by rw [State.bump_rest]
@[simp] theorem State.bump_svcs : (s.bump i).svcs = s.svcs := by rw [State.bump_rest]
@[simp] theorem State.bump_notes : (s.bump i).notes = s.notes := by rw [State.bump_rest]
@[simp] theorem State.bump_env : (s.bump i).env = s.env := by rw [State.bump_rest]
@[simp] theorem State.bump_reply : (s.bump i).reply = s.reply := by rw [State.bump_rest]
@[simp] theorem State.bump_given : (s.bump i).given = s.given := by rw [State.bump_rest]

end

section

variable (s : State) (m : Image)

@[simp] theorem restoreImage_par : (restoreImage m s).par = s.par := by rw [restoreImage_rest]
@[simp] theorem restoreImage_regs : (restoreImage m s).regs = s.regs := by rw [restoreImage_rest]
@[simp] theorem restoreImage_pc : (restoreImage m s).pc = s.pc := by rw [restoreImage_rest]
@[simp] theorem restoreImage_csrs : (restoreImage m s).csrs = s.csrs := by rw [restoreImage_rest]
@[simp] theorem restoreImage_coreState : (restoreImage m s).coreState = s.coreState := by rw [restoreImage_rest]
@[simp] theorem restoreImage_coreRun : (restoreImage m s).coreRun = s.coreRun := by rw [restoreImage_rest]
@[simp] theorem restoreImage_coreOwner : (restoreImage m s).coreOwner = s.coreOwner := by rw [restoreImage_rest]
@[simp] theorem restoreImage_tr : (restoreImage m s).tr = s.tr := by rw [restoreImage_rest]
@[simp] theorem restoreImage_req : (restoreImage m s).req = s.req := by rw [restoreImage_rest]
@[simp] theorem restoreImage_rsp : (restoreImage m s).rsp = s.rsp := by rw [restoreImage_rest]
@[simp] theorem restoreImage_log : (restoreImage m s).log = s.log := by rw [restoreImage_rest]
@[simp] theorem restoreImage_logLast : (restoreImage m s).logLast = s.logLast := by rw [restoreImage_rest]
@[simp] theorem restoreImage_tdState : (restoreImage m s).tdState = s.tdState := by rw [restoreImage_rest]
@[simp] theorem restoreImage_tdDeadline : (restoreImage m s).tdDeadline = s.tdDeadline := by rw [restoreImage_rest]
@[simp] theorem restoreImage_tdDlValid : (restoreImage m s).tdDlValid = s.tdDlValid := by rw [restoreImage_rest]
@[simp] theorem restoreImage_tdOut : (restoreImage m s).tdOut = s.tdOut := by rw [restoreImage_rest]
@[simp] theorem restoreImage_tdNow : (restoreImage m s).tdNow = s.tdNow := by rw [restoreImage_rest]
@[simp] theorem restoreImage_tdTimeout : (restoreImage m s).tdTimeout = s.tdTimeout := by rw [restoreImage_rest]
@[simp] theorem restoreImage_svcs : (restoreImage m s).svcs = s.svcs := by rw [restoreImage_rest]
@[simp] theorem restoreImage_notes : (restoreImage m s).notes = s.notes := by rw [restoreImage_rest]
@[simp] theorem restoreImage_env : (restoreImage m s).env = s.env := by rw [restoreImage_rest]
@[simp] theorem restoreImage_reply : (restoreImage m s).reply = s.reply := by rw [restoreImage_rest]
@[simp] theorem restoreImage_given : (restoreImage m s).given = s.given := by rw [restoreImage_rest]

end

section

variable (s : State) (l : List Image)

@[simp] theorem restoreImages_par : (restoreImages l s).par = s.par := by rw [restoreImages_rest]
@[simp] theorem restoreImages_regs : (restoreImages l s).regs = s.regs := by rw [restoreImages_rest]
@[simp] theorem restoreImages_pc : (restoreImages l s).pc = s.pc := by rw [restoreImages_rest]
@[simp] theorem restoreImages_csrs : (restoreImages l s).csrs = s.csrs := by rw [restoreImages_rest]
@[simp] theorem restoreImages_coreState : (restoreImages l s).coreState = s.coreState := by rw [restoreImages_rest]
@[simp] theorem restoreImages_coreRun : (restoreImages l s).coreRun = s.coreRun := by rw [restoreImages_rest]
@[simp] theorem restoreImages_coreOwner : (restoreImages l s).coreOwner = s.coreOwner := by rw [restoreImages_rest]
@[simp] theorem restoreImages_tr : (restoreImages l s).tr = s.tr := by rw [restoreImages_rest]
@[simp] theorem restoreImages_req : (restoreImages l s).req = s.req := by rw [restoreImages_rest]
@[simp] theorem restoreImages_rsp : (restoreImages l s).rsp = s.rsp := by rw [restoreImages_rest]
@[simp] theorem restoreImages_log : (restoreImages l s).log = s.log := by rw [restoreImages_rest]
@[simp] theorem restoreImages_logLast : (restoreImages l s).logLast = s.logLast := by rw [restoreImages_rest]
@[simp] theorem restoreImages_tdState : (restoreImages l s).tdState = s.tdState := by rw [restoreImages_rest]
@[simp] theorem restoreImages_tdDeadline : (restoreImages l s).tdDeadline = s.tdDeadline := by rw [restoreImages_rest]
@[simp] theorem restoreImages_tdDlValid : (restoreImages l s).tdDlValid = s.tdDlValid := by rw [restoreImages_rest]
@[simp] theorem restoreImages_tdOut : (restoreImages l s).tdOut = s.tdOut := by rw [restoreImages_rest]
@[simp] theorem restoreImages_tdNow : (restoreImages l s).tdNow = s.tdNow := by rw [restoreImages_rest]
@[simp] theorem restoreImages_tdTimeout : (restoreImages l s).tdTimeout = s.tdTimeout := by rw [restoreImages_rest]
@[simp] theorem restoreImages_svcs : (restoreImages l s).svcs = s.svcs := by rw [restoreImages_rest]
@[simp] theorem restoreImages_notes : (restoreImages l s).notes = s.notes := by rw [restoreImages_rest]
@[simp] theorem restoreImages_env : (restoreImages l s).env = s.env := by rw [restoreImages_rest]
@[simp] theorem restoreImages_reply : (restoreImages l s).reply = s.reply := by rw [restoreImages_rest]
@[simp] theorem restoreImages_given : (restoreImages l s).given = s.given := by rw [restoreImages_rest]

end

section

variable (s : State) (l : List Touch)

@[simp] theorem applyTouches_par : (applyTouches l s).par = s.par := by rw [applyTouches_rest]
@[simp] theorem applyTouches_regs : (applyTouches l s).regs = s.regs := by rw [applyTouches_rest]
@[simp] theorem applyTouches_pc : (applyTouches l s).pc = s.pc := by rw [applyTouches_rest]
@[simp] theorem applyTouches_csrs : (applyTouches l s).csrs = s.csrs := by rw [applyTouches_rest]
@[simp] theorem applyTouches_coreState : (applyTouches l s).coreState = s.coreState := by rw [applyTouches_rest]
@[simp] theorem applyTouches_coreRun : (applyTouches l s).coreRun = s.coreRun := by rw [applyTouches_rest]
@[simp] theorem applyTouches_coreOwner : (applyTouches l s).coreOwner = s.coreOwner := by rw [applyTouches_rest]
@[simp] theorem applyTouches_tr : (applyTouches l s).tr = s.tr := by rw [applyTouches_rest]
@[simp] theorem applyTouches_req : (applyTouches l s).req = s.req := by rw [applyTouches_rest]
@[simp] theorem applyTouches_rsp : (applyTouches l s).rsp = s.rsp := by rw [applyTouches_rest]
@[simp] theorem applyTouches_log : (applyTouches l s).log = s.log := by rw [applyTouches_rest]
@[simp] theorem applyTouches_logLast : (applyTouches l s).logLast = s.logLast := by rw [applyTouches_rest]
@[simp] theorem applyTouches_tdState : (applyTouches l s).tdState = s.tdState := by rw [applyTouches_rest]
@[simp] theorem applyTouches_tdDeadline : (applyTouches l s).tdDeadline = s.tdDeadline := by rw [applyTouches_rest]
@[simp] theorem applyTouches_tdDlValid : (applyTouches l s).tdDlValid = s.tdDlValid := by rw [applyTouches_rest]
@[simp] theorem applyTouches_tdOut : (applyTouches l s).tdOut = s.tdOut := by rw [applyTouches_rest]
@[simp] theorem applyTouches_tdNow : (applyTouches l s).tdNow = s.tdNow := by rw [applyTouches_rest]
@[simp] theorem applyTouches_tdTimeout : (applyTouches l s).tdTimeout = s.tdTimeout := by rw [applyTouches_rest]
@[simp] theorem applyTouches_svcs : (applyTouches l s).svcs = s.svcs := by rw [applyTouches_rest]
@[simp] theorem applyTouches_notes : (applyTouches l s).notes = s.notes := by rw [applyTouches_rest]
@[simp] theorem applyTouches_env : (applyTouches l s).env = s.env := by rw [applyTouches_rest]
@[simp] theorem applyTouches_reply : (applyTouches l s).reply = s.reply := by rw [applyTouches_rest]
@[simp] theorem applyTouches_given : (applyTouches l s).given = s.given := by rw [applyTouches_rest]

end

section

variable (s : State)

@[simp] theorem restoreAtTermination_par : (restoreAtTermination s).par = s.par := by rw [restoreAtTermination_rest]
@[simp] theorem restoreAtTermination_regs : (restoreAtTermination s).regs = s.regs := by rw [restoreAtTermination_rest]
@[simp] theorem restoreAtTermination_pc : (restoreAtTermination s).pc = s.pc := by rw [restoreAtTermination_rest]
@[simp] theorem restoreAtTermination_csrs : (restoreAtTermination s).csrs = s.csrs := by rw [restoreAtTermination_rest]
@[simp] theorem restoreAtTermination_coreState : (restoreAtTermination s).coreState = s.coreState := by rw [restoreAtTermination_rest]
@[simp] theorem restoreAtTermination_coreRun : (restoreAtTermination s).coreRun = s.coreRun := by rw [restoreAtTermination_rest]
@[simp] theorem restoreAtTermination_coreOwner : (restoreAtTermination s).coreOwner = s.coreOwner := by rw [restoreAtTermination_rest]
@[simp] theorem restoreAtTermination_tr : (restoreAtTermination s).tr = s.tr := by rw [restoreAtTermination_rest]
@[simp] theorem restoreAtTermination_req : (restoreAtTermination s).req = s.req := by rw [restoreAtTermination_rest]
@[simp] theorem restoreAtTermination_rsp : (restoreAtTermination s).rsp = s.rsp := by rw [restoreAtTermination_rest]
@[simp] theorem restoreAtTermination_tdState : (restoreAtTermination s).tdState = s.tdState := by rw [restoreAtTermination_rest]
@[simp] theorem restoreAtTermination_tdDeadline : (restoreAtTermination s).tdDeadline = s.tdDeadline := by rw [restoreAtTermination_rest]
@[simp] theorem restoreAtTermination_tdDlValid : (restoreAtTermination s).tdDlValid = s.tdDlValid := by rw [restoreAtTermination_rest]
@[simp] theorem restoreAtTermination_tdOut : (restoreAtTermination s).tdOut = s.tdOut := by rw [restoreAtTermination_rest]
@[simp] theorem restoreAtTermination_tdNow : (restoreAtTermination s).tdNow = s.tdNow := by rw [restoreAtTermination_rest]
@[simp] theorem restoreAtTermination_tdTimeout : (restoreAtTermination s).tdTimeout = s.tdTimeout := by rw [restoreAtTermination_rest]
@[simp] theorem restoreAtTermination_svcs : (restoreAtTermination s).svcs = s.svcs := by rw [restoreAtTermination_rest]
@[simp] theorem restoreAtTermination_notes : (restoreAtTermination s).notes = s.notes := by rw [restoreAtTermination_rest]
@[simp] theorem restoreAtTermination_env : (restoreAtTermination s).env = s.env := by rw [restoreAtTermination_rest]
@[simp] theorem restoreAtTermination_reply : (restoreAtTermination s).reply = s.reply := by rw [restoreAtTermination_rest]
@[simp] theorem restoreAtTermination_given : (restoreAtTermination s).given = s.given := by rw [restoreAtTermination_rest]

end

/-! ## Termination and fault delivery -/

/-- Termination on every field it can change (60_exceptions.md R417). -/
theorem terminateCore_eq (k : Kind) (v p : Word) (s : State) : terminateCore k v p s =
    { s with
      coreState := .terminated
      regions := (restoreAtTermination s).regions
      mem := (restoreAtTermination s).mem
      caps := (restoreAtTermination s).caps
      log := (restoreAtTermination s).log
      logLast := (restoreAtTermination s).logLast
      tdOut := { s.tdOut with valid := false }
      tr := { s.tr with valid := false }
      tdState := .idle
      tdDlValid := false
      notes := s.notes ++ [⟨.terminate, k, trunc s.par.xlen v, trunc s.par.xlen p, 0⟩] } := by
  have h : restoreAtTermination { s with coreState := .terminated } =
      { restoreAtTermination s with coreState := .terminated } := by
    unfold restoreAtTermination
    have hi : ∀ l : List Image, restoreImages l { s with coreState := .terminated } =
        { restoreImages l s with coreState := .terminated } := by
      intro l
      induction l with
      | nil => rfl
      | cons m l ih =>
        rw [restoreImages, restoreImages, ih]
        unfold restoreImage State.bump
        simp only
        split_ifs <;> first | rfl | (exfalso; simp_all [State.region, State.setRegion, State.setMem, State.setCap])
    split_ifs
    · show (restoreImages s.log.images _).closeLog _ _ = _
      rw [hi]
      rfl
    · rfl
  unfold terminateCore
  simp only [h]
  rw [restoreAtTermination_rest]
  rfl

/-- The three cause words (60_exceptions.md R415). -/
def withCauses (k : Kind) (v e : Word) (s : State) : State :=
  ((s.writeCsr csrTcause (k.code.setWidth 64)).writeCsr csrTval v).writeCsr csrTepc e

/-- Fault delivery is the handler or termination, by the armed bit before it (60_exceptions.md R415). -/
theorem deliverFault_eq (k : Kind) (v e : Word) (s : State) : deliverFault k v e s =
    if s.armed then
      { ((withCauses k v e s).closeTrap.setPc (s.readCsr csrThandler &&& ~~~3)).writeCsr csrThandler
          (s.readCsr csrThandler &&& ~~~1) with coreState := .fetching }
    else terminateCore k v e (withCauses k v e s).closeTrap := by
  have h : (withCauses k v e s).closeTrap.readCsr csrThandler = s.readCsr csrThandler := by
    simp only [withCauses, State.closeTrap_readCsr, State.readCsr_writeCsr]
    rw [if_neg (by decide), if_neg (by decide), if_neg (by decide)]
  have ha : (withCauses k v e s).closeTrap.armed = s.armed := by rw [State.armed, h, State.armed]
  unfold deliverFault
  simp only
  change (if (withCauses k v e s).closeTrap.armed then _ else _) = _
  rw [ha]
  split_ifs
  · change ({ ((withCauses k v e s).closeTrap.setPc ((withCauses k v e s).closeTrap.readCsr csrThandler &&& ~~~3)).writeCsr
      csrThandler ((withCauses k v e s).closeTrap.readCsr csrThandler &&& ~~~1) with coreState := .fetching } : State) = _
    rw [h]
  · rfl

/-- The CSR bank with the three cause words. -/
theorem readCsr_withCauses (k : Kind) (v e : Word) (s : State) (c : CsrNum) : (withCauses k v e s).readCsr c =
    if c = csrTepc then trunc s.par.xlen e else if c = csrTval then trunc s.par.xlen v
    else if c = csrTcause then k.code.setWidth 64 else s.readCsr c := by
  have : trunc s.par.xlen (k.code.setWidth 64) = k.code.setWidth 64 := by
    cases s.par.xlen <;> cases k <;> rfl
  simp only [withCauses, State.readCsr_writeCsr, State.writeCsr_par, this]

theorem armed_iff (s : State) : s.armed = true ↔ (s.readCsr csrThandler).toNat % 2 = 1 := by
  simp [State.armed, BitVec.getLsbD, Nat.testBit_zero]

/-- Nothing is restored at termination where no entry is pending. -/
theorem restoreAtTermination_quiet {s : State} (h : s.log.state ≠ .pending) : restoreAtTermination s = s := if_neg h

/-- The pc at which a trap resumes (60_exceptions.md R429). -/
@[simp] theorem pcVal_resume (s : State) : (resume s).pcVal = wrap s.par.xlen (s.tr.savedPc.toNat + 4) := by
  show (s.setPc _).pcVal = _
  rw [State.pcVal_setPc, trunc_add_left, trunc_add_eq_wrap]
  rfl

/-- The reset memory, like every table of the reset state, is canonical. -/
theorem canonical_resetFor (p : Params) : Canonical (State.resetFor p) :=
  ⟨tableWf_nil _, tableWf_nil _, tableWf_nil _, tableWf_nil _, tableWf_nil _, tableWf_nil _, tableWf_nil _⟩

end Sys2Proof.Machine
end

