-- ==== Sys2Proof/Laws/Access.lean ====
section
/-! SUPPORT. The access check of 20_memory.md R90 to R93 in the terms of Safety.lean: when each answer is given, and what a
passed check says about the Region. -/

namespace Sys2Proof.Machine

open Sys2Proof.Safety

theorem stale_iff (s : State) (h : Handle) : s.stale h = true ↔ IsStale s h := by
  simp only [State.stale, IsStale, Bool.or_eq_true, decide_eq_true_eq, Bool.not_eq_true', bne_iff_ne, or_assoc]

theorem grants_iff (m p : Perms) (n : Need) : grants (m &&& p) n = true ↔ Granted m p n := by
  cases n <;> simp [grants, Granted]

theorem contains_iff (r : Region) (addr len : Nat) : r.contains addr len = true ↔ Inside r addr len := by
  simp [Region.contains, Inside]

theorem inRange_iff (base len a : Nat) : inRange base len a = true ↔ base ≤ a ∧ a < base + len := by simp [inRange]

theorem capCandidate_iff (s : State) {a i : Nat} (hi : i < s.par.nregion) :
    s.capCandidate a i = true ↔ Candidate s a i := by
  simp only [State.capCandidate, Candidate, Covers, Bool.and_eq_true, inRange_iff, hi, true_and, and_assoc]

/-- When each answer of the check is given. -/
theorem asCheck_ok_iff (s : State) (h : Handle) (addr len : Nat) (need : Need) :
    s.asCheck h addr len need = .ok () ↔
      ¬IsStale s h ∧ Inside (s.region h.rid) addr len ∧ Granted h.mask (s.region h.rid).perms need := by
  rw [← stale_iff, ← contains_iff, ← grants_iff]
  unfold State.asCheck
  split_ifs <;> simp_all

theorem asCheck_stale_iff (s : State) (h : Handle) (addr len : Nat) (need : Need) :
    s.asCheck h addr len need = .error .stale ↔ IsStale s h := by
  rw [← stale_iff]
  unfold State.asCheck
  split_ifs <;> simp_all

/-- A passed check names a live Region that contains the access and grants it. -/
theorem of_asCheck {s : State} {h : Handle} {addr len : Nat} {need : Need} (hc : s.asCheck h addr len need = .ok ()) :
    h.rid < s.par.nregion ∧ (s.region h.rid).valid = true ∧ (s.region h.rid).gen = h.gen ∧
      Inside (s.region h.rid) addr len ∧ Granted h.mask (s.region h.rid).perms need := by
  obtain ⟨h1, h2, h3⟩ := (asCheck_ok_iff ..).1 hc
  unfold IsStale at h1
  push Not at h1
  exact ⟨h1.1, by simpa using h1.2.1, h1.2.2, h2, h3⟩

theorem cpuAccess_of_none {s : State} {addr len : Nat} {need : Need} (h : ∀ i, ¬Candidate s addr i) :
    s.cpuAccess addr len need = .error .outOfRange := by
  have hf : (List.range s.par.nregion).find? (s.capCandidate addr) = none := by
    rw [List.find?_eq_none]
    intro i hi hc
    exact h i ((capCandidate_iff s (List.mem_range.1 hi)).1 hc)
  unfold State.cpuAccess State.capLookup
  rw [hf]
  rfl

theorem pastReach_iff (s : State) (addr len : Nat) : s.pastReach addr len = true ↔ ¬InReach s addr len := by
  simp [State.pastReach, InReach]

/-- With one candidate the lookup gives the handle held in its slot. -/
theorem capLookup_of_one {s : State} {addr i : Nat} (h : Candidate s addr i) (hu : ∀ j, Candidate s addr j → j = i) :
    s.capLookup addr = some ⟨i, (s.cap i).mask, (s.cap i).gen⟩ := by
  have hf : (List.range s.par.nregion).find? (s.capCandidate addr) = some i := by
    cases hc : (List.range s.par.nregion).find? (s.capCandidate addr) with
    | none => exact absurd ((capCandidate_iff s h.1).2 h) (List.find?_eq_none.1 hc i (List.mem_range.2 h.1))
    | some j =>
      have hj := List.mem_range.1 (List.mem_of_find?_eq_some hc)
      rw [hu j ((capCandidate_iff s hj).1 (List.find?_some hc))]
  rw [State.capLookup, hf]
  rfl

/-- Through the one candidate: out of range past the CPU's reach unless the handle is stale, else the access check. -/
theorem cpuAccess_of_one {s : State} {addr len i : Nat} {need : Need} (h : Candidate s addr i)
    (hu : ∀ j, Candidate s addr j → j = i) (g : Handle) (hg : g = ⟨i, (s.cap i).mask, (s.cap i).gen⟩) :
    (¬IsStale s g → ¬InReach s addr len → s.cpuAccess addr len need = .error .outOfRange) ∧
    (IsStale s g ∨ InReach s addr len → s.cpuAccess addr len need = s.asCheck g addr len need) := by
  subst hg
  unfold State.cpuAccess
  rw [capLookup_of_one h hu]
  refine ⟨fun h1 h2 => if_pos ?_, fun h1 => if_neg ?_⟩
  · simpa [pastReach_iff, ← stale_iff] using And.intro h1 h2
  · simpa [pastReach_iff, ← stale_iff, or_iff_not_imp_left] using h1

/-- A passed CPU access was checked through some held handle whose Region contains the first byte. -/
theorem of_cpuAccess {s : State} {addr len : Nat} {need : Need} (h : s.cpuAccess addr len need = .ok ()) :
    ∃ i, Candidate s addr i ∧ (s.region i).gen = (s.cap i).gen ∧ Inside (s.region i) addr len ∧
      Granted (s.cap i).mask (s.region i).perms need ∧ InReach s addr len := by
  unfold State.cpuAccess State.capLookup at h
  cases hc : (List.range s.par.nregion).find? (s.capCandidate addr) with
  | none => rw [hc] at h; cases h
  | some i =>
    rw [hc] at h
    simp only [Option.map_some] at h
    split_ifs at h with hr
    obtain ⟨h1, h2, h3, h4, h5⟩ := of_asCheck (h := ⟨i, (s.cap i).mask, (s.cap i).gen⟩) h
    refine ⟨i, (capCandidate_iff s h1).1 (List.find?_some hc), h3, h4, h5, ?_⟩
    have hs : s.stale ⟨i, (s.cap i).mask, (s.cap i).gen⟩ = false := by simp [State.stale, h1, h2, h3]
    by_contra hn
    rw [← pastReach_iff] at hn
    simp [hs, hn] at hr

end Sys2Proof.Machine
end

