-- ==== Sys2Proof/Laws/Exec.lean ====
section
/-! SUPPORT. Each shared operation of the instructions, once: what it answers and what that leaves unchanged, in the terms
of Safety.lean; and `exec_shape`, which says what any instruction can do. -/

namespace Sys2Proof.Machine

open Sys2Proof.Safety

/-! ## Ends of an instruction -/

theorem retireWith_eq (rd : Reg) (v : Word) (s : State) : retireWith rd v s = .next (s.writeReg rd v).advance := rfl

theorem writeReg_state (s : State) (rd : Reg) (v : Word) : s.writeReg rd v = { s with regs := (s.writeReg rd v).regs } := rfl

/-- A register write followed by an assignment of the pc. -/
theorem wrote_setPc (s : State) (rd : Reg) (v p : Word) :
    Wrote s ((s.writeReg rd v).setPc p) rd (trunc s.par.xlen v) (trunc s.par.xlen p) where
  pc := State.pcVal_setPc _ _
  result := by
    rw [State.setPc_readReg, State.readReg_writeReg]
    simp
  others r hr := by
    rw [State.setPc_readReg, State.readReg_writeReg, if_neg hr]
    split_ifs with h
    · rw [h, State.readReg_zero]
    · rfl
  bytes _ := rfl
  rest := rfl

theorem wrote_advance (s : State) (rd : Reg) (v : Word) :
    Wrote s (s.writeReg rd v).advance rd (trunc s.par.xlen v) (nextPc s) := by
  have h := wrote_setPc s rd v ((s.writeReg rd v).pcVal + 4)
  have hp : (s.writeReg rd v).advance.pcVal = nextPc s := State.pcVal_advance _
  exact { h with pc := hp }

/-- An instruction that ends in `retireWith` writes one register and advances. -/
theorem computes_of_retireWith {i : Instr} {s : State} {rd : Reg} {v w : Word}
    (he : exec i s = retireWith rd v s) (hv : trunc s.par.xlen v = w) : Computes i s rd w :=
  ⟨_, he.trans (retireWith_eq rd v s), hv ▸ wrote_advance s rd v⟩

/-- A raise takes the trap (60_exceptions.md R410). -/
theorem trapped_trapEntry (k : Kind) (v : Word) (s : State) : Trapped s (trapEntry k v s) k (trunc s.par.xlen v) where
  recordValid := rfl
  kind := rfl
  addr := rfl
  savedPc := rfl
  savedRegs := trapReg_trapEntry k v s
  core := rfl
  dispatcher := rfl
  noDeadline := rfl
  note := rfl
  rest := rfl

theorem raise_trapped (r : Raise) (s : State) :
    ∃ t, raise r s = .next t ∧ Trapped s t r.kind (trunc s.par.xlen r.value) := ⟨_, rfl, trapped_trapEntry ..⟩

theorem illegal_trapped (w : BitVec 32) (s : State) :
    ∃ t, illegal w s = .next t ∧ Trapped s t .illegalInstruction (w.setWidth 64) := by
  have h := raise_trapped ⟨.illegalInstruction, w.setWidth 64⟩ s
  rwa [trunc_of_lt] at h
  rw [BitVec.toNat_setWidth]
  have := w.isLt
  rcases bits_cases s.par.xlen with hb | hb <;> rw [hb] <;> omega

theorem onlyRv64_of {s : State} (h : s.par.xlen = .rv64) (i : Instr) (k : Result) : onlyRv64 i s k = k := if_pos h

theorem onlyRv64_at32 {s : State} (h : s.par.xlen = .rv32) (i : Instr) (k : Result) :
    onlyRv64 i s k = illegal (encode i) s := if_neg (by rw [h]; decide)

theorem shamtBelowXlen_of {s : State} {n : BitVec 6} (h : n.toNat < s.par.xlen.bits) (i : Instr) (k : Result) :
    shamtBelowXlen i n s k = k := if_pos h

theorem shamtBelowXlen_not {s : State} {n : BitVec 6} (h : ¬n.toNat < s.par.xlen.bits) (i : Instr) (k : Result) :
    shamtBelowXlen i n s k = illegal (encode i) s := if_neg h

/-! ## Control transfer -/

theorem aligned_iff (t : Word) : aligned t = true ↔ t.toNat % 4 = 0 := by simp [aligned]

theorem transfer_aligned {t : Word} (h : t.toNat % 4 = 0) (s' s : State) : transfer t s' s = .next (s'.setPc t) :=
  if_pos ((aligned_iff t).2 h)

theorem transfer_misaligned {t : Word} (h : t.toNat % 4 ≠ 0) (s' s : State) :
    transfer t s' s = raise ⟨.misalignedTarget, t⟩ s :=
  if_neg fun e => h ((aligned_iff t).1 e)

theorem onlyPc_setPc (s : State) (p : Word) : OnlyPc s (s.setPc p) (trunc s.par.xlen p) where
  pc := State.pcVal_setPc _ _
  registers _ := rfl
  bytes _ := rfl
  rest := rfl

theorem onlyPc_advance (s : State) : OnlyPc s s.advance (nextPc s) where
  pc := State.pcVal_advance _
  registers _ := rfl
  bytes _ := rfl
  rest := rfl

/-- The target of a branch or of JAL (41_control_transfer.md R230). -/
theorem pcTarget_eq (s : State) {n : Nat} (off : BitVec n) (h : n ≤ 64) :
    s.pcTarget off = wrap s.par.xlen (s.pcVal.toNat + off.toInt) := trunc_add_sext _ _ _ h

/-- The effective address (42_load_store.md R250). -/
theorem effectiveAddress_eq (s : State) (rs1 : Reg) (imm : BitVec 12) :
    s.effectiveAddress rs1 imm = wrap s.par.xlen ((s.readReg rs1).toNat + imm.toInt) :=
  trunc_add_sext _ _ _ (by norm_num)

/-- The target of JALR, bit 0 cleared (41_control_transfer.md R233). -/
theorem regTarget_toNat (s : State) (rs1 : Reg) (imm : BitVec 12) :
    (s.regTarget rs1 imm).toNat = (s.effectiveAddress rs1 imm).toNat / 2 * 2 := by
  unfold State.regTarget
  generalize s.effectiveAddress rs1 imm = w
  have := w.isLt
  rw [and_not_one, BitVec.toNat_ofNat]
  omega

/-! ## Memory -/

theorem leValue_lt (l : List Byte) : leValue l < 256 ^ l.length := by
  induction l with
  | nil => simp [leValue]
  | cons b l ih =>
    rw [leValue, List.length_cons, Nat.pow_succ]
    have := b.isLt
    omega

/-- The value of the bytes read, as a sum (20_memory.md R81). -/
theorem leValue_bytesAt (s : State) (a n : Nat) : leValue (bytesAt s.mem a n) = littleEndian s a n := by
  induction n generalizing a with
  | zero => rfl
  | succ n ih =>
    rw [bytesAt, leValue, ih, littleEndian, littleEndian, List.range_succ_eq_map]
    simp only [List.map_cons, List.map_map, List.sum_cons, Nat.pow_zero, Nat.mul_one, Nat.add_zero]
    congr 1
    rw [← List.sum_map_mul_left]
    refine congrArg List.sum (List.map_congr_left fun k _ => ?_)
    simp only [Function.comp, Nat.succ_eq_add_one, Nat.pow_succ]
    rw [show a + 1 + k = a + (k + 1) by omega]
    ring

theorem littleEndian_lt (s : State) (a n : Nat) : littleEndian s a n < 256 ^ n := by
  have := leValue_lt (bytesAt s.mem a n)
  rwa [bytesAt_length, leValue_bytesAt] at this

/-- A permitted read (20_memory.md R96). -/
theorem memRead_ok {s : State} {a : Word} {n : Nat} (h : s.cpuAccess a.toNat n .read = .ok ()) :
    s.memRead a n = .ok (BitVec.ofNat 64 (littleEndian s a.toNat n)) := by
  unfold State.memRead
  rw [h, ← leValue_bytesAt]

theorem memRead_error {s : State} {a : Word} {n : Nat} {e : OpError} (h : s.cpuAccess a.toNat n .read = .error e) :
    s.memRead a n = .error (dataRaise a e) := by
  unfold State.memRead
  rw [h]

theorem memWrite_ok {s : State} {a : Word} {n : Nat} (v : Word) (h : s.cpuAccess a.toNat n .write = .ok ()) :
    s.memWrite a n v = .ok (s.setMem (putBytes s.mem a.toNat (leBytes v n))) := by
  unfold State.memWrite
  rw [h]

theorem memWrite_error {s : State} {a : Word} {n : Nat} (v : Word) {e : OpError}
    (h : s.cpuAccess a.toNat n .write = .error e) : s.memWrite a n v = .error (dataRaise a e) := by
  unfold State.memWrite
  rw [h]

/-- A permitted load ends like a computation of the value read. -/
theorem load_ok {s : State} {n : Nat} {rs1 : Reg} {imm : BitVec 12}
    (h : s.cpuAccess (s.effectiveAddress rs1 imm).toNat n .read = .ok ()) (f : Word → Word) (rd : Reg) :
    load n f rd rs1 imm s =
      retireWith rd (f (BitVec.ofNat 64 (littleEndian s (s.effectiveAddress rs1 imm).toNat n))) s := by
  unfold load
  rw [memRead_ok h]

theorem load_error {s : State} {n : Nat} {rs1 : Reg} {imm : BitVec 12} {e : OpError}
    (h : s.cpuAccess (s.effectiveAddress rs1 imm).toNat n .read = .error e) (f : Word → Word) (rd : Reg) :
    load n f rd rs1 imm s = raise (dataRaise (s.effectiveAddress rs1 imm) e) s := by
  unfold load
  rw [memRead_error h]

theorem leBytes_getElem_byteOf (v : Word) (n k : Nat) (h : k < (leBytes v n).length) :
    (leBytes v n)[k] = byteOf v k := by
  rw [leBytes_getElem, byteOf]
  apply BitVec.eq_of_toNat_eq
  rw [BitVec.toNat_setWidth, BitVec.toNat_ushiftRight, BitVec.toNat_ofNat, Nat.shiftRight_eq_div_pow]
  rw [Nat.pow_mul]

/-- A permitted store (42_load_store.md R250). -/
theorem stored_advance (s : State) (a n : Nat) (v : Word) :
    Stored s (s.setMem (putBytes s.mem a (leBytes v n))).advance a n v where
  pc := State.pcVal_advance _
  registers _ := rfl
  inside k hk := by
    show byteAt (putBytes s.mem a (leBytes v n)) (a + k) = _
    rw [byteAt_putBytes_inside _ _ _ _ (by simpa using hk), leBytes_getElem_byteOf]
  outside b hb := byteAt_putBytes_outside _ _ (by simpa using hb)
  rest := rfl

theorem store_ok {s : State} {n : Nat} {rs1 : Reg} {imm : BitVec 12}
    (h : s.cpuAccess (s.effectiveAddress rs1 imm).toNat n .write = .ok ()) (rs2 : Reg) :
    ∃ t, store n rs1 rs2 imm s = .next t ∧ Stored s t (s.effectiveAddress rs1 imm).toNat n (s.readReg rs2) := by
  refine ⟨_, ?_, stored_advance ..⟩
  unfold store
  rw [memWrite_ok _ h]
  rfl

theorem store_error {s : State} {n : Nat} {rs1 : Reg} {imm : BitVec 12} {e : OpError}
    (h : s.cpuAccess (s.effectiveAddress rs1 imm).toNat n .write = .error e) (rs2 : Reg) :
    store n rs1 rs2 imm s = raise (dataRaise (s.effectiveAddress rs1 imm) e) s := by
  unfold store
  rw [memWrite_error _ h]

/-! ## CSR access -/

/-- The common form of the CSR instructions (43_system.md R280). -/
theorem csrUpdate_wrote (c : CsrNum) (rd : Reg) (f : Word → Word) (s : State) :
    ∃ t, csrUpdate c rd f s = .next t ∧
      WroteCsr s t rd (s.readCsr c) c (trunc s.par.xlen (f (s.readCsr c))) := by
  refine ⟨_, retireWith_eq .., ?_⟩
  constructor
  · exact State.pcVal_advance _
  · rw [State.advance_readReg, State.readReg_writeReg]
    simp
  · intro r hr
    rw [State.advance_readReg, State.readReg_writeReg, if_neg hr]
    split_ifs with h
    · rw [h, State.readReg_zero]
    · rfl
  · simp [State.readCsr_writeCsr]
  · intro d hd
    simp [State.readCsr_writeCsr, hd]
  · exact fun _ => rfl
  · rfl

/-! ## What any instruction can do -/

/-- The states an instruction can end in: a trap, a register write with an assignment of the pc, a CSR and a register
write, or a store the access check allowed. An assigned pc is aligned if the pc was. -/
inductive ExecShape (s : State) : State → Prop
  | trap (k : Kind) (v : Word) (hk : k ≠ .none ∧ k ≠ .invalidPermissions ∧ k ≠ .speculationRolledBack) :
      ExecShape s (trapEntry k v s)
  | registers (rd : Reg) (v p : Word) (hp : s.pcVal.toNat % 4 = 0 → p.toNat % 4 = 0) :
      ExecShape s ((s.writeReg rd v).setPc p)
  | csr (rd : Reg) (v : Word) (c : CsrNum) (w : Word) : ExecShape s ((s.writeCsr c w).writeReg rd v).advance
  | store (a : Nat) (bytes : List Byte) (h : s.cpuAccess a bytes.length .write = .ok ()) :
      ExecShape s (s.setMem (putBytes s.mem a bytes)).advance

theorem writeReg_zero (s : State) (v : Word) : s.writeReg 0 v = s := rfl

theorem add_four_aligned {v : Word} (h : v.toNat % 4 = 0) : (v + 4).toNat % 4 = 0 := by
  rw [BitVec.toNat_add]
  show (v.toNat + 4) % 2 ^ 64 % 4 = 0
  omega

theorem retireWith_shape {rd : Reg} {v : Word} {s t : State} (h : retireWith rd v s = .next t) : ExecShape s t := by
  cases h
  exact .registers rd v (s.pcVal + 4) add_four_aligned

theorem raise_shape {r : Raise} {s t : State} (h : raise r s = .next t)
    (hk : r.kind ≠ .none ∧ r.kind ≠ .invalidPermissions ∧ r.kind ≠ .speculationRolledBack) : ExecShape s t := by
  cases h
  exact .trap _ _ hk

theorem illegal_shape {w : BitVec 32} {s t : State} (h : illegal w s = .next t) : ExecShape s t :=
  raise_shape h (by simp)

theorem dataRaise_kind (a : Word) (e : OpError) : (dataRaise a e).kind ≠ .none ∧
    (dataRaise a e).kind ≠ .invalidPermissions ∧ (dataRaise a e).kind ≠ .speculationRolledBack := by
  cases e <;> simp [dataRaise]

theorem fetchRaise_kind (a : Word) (e : OpError) : (fetchRaise a e).kind ≠ .none ∧
    (fetchRaise a e).kind ≠ .invalidPermissions ∧ (fetchRaise a e).kind ≠ .speculationRolledBack := by
  cases e <;> simp [fetchRaise]

theorem onlyRv64_shape {i : Instr} {s t : State} {k : Result} (h : onlyRv64 i s k = .next t)
    (hk : k = .next t → ExecShape s t) : ExecShape s t := by
  unfold onlyRv64 at h
  split_ifs at h
  · exact hk h
  · exact illegal_shape h

theorem shamtBelowXlen_shape {i : Instr} {n : BitVec 6} {s t : State} {k : Result} (h : shamtBelowXlen i n s k = .next t)
    (hk : k = .next t → ExecShape s t) : ExecShape s t := by
  unfold shamtBelowXlen at h
  split_ifs at h
  · exact hk h
  · exact illegal_shape h

theorem transfer_shape {p : Word} {rd : Reg} {v : Word} {s t : State} (h : transfer p (s.writeReg rd v) s = .next t) :
    ExecShape s t := by
  unfold transfer at h
  split_ifs at h with ha
  · cases h
    exact .registers rd v p fun _ => (aligned_iff p).1 ha
  · exact raise_shape h (by simp)

theorem branch_shape {c : Bool} {off : BitVec 13} {s t : State} (h : branch c off s = .next t) : ExecShape s t := by
  unfold branch at h
  split_ifs at h
  · exact transfer_shape (rd := 0) (v := 0) h
  · cases h
    exact .registers 0 0 (s.pcVal + 4) add_four_aligned

theorem load_shape {n : Nat} {f : Word → Word} {rd rs1 : Reg} {imm : BitVec 12} {s t : State}
    (h : load n f rd rs1 imm s = .next t) : ExecShape s t := by
  unfold load at h
  cases hm : s.cpuAccess (s.effectiveAddress rs1 imm).toNat n .read with
  | error e =>
    rw [memRead_error hm] at h
    exact raise_shape h (dataRaise_kind _ _)
  | ok u =>
    rw [memRead_ok hm] at h
    exact retireWith_shape h

theorem store_shape {n : Nat} {rs1 rs2 : Reg} {imm : BitVec 12} {s t : State} (h : store n rs1 rs2 imm s = .next t) :
    ExecShape s t := by
  unfold store at h
  cases hm : s.cpuAccess (s.effectiveAddress rs1 imm).toNat n .write with
  | error e =>
    rw [memWrite_error _ hm] at h
    exact raise_shape h (dataRaise_kind _ _)
  | ok u =>
    rw [memWrite_ok _ hm] at h
    cases h
    exact .store _ _ (by simpa using hm)

theorem csrUpdate_shape {c : CsrNum} {rd : Reg} {f : Word → Word} {s t : State} (h : csrUpdate c rd f s = .next t) :
    ExecShape s t := by
  cases h
  exact .csr ..

/-- What any instruction can do. -/
theorem exec_shape {i : Instr} {s t : State} (h : exec i s = .next t) : ExecShape s t := by
  cases i with
  | lui | auipc | addi | slti | sltiu | xori | ori | andi | add | sub | sll | slt | sltu | xor | srl | sra | or | and =>
    exact retireWith_shape h
  | slli | srli | srai => exact shamtBelowXlen_shape h retireWith_shape
  | addiw | slliw | srliw | sraiw | addw | subw | sllw | srlw | sraw => exact onlyRv64_shape h retireWith_shape
  | jal | jalr => exact transfer_shape h
  | beq | bne | blt | bge | bltu | bgeu => exact branch_shape h
  | lb | lh | lw | lbu | lhu => exact load_shape h
  | lwu | ld => exact onlyRv64_shape h load_shape
  | sb | sh | sw => exact store_shape h
  | sd => exact onlyRv64_shape h store_shape
  | fence => cases h; exact .registers 0 0 (s.pcVal + 4) add_four_aligned
  | ecall | ebreak => exact raise_shape h (by simp)
  | csrrw rd rs1 c => exact csrUpdate_shape (c := c) (rd := rd) (f := fun _ => s.readReg rs1) h
  | csrrs rd rs1 c => exact csrUpdate_shape (c := c) (rd := rd) (f := fun w => w ||| s.readReg rs1) h
  | csrrc rd rs1 c => exact csrUpdate_shape (c := c) (rd := rd) (f := fun w => w &&& ~~~s.readReg rs1) h
  | csrrwi rd u c => exact csrUpdate_shape (c := c) (rd := rd) (f := fun _ => immWord u) h
  | csrrsi rd u c => exact csrUpdate_shape (c := c) (rd := rd) (f := fun w => w ||| immWord u) h
  | csrrci rd u c => exact csrUpdate_shape (c := c) (rd := rd) (f := fun w => w &&& ~~~immWord u) h

/-- A CPU step ends like an instruction. -/
theorem cpuStep_shape {s t : State} (h : cpuStep s = .next t) : ExecShape s t := by
  unfold cpuStep State.fetch at h
  cases hc : s.cpuAccess s.pcVal.toNat 4 .execute with
  | error e =>
    rw [hc] at h
    exact raise_shape h (fetchRaise_kind _ _)
  | ok u =>
    rw [hc] at h
    simp only at h
    split at h
    · exact illegal_shape h
    · exact exec_shape h

end Sys2Proof.Machine
end

