-- ==== Sys2Proof/Laws/Moves.lean ====
section
/-! SUPPORT. The transitions of the dispatcher and of the ports: when each is taken and which operation it is, in the terms
of Safety.lean. -/

namespace Sys2Proof.Machine

open Sys2Proof.Safety

/-! ## The dispatcher -/

theorem perform_classify {s : State} (h : s.tdState = .classify) : perform (.td .classify) s = .next (classify s) := by
  simp [perform, tdMove, tdEnabled, h, tdEffect]

theorem syscallEntry_of_calls {s : State} {e : SvcEntry} (h : Calls s e) : s.syscallEntry = e := by
  unfold State.syscallEntry
  rw [if_neg (by have := h.known; omega), h.entry]

/-- A syscall with no entry pending is classified by the class of its service-table entry. -/
theorem perform_calls {s : State} {e : SvcEntry} (h : Calls s e) :
    perform (.td .classify) s = .next (match e.cls with
      | .unregistered => unregisteredCall s
      | .localCall => localCall e s
      | .speculative => speculativeCall e s
      | .blocking => blockingCall e s) := by
  have hc : classify s = syscallByClass s := by
    unfold classify
    rw [h.kind]
    exact if_neg h.quiet
  rw [perform_classify h.state, hc, ← syscallEntry_of_calls h]
  rfl

theorem satAdd_eq (a b : BitVec 64) : satAdd a b = BitVec.ofNat 64 (min (a.toNat + b.toNat) (2 ^ 64 - 1)) := rfl

theorem setDeadline_eq (s : State) : s.setDeadline = { s with tdDeadline := deadlineOf s, tdDlValid := true } := rfl

theorem reqFull_iff (s : State) : s.reqFull = true ↔ s.req.count = s.par.ringCap := by
  simp [State.reqFull, Ring.full]

/-- `2^XLEN - 1` written to a register. -/
theorem trunc_allOnesWord (x : Xlen) : trunc x allOnesWord = allOnes x := by cases x <;> rfl

/-- What a resumed core with two results looks like (60_exceptions.md R429). -/
theorem resumed_resume {s s' : State} (v w : Word) (hp : s'.par = s.par) (hr : ∀ r, r ≠ 10 → r ≠ 11 → s'.readReg r = s.readReg r)
    (ht : s'.tr = s.tr) (hc : s'.csrs = s.csrs) :
    Resumed s (resume ((s'.writeReg 10 v).writeReg 11 w)) (wrap s.par.xlen v.toNat) (wrap s.par.xlen w.toNat) where
  pc := by
    rw [pcVal_resume]
    simp [ht, hp]
  core := rfl
  dispatcher := ⟨rfl, rfl⟩
  record := rfl
  x10 := by
    show ((s'.writeReg 10 v).writeReg 11 w).readReg 10 = _
    rw [State.readReg_writeReg, if_neg (by decide), if_neg (by decide), State.readReg_writeReg, if_neg (by decide), if_pos rfl,
      trunc_eq_wrap_toNat, hp]
  x11 := by
    show ((s'.writeReg 10 v).writeReg 11 w).readReg 11 = _
    rw [State.readReg_writeReg, if_neg (by decide), if_pos rfl, trunc_eq_wrap_toNat, State.writeReg_par, hp]
  others := fun r h1 h2 => by
    show ((s'.writeReg 10 v).writeReg 11 w).readReg r = _
    rw [State.readReg_writeReg, State.readReg_writeReg]
    split_ifs with h0
    · subst h0
      rfl
    · exact hr r h1 h2
  csrs := hc

/-- The same with one result. -/
theorem resumed_resume_one {s s' : State} (v : Word) (hp : s'.par = s.par) (hr : ∀ r, s'.readReg r = s.readReg r)
    (ht : s'.tr = s.tr) (hc : s'.csrs = s.csrs) :
    Resumed s (resume (s'.writeReg 10 v)) (wrap s.par.xlen v.toNat) (s.readReg 11) where
  pc := by
    rw [pcVal_resume]
    simp [ht, hp]
  core := rfl
  dispatcher := ⟨rfl, rfl⟩
  record := rfl
  x10 := by
    show (s'.writeReg 10 v).readReg 10 = _
    rw [State.readReg_writeReg, if_neg (by decide), if_pos rfl, trunc_eq_wrap_toNat, hp]
  x11 := by
    show (s'.writeReg 10 v).readReg 11 = _
    rw [State.readReg_writeReg, if_neg (by decide), if_neg (by decide), hr]
  others := fun r h1 _ => by
    show (s'.writeReg 10 v).readReg r = _
    rw [State.readReg_writeReg, if_neg h1]
    split_ifs with h0
    · subst h0
      rfl
    · exact hr r
  csrs := hc

/-- `VALID_EFFECT` for one touched Region (46_speclog_ops.md R372 b; log entry 9). -/
theorem validTouch_iff (s : State) (k : Touch) : s.validTouch k = true ↔ ValidTouch s k := by
  simp only [State.validTouch, Bool.and_eq_true, decide_eq_true_eq, List.all_eq_true, inRange_iff, Bool.not_eq_true',
    Bool.or_eq_true, bne_iff_ne, beq_iff_eq, List.isEmpty_iff, Perms.writeAndExecute]
  constructor
  · rintro ⟨⟨⟨⟨⟨⟨h1, h2⟩, h3⟩, h4⟩, h5⟩, h6⟩, h7⟩
    exact {
      slot := h1
      valid := h2
      notBoth := fun h => by rw [h.1, h.2] at h3; cases h3
      canonical := h4
      inside := fun c hc => ⟨h2, h5 c hc⟩
      pool := fun h => h6.resolve_left fun hn => hn h
      cap := fun h => h7.resolve_left fun hn => by simp [h] at hn }
  · intro h
    refine ⟨⟨⟨⟨⟨⟨h.slot, h.valid⟩, ?_⟩, h.canonical⟩, fun c hc => (h.inside c hc).2⟩, ?_⟩, ?_⟩
    · exact Bool.eq_false_iff.2 fun hw => h.notBoth ((Bool.and_eq_true _ _).mp hw)
    · exact or_iff_not_imp_left.2 fun hn => h.pool (not_not.1 hn)
    · exact or_iff_not_imp_left.2 fun hn => h.cap (by simpa using hn)

/-- `VALID_EFFECT` (46_speclog_ops.md R372). -/
theorem validEffect_iff (s : State) (eff : Effect) : s.validEffect eff = true ↔ ValidEffect s eff := by
  simp only [State.validEffect, Bool.and_eq_true, decide_eq_true_eq, List.all_eq_true, validTouch_iff, Bool.or_eq_true,
    beq_iff_eq, List.any_eq_true, List.mem_range, contains_iff, Bool.not_eq_true', List.isEmpty_eq_false_iff]
  exact ⟨fun ⟨⟨⟨h1, h2⟩, h3⟩, h4⟩ => ⟨h1, h2, h3, h4⟩, fun h => ⟨⟨⟨h.some, h.distinct⟩, h.touches⟩, h.payload⟩⟩

theorem provides_iff (s : State) (e : SvcEntry) (eff : Effect) :
    provExtFiltered s e = some eff ↔ Provides s e eff := by
  rw [provExtFiltered, Option.filter_eq_some_iff, validEffect_iff, Provides]

/-- The effect of a PROV_EXT call is none exactly when `ProvExt` gives none that passes (46_speclog_ops.md R372). -/
theorem not_provides_iff (s : State) (e : SvcEntry) : provExtFiltered s e = none ↔ ∀ eff, ¬Provides s e eff := by
  simp only [← provides_iff, Option.eq_none_iff_forall_ne_some, ne_eq]

/-! ## The ports -/

@[simp] theorem PortHandle.handle_rid (p : PortHandle) : p.handle.rid = p.rid.toNat := rfl
@[simp] theorem PortHandle.handle_mask (p : PortHandle) : p.handle.mask = p.mask := rfl
@[simp] theorem PortHandle.handle_gen (p : PortHandle) : p.handle.gen = p.gen := rfl

/-- A handle that came through a port goes back through it unchanged. -/
@[simp] theorem PortHandle.toPort_mk (i : BitVec 16) (m : Perms) (g : Gen) : (Handle.mk i.toNat m g).toPort = ⟨i, m, g⟩ := by
  simp [Handle.toPort]

/-- A port carries the whole region-id of every slot below 2^16 (10_state.md R36; log entry 13). -/
theorem Handle.handle_toPort {h : Handle} (hr : h.rid < 2 ^ 16) : h.toPort.handle = h := by
  simp only [Handle.toPort, PortHandle.handle, BitVec.toNat_ofNat, Nat.mod_eq_of_lt hr]

theorem quiescent_iff (s : State) : s.quiescent = true ↔ Quiescent s := by
  simp [State.quiescent, Quiescent, and_assoc]

theorem badPerms_iff (o : Owner) (p : Perms) : badPerms o p = true ↔ BadPerms o p := by
  simp [badPerms, BadPerms, Perms.writeAndExecute]

/-- A range of at least one byte meets a Region in some byte (44_addressspace_ops.md R304 check 3). -/
theorem overlaps_iff (s : State) (base len j : Nat) :
    s.overlaps base len j = true ↔ ∃ a, Covers s j a ∧ base ≤ a ∧ a < base + len := by
  simp only [State.overlaps, Covers, Bool.and_eq_true, decide_eq_true_eq]
  constructor
  · rintro ⟨hv, h⟩
    exact ⟨max base (s.region j).base.toNat, ⟨hv, by omega, by omega⟩, by omega, by omega⟩
  · rintro ⟨a, ⟨hv, h1, h2⟩, h3, h4⟩
    exact ⟨hv, by omega⟩

theorem genMax_iff (g : Gen) : g = genMax ↔ g.toNat = 2 ^ 64 - 1 := by
  constructor
  · rintro rfl
    rfl
  · intro h
    exact BitVec.eq_of_toNat_eq h

theorem slotFree_iff (s : State) (i : Nat) :
    s.slotFree i = true ↔ (s.region i).valid = false ∧ (s.region i).gen.toNat ≠ 2 ^ 64 - 1 := by
  simp [State.slotFree, genMax_iff]

theorem answerOp_ok {α : Type} {s : State} {r : Except OpError α} {k : α → State} {v : α} (h : r = .ok v) :
    s.answerOp r k = k v := by
  rw [h]
  rfl

theorem answerOp_error {α : Type} {s : State} {r : Except OpError α} {k : α → State} {e : OpError} (h : r = .error e) :
    s.answerOp r k = { s with reply := .error e } := by
  rw [h]
  rfl

theorem guarded_of {s s' : State} {b : Bool} (h : b = true) : s.guarded b s' = { s' with reply := .ok } := if_pos h

theorem guarded_not {s s' : State} {b : Bool} (h : ¬b = true) : s.guarded b s' = { s with reply := .refused } := if_neg h

theorem onlyRegion_of {s t : State} {i : Nat} {r : Region} (h : t.regions = put Region.absent i r s.regions) :
    OnlyRegion s t i r :=
  ⟨by rw [State.region, h, lookup_put_self], fun j hj => by rw [State.region, h, lookup_put_ne _ _ _ hj, State.region]⟩

theorem onlyCap_of {s t : State} {i : Nat} {c : Cap} (h : t.caps = put Cap.absent i c s.caps) : OnlyCap s t i c :=
  ⟨by rw [State.cap, h, lookup_put_self], fun j hj => by rw [State.cap, h, lookup_put_ne _ _ _ hj, State.cap]⟩

/-- BUMP below the last generation (44_addressspace_ops.md R309). -/
theorem bump_below {s : State} {i : Nat} (h : (s.region i).gen.toNat < 2 ^ 64 - 1) :
    s.bump i = s.setRegion i { s.region i with gen := (s.region i).gen + 1 } := by
  unfold State.bump
  rw [if_pos]
  rw [Ne, genMax_iff]
  omega

/-- BUMP of a valid Region at the last generation retires the slot (44_addressspace_ops.md R309). -/
theorem bump_retires {s : State} {i : Nat} (h : (s.region i).gen.toNat = 2 ^ 64 - 1) (hv : (s.region i).valid = true) :
    s.bump i = (s.zeroFill i).setRegion i (s.region i).cleared := by
  unfold State.bump
  rw [if_neg (by rw [not_not, genMax_iff]; exact h), if_pos hv]

/-- Zero-fill in the terms of `Covers` (44_addressspace_ops.md R307). -/
theorem byte_zeroFill_covers {s : State} {i : Nat} (hv : (s.region i).valid = true) (a : Nat) :
    (Covers s i a → (s.zeroFill i).byte a = 0) ∧ (¬Covers s i a → (s.zeroFill i).byte a = s.byte a) := by
  rw [State.byte_zeroFill]
  simp only [inRange_iff]
  exact ⟨fun h => if_pos h.2, fun h => if_neg fun hc => h ⟨hv, hc⟩⟩

theorem opProtect_ok {s : State} {h : Handle} {p : Perms} (hs : ¬IsStale s h) (hb : ¬BadPerms (s.region h.rid).owner p) :
    opProtect s h p = .ok (⟨h.rid, p, h.gen⟩, s.setRegion h.rid { s.region h.rid with perms := p }) := by
  unfold opProtect
  rw [if_neg (by rwa [stale_iff]), if_neg (by rwa [badPerms_iff])]

theorem opRevoke_below {s : State} {h : Handle} (hs : ¬IsStale s h) (hg : (s.region h.rid).gen.toNat < 2 ^ 64 - 1) :
    opRevoke s h = .ok (some ⟨h.rid, h.mask, (s.region h.rid).gen + 1⟩,
      s.setRegion h.rid { s.region h.rid with gen := (s.region h.rid).gen + 1 }) := by
  have hv : (s.region h.rid).valid = true := by
    simp only [IsStale, not_or, Bool.not_eq_false] at hs
    exact hs.2.1
  unfold opRevoke
  rw [if_neg (by rwa [stale_iff]), bump_below hg]
  simp [State.region_setRegion, hv]

theorem opRevoke_retires {s : State} {h : Handle} (hs : ¬IsStale s h) (hg : (s.region h.rid).gen.toNat = 2 ^ 64 - 1) :
    opRevoke s h = .ok (none, (s.zeroFill h.rid).setRegion h.rid (s.region h.rid).cleared) := by
  have hv : (s.region h.rid).valid = true := by
    simp only [IsStale, not_or, Bool.not_eq_false] at hs
    exact hs.2.1
  unfold opRevoke
  rw [if_neg (by rwa [stale_iff]), bump_retires hg hv]
  simp [State.region_setRegion, Region.cleared, Region.absent]

/-! ## Ring arithmetic -/

/-- The capacity of a legal instance is a power of two up to 2^31 (00_scope.md R8). -/
theorem ringCap_of_legal {p : Params} (h : p.legal = true) : ∃ k, k ≤ 31 ∧ p.ringCap = 2 ^ k := by
  simp only [Params.legal, Bool.and_eq_true, List.any_eq_true, List.mem_range, beq_iff_eq] at h
  obtain ⟨_, k, hk, h⟩ := h
  exact ⟨k, by omega, h⟩

/-- The slot number stays continuous when a counter wraps (45_ringchannel_ops.md R340, R345). -/
theorem counter_mod {k : Nat} (hk : k ≤ 31) (x : BitVec 32) (n : Nat) :
    (x + BitVec.ofNat 32 n).toNat % 2 ^ k = (x.toNat + n) % 2 ^ k := by
  rw [BitVec.toNat_add, BitVec.toNat_ofNat, Nat.add_mod_mod]
  exact Nat.mod_mod_of_dvd _ (Nat.pow_dvd_pow 2 (by omega))

theorem head_eq (r : Ring) : r.head = r.tail + BitVec.ofNat 32 r.count := by
  rw [Ring.count, BitVec.ofNat_toNat, BitVec.setWidth_eq, BitVec.add_comm, BitVec.sub_add_cancel]

theorem count_publish {cap : Nat} {r r' : Ring} {f : FrameBits} (hc : cap ≤ 2 ^ 31) (hr : r.count ≤ cap)
    (h : tryPublish cap r f = some r') : r'.count = r.count + 1 ∧ r.count < cap := by
  unfold tryPublish at h
  split_ifs at h with hf
  cases h
  have hne : r.count ≠ cap := by simpa [Ring.full] using hf
  refine ⟨?_, by omega⟩
  show (r.head + 1 - r.tail).toNat = _
  have e : r.head + 1 - r.tail = BitVec.ofNat 32 (r.count + 1) := by
    rw [head_eq r, BitVec.add_assoc, BitVec.add_comm, BitVec.add_sub_cancel, BitVec.ofNat_add]
    rfl
  rw [e, BitVec.toNat_ofNat]
  exact Nat.mod_eq_of_lt (by omega)

theorem count_consume {cap : Nat} {r r' : Ring} {f : FrameBits} (h : tryConsume cap r = some (f, r')) :
    r.count = r'.count + 1 := by
  unfold tryConsume at h
  split_ifs at h with he
  cases h
  have hne : r.count ≠ 0 := by
    intro h0
    have := head_eq r
    rw [h0] at this
    simp [Ring.isEmpty, this] at he
  show _ = (r.head - (r.tail + 1)).toNat + 1
  have e : r.head - (r.tail + 1) = BitVec.ofNat 32 (r.count - 1) := by
    obtain ⟨m, hm⟩ : ∃ m, r.count = m + 1 := ⟨r.count - 1, by omega⟩
    have h1 : BitVec.ofNat 32 (m + 1) = 1 + BitVec.ofNat 32 m := by
      rw [BitVec.ofNat_add, BitVec.add_comm]
      rfl
    rw [head_eq r, hm, Nat.add_sub_cancel, h1, ← BitVec.add_assoc, BitVec.add_comm, BitVec.add_sub_cancel]
  have := (r.head - r.tail).isLt
  rw [e, BitVec.toNat_ofNat, Nat.mod_eq_of_lt] <;> unfold Ring.count at * <;> omega

end Sys2Proof.Machine
end

