-- ==== Sys2Proof/Laws/Cases.lean ====
section
/-! SUPPORT. What a step can do, said once: a property of every state after a step follows from its value on each operation
the step can end in, under what the step has checked by then. -/

namespace Sys2Proof.Machine

open Sys2Proof.Safety

/-- A step is one transition, on the state with the listed choice taken. -/
theorem of_step {s t : State} (h : step s = .next t) :
    s.par.legal = true ∧ transition (nextMove s) (popEnv s) = .next t := by
  unfold step at h
  split_ifs at h with hl
  exact ⟨hl, h⟩

theorem presentsGiven_iff (s : State) (m : Move) : presentsGiven s m = true ↔ ∀ h, presented m = some h → h ∈ s.given := by
  unfold presentsGiven
  cases presented m <;> simp

/-- A move that presents no handle value is a transition. -/
theorem transition_of_none {m : Move} (s : State) (h : presented m = none) : transition m s = perform m s :=
  if_pos ((presentsGiven_iff s m).2 fun _ hk => by simp [h] at hk)

/-- A transition: nothing, an instruction or trap of the CPU, an enabled transition of the dispatcher, a tick, or a command
at a port that presents no handle but a given one. -/
theorem transition_ind {P : State → Prop} {m : Move} {s t : State} (h : transition m s = .next t) (same : P s)
    (cpu : s.coreState = .fetching → (s.coreRun = true ∨ s.coreOwner ≠ 0) → ∀ r, ExecShape (s.answer r) t → P t)
    (td : ∀ d, m = .td d → tdEnabled s d = true → P (tdEffect s d)) (tick : P (tick s))
    (service : ∀ c, m = .service c → (∀ h, presented m = some h → h ∈ s.given) → P (serviceCmd c s))
    (refused : P (s.answer .refused))
    (driver : ∀ c, m = .driver c → (∀ h, presented m = some h → h ∈ s.given) → P (driverCmd c s)) : P t := by
  unfold transition at h
  split_ifs at h with hp
  swap
  · cases h
    exact same
  rw [presentsGiven_iff] at hp
  cases m with
  | cpu =>
    simp only [perform] at h
    split_ifs at h with he
    · simp only [cpuEnabled, Bool.and_eq_true, beq_iff_eq] at he
      exact cpu he.2 (.inl he.1) s.reply (cpuStep_shape h)
    · cases h
      exact same
  | td d =>
    cases h
    show P (tdMove d s)
    unfold tdMove
    split_ifs with he
    · exact td d rfl he
    · exact same
  | tick => cases h; exact tick
  | service c => cases h; exact service c rfl hp
  | driverStep =>
    simp only [perform] at h
    split_ifs at h with he
    · simp only [stepAllowed, Bool.and_eq_true, beq_iff_eq, bne_iff_ne, ne_eq] at he
      exact cpu he.1.2 (.inr he.2) .ok (cpuStep_shape h)
    · cases h
      exact refused
  | driver c => cases h; exact driver c rfl hp

/-- CLASSIFY with no entry pending, for a syscall: the ends of the classes (60_exceptions.md R427 to R435). -/
theorem syscallByClass_ind {P : State → Prop} {s : State}
    (deliver : ∀ k v, P (deliverFault k v s.tr.savedPc s)) (exit : P (localExit s)) (fail : P (failRequest 0xFE s))
    (protect : ∀ rid p c, rid < s.par.nregion → (s.region rid).valid = true → ¬BadPerms (s.region rid).owner p →
      c = ⟨true, p, (s.region rid).gen⟩ →
      P (resume (((s.setRegion rid { s.region rid with perms := p }).setCap rid c).writeReg 10 0)))
    (revoke : ∀ rid c, rid < s.par.nregion → (s.region rid).valid = true →
      P (resume (((s.bump rid).setCap rid c).writeReg 10 0)))
    (full : P { s.setDeadline with tdState := .waitSlot })
    (block : ∀ svc off len, s.reqFull = false → P { s.setDeadline.publishRequest svc off len with
      tdOut := ⟨true, s.req.head, svc⟩, tdState := .waitResponse })
    (speculate : ∀ svc eff, provAlloc s = some eff ∨ s.validEffect eff = true → s.reqFull = false →
      P (resume ((((applyProvisional eff (beginEntry s.req.head svc s.setDeadline.tdDeadline (eff.touch.map (·.rid))
        s.setDeadline)).publishRequest svc eff.reqOffset eff.reqLength).writeReg 10 eff.a0).writeReg 11 eff.a1))) :
    P (syscallByClass s) := by
  have hblock : ∀ e, P (blockingCall e s) := by
    intro e
    unfold blockingCall
    split
    · exact deliver _ _
    · exact deliver _ _
    · unfold blockingPublish
      simp only
      split_ifs with hf
      · exact full
      · exact block _ _ _ (by simpa using hf)
  have hspec : ∀ e eff, provAlloc s = some eff ∨ s.validEffect eff = true → P (Machine.speculate e eff s) := by
    intro e eff he
    unfold Machine.speculate
    simp only
    split_ifs with hf
    · exact full
    · exact speculate _ eff he (by simpa using hf)
  unfold syscallByClass
  split
  · exact deliver _ _
  · unfold localCall
    split
    · exact exit
    · unfold localProtect
      simp only
      split_ifs with h1 h2
      · exact deliver _ _
      · exact deliver _ _
      · cases ho : opProtect s (s.heldHandle (s.trapReg 10).toNat) ((s.trapReg 11).setWidth 3) with
        | error e => cases e <;> exact deliver _ _
        | ok r =>
          unfold opProtect at ho
          split_ifs at ho with h3 h4
          cases ho
          rw [stale_iff] at h3
          rw [badPerms_iff] at h4
          simp only [IsStale, not_or, not_le, not_not, Bool.not_eq_false] at h3
          exact protect _ _ _ h3.1 h3.2.1 h4 (congrArg (Cap.mk true _) h3.2.2.symm)
    · unfold localRevoke
      simp only
      split_ifs with h1
      · exact deliver _ _
      · cases ho : opRevoke s (s.heldHandle (s.trapReg 10).toNat) with
        | error e => exact deliver _ _
        | ok r =>
          obtain ⟨o, s'⟩ := r
          unfold opRevoke at ho
          split_ifs at ho with h3
          simp only [Except.ok.injEq, Prod.mk.injEq] at ho
          obtain ⟨-, rfl⟩ := ho
          rw [stale_iff] at h3
          simp only [IsStale, not_or, not_le, not_not, Bool.not_eq_false] at h3
          cases o <;> exact revoke _ _ h3.1 h3.2.1
    · exact deliver _ _
  · unfold speculativeCall
    split
    · cases hp : provAlloc s with
      | none => exact fail
      | some eff => exact hspec _ eff (.inl hp)
    · cases hp : provExtFiltered s s.syscallEntry with
      | none => exact hblock _
      | some eff =>
        unfold provExtFiltered at hp
        rw [Option.filter_eq_some_iff] at hp
        exact hspec _ eff (.inr hp.2)
  · exact hblock _

/-- CLASSIFY (60_exceptions.md R425, R426). -/
theorem classify_ind {P : State → Prop} {s : State} (deliver : ∀ k v, P (deliverFault k v s.tr.savedPc s))
    (debug : P { s with tdState := .waitDebug }) (wait : s.log.state = .pending → P { s with tdState := .waitSpec })
    (syscall : s.log.state ≠ .pending → P (syscallByClass s)) : P (classify s) := by
  unfold classify
  split
  · split_ifs with h
    · exact wait h
    · exact syscall h
  · exact debug
  all_goals exact deliver _ _

/-- Response consumption (60_exceptions.md R438 to R441). -/
theorem consume_ind {P : State → Prop} {s : State}
    (commit : ∀ b r, tryConsume s.par.ringCap s.rsp = some (b, r) → s.log.state = .pending →
      P (commit { s with rsp := r }))
    (rollback : ∀ b r reason, tryConsume s.par.ringCap s.rsp = some (b, r) → s.log.state = .pending →
      P (rollback reason { s with rsp := r }))
    (result : ∀ b r v w, tryConsume s.par.ringCap s.rsp = some (b, r) → s.tdOut.valid = true →
      P (resume ((({ s with rsp := r, tdOut := { s.tdOut with valid := false } } : State).writeReg 10 v).writeReg 11 w)))
    (discard : ∀ b r, tryConsume s.par.ringCap s.rsp = some (b, r) → P { s with rsp := r }) (same : P s) :
    P (consumeResponse s) := by
  unfold consumeResponse
  split
  · exact same
  · rename_i b r hc
    unfold dispatchResponse
    split_ifs with h1 h2
    · unfold entryResponse
      split_ifs
      · exact commit b r hc h1.2.1
      · exact rollback b r _ hc h1.2.1
    · unfold requestResponse
      simp only
      split_ifs
      · exact result b r _ _ hc h2.2.1
      · exact result b r _ _ hc h2.2.1
    · exact discard b r hc

/-- A command of the service port (60_exceptions.md R455). -/
theorem service_ind {P : State → Prop} {c : ServiceCmd} {s : State} (answer : ∀ r, P (s.answer r))
    (consume : ∀ b r x, tryConsume s.par.ringCap s.req = some (b, r) → P ({ s with req := r }.answer x))
    (publish : ∀ f r x, tryPublish s.par.ringCap s.rsp f = some r → P ({ s with rsp := r }.answer x))
    (write : ∀ h a bytes x, s.asCheck h a bytes.length .write = .ok () →
      P ((s.setMem (putBytes s.mem a bytes)).answer x)) : P (serviceCmd c s) := by
  cases c with
  | tryConsume =>
    show P (serviceConsume s)
    unfold serviceConsume
    split
    · exact answer _
    · rename_i hc
      exact consume _ _ _ hc
  | tryPublish f =>
    show P (servicePublish f s)
    unfold servicePublish
    split
    · exact answer _
    · rename_i hc
      exact publish _ _ _ hc
  | read h addr len =>
    show P (portRead h addr len s)
    unfold portRead State.answerOp
    split <;> exact answer _
  | write h addr bytes =>
    show P (portWrite h addr bytes s)
    unfold portWrite State.answerOp opWrite
    cases hc : s.asCheck h.handle addr.toNat bytes.length .write with
    | error e => exact answer _
    | ok u => exact write h.handle _ bytes _ hc

/-- A command of the driver port (60_exceptions.md R450 to R454). -/
theorem driver_ind {P : State → Prop} {c : DriverCmd} {s : State} (answer : ∀ r, P (s.answer r))
    (entry : ∀ p owner x, s.tdState = .idle → s.coreState = .fetching → p.toNat % 4 = 0 → owner ≠ 0 →
      P (({ s.setPc p with coreOwner := owner } : State).answer x))
    (caps : ∀ i k x, Quiescent s → P ((s.setCap i k).answer x)) (svcs : ∀ n e x, P ((s.setSvc n e).answer x))
    (timeout : ∀ v x, P ({ s with tdTimeout := v }.answer x))
    (run : ∀ b x, b = true → s.coreOwner ≠ 0 → P ({ s with coreRun := b }.answer x))
    (stop : ∀ x, P ({ s with coreRun := false }.answer x))
    (debug : ∀ x, s.tdState = .waitDebug → P ((resume s).answer x))
    (terminate : ∀ x, s.coreState = .fetching ∨ s.coreState = .trapped →
      P ((terminateCore .none 0 s.pcVal s).answer x))
    (map : ∀ i owner base len perms g, c = .map owner base len perms → ¬BadPerms owner perms → len ≠ 0 →
      base.toNat + len.toNat ≤ s.par.memSize → i < s.par.nregion → (s.region i).valid = false →
      (∀ j a, j < s.par.nregion → Covers s j a → ¬(base.toNat ≤ a ∧ a < base.toNat + len.toNat)) →
      P ((s.setRegion i ⟨true, base, len, perms, owner, (s.region i).gen⟩).handOut g))
    (protect : ∀ h p g, c = .protect h p → ¬IsStale s h.handle → ¬BadPerms (s.region h.rid.toNat).owner p →
      P ((s.setRegion h.rid.toNat { s.region h.rid.toNat with perms := p }).handOut g))
    (revoke : ∀ h g, c = .revoke h → ¬IsStale s h.handle → P ((s.bump h.rid.toNat).handOut g))
    (retire : ∀ h x, c = .revoke h → ¬IsStale s h.handle → P ((s.bump h.rid.toNat).answer x))
    (unmap : ∀ h x, c = .unmap h → ¬IsStale s h.handle → P ((((s.zeroFill h.rid.toNat).setRegion h.rid.toNat
      (s.region h.rid.toNat).cleared).bump h.rid.toNat).answer x))
    (load : ∀ h a addr bytes x, c = .loadBytes h addr bytes → s.asCheck h.handle a bytes.length .nothing = .ok () →
      (s.region h.rid.toNat).owner ≠ 0 → P ((s.setMem (putBytes s.mem a bytes)).answer x))
    (write : ∀ h a bytes x, s.asCheck h a bytes.length .write = .ok () →
      P ((s.setMem (putBytes s.mem a bytes)).answer x)) : P (driverCmd c s) := by
  have guard : ∀ (b : Bool) s', (b = true → ∀ x, P (s'.answer x)) → P (s.guarded b s') := by
    intro b s' h
    unfold State.guarded
    split_ifs with hb
    · exact h hb _
    · exact answer _
  cases c with
  | setEntry p owner =>
    show P (setEntry p owner s)
    refine guard _ _ fun hb x => ?_
    simp only [Bool.and_eq_true, quiescent_iff, beq_iff_eq, bne_iff_ne, ne_eq] at hb
    exact entry p owner x hb.1.1.1.2.1 hb.1.1.2 hb.1.2 hb.2
  | setCap h =>
    refine guard _ _ fun hb x => caps _ _ x ?_
    simp only [Bool.and_eq_true, quiescent_iff] at hb
    exact hb.1
  | clrCap rid =>
    refine guard _ _ fun hb x => caps _ _ x ?_
    simp only [Bool.and_eq_true, quiescent_iff] at hb
    exact hb.1
  | setSvc n e => exact guard _ _ fun _ x => svcs n e x
  | setTimeout v => exact guard _ _ fun _ x => timeout v x
  | run => exact guard _ _ fun hb x => run true x rfl (by simpa using hb)
  | stop => exact guard _ _ fun _ x => stop x
  | resumeDebug => exact guard _ _ fun hb x => debug x (by simpa using hb)
  | terminate => exact guard _ _ fun hb x => terminate x (by simpa using hb)
  | map owner base len perms =>
    show P (s.answerOp (opMap s owner base len perms) fun r => r.2.handOut r.1)
    cases ho : opMap s owner base len perms with
    | error e => exact answer _
    | ok r =>
      unfold opMap at ho
      split_ifs at ho with h1 h2 h3
      rw [not_or, not_lt] at h2
      split at ho
      · cases ho
      · rename_i i hf
        cases ho
        rw [List.find?_range_eq_some] at hf
        rw [badPerms_iff] at h1
        refine map i owner base len perms _ rfl h1 h2.1 h2.2 (by simpa using hf.2.1) ((slotFree_iff s i).1 hf.1).1 ?_
        intro j a hj hc hr
        exact h3 (List.any_eq_true.2 ⟨j, List.mem_range.2 hj, (overlaps_iff ..).2 ⟨a, hc, hr.1, hr.2⟩⟩)
  | protect h p =>
    show P (s.answerOp (opProtect s h.handle p) fun r => r.2.handOut r.1)
    cases ho : opProtect s h.handle p with
    | error e => exact answer _
    | ok r =>
      unfold opProtect at ho
      split_ifs at ho with h1 h2
      cases ho
      rw [stale_iff] at h1
      rw [badPerms_iff] at h2
      exact protect h p _ rfl h1 h2
  | revoke h =>
    show P (s.answerOp (opRevoke s h.handle) fun r => r.1.elim (r.2.answer .retired) r.2.handOut)
    cases ho : opRevoke s h.handle with
    | error e => exact answer _
    | ok r =>
      obtain ⟨g, s'⟩ := r
      unfold opRevoke at ho
      split_ifs at ho with h1
      simp only [Except.ok.injEq, Prod.mk.injEq] at ho
      obtain ⟨-, rfl⟩ := ho
      rw [stale_iff] at h1
      cases g with
      | none => exact retire h _ rfl h1
      | some g => exact revoke h g rfl h1
  | unmap h =>
    show P (s.answerOp (opUnmap s h.handle) fun s' => s'.answer .ok)
    cases ho : opUnmap s h.handle with
    | error e => exact answer _
    | ok r =>
      unfold opUnmap at ho
      split_ifs at ho with h1
      cases ho
      rw [stale_iff] at h1
      exact unmap h _ rfl h1
  | loadBytes h addr bytes =>
    show P (s.answerOp (opLoadBytes s h.handle addr.toNat bytes) fun s' => s'.answer .ok)
    unfold State.answerOp opLoadBytes
    cases hc : s.asCheck h.handle addr.toNat bytes.length .nothing with
    | error e => exact answer _
    | ok u =>
      simp only
      split_ifs with ho
      · exact answer _
      · exact load h _ addr bytes _ rfl hc ho
  | read h addr len =>
    show P (portRead h addr len s)
    unfold portRead State.answerOp
    split <;> exact answer _
  | write h addr bytes =>
    show P (portWrite h addr bytes s)
    unfold portWrite State.answerOp opWrite
    cases hc : s.asCheck h.handle addr.toNat bytes.length .write with
    | error e => exact answer _
    | ok u => exact write h.handle _ bytes _ hc
  | snapshot item => exact answer _

/-- The driver is given no handle value but one its command is answered with (60_exceptions.md R457). -/
theorem given_driverCmd {c : DriverCmd} {s : State} {h : PortHandle} (hm : h ∈ (driverCmd c s).given) :
    h ∈ s.given ∨ (driverCmd c s).reply = .handle h := by
  have out : ∀ (s' : State) g, s'.given = s.given → h ∈ (s'.handOut g).given →
      h ∈ s.given ∨ (s'.handOut g).reply = .handle h := by
    intro s' g hg hm
    rw [State.handOut_given, List.mem_insert_iff, hg] at hm
    exact hm.symm.imp_right fun e => congrArg Reply.handle e.symm
  revert hm
  apply driver_ind (P := fun t => h ∈ t.given → h ∈ s.given ∨ t.reply = .handle h)
  case map => exact fun i _ _ _ _ g _ _ _ _ _ _ _ => out _ g rfl
  case protect => exact fun _ _ g _ _ _ => out _ g rfl
  case revoke => exact fun _ g _ _ => out _ g (by simp)
  case terminate => exact fun _ _ hm => .inl (by simpa [terminateCore] using hm)
  all_goals
    intros
    left
    simp_all

/-- The dispatcher gives the port agents no handle value (60_exceptions.md R457). -/
theorem given_tdEffect (s : State) (d : TdMove) : (tdEffect s d).given = s.given := by
  have deliver : ∀ k v e (u : State), (deliverFault k v e u).given = u.given := by
    intro k v e u
    unfold deliverFault
    simp only
    split_ifs <;> simp [terminateCore]
  have back : ∀ r (u : State), (rollback r u).given = u.given := fun r u => by simp [rollback, deliver]
  cases d with
  | classify =>
    refine classify_ind (P := fun t => t.given = s.given) (fun _ _ => deliver _ _ _ _) rfl (fun _ => rfl) fun _ => ?_
    apply syscallByClass_ind (P := fun t => t.given = s.given)
    all_goals
      intros
      first | exact deliver _ _ _ _ | rfl | simp [applyProvisional, beginEntry]
  | retry | release | requestDeadline => rfl
  | consume =>
    apply consume_ind (P := fun t => t.given = s.given)
    all_goals
      intros
      first | exact back _ _ | rfl
  | logDeadline => exact back _ _

end Sys2Proof.Machine
end

