-- ==== Sys2Proof/Laws/Decode.lean ====
section
/-! SUPPORT. The table of 30_encoding.md R151: no two rows select one word, so decoding gives the row that selects the
word; and each format, field by field: an encoded field is read back, and a word is put together from its fields. -/

namespace Sys2Proof

/-! ## The rows -/

/-- Two rows that can hold at one XLEN differ in a bit both fix. -/
def OpRow.apart (r q : OpRow) : Bool :=
  !((r.xlen.holds .rv32 && q.xlen.holds .rv32) || (r.xlen.holds .rv64 && q.xlen.holds .rv64)) ||
    r.pat &&& q.mask != q.pat &&& r.mask

theorem apart_comm (r q : OpRow) : r.apart q = q.apart r := by
  unfold OpRow.apart
  rw [Bool.and_comm (r.xlen.holds .rv32), Bool.and_comm (r.xlen.holds .rv64), bne_comm]

theorem rows_apart : opRows.Pairwise (fun r q => r.apart q = true) := by decide +kernel

theorem not_selects_both {r q : OpRow} (h : r.apart q = true) {x : Xlen} {w : BitVec 32} (hr : r.selects x w = true) :
    q.selects x w = false := by
  by_contra hq
  simp only [Bool.not_eq_false, OpRow.selects, Bool.and_eq_true, beq_iff_eq] at hr hq
  have hx : ((r.xlen.holds .rv32 && q.xlen.holds .rv32) || (r.xlen.holds .rv64 && q.xlen.holds .rv64)) = true := by
    cases x <;> simp [hr.1, hq.1]
  have hp : r.pat &&& q.mask = q.pat &&& r.mask := by
    rw [← hr.2, ← hq.2, BitVec.and_assoc, BitVec.and_assoc, BitVec.and_comm q.mask]
  simp [OpRow.apart, hx, hp] at h

/-- A word that a row selects decodes by that row (30_encoding.md R152). -/
theorem decode_of_row {r : OpRow} (hm : r ∈ opRows) {x : Xlen} {w : BitVec 32} (hs : r.selects x w = true) :
    decode x w = .ok (r.build w) := by
  unfold decode
  cases hf : opRows.find? (fun r => r.selects x w) with
  | none =>
    have := List.find?_eq_none.1 hf r hm
    simp [hs] at this
  | some q =>
    have hq : q.selects x w = true := by simpa using List.find?_some hf
    by_cases he : r = q
    · rw [he]
    · have hsym : Std.Symm (fun r q : OpRow => r.apart q = true) := ⟨fun a b h => (apart_comm b a).trans h⟩
      have := not_selects_both (rows_apart.forall hm (List.mem_of_find?_eq_some hf) he) hs
      simp [hq] at this

theorem decode_ok {x : Xlen} {w : BitVec 32} {i : Instr} (h : decode x w = .ok i) :
    ∃ r ∈ opRows, r.selects x w = true ∧ r.build w = i := by
  unfold decode at h
  split at h
  · rename_i r hf
    cases h
    exact ⟨r, List.mem_of_find?_eq_some hf, by simpa using List.find?_some hf, rfl⟩
  · cases h

theorem decode_error {x : Xlen} {w : BitVec 32} (h : ∀ r ∈ opRows, r.selects x w = false) :
    decode x w = .error (.illegalInstruction w) := by
  unfold decode
  rw [List.find?_eq_none.2 fun r hr => by simp [h r hr]]

/-! ## Bits of an encoded word -/

section bits

variable (f7 : BitVec 7) (f6 : BitVec 6) (rs2 rs1 rd : Reg) (f3 : BitVec 3) (op : BitVec 7) (i : Nat)

theorem encR_getLsbD : (encR f7 rs2 rs1 f3 rd op).getLsbD i =
    if i < 7 then op.getLsbD i else
    if i < 12 then rd.getLsbD (i - 7) else
    if i < 15 then f3.getLsbD (i - 12) else
    if i < 20 then rs1.getLsbD (i - 15) else
    if i < 25 then rs2.getLsbD (i - 20) else
    f7.getLsbD (i - 25) := by
  change @BitVec.getLsbD (7 + 5 + 5 + 3 + 5 + 7) (f7 ++ rs2 ++ rs1 ++ f3 ++ rd ++ op) i = _
  simp only [BitVec.getLsbD_append]
  split_ifs <;> first | rfl | (exfalso; omega)

theorem encI_getLsbD (imm : BitVec 12) : (encI imm rs1 f3 rd op).getLsbD i =
    if i < 7 then op.getLsbD i else
    if i < 12 then rd.getLsbD (i - 7) else
    if i < 15 then f3.getLsbD (i - 12) else
    if i < 20 then rs1.getLsbD (i - 15) else
    imm.getLsbD (i - 20) := by
  change @BitVec.getLsbD (12 + 5 + 3 + 5 + 7) (imm ++ rs1 ++ f3 ++ rd ++ op) i = _
  simp only [BitVec.getLsbD_append]
  split_ifs <;> first | rfl | (exfalso; omega)

theorem encU_getLsbD (imm : BitVec 20) : (encU imm rd op).getLsbD i =
    if i < 7 then op.getLsbD i else
    if i < 12 then rd.getLsbD (i - 7) else
    imm.getLsbD (i - 12) := by
  change @BitVec.getLsbD (20 + 5 + 7) (imm ++ rd ++ op) i = _
  simp only [BitVec.getLsbD_append]
  split_ifs <;> first | rfl | (exfalso; omega)

theorem encShift_getLsbD (n : BitVec 6) : (encShift f6 n rs1 f3 rd op).getLsbD i =
    if i < 7 then op.getLsbD i else
    if i < 12 then rd.getLsbD (i - 7) else
    if i < 15 then f3.getLsbD (i - 12) else
    if i < 20 then rs1.getLsbD (i - 15) else
    if i < 26 then n.getLsbD (i - 20) else
    f6.getLsbD (i - 26) := by
  change @BitVec.getLsbD (6 + 6 + 5 + 3 + 5 + 7) (f6 ++ n ++ rs1 ++ f3 ++ rd ++ op) i = _
  simp only [BitVec.getLsbD_append]
  split_ifs <;> first | rfl | (exfalso; omega)

theorem encFence_getLsbD (fm pred succ : BitVec 4) : (encFence fm pred succ rs1 f3 rd op).getLsbD i =
    if i < 7 then op.getLsbD i else
    if i < 12 then rd.getLsbD (i - 7) else
    if i < 15 then f3.getLsbD (i - 12) else
    if i < 20 then rs1.getLsbD (i - 15) else
    if i < 24 then succ.getLsbD (i - 20) else
    if i < 28 then pred.getLsbD (i - 24) else
    fm.getLsbD (i - 28) := by
  change @BitVec.getLsbD (4 + 4 + 4 + 5 + 3 + 5 + 7) (fm ++ pred ++ succ ++ rs1 ++ f3 ++ rd ++ op) i = _
  simp only [BitVec.getLsbD_append]
  split_ifs <;> first | rfl | (exfalso; omega)

theorem encS_eq_encR (imm : BitVec 12) :
    encS imm rs2 rs1 f3 op = encR (imm.extractLsb' 5 7) rs2 rs1 f3 (imm.extractLsb' 0 5) op := rfl

/-- The two halves of a B-format offset as R-format fields (30_encoding.md R132). -/
theorem encB_eq_encR (off : BitVec 13) : encB off rs2 rs1 f3 op =
    encR (off.extractLsb' 12 1 ++ off.extractLsb' 5 6) rs2 rs1 f3 (off.extractLsb' 1 4 ++ off.extractLsb' 11 1) op := by
  apply BitVec.eq_of_getLsbD_eq
  intro i hi
  rw [encR_getLsbD]
  change @BitVec.getLsbD (1 + 6 + 5 + 5 + 3 + 4 + 1 + 7) (off.extractLsb' 12 1 ++ off.extractLsb' 5 6 ++ rs2 ++ rs1 ++ f3 ++
    off.extractLsb' 1 4 ++ off.extractLsb' 11 1 ++ op) i = _
  simp only [BitVec.getLsbD_append]
  interval_cases i <;> rfl

/-- The pieces of a J-format offset as the 20 bits of the U format (30_encoding.md R132). -/
theorem encJ_eq_encU (off : BitVec 21) : encJ off rd op =
    encU (off.extractLsb' 20 1 ++ off.extractLsb' 1 10 ++ off.extractLsb' 11 1 ++ off.extractLsb' 12 8) rd op := rfl

end bits

/-! ## Fields of an encoded word -/

section fields

variable (f7 : BitVec 7) (f6 : BitVec 6) (rs2 rs1 rd : Reg) (f3 : BitVec 3) (op : BitVec 7)

theorem encR_fields : rdOf (encR f7 rs2 rs1 f3 rd op) = rd ∧ rs1Of (encR f7 rs2 rs1 f3 rd op) = rs1 ∧
    rs2Of (encR f7 rs2 rs1 f3 rd op) = rs2 := by
  refine ⟨?_, ?_, ?_⟩ <;> apply BitVec.eq_of_getLsbD_eq <;> intro i hi <;> interval_cases i <;>
    simp only [rdOf, rs1Of, rs2Of, BitVec.getLsbD_extractLsb', encR_getLsbD] <;> simp

theorem encR_mask : encR f7 rs2 rs1 f3 rd op &&& 0xFE00707F = encR f7 0 0 f3 0 op := by
  apply BitVec.eq_of_getLsbD_eq
  intro i hi
  interval_cases i <;> simp only [BitVec.getLsbD_and, encR_getLsbD] <;> simp

theorem encR_mask3 : encR f7 rs2 rs1 f3 rd op &&& 0x0000707F = encI 0 0 f3 0 op := by
  apply BitVec.eq_of_getLsbD_eq
  intro i hi
  interval_cases i <;> simp only [BitVec.getLsbD_and, encR_getLsbD, encI_getLsbD] <;> simp

theorem encI_fields (imm : BitVec 12) : rdOf (encI imm rs1 f3 rd op) = rd ∧ rs1Of (encI imm rs1 f3 rd op) = rs1 ∧
    immIOf (encI imm rs1 f3 rd op) = imm := by
  refine ⟨?_, ?_, ?_⟩ <;> apply BitVec.eq_of_getLsbD_eq <;> intro i hi <;> interval_cases i <;>
    simp only [rdOf, rs1Of, immIOf, BitVec.getLsbD_extractLsb', encI_getLsbD] <;> simp

theorem encI_mask (imm : BitVec 12) : encI imm rs1 f3 rd op &&& 0x0000707F = encI 0 0 f3 0 op := by
  apply BitVec.eq_of_getLsbD_eq
  intro i hi
  interval_cases i <;> simp only [BitVec.getLsbD_and, encI_getLsbD] <;> simp

theorem encU_fields (imm : BitVec 20) : rdOf (encU imm rd op) = rd ∧ immUOf (encU imm rd op) = imm := by
  refine ⟨?_, ?_⟩ <;> apply BitVec.eq_of_getLsbD_eq <;> intro i hi <;> interval_cases i <;>
    simp only [rdOf, immUOf, BitVec.getLsbD_extractLsb', encU_getLsbD] <;> simp

theorem encU_mask (imm : BitVec 20) : encU imm rd op &&& 0x0000007F = encU 0 0 op := by
  apply BitVec.eq_of_getLsbD_eq
  intro i hi
  interval_cases i <;> simp only [BitVec.getLsbD_and, encU_getLsbD] <;> simp

theorem encShift_fields (n : BitVec 6) : rdOf (encShift f6 n rs1 f3 rd op) = rd ∧
    rs1Of (encShift f6 n rs1 f3 rd op) = rs1 ∧ shamt6Of (encShift f6 n rs1 f3 rd op) = n := by
  refine ⟨?_, ?_, ?_⟩ <;> apply BitVec.eq_of_getLsbD_eq <;> intro i hi <;> interval_cases i <;>
    simp only [rdOf, rs1Of, shamt6Of, BitVec.getLsbD_extractLsb', encShift_getLsbD] <;> simp

theorem encShift_mask6 (n : BitVec 6) : encShift f6 n rs1 f3 rd op &&& 0xFC00707F = encShift f6 0 0 f3 0 op := by
  apply BitVec.eq_of_getLsbD_eq
  intro i hi
  interval_cases i <;> simp only [BitVec.getLsbD_and, encShift_getLsbD] <;> simp

theorem encShift_mask7 (n : BitVec 6) (h5 : n.getLsbD 5 = false) :
    encShift f6 n rs1 f3 rd op &&& 0xFE00707F = encShift f6 0 0 f3 0 op := by
  apply BitVec.eq_of_getLsbD_eq
  intro i hi
  interval_cases i <;> simp only [BitVec.getLsbD_and, encShift_getLsbD] <;> simp
  exact h5

theorem encFence_fields (fm pred succ : BitVec 4) :
    buildFence (encFence fm pred succ rs1 f3 rd op) = .fence fm pred succ rs1 rd := by
  unfold buildFence
  congr 1 <;> apply BitVec.eq_of_getLsbD_eq <;> intro i hi <;> interval_cases i <;>
    simp only [rdOf, rs1Of, BitVec.getLsbD_extractLsb', encFence_getLsbD] <;> simp

theorem encFence_mask (fm pred succ : BitVec 4) : encFence fm pred succ rs1 f3 rd op &&& 0x0000707F = encI 0 0 f3 0 op := by
  apply BitVec.eq_of_getLsbD_eq
  intro i hi
  interval_cases i <;> simp only [BitVec.getLsbD_and, encFence_getLsbD, encI_getLsbD] <;> simp

theorem encS_mask (imm : BitVec 12) : encS imm rs2 rs1 f3 op &&& 0x0000707F = encI 0 0 f3 0 op := encR_mask3 ..

theorem encB_mask (off : BitVec 13) : encB off rs2 rs1 f3 op &&& 0x0000707F = encI 0 0 f3 0 op := by
  rw [encB_eq_encR]
  exact encR_mask3 ..

theorem encJ_mask (off : BitVec 21) : encJ off rd op &&& 0x0000007F = encU 0 0 op := encU_mask ..

theorem encS_regs (imm : BitVec 12) : rs1Of (encS imm rs2 rs1 f3 op) = rs1 ∧ rs2Of (encS imm rs2 rs1 f3 op) = rs2 :=
  (encR_fields ..).2

theorem encB_regs (off : BitVec 13) : rs1Of (encB off rs2 rs1 f3 op) = rs1 ∧ rs2Of (encB off rs2 rs1 f3 op) = rs2 := by
  rw [encB_eq_encR]
  exact (encR_fields ..).2

theorem encJ_rd (off : BitVec 21) : rdOf (encJ off rd op) = rd := (encU_fields ..).1

/-- The S-immediate read from its two halves. -/
theorem encS_imm (imm : BitVec 12) : immSOf (encS imm rs2 rs1 f3 op) = imm := by
  rw [encS_eq_encR]
  apply BitVec.eq_of_getLsbD_eq
  intro i hi
  change @BitVec.getLsbD (7 + 5) (BitVec.extractLsb' 25 7 _ ++ BitVec.extractLsb' 7 5 _) i = _
  interval_cases i <;>
    simp only [BitVec.getLsbD_append, BitVec.getLsbD_extractLsb', encR_getLsbD] <;> simp

/-- The B-immediate read from its four pieces, bit 0 being 0. -/
theorem encB_imm (off : BitVec 13) (h0 : off.getLsbD 0 = false) : immBOf (encB off rs2 rs1 f3 op) = off := by
  rw [encB_eq_encR]
  apply BitVec.eq_of_getLsbD_eq
  intro i hi
  change @BitVec.getLsbD (1 + 1 + 6 + 4 + 1) (BitVec.extractLsb' 31 1 _ ++ BitVec.extractLsb' 7 1 _ ++
    BitVec.extractLsb' 25 6 _ ++ BitVec.extractLsb' 8 4 _ ++ 0#1) i = _
  interval_cases i <;>
    simp only [BitVec.getLsbD_append, BitVec.getLsbD_extractLsb', encR_getLsbD] <;> simp
  exact h0

/-- The J-immediate read from its four pieces, bit 0 being 0. -/
theorem encJ_imm (off : BitVec 21) (h0 : off.getLsbD 0 = false) : immJOf (encJ off rd op) = off := by
  rw [encJ_eq_encU]
  apply BitVec.eq_of_getLsbD_eq
  intro i hi
  change @BitVec.getLsbD (1 + 8 + 1 + 10 + 1) (BitVec.extractLsb' 31 1 _ ++ BitVec.extractLsb' 12 8 _ ++
    BitVec.extractLsb' 20 1 _ ++ BitVec.extractLsb' 21 10 _ ++ 0#1) i = _
  interval_cases i <;>
    simp only [BitVec.getLsbD_append, BitVec.getLsbD_extractLsb', encU_getLsbD] <;> simp
  exact h0

end fields

/-! ## Words put together from their fields -/

section words

variable {w : BitVec 32} {f7 : BitVec 7} {f6 : BitVec 6} {f3 : BitVec 3} {op : BitVec 7}

theorem getLsbD_of_and {m p : BitVec 32} (h : w &&& m = p) {i : Nat} (hm : m.getLsbD i = true) :
    p.getLsbD i = w.getLsbD i := by
  rw [← h, BitVec.getLsbD_and, hm, Bool.and_true]

theorem encR_of_fields (h : w &&& 0xFE00707F = encR f7 0 0 f3 0 op) :
    encR f7 (rs2Of w) (rs1Of w) f3 (rdOf w) op = w := by
  apply BitVec.eq_of_getLsbD_eq
  intro i hi
  have hb := getLsbD_of_and h (i := i)
  rw [encR_getLsbD] at hb ⊢
  interval_cases i <;> first
    | (simp only [rs2Of, rs1Of, rdOf, BitVec.getLsbD_extractLsb']; rfl)
    | exact hb (by decide)

theorem encI_of_fields (h : w &&& 0x0000707F = encI 0 0 f3 0 op) : encI (immIOf w) (rs1Of w) f3 (rdOf w) op = w := by
  apply BitVec.eq_of_getLsbD_eq
  intro i hi
  have hb := getLsbD_of_and h (i := i)
  rw [encI_getLsbD] at hb ⊢
  interval_cases i <;> first
    | (simp only [immIOf, rs1Of, rdOf, BitVec.getLsbD_extractLsb']; rfl)
    | exact hb (by decide)

theorem encU_of_fields (h : w &&& 0x0000007F = encU 0 0 op) : encU (immUOf w) (rdOf w) op = w := by
  apply BitVec.eq_of_getLsbD_eq
  intro i hi
  have hb := getLsbD_of_and h (i := i)
  rw [encU_getLsbD] at hb ⊢
  interval_cases i <;> first
    | (simp only [immUOf, rdOf, BitVec.getLsbD_extractLsb']; rfl)
    | exact hb (by decide)

theorem encShift_of_fields (h : w &&& 0xFC00707F = encShift f6 0 0 f3 0 op) :
    encShift f6 (shamt6Of w) (rs1Of w) f3 (rdOf w) op = w := by
  apply BitVec.eq_of_getLsbD_eq
  intro i hi
  have hb := getLsbD_of_and h (i := i)
  rw [encShift_getLsbD] at hb ⊢
  interval_cases i <;> first
    | (simp only [shamt6Of, rs1Of, rdOf, BitVec.getLsbD_extractLsb']; rfl)
    | exact hb (by decide)

/-- At XLEN = 32 the row fixes bit 25 at 0 as well (30_encoding.md R145). -/
theorem mask6_of_mask7 {p : BitVec 32} (h : w &&& 0xFE00707F = p) (hp : p &&& 0xFC00707F = p) :
    w &&& 0xFC00707F = p := by
  have : w &&& 0xFE00707F &&& 0xFC00707F = p := by rw [h, hp]
  rwa [BitVec.and_assoc] at this

theorem shamt6_of_mask7 {p : BitVec 32} (h : w &&& 0xFE00707F = p) (hp : p.getLsbD 25 = false) :
    (shamt6Of w).toNat < 32 := by
  have hb : w.getLsbD 25 = false := (getLsbD_of_and h (i := 25) (by decide)).symm.trans hp
  have h5 : (shamt6Of w).getLsbD 5 = false := by
    unfold shamt6Of
    rw [BitVec.getLsbD_extractLsb', hb]
    rfl
  by_contra hn
  have : (shamt6Of w).toNat.testBit 5 = true := by
    have h64 := (shamt6Of w).isLt
    rw [Nat.testBit_eq_decide_div_mod_eq]
    simp only [decide_eq_true_eq]
    omega
  rw [BitVec.testBit_toNat, h5] at this
  cases this

theorem encS_of_fields (h : w &&& 0x0000707F = encI 0 0 f3 0 op) : encS (immSOf w) (rs2Of w) (rs1Of w) f3 op = w := by
  apply BitVec.eq_of_getLsbD_eq
  intro i hi
  have hb := getLsbD_of_and h (i := i)
  rw [encI_getLsbD] at hb
  rw [encS_eq_encR, encR_getLsbD]
  have hs : ∀ j, (immSOf w).getLsbD j =
      if j < 5 then (w.extractLsb' 7 5).getLsbD j else (w.extractLsb' 25 7).getLsbD (j - 5) := by
    intro j
    change @BitVec.getLsbD (7 + 5) (BitVec.extractLsb' 25 7 w ++ BitVec.extractLsb' 7 5 w) j = _
    rw [BitVec.getLsbD_append]
  interval_cases i <;> first
    | (simp only [rs2Of, rs1Of, BitVec.getLsbD_extractLsb', hs]; rfl)
    | exact hb (by decide)

theorem encB_of_fields (h : w &&& 0x0000707F = encI 0 0 f3 0 op) : encB (immBOf w) (rs2Of w) (rs1Of w) f3 op = w := by
  apply BitVec.eq_of_getLsbD_eq
  intro i hi
  have hb := getLsbD_of_and h (i := i)
  rw [encI_getLsbD] at hb
  rw [encB_eq_encR, encR_getLsbD]
  have hs : ∀ j, (immBOf w).getLsbD j = @BitVec.getLsbD (1 + 1 + 6 + 4 + 1) (BitVec.extractLsb' 31 1 w ++
      BitVec.extractLsb' 7 1 w ++ BitVec.extractLsb' 25 6 w ++ BitVec.extractLsb' 8 4 w ++ 0#1) j := fun _ => rfl
  interval_cases i <;> first
    | (simp only [rs2Of, rs1Of, BitVec.getLsbD_extractLsb', hs, BitVec.getLsbD_append]; rfl)
    | exact hb (by decide)

theorem encJ_of_fields (h : w &&& 0x0000007F = encU 0 0 op) : encJ (immJOf w) (rdOf w) op = w := by
  apply BitVec.eq_of_getLsbD_eq
  intro i hi
  have hb := getLsbD_of_and h (i := i)
  rw [encU_getLsbD] at hb
  rw [encJ_eq_encU, encU_getLsbD]
  have hs : ∀ j, (immJOf w).getLsbD j = @BitVec.getLsbD (1 + 8 + 1 + 10 + 1) (BitVec.extractLsb' 31 1 w ++
      BitVec.extractLsb' 12 8 w ++ BitVec.extractLsb' 20 1 w ++ BitVec.extractLsb' 21 10 w ++ 0#1) j := fun _ => rfl
  interval_cases i <;> first
    | (simp only [rdOf, BitVec.getLsbD_extractLsb', hs, BitVec.getLsbD_append]; rfl)
    | exact hb (by decide)

theorem encFence_of_fields (h : w &&& 0x0000707F = encI 0 0 f3 0 op) :
    encFence (w.extractLsb' 28 4) (w.extractLsb' 24 4) (w.extractLsb' 20 4) (rs1Of w) f3 (rdOf w) op = w := by
  apply BitVec.eq_of_getLsbD_eq
  intro i hi
  have hb := getLsbD_of_and h (i := i)
  rw [encI_getLsbD] at hb
  rw [encFence_getLsbD]
  interval_cases i <;> first
    | (simp only [rs1Of, rdOf, BitVec.getLsbD_extractLsb']; rfl)
    | exact hb (by decide)

theorem immBOf_even (w : BitVec 32) : (immBOf w).getLsbD 0 = false := by
  change @BitVec.getLsbD (1 + 1 + 6 + 4 + 1) (BitVec.extractLsb' 31 1 w ++
      BitVec.extractLsb' 7 1 w ++ BitVec.extractLsb' 25 6 w ++ BitVec.extractLsb' 8 4 w ++ 0#1) 0 = _
  rw [BitVec.getLsbD_append]
  rfl

theorem immJOf_even (w : BitVec 32) : (immJOf w).getLsbD 0 = false := by
  change @BitVec.getLsbD (1 + 8 + 1 + 10 + 1) (BitVec.extractLsb' 31 1 w ++ BitVec.extractLsb' 12 8 w ++
      BitVec.extractLsb' 20 1 w ++ BitVec.extractLsb' 21 10 w ++ 0#1) 0 = _
  rw [BitVec.getLsbD_append]
  rfl

end words

end Sys2Proof
end

