-- ==== Sys2Proof/Laws/PerInstr.lean ====
section
/-! SUPPORT. Laws that hold instruction by instruction, one lemma a constructor. -/

/-- Bits 1:0 of the word of an instruction are 11 (30_encoding.md R130). -/
def Sys2Proof.Laws.WordLowBits.Statement (i : Sys2Proof.Instr) : Prop :=
  (Sys2Proof.encode i).extractLsb' 0 2 = 3#2

namespace Sys2Proof.Laws.WordLowBits

theorem of_and {w : BitVec 32} {m p : BitVec 32} (h : w &&& m = p) (hm : m.extractLsb' 0 2 = 3#2)
    (hp : p.extractLsb' 0 2 = 3#2) : w.extractLsb' 0 2 = 3#2 := by
  have e : (w &&& m).extractLsb' 0 2 = w.extractLsb' 0 2 &&& m.extractLsb' 0 2 := BitVec.extractLsb'_and
  rw [h, hm, hp] at e
  rw [show w.extractLsb' 0 2 &&& 3#2 = w.extractLsb' 0 2 from BitVec.and_allOnes (x := w.extractLsb' 0 2)] at e
  exact e.symm

theorem lui (rd : Reg) (imm : BitVec 20) : Statement (.lui rd imm) := of_and (encU_mask ..) rfl rfl

theorem auipc (rd : Reg) (imm : BitVec 20) : Statement (.auipc rd imm) := of_and (encU_mask ..) rfl rfl

theorem jal (rd : Reg) (off : BitVec 21) : Statement (.jal rd off) := of_and (encJ_mask ..) rfl rfl

theorem jalr (rd rs1 : Reg) (imm : BitVec 12) : Statement (.jalr rd rs1 imm) := of_and (encI_mask ..) rfl rfl

theorem beq (rs1 rs2 : Reg) (off : BitVec 13) : Statement (.beq rs1 rs2 off) := of_and (encB_mask ..) rfl rfl

theorem bne (rs1 rs2 : Reg) (off : BitVec 13) : Statement (.bne rs1 rs2 off) := of_and (encB_mask ..) rfl rfl

theorem blt (rs1 rs2 : Reg) (off : BitVec 13) : Statement (.blt rs1 rs2 off) := of_and (encB_mask ..) rfl rfl

theorem bge (rs1 rs2 : Reg) (off : BitVec 13) : Statement (.bge rs1 rs2 off) := of_and (encB_mask ..) rfl rfl

theorem bltu (rs1 rs2 : Reg) (off : BitVec 13) : Statement (.bltu rs1 rs2 off) :=
  of_and (encB_mask ..) rfl rfl

theorem bgeu (rs1 rs2 : Reg) (off : BitVec 13) : Statement (.bgeu rs1 rs2 off) :=
  of_and (encB_mask ..) rfl rfl

theorem lb (rd rs1 : Reg) (imm : BitVec 12) : Statement (.lb rd rs1 imm) := of_and (encI_mask ..) rfl rfl

theorem lh (rd rs1 : Reg) (imm : BitVec 12) : Statement (.lh rd rs1 imm) := of_and (encI_mask ..) rfl rfl

theorem lw (rd rs1 : Reg) (imm : BitVec 12) : Statement (.lw rd rs1 imm) := of_and (encI_mask ..) rfl rfl

theorem lbu (rd rs1 : Reg) (imm : BitVec 12) : Statement (.lbu rd rs1 imm) := of_and (encI_mask ..) rfl rfl

theorem lhu (rd rs1 : Reg) (imm : BitVec 12) : Statement (.lhu rd rs1 imm) := of_and (encI_mask ..) rfl rfl

theorem lwu (rd rs1 : Reg) (imm : BitVec 12) : Statement (.lwu rd rs1 imm) := of_and (encI_mask ..) rfl rfl

theorem ld (rd rs1 : Reg) (imm : BitVec 12) : Statement (.ld rd rs1 imm) := of_and (encI_mask ..) rfl rfl

theorem sb (rs1 rs2 : Reg) (imm : BitVec 12) : Statement (.sb rs1 rs2 imm) := of_and (encS_mask ..) rfl rfl

theorem sh (rs1 rs2 : Reg) (imm : BitVec 12) : Statement (.sh rs1 rs2 imm) := of_and (encS_mask ..) rfl rfl

theorem sw (rs1 rs2 : Reg) (imm : BitVec 12) : Statement (.sw rs1 rs2 imm) := of_and (encS_mask ..) rfl rfl

theorem sd (rs1 rs2 : Reg) (imm : BitVec 12) : Statement (.sd rs1 rs2 imm) := of_and (encS_mask ..) rfl rfl

theorem addi (rd rs1 : Reg) (imm : BitVec 12) : Statement (.addi rd rs1 imm) := of_and (encI_mask ..) rfl rfl

theorem slti (rd rs1 : Reg) (imm : BitVec 12) : Statement (.slti rd rs1 imm) := of_and (encI_mask ..) rfl rfl

theorem sltiu (rd rs1 : Reg) (imm : BitVec 12) : Statement (.sltiu rd rs1 imm) :=
  of_and (encI_mask ..) rfl rfl

theorem xori (rd rs1 : Reg) (imm : BitVec 12) : Statement (.xori rd rs1 imm) := of_and (encI_mask ..) rfl rfl

theorem ori (rd rs1 : Reg) (imm : BitVec 12) : Statement (.ori rd rs1 imm) := of_and (encI_mask ..) rfl rfl

theorem andi (rd rs1 : Reg) (imm : BitVec 12) : Statement (.andi rd rs1 imm) := of_and (encI_mask ..) rfl rfl

theorem slli (rd rs1 : Reg) (shamt : BitVec 6) : Statement (.slli rd rs1 shamt) :=
  of_and (encShift_mask6 ..) rfl rfl

theorem srli (rd rs1 : Reg) (shamt : BitVec 6) : Statement (.srli rd rs1 shamt) :=
  of_and (encShift_mask6 ..) rfl rfl

theorem srai (rd rs1 : Reg) (shamt : BitVec 6) : Statement (.srai rd rs1 shamt) :=
  of_and (encShift_mask6 ..) rfl rfl

theorem add (rd rs1 rs2 : Reg) : Statement (.add rd rs1 rs2) := of_and (encR_mask ..) rfl rfl

theorem sub (rd rs1 rs2 : Reg) : Statement (.sub rd rs1 rs2) := of_and (encR_mask ..) rfl rfl

theorem sll (rd rs1 rs2 : Reg) : Statement (.sll rd rs1 rs2) := of_and (encR_mask ..) rfl rfl

theorem slt (rd rs1 rs2 : Reg) : Statement (.slt rd rs1 rs2) := of_and (encR_mask ..) rfl rfl

theorem sltu (rd rs1 rs2 : Reg) : Statement (.sltu rd rs1 rs2) := of_and (encR_mask ..) rfl rfl

theorem xor (rd rs1 rs2 : Reg) : Statement (.xor rd rs1 rs2) := of_and (encR_mask ..) rfl rfl

theorem srl (rd rs1 rs2 : Reg) : Statement (.srl rd rs1 rs2) := of_and (encR_mask ..) rfl rfl

theorem sra (rd rs1 rs2 : Reg) : Statement (.sra rd rs1 rs2) := of_and (encR_mask ..) rfl rfl

theorem or (rd rs1 rs2 : Reg) : Statement (.or rd rs1 rs2) := of_and (encR_mask ..) rfl rfl

theorem and (rd rs1 rs2 : Reg) : Statement (.and rd rs1 rs2) := of_and (encR_mask ..) rfl rfl

theorem addiw (rd rs1 : Reg) (imm : BitVec 12) : Statement (.addiw rd rs1 imm) :=
  of_and (encI_mask ..) rfl rfl

theorem slliw (rd rs1 : Reg) (shamt : BitVec 5) : Statement (.slliw rd rs1 shamt) :=
  of_and (encR_mask ..) rfl rfl

theorem srliw (rd rs1 : Reg) (shamt : BitVec 5) : Statement (.srliw rd rs1 shamt) :=
  of_and (encR_mask ..) rfl rfl

theorem sraiw (rd rs1 : Reg) (shamt : BitVec 5) : Statement (.sraiw rd rs1 shamt) :=
  of_and (encR_mask ..) rfl rfl

theorem addw (rd rs1 rs2 : Reg) : Statement (.addw rd rs1 rs2) := of_and (encR_mask ..) rfl rfl

theorem subw (rd rs1 rs2 : Reg) : Statement (.subw rd rs1 rs2) := of_and (encR_mask ..) rfl rfl

theorem sllw (rd rs1 rs2 : Reg) : Statement (.sllw rd rs1 rs2) := of_and (encR_mask ..) rfl rfl

theorem srlw (rd rs1 rs2 : Reg) : Statement (.srlw rd rs1 rs2) := of_and (encR_mask ..) rfl rfl

theorem sraw (rd rs1 rs2 : Reg) : Statement (.sraw rd rs1 rs2) := of_and (encR_mask ..) rfl rfl

theorem fence (fm pred succ : BitVec 4) (rs1 rd : Reg) : Statement (.fence fm pred succ rs1 rd) :=
  of_and (encFence_mask ..) rfl rfl

theorem ecall : Statement (.ecall) := rfl

theorem ebreak : Statement (.ebreak) := rfl

theorem csrrw (rd rs1 : Reg) (csr : CsrNum) : Statement (.csrrw rd rs1 csr) := of_and (encI_mask ..) rfl rfl

theorem csrrs (rd rs1 : Reg) (csr : CsrNum) : Statement (.csrrs rd rs1 csr) := of_and (encI_mask ..) rfl rfl

theorem csrrc (rd rs1 : Reg) (csr : CsrNum) : Statement (.csrrc rd rs1 csr) := of_and (encI_mask ..) rfl rfl

theorem csrrwi (rd : Reg) (uimm : BitVec 5) (csr : CsrNum) : Statement (.csrrwi rd uimm csr) :=
  of_and (encI_mask ..) rfl rfl

theorem csrrsi (rd : Reg) (uimm : BitVec 5) (csr : CsrNum) : Statement (.csrrsi rd uimm csr) :=
  of_and (encI_mask ..) rfl rfl

theorem csrrci (rd : Reg) (uimm : BitVec 5) (csr : CsrNum) : Statement (.csrrci rd uimm csr) :=
  of_and (encI_mask ..) rfl rfl

end Sys2Proof.Laws.WordLowBits
end

