-- ==== Sys2Proof/Laws/Restore.lean ====
section
/-! SUPPORT. RESTORE_IMAGES over before-images that lie apart, and APPLY_PROVISIONAL over distinct Regions: what they leave in
the Region table, the capability table and the byte store (46_speclog_ops.md R375, R378 step 1). -/

namespace Sys2Proof.Machine

open Sys2Proof.Safety

/-- An address in the range of a before-image. -/
abbrev Image.holds (m : Image) (a : Nat) : Prop := inRange m.desc.base.toNat m.desc.length.toNat a = true

theorem restoreImages_other (l : List Image) (s : State) {i : Nat} (h : i ∉ l.map (·.rid)) :
    (restoreImages l s).region i = s.region i ∧ (restoreImages l s).cap i = s.cap i := by
  induction l with
  | nil => exact ⟨rfl, rfl⟩
  | cons m l ih =>
    simp only [List.map_cons, List.mem_cons, not_or] at h
    rw [restoreImages, region_restoreImage, cap_restoreImage, if_neg h.1, if_neg h.1]
    exact ih h.2

theorem restoreImages_region {l : List Image} {s : State} (hn : (l.map (·.rid)).Nodup)
    (hg : ∀ m ∈ l, (s.region m.rid).gen ≠ genMax) {m : Image} (hm : m ∈ l) :
    (restoreImages l s).region m.rid = { m.desc with
      gen := if (s.region m.rid).owner = m.desc.owner then (s.region m.rid).gen else (s.region m.rid).gen + 1 } ∧
    (restoreImages l s).cap m.rid = m.cap := by
  induction l with
  | nil => cases hm
  | cons n l ih =>
    simp only [List.map_cons, List.nodup_cons] at hn
    rw [restoreImages, region_restoreImage, cap_restoreImage]
    by_cases he : m.rid = n.rid
    · have hmn : m = n := by
        rcases List.mem_cons.1 hm with h | h
        · exact h
        · exact absurd (he ▸ List.mem_map_of_mem h) hn.1
      subst hmn
      rw [if_pos rfl, if_pos rfl, (restoreImages_other l s hn.1).1]
      refine ⟨?_, rfl⟩
      by_cases ho : (s.region m.rid).owner = m.desc.owner
      · rw [if_neg (not_not.2 ho), if_pos ho]
      · rw [if_pos ho, if_neg ho, if_pos (hg m hm)]
    · rw [if_neg he, if_neg he]
      have hml : m ∈ l := (List.mem_cons.1 hm).resolve_left fun h => he (by rw [h])
      exact ih hn.2 (fun k hk => hg k (List.mem_cons_of_mem _ hk)) hml

theorem restoreImages_byte_other {l : List Image} (s : State) (hw : ∀ m ∈ l, m.bytes.wf) {a : Nat}
    (h : ∀ m ∈ l, ¬m.holds a) : (restoreImages l s).byte a = s.byte a := by
  induction l with
  | nil => rfl
  | cons n l ih =>
    rw [restoreImages, byte_restoreImage n (hw n (by simp)), if_neg (h n (by simp))]
    exact ih (fun m hm => hw m (List.mem_cons_of_mem _ hm)) fun m hm => h m (List.mem_cons_of_mem _ hm)

theorem restoreImages_byte {l : List Image} {s : State} (hw : ∀ m ∈ l, m.bytes.wf) (hn : (l.map (·.rid)).Nodup)
    (hp : l.Pairwise fun m n => ∀ a, ¬(m.holds a ∧ n.holds a)) (hg : ∀ m ∈ l, (s.region m.rid).gen ≠ genMax)
    {m : Image} (hm : m ∈ l) {a : Nat} (ha : m.holds a) : (restoreImages l s).byte a = byteAt m.bytes a := by
  induction l with
  | nil => cases hm
  | cons n l ih =>
    rw [List.pairwise_cons] at hp
    simp only [List.map_cons, List.nodup_cons] at hn
    rw [restoreImages, byte_restoreImage n (hw n (by simp))]
    have hw' : ∀ k ∈ l, k.bytes.wf := fun k hk => hw k (List.mem_cons_of_mem _ hk)
    rcases List.mem_cons.1 hm with h | h
    · subst h
      rw [if_pos ha, if_neg]
      rintro ⟨_, h, _⟩
      rw [(restoreImages_other l s hn.1).1] at h
      exact hg m (by simp) h
    · rw [if_neg fun hc => hp.1 m h a ⟨hc, ha⟩]
      exact ih hw' hn.2 hp.2 (fun k hk => hg k (List.mem_cons_of_mem _ hk)) h

/-- RESTORE_IMAGES of a state's entry, with the entry then consumed. -/
theorem restored_of {s t : State} (h : ImagesApart s) (hr : t.regions = (restoreImages s.log.images s).regions)
    (hm : t.mem = (restoreImages s.log.images s).mem) (hc : t.caps = (restoreImages s.log.images s).caps)
    (hl : t.log = { s.log with images := [], state := .empty }) : Restored s t := by
  have er : ∀ i, t.region i = (restoreImages s.log.images s).region i := fun i => by rw [State.region, hr, State.region]
  have ec : ∀ i, t.cap i = (restoreImages s.log.images s).cap i := fun i => by rw [State.cap, hc, State.cap]
  have eb : ∀ a, t.byte a = (restoreImages s.log.images s).byte a := fun a => by rw [State.byte, hm, State.byte]
  exact {
    regions := fun m hmem => (er _).trans (restoreImages_region h.rids h.generations hmem).1
    caps := fun m hmem => (ec _).trans (restoreImages_region h.rids h.generations hmem).2
    bytes := fun m hmem a ha => (eb a).trans (restoreImages_byte h.bytes h.rids h.ranges h.generations hmem ha)
    otherRegions := fun i hi =>
      ⟨(er i).trans (restoreImages_other _ s hi).1, (ec i).trans (restoreImages_other _ s hi).2⟩
    otherBytes := fun a ha => (eb a).trans (restoreImages_byte_other s h.bytes fun m hmem hc =>
      Bool.false_ne_true ((ha m hmem).symm.trans hc))
    entry := hl }

/-- Applying to one touched Region: its capability slot and its bytes (46_speclog_ops.md R375). -/
theorem cap_applyTouch (k : Touch) (s : State) (j : Nat) :
    (applyTouch k s).cap j = if j = k.rid then k.cap else s.cap j := lookup_put ..

theorem byte_applyTouch (k : Touch) (hk : k.bytes.wf) (s : State) (a : Nat) : (applyTouch k s).byte a =
    if inRange (s.region k.rid).base.toNat (s.region k.rid).length.toNat a then byteAt k.bytes a else s.byte a :=
  byteAt_putImage _ _ _ _ hk a

theorem applyTouches_other (l : List Touch) (s : State) {i : Nat} (h : i ∉ l.map (·.rid)) :
    (applyTouches l s).region i = s.region i ∧ (applyTouches l s).cap i = s.cap i := by
  induction l generalizing s with
  | nil => exact ⟨rfl, rfl⟩
  | cons k l ih =>
    simp only [List.map_cons, List.mem_cons, not_or] at h
    obtain ⟨h1, h2⟩ := ih (applyTouch k s) h.2
    rw [applyTouches, h1, h2, region_applyTouch, cap_applyTouch, if_neg h.1, if_neg h.1]
    exact ⟨rfl, rfl⟩

/-- The descriptor and the capability slot of each touched Region (46_speclog_ops.md R375). -/
theorem applyTouches_touched {l : List Touch} {s : State} (hn : (l.map (·.rid)).Nodup) {k : Touch} (hk : k ∈ l) :
    (applyTouches l s).region k.rid = { s.region k.rid with perms := k.perms, owner := k.owner } ∧
    (applyTouches l s).cap k.rid = k.cap := by
  induction l generalizing s with
  | nil => cases hk
  | cons n l ih =>
    simp only [List.map_cons, List.nodup_cons] at hn
    rcases List.mem_cons.1 hk with h | h
    · subst h
      obtain ⟨h1, h2⟩ := applyTouches_other l (applyTouch k s) hn.1
      rw [applyTouches, h1, h2, region_applyTouch, cap_applyTouch, if_pos rfl, if_pos rfl]
      exact ⟨rfl, rfl⟩
    · have he : k.rid ≠ n.rid := fun he => hn.1 (he ▸ List.mem_map_of_mem h)
      have := ih (s := applyTouch n s) hn.2 h
      rwa [region_applyTouch, if_neg he] at this

theorem covers_applyTouch (k : Touch) (s : State) (i a : Nat) : Covers (applyTouch k s) i a ↔ Covers s i a := by
  unfold Covers
  rw [region_applyTouch]
  split_ifs with h
  · rw [h]
  · rfl

/-- Every byte outside the touched Regions stays (46_speclog_ops.md R375). -/
theorem applyTouches_byte_other {l : List Touch} {s : State} (hv : ∀ k ∈ l, (s.region k.rid).valid = true)
    (hw : ∀ k ∈ l, k.bytes.wf) {a : Nat} (h : ∀ k ∈ l, ¬Covers s k.rid a) : (applyTouches l s).byte a = s.byte a := by
  induction l generalizing s with
  | nil => rfl
  | cons k l ih =>
    have hv' : ∀ n ∈ l, ((applyTouch k s).region n.rid).valid = true := fun n hn => by
      rw [region_applyTouch]
      split_ifs with he
      · exact he ▸ hv n (List.mem_cons_of_mem _ hn)
      · exact hv n (List.mem_cons_of_mem _ hn)
    rw [applyTouches, ih hv' (fun n hn => hw n (List.mem_cons_of_mem _ hn)) fun n hn => by
      rw [covers_applyTouch]
      exact h n (List.mem_cons_of_mem _ hn), byte_applyTouch k (hw k (by simp)), if_neg]
    exact fun hc => h k (by simp) ⟨hv k (by simp), (inRange_iff ..).1 hc⟩

/-- The bytes of each touched Region, where valid Regions are disjoint (46_speclog_ops.md R375, 10_state.md R35 b). -/
theorem applyTouches_byte {l : List Touch} {s : State} (hv : ∀ k ∈ l, (s.region k.rid).valid = true)
    (hw : ∀ k ∈ l, k.bytes.wf) (hn : (l.map (·.rid)).Nodup) (hd : ∀ i j a, Covers s i a → Covers s j a → i = j) {k : Touch}
    (hk : k ∈ l) {a : Nat} (ha : Covers s k.rid a) : (applyTouches l s).byte a = byteAt k.bytes a := by
  induction l generalizing s with
  | nil => cases hk
  | cons n l ih =>
    have hv' : ∀ m ∈ l, ((applyTouch n s).region m.rid).valid = true := fun m hm => by
      rw [region_applyTouch]
      split_ifs with he
      · exact he ▸ hv m (List.mem_cons_of_mem _ hm)
      · exact hv m (List.mem_cons_of_mem _ hm)
    have hw' : ∀ m ∈ l, m.bytes.wf := fun m hm => hw m (List.mem_cons_of_mem _ hm)
    simp only [List.map_cons, List.nodup_cons] at hn
    rw [applyTouches]
    rcases List.mem_cons.1 hk with h | h
    · subst h
      rw [applyTouches_byte_other hv' hw' fun m hm hc => ?_, byte_applyTouch k (hw k (by simp)), if_pos]
      · exact (inRange_iff ..).2 ha.2
      · exact hn.1 ((hd _ _ a ha ((covers_applyTouch ..).1 hc)) ▸ List.mem_map_of_mem hm)
    · exact ih hv' hw' hn.2 (fun i j b hi hj => hd i j b ((covers_applyTouch ..).1 hi) ((covers_applyTouch ..).1 hj)) h
        ((covers_applyTouch ..).2 ha)

/-- ROLLBACK: the images restored and steps 2 to 5, then the fault delivered (46_speclog_ops.md R378). -/
theorem rollback_eq (reason : BitVec 8) (s : State) : rollback reason s =
    deliverFault .speculationRolledBack (reason.setWidth 64) s.log.tr.savedPc { restoreImages s.log.images s with
      pc := trunc s.par.xlen s.log.tr.savedPc
      regs := s.log.tr.regs.set 0 0
      logLast := ⟨s.log.seq, .rolledBack, reason⟩
      log := { s.log with images := [], state := .empty }
      notes := s.notes ++ [⟨.rollback, .speculationRolledBack, reason.setWidth 64, trunc s.par.xlen s.log.tr.savedPc,
        s.log.tr.reg s.par.xlen 17⟩]
      tr := { s.tr with valid := false }
      tdState := .idle
      tdDlValid := false } := by
  unfold rollback
  simp only
  rw [restoreImages_rest]
  rfl

end Sys2Proof.Machine
end

