-- ==== Sys2Proof/Tests/Slice0.lean ====
section
/-! SUPPORT. The model's own tests: what well-formedness and decoding refuse, the decoding of one word per constructor,
single steps whose expected results are those of 95_test_vectors.md, and for every statement with hypotheses states and
operands that meet them. -/

open Sys2Proof Sys2Proof.Machine Sys2Proof.Safety

namespace Sys2Proof.Tests

/-! ## The common start of 95_test_vectors.md section 2.1 -/

/-- The common start with the pc, the registers and the word at the pc as given, the core running. -/
def startAt (pc : Word) (x : Xlen) (regs : List (Reg × Word)) (w : BitVec 32) : State :=
  regs.foldl (fun s p => s.writeReg p.1 p.2)
    { State.resetFor (Params.defaults x) with
      pc := pc
      coreOwner := 1
      coreRun := true
      regions := [(0, ⟨true, 0x1000, 0x100, 5, 1, 0⟩), (1, ⟨true, 0x2000, 0x100, 3, 1, 0⟩)]
      caps := [(0, ⟨true, 5, 0⟩), (1, ⟨true, 3, 0⟩)]
      mem := putBytes [] pc.toNat (bytesOfWord w) }

/-- The common start at 0x1000. -/
def start (x : Xlen) (regs : List (Reg × Word)) (w : BitVec 32) : State := startAt 0x1000 x regs w

/-- The bytes M8 of section 2.4. -/
def withData (s : State) : State :=
  s.setMem (putBytes s.mem 0x2000 [0x80, 0x81, 0x82, 0x83, 0x04, 0x05, 0x06, 0xF7])

/-- The state one step later. -/
def after (s : State) : Option State :=
  match step s with
  | .next t => some t
  | .fault _ | .refused _ => none

/-- A register and the pc, one step later. -/
def regAfter (r : Reg) (s : State) : Option (Word × Word) := (after s).map fun t => (t.readReg r, t.pcVal)

/-- A CSR word and a register, one step later. -/
def csrAfter (c : CsrNum) (r : Reg) (s : State) : Option (Word × Word) := (after s).map fun t => (t.readCsr c, t.readReg r)

/-- The code of the trap, its value and its pc, one step later. -/
def trapAfter (s : State) : Option (BitVec 4 × Word × Word) :=
  (after s).map fun t => (t.tr.kind.code, t.tr.addr, t.tr.savedPc)

/-- The bytes from `a` on, one step later. -/
def bytesAfter (a n : Nat) (s : State) : Option (List Byte) := (after s).map fun t => bytesAt t.mem a n

/-- The state one step later when the listed choice is `m`. -/
def doing (m : Move) (s : State) : Option State := after { s with env := [m], given := (presented m).toList }

/-- The answer to a driver command. -/
def answerTo (c : DriverCmd) (s : State) : Option Reply := (doing (.driver c) s).map (·.reply)

/-! ## Well-formedness: one ill-formed term for each check -/

theorem test_illFormed_rv64Only : (Instr.addiw 5 6 0).wf .rv32 = false ∧ (Instr.ld 5 6 0).wf .rv32 = false := by decide
theorem test_illFormed_oddOffset : (Instr.jal 1 3).wf .rv64 = false ∧ (Instr.beq 1 2 5).wf .rv64 = false := by decide
theorem test_illFormed_shamt : (Instr.slli 5 6 32).wf .rv32 = false ∧ (Instr.srai 5 6 63).wf .rv32 = false := by decide
theorem test_wellFormed : (Instr.slli 5 6 32).wf .rv64 = true ∧ (Instr.jal 1 (BitVec.ofInt 21 (-4))).wf .rv32 = true := by
  decide

/-! ## Decoding: one word per constructor (words of 95_test_vectors.md), and words field by field -/

theorem test_decode_control :
    decode .rv32 0xFFFFF2B7 = .ok (.lui 5 0xFFFFF) ∧ decode .rv32 0x00001297 = .ok (.auipc 5 1) ∧
    decode .rv32 0xFFDFF06F = .ok (.jal 0 (BitVec.ofInt 21 (-4))) ∧
    decode .rv32 0xFFC08067 = .ok (.jalr 0 1 (BitVec.ofInt 12 (-4))) ∧
    decode .rv32 0x00730863 = .ok (.beq 6 7 16) ∧ decode .rv32 0xFE731CE3 = .ok (.bne 6 7 (BitVec.ofInt 13 (-8))) ∧
    decode .rv32 0x00734463 = .ok (.blt 6 7 8) ∧ decode .rv32 0x00735463 = .ok (.bge 6 7 8) ∧
    decode .rv32 0x00736463 = .ok (.bltu 6 7 8) ∧ decode .rv32 0x00737463 = .ok (.bgeu 6 7 8) := by decide
theorem test_decode_memory :
    decode .rv64 0x00030283 = .ok (.lb 5 6 0) ∧ decode .rv64 0x00131283 = .ok (.lh 5 6 1) ∧
    decode .rv64 0xFFC32283 = .ok (.lw 5 6 (BitVec.ofInt 12 (-4))) ∧ decode .rv64 0x00034283 = .ok (.lbu 5 6 0) ∧
    decode .rv64 0x00135283 = .ok (.lhu 5 6 1) ∧ decode .rv64 0x00036283 = .ok (.lwu 5 6 0) ∧
    decode .rv64 0x00033283 = .ok (.ld 5 6 0) ∧ decode .rv64 0x00730023 = .ok (.sb 6 7 0) ∧
    decode .rv64 0x007310A3 = .ok (.sh 6 7 1) ∧ decode .rv64 0x00732023 = .ok (.sw 6 7 0) ∧
    decode .rv64 0x00733023 = .ok (.sd 6 7 0) := by decide
theorem test_decode_immediate :
    decode .rv32 0xFFF30293 = .ok (.addi 5 6 (BitVec.ofInt 12 (-1))) ∧
    decode .rv32 0xFFF32293 = .ok (.slti 5 6 (BitVec.ofInt 12 (-1))) ∧
    decode .rv32 0xFFF33293 = .ok (.sltiu 5 6 (BitVec.ofInt 12 (-1))) ∧
    decode .rv32 0xFFF34293 = .ok (.xori 5 6 (BitVec.ofInt 12 (-1))) ∧ decode .rv32 0x70036293 = .ok (.ori 5 6 0x700) ∧
    decode .rv32 0xF0037293 = .ok (.andi 5 6 (BitVec.ofInt 12 (-256))) ∧ decode .rv32 0x01F31293 = .ok (.slli 5 6 31) ∧
    decode .rv64 0x03F35293 = .ok (.srli 5 6 63) ∧ decode .rv64 0x43F35293 = .ok (.srai 5 6 63) := by decide
theorem test_decode_register :
    decode .rv32 0x007302B3 = .ok (.add 5 6 7) ∧ decode .rv32 0x407302B3 = .ok (.sub 5 6 7) ∧
    decode .rv32 0x007312B3 = .ok (.sll 5 6 7) ∧ decode .rv32 0x007322B3 = .ok (.slt 5 6 7) ∧
    decode .rv32 0x007332B3 = .ok (.sltu 5 6 7) ∧ decode .rv32 0x007342B3 = .ok (.xor 5 6 7) ∧
    decode .rv32 0x007352B3 = .ok (.srl 5 6 7) ∧ decode .rv32 0x407352B3 = .ok (.sra 5 6 7) ∧
    decode .rv32 0x007362B3 = .ok (.or 5 6 7) ∧ decode .rv32 0x007372B3 = .ok (.and 5 6 7) := by decide
theorem test_decode_word :
    decode .rv64 0x0013029B = .ok (.addiw 5 6 1) ∧ decode .rv64 0x01F3129B = .ok (.slliw 5 6 31) ∧
    decode .rv64 0x0013529B = .ok (.srliw 5 6 1) ∧ decode .rv64 0x4013529B = .ok (.sraiw 5 6 1) ∧
    decode .rv64 0x007302BB = .ok (.addw 5 6 7) ∧ decode .rv64 0x407302BB = .ok (.subw 5 6 7) ∧
    decode .rv64 0x007312BB = .ok (.sllw 5 6 7) ∧ decode .rv64 0x007352BB = .ok (.srlw 5 6 7) ∧
    decode .rv64 0x407352BB = .ok (.sraw 5 6 7) := by decide
theorem test_decode_system :
    decode .rv32 0x8330000F = .ok (.fence 8 3 3 0 0) ∧ decode .rv32 0x00000073 = .ok .ecall ∧
    decode .rv32 0x00100073 = .ok .ebreak ∧ decode .rv32 0x7C3312F3 = .ok (.csrrw 5 6 0x7C3) ∧
    decode .rv32 0xC00322F3 = .ok (.csrrs 5 6 0xC00) ∧ decode .rv32 0x7C333073 = .ok (.csrrc 0 6 0x7C3) ∧
    decode .rv32 0x340AD2F3 = .ok (.csrrwi 5 21 0x340) ∧ decode .rv32 0x7C30E073 = .ok (.csrrsi 0 1 0x7C3) ∧
    decode .rv32 0x7C30F2F3 = .ok (.csrrci 5 1 0x7C3) := by decide
/-- Words field by field from 30_encoding.md R132, R133 and R151, one per family. -/
theorem test_decode_fields :
    decode .rv32 (0b0000000#7 ++ 0b00011#5 ++ 0b00010#5 ++ 0b000#3 ++ 0b00001#5 ++ 0b0110011#7) = .ok (.add 1 2 3) ∧
    decode .rv32 (0b000000000100#12 ++ 0b00010#5 ++ 0b010#3 ++ 0b00001#5 ++ 0b0000011#7) = .ok (.lw 1 2 4) ∧
    decode .rv32 (0b0000001#7 ++ 0b00011#5 ++ 0b00010#5 ++ 0b001#3 ++ 0b00100#5 ++ 0b0100011#7) = .ok (.sh 2 3 36) ∧
    decode .rv32 (0b0#1 ++ 0b000001#6 ++ 0b00011#5 ++ 0b00010#5 ++ 0b001#3 ++ 0b0010#4 ++ 0b1#1 ++ 0b1100011#7) =
      .ok (.bne 2 3 (2048 + 32 + 4)) ∧
    decode .rv32 (0b1#1 ++ 0b0000000010#10 ++ 0b1#1 ++ 0b00000001#8 ++ 0b00001#5 ++ 0b1101111#7) =
      .ok (.jal 1 (BitVec.ofInt 21 (-1048576 + 4096 + 2048 + 4))) ∧
    decode .rv32 (0b00000000000000000001#20 ++ 0b00101#5 ++ 0b0010111#7) = .ok (.auipc 5 1) ∧
    decode .rv64 (0b010000#6 ++ 0b100001#6 ++ 0b00010#5 ++ 0b101#3 ++ 0b00001#5 ++ 0b0010011#7) = .ok (.srai 1 2 33) ∧
    decode .rv64 (0b0100000#7 ++ 0b00011#5 ++ 0b00010#5 ++ 0b101#3 ++ 0b00001#5 ++ 0b0111011#7) = .ok (.sraw 1 2 3) ∧
    decode .rv32 (0x7C3#12 ++ 0b00010#5 ++ 0b011#3 ++ 0b00001#5 ++ 0b1110011#7) = .ok (.csrrc 1 2 0x7C3) := by decide
/-- The words the vectors give as illegal at XLEN = 32, and at both widths. -/
theorem test_illegal_words32 :
    [0x02031293, 0x0003029B, 0x027302B3, 0x00033283, 0x00036283, 0x00733023].all
      (fun w => decode .rv32 w == .error (.illegalInstruction w)) = true := by decide
theorem test_illegal_words :
    [0x0203129B, 0x000310E7, 0x00732463, 0x0000100F, 0x30200073, 0x10500073, 0x10200073, 0x00004073, 0, 0xFFFFFFFF, 1].all
      (fun w => decode .rv32 w == .error (.illegalInstruction w) && decode .rv64 w == .error (.illegalInstruction w)) =
    true := by decide
/-- The bytes of a word in memory, and what is left after them. -/
theorem test_decodeBytes :
    decodeBytes .rv32 [0x93, 0x02, 0xF3, 0xFF, 0x55] = .ok (.addi 5 6 (BitVec.ofInt 12 (-1)), [0x55]) ∧
    decodeBytes .rv32 [0x93, 0x02, 0xF3] = .error (.truncated 3) := by decide
/-- The host's two entries: a table row's word is decoded, and runs as the first instruction after reset. -/
theorem test_host_words : decodeTableWord 32 0x00000037 = some (.lui 0 0) ∧ decodeTableWord 32 0x3B = some (.addw 0 0 0) := by
  decide
theorem test_host_step : regAfter 5 (State.reset.withFetchWord 32 0x123452B7) = some (0x12345000, 4) := by decide

/-! ## Single steps -/

/-! ### One-step vectors: integer computational (95_test_vectors.md section 2.2) -/

theorem test_lui : regAfter 5 (start .rv32 [] 0xFFFFF2B7) = some (0xfffff000, 0x1004) := by decide
theorem test_lui_2 : regAfter 5 (start .rv64 [] 0x800002B7) = some (0xffffffff80000000, 0x1004) := by decide
theorem test_auipc : regAfter 5 (start .rv32 [] 0x00001297) = some (0x2000, 0x1004) := by decide
theorem test_auipc_2 : regAfter 5 (start .rv32 [] 0xFFFFF297) = some (0x0, 0x1004) := by decide
theorem test_addi : regAfter 5 (start .rv32 [(6, 0x0)] 0xFFF30293) = some (0xffffffff, 0x1004) := by decide
theorem test_addi_2 : regAfter 5 (start .rv32 [(6, 0x7fffffff)] 0x7FF30293) = some (0x800007fe, 0x1004) := by decide
theorem test_slti : regAfter 5 (start .rv32 [(6, 0xfffffffe)] 0xFFF32293) = some (0x1, 0x1004) := by decide
theorem test_slti_2 : regAfter 5 (start .rv32 [(6, 0x1)] 0x00032293) = some (0x0, 0x1004) := by decide
theorem test_sltiu : regAfter 5 (start .rv32 [(6, 0xfffffffe)] 0xFFF33293) = some (0x1, 0x1004) := by decide
theorem test_sltiu_2 : regAfter 5 (start .rv32 [] 0x00103293) = some (0x1, 0x1004) := by decide
theorem test_xori : regAfter 5 (start .rv32 [(6, 0xf0f0f0f)] 0xFFF34293) = some (0xf0f0f0f0, 0x1004) := by decide
theorem test_ori : regAfter 5 (start .rv32 [(6, 0xf)] 0x70036293) = some (0x70f, 0x1004) := by decide
theorem test_andi : regAfter 5 (start .rv32 [(6, 0x12345678)] 0xF0037293) = some (0x12345600, 0x1004) := by decide
theorem test_slli : regAfter 5 (start .rv32 [(6, 0x3)] 0x01F31293) = some (0x80000000, 0x1004) := by decide
theorem test_slli_2 : regAfter 5 (start .rv32 [(6, 0xdeadbeef)] 0x00031293) = some (0xdeadbeef, 0x1004) := by decide
theorem test_srli : regAfter 5 (start .rv32 [(6, 0x80000000)] 0x01F35293) = some (0x1, 0x1004) := by decide
theorem test_srai : regAfter 5 (start .rv32 [(6, 0x80000000)] 0x41F35293) = some (0xffffffff, 0x1004) := by decide
theorem test_srai_2 : regAfter 5 (start .rv32 [(6, 0x7ffffff0)] 0x40435293) = some (0x7ffffff, 0x1004) := by decide
theorem test_srli_2 : regAfter 5 (start .rv64 [(6, 0x8000000000000000)] 0x03F35293) = some (0x1, 0x1004) := by decide
theorem test_add :
    regAfter 5 (start .rv32 [(6, 0x7fffffff), (7, 0x1)] 0x007302B3) = some (0x80000000, 0x1004) := by decide
theorem test_add_2 :
    regAfter 5 (start .rv64 [(6, 0x7fffffffffffffff), (7, 0x1)] 0x007302B3) = some (0x8000000000000000, 0x1004) := by decide
theorem test_sub : regAfter 5 (start .rv32 [(6, 0x0), (7, 0x1)] 0x407302B3) = some (0xffffffff, 0x1004) := by decide
theorem test_sub_2 :
    regAfter 5 (start .rv32 [(6, 0x80000000), (7, 0x1)] 0x407302B3) = some (0x7fffffff, 0x1004) := by decide
theorem test_sll : regAfter 5 (start .rv32 [(6, 0x1), (7, 0x21)] 0x007312B3) = some (0x2, 0x1004) := by decide
theorem test_sll_2 :
    regAfter 5 (start .rv64 [(6, 0x1), (7, 0x21)] 0x007312B3) = some (0x200000000, 0x1004) := by decide
theorem test_slt : regAfter 5 (start .rv32 [(6, 0xffffffff), (7, 0x1)] 0x007322B3) = some (0x1, 0x1004) := by decide
theorem test_sltu : regAfter 5 (start .rv32 [(6, 0xffffffff), (7, 0x1)] 0x007332B3) = some (0x0, 0x1004) := by decide
theorem test_sltu_2 : regAfter 5 (start .rv32 [(7, 0x9)] 0x007032B3) = some (0x1, 0x1004) := by decide
theorem test_xor :
    regAfter 5 (start .rv32 [(6, 0xff00ff00), (7, 0xff00ff0)] 0x007342B3) = some (0xf0f0f0f0, 0x1004) := by decide
theorem test_srl :
    regAfter 5 (start .rv32 [(6, 0x80000000), (7, 0xffffffff)] 0x007352B3) = some (0x1, 0x1004) := by decide
theorem test_sra :
    regAfter 5 (start .rv32 [(6, 0x80000000), (7, 0xffffffff)] 0x407352B3) = some (0xffffffff, 0x1004) := by decide
theorem test_or : regAfter 5 (start .rv32 [(6, 0xf0), (7, 0xf)] 0x007362B3) = some (0xff, 0x1004) := by decide
theorem test_and : regAfter 5 (start .rv32 [(6, 0xff), (7, 0x3c)] 0x007372B3) = some (0x3c, 0x1004) := by decide
theorem test_addiw :
    regAfter 5 (start .rv64 [(6, 0x180000000)] 0x0003029B) = some (0xffffffff80000000, 0x1004) := by decide
theorem test_addiw_2 :
    regAfter 5 (start .rv64 [(6, 0x7fffffff)] 0x0013029B) = some (0xffffffff80000000, 0x1004) := by decide
theorem test_slliw : regAfter 5 (start .rv64 [(6, 0x1)] 0x01F3129B) = some (0xffffffff80000000, 0x1004) := by decide
theorem test_srliw :
    regAfter 5 (start .rv64 [(6, 0xffffffff80000000)] 0x0013529B) = some (0x40000000, 0x1004) := by decide
theorem test_sraiw :
    regAfter 5 (start .rv64 [(6, 0x80000000)] 0x4013529B) = some (0xffffffffc0000000, 0x1004) := by decide
theorem test_addw :
    regAfter 5 (start .rv64 [(6, 0x7fffffff), (7, 0x1)] 0x007302BB) = some (0xffffffff80000000, 0x1004) := by decide
theorem test_subw :
    regAfter 5 (start .rv64 [(6, 0x100000000), (7, 0x1)] 0x407302BB) = some (0xffffffffffffffff, 0x1004) := by decide
theorem test_sllw :
    regAfter 5 (start .rv64 [(6, 0x1), (7, 0x3f)] 0x007312BB) = some (0xffffffff80000000, 0x1004) := by decide
theorem test_srlw :
    regAfter 5 (start .rv64 [(6, 0xabcdef0080000000), (7, 0x4)] 0x007352BB) = some (0x8000000, 0x1004) := by decide
theorem test_sraw :
    regAfter 5 (start .rv64 [(6, 0x80000000), (7, 0x24)] 0x407352BB) = some (0xfffffffff8000000, 0x1004) := by decide

/-! ### One-step vectors: control transfer (section 2.3) -/

theorem test_jal : regAfter 1 (start .rv32 [] 0x008000EF) = some (0x1004, 0x1008) := by decide
theorem test_jal_2 : regAfter 0 (startAt 0x1010 .rv32 [] 0xFFDFF06F) = some (0, 0x100c) := by decide
theorem test_jalr : regAfter 1 (start .rv32 [(6, 0x2003)] 0x001300E7) = some (0x1004, 0x2004) := by decide
theorem test_jalr_2 : trapAfter (start .rv32 [(6, 0x2001)] 0x001300E7) = some (5, 0x2002, 0x1000) := by decide
theorem test_beq : regAfter 0 (start .rv32 [(6, 0x5), (7, 0x5)] 0x00730863) = some (0, 0x1010) := by decide
theorem test_beq_2 : regAfter 0 (start .rv32 [(6, 0x5), (7, 0x6)] 0x00730863) = some (0, 0x1004) := by decide
theorem test_bne : regAfter 0 (startAt 0x1010 .rv32 [(6, 0x5), (7, 0x6)] 0xFE731CE3) = some (0, 0x1008) := by decide
theorem test_blt : regAfter 0 (start .rv32 [(6, 0xffffffff), (7, 0x1)] 0x00734463) = some (0, 0x1008) := by decide
theorem test_bltu : regAfter 0 (start .rv32 [(6, 0xffffffff), (7, 0x1)] 0x00736463) = some (0, 0x1004) := by decide
theorem test_bge : regAfter 0 (start .rv32 [(6, 0x3), (7, 0x3)] 0x00735463) = some (0, 0x1008) := by decide
theorem test_bgeu : regAfter 0 (start .rv32 [(6, 0x0), (7, 0x1)] 0x00737463) = some (0, 0x1004) := by decide
theorem test_bne_2 : regAfter 0 (start .rv32 [] 0x00001363) = some (0, 0x1004) := by decide

/-! ### One-step vectors: loads and stores (section 2.4) -/

theorem test_lb :
    regAfter 5 (withData (start .rv32 [(6, 0x2000)] 0x00030283)) = some (0xffffff80, 0x1004) := by decide
theorem test_lbu : regAfter 5 (withData (start .rv32 [(6, 0x2000)] 0x00034283)) = some (0x80, 0x1004) := by decide
theorem test_lh :
    regAfter 5 (withData (start .rv32 [(6, 0x2000)] 0x00131283)) = some (0xffff8281, 0x1004) := by decide
theorem test_lhu : regAfter 5 (withData (start .rv32 [(6, 0x2000)] 0x00135283)) = some (0x8281, 0x1004) := by decide
theorem test_lw :
    regAfter 5 (withData (start .rv32 [(6, 0x2004)] 0xFFC32283)) = some (0x83828180, 0x1004) := by decide
theorem test_lw_2 :
    regAfter 5 (withData (start .rv64 [(6, 0x2000)] 0x00032283)) = some (0xffffffff83828180, 0x1004) := by decide
theorem test_lwu :
    regAfter 5 (withData (start .rv64 [(6, 0x2000)] 0x00036283)) = some (0x83828180, 0x1004) := by decide
theorem test_ld :
    regAfter 5 (withData (start .rv64 [(6, 0x2000)] 0x00033283)) = some (0xf706050483828180, 0x1004) := by decide
theorem test_sb :
    bytesAfter 0x2010 1 (start .rv32 [(6, 0x2010), (7, 0x12345678)] 0x00730023) = some [0x78] := by decide
theorem test_sh :
    bytesAfter 0x2011 2 (start .rv32 [(6, 0x2010), (7, 0x12345678)] 0x007310A3) = some [0x78, 0x56] := by decide
theorem test_sw :
    bytesAfter 0x2010 4 (start .rv32 [(6, 0x2010), (7, 0x12345678)] 0x00732023) = some [0x78, 0x56, 0x34, 0x12] := by decide
theorem test_sd :
    bytesAfter 0x2010 8 (start .rv64 [(6, 0x2010), (7, 0x1122334455667788)] 0x00733023) = some [0x88, 0x77, 0x66, 0x55, 0x44, 0x33, 0x22, 0x11] := by decide
theorem test_sw_2 :
    bytesAfter 0x2010 4 (start .rv64 [(6, 0x2010), (7, 0x1122334455667788)] 0x00732023) = some [0x88, 0x77, 0x66, 0x55] := by decide

/-! ### One-step vectors: system and CSR (section 2.5) -/

theorem test_fence : regAfter 0 (start .rv32 [] 0x0FF0000F) = some (0, 0x1004) := by decide
theorem test_ecall : trapAfter (start .rv32 [(17, 0x3), (10, 0x9)] 0x00000073) = some (8, 0x0, 0x1000) := by decide
theorem test_ebreak : trapAfter (start .rv32 [] 0x00100073) = some (9, 0x1000, 0x1000) := by decide
theorem test_csrrw : csrAfter 0x7c3 0 (start .rv32 [(6, 0x1041)] 0x7C3312F3) = some (0x1041, 0) := by decide
theorem test_csrrw_2 :
    csrAfter 0x340 5 ((start .rv32 [(5, 0xaaaa)] 0x340292F3).writeCsr 0x340 0x5555) = some (0xaaaa, 0x5555) := by decide
theorem test_csrrs : regAfter 5 ((start .rv32 [] 0x7C0022F3).writeCsr 0x7c0 0x2) = some (0x2, 0x1004) := by decide
theorem test_csrrs_2 :
    csrAfter 0xc00 5 ((start .rv32 [(6, 0xf0)] 0xC00322F3).writeCsr 0xc00 0xf) = some (0xff, 0xf) := by decide
theorem test_csrrc :
    csrAfter 0x7c3 0 ((start .rv32 [(6, 0x1)] 0x7C333073).writeCsr 0x7c3 0x1041) = some (0x1040, 0) := by decide
theorem test_csrrwi :
    csrAfter 0x340 5 ((start .rv32 [] 0x340AD2F3).writeCsr 0x340 0x7) = some (0x15, 0x7) := by decide
theorem test_csrrsi :
    csrAfter 0x7c3 0 ((start .rv32 [] 0x7C30E073).writeCsr 0x7c3 0x1040) = some (0x1041, 0) := by decide
theorem test_csrrci :
    csrAfter 0x7c3 5 ((start .rv32 [] 0x7C30F2F3).writeCsr 0x7c3 0x1041) = some (0x1040, 0x1041) := by decide

/-! ### Instructions that trap, and refused fetches (sections 2.2 to 2.5) -/

theorem test_trap_illegal : trapAfter (start .rv32 [(6, 1)] 0x02031293) = some (4, 0x2031293, 0x1000) := by decide
theorem test_trap_store : trapAfter (start .rv32 [(6, 0x20fe), (7, 1)] 0x00732023) = some (2, 0x20fe, 0x1000) := by decide
theorem test_trap_stale :
    trapAfter ((start .rv32 [(6, 0x2000)] 0x00032283).setRegion 1 ⟨true, 0x2000, 0x100, 3, 1, 1⟩) = some (3, 0x2000, 0x1000) := by
  decide
theorem test_trap_fetch_stale :
    trapAfter ((start .rv32 [] 0x13).setRegion 0 ⟨true, 0x1000, 0x100, 5, 1, 1⟩) = some (3, 0x1000, 0x1000) := by decide
theorem test_trap_fetch_noExec : trapAfter ((start .rv32 [] 0x13).setPc 0x2000) = some (1, 0x2000, 0x2000) := by decide

/-! ### AddressSpace operations (section 2.6) -/

/-- A1: W with X, and any permission for the pool, are refused. -/
theorem test_map_permissions :
    answerTo (.map 1 0x2000 0x1000 7) State.reset = some (.error .invalidPermissions) ∧
    answerTo (.map 0 0x2000 0x1000 1) State.reset = some (.error .invalidPermissions) := by decide
/-- A2: an empty range, and one past the last byte of the store. -/
theorem test_map_range :
    answerTo (.map 1 0x2000 0 1) State.reset = some (.error .outOfRange) ∧
    answerTo (.map 1 0xFFFFF 2 1) State.reset = some (.error .outOfRange) ∧
    answerTo (.map 1 0xFFFFF 1 1) State.reset = some (.handle ⟨0, 1, 0⟩) := by decide
/-- A3: an overlap by one byte. -/
theorem test_map_overlap :
    answerTo (.map 1 0x20FF 0x10 1) (start .rv32 [] 0) = some (.error .noSpace) ∧
    answerTo (.map 2 0x2100 0x10 1) (start .rv32 [] 0) = some (.handle ⟨2, 1, 0⟩) := by decide
/-- A4: the four outcomes of READ. -/
theorem test_read_checks :
    answerTo (.read ⟨1, 3, 0⟩ 0x2000 2) (withData (start .rv32 [] 0)) = some (.bytes [0x80, 0x81]) ∧
    answerTo (.read ⟨1, 3, 0⟩ 0x20FE 4) (start .rv32 [] 0) = some (.error .outOfRange) ∧
    answerTo (.read ⟨1, 3, 1⟩ 0x2000 1) (start .rv32 [] 0) = some (.error .stale) ∧
    answerTo (.read ⟨1, 2, 0⟩ 0x2000 1) (start .rv32 [] 0) = some (.error .denied) ∧
    answerTo (.read ⟨16, 7, 0⟩ 0 1) (start .rv32 [] 0) = some (.error .stale) ∧
    answerTo (.read ⟨1, 3, 0⟩ 0x2100 0) (start .rv32 [] 0) = some (.bytes []) ∧
    answerTo (.read ⟨1, 3, 0⟩ 0x2101 0) (start .rv32 [] 0) = some (.error .outOfRange) := by decide
/-- A7: UNMAP clears the descriptor, bumps the generation and zeroes the bytes. -/
theorem test_unmap :
    (doing (.driver (.unmap ⟨1, 3, 0⟩)) (withData (start .rv32 [] 0))).map
      (fun t => (t.region 1, bytesAt t.mem 0x2000 8)) = some (⟨false, 0, 0, 0, 0, 1⟩, List.replicate 8 0) := by decide
/-- A9: REVOKE at the last generation retires the slot. -/
theorem test_revoke_retires :
    (doing (.driver (.revoke ⟨1, 3, genMax⟩)) ((withData (start .rv32 [] 0)).setRegion 1 ⟨true, 0x2000, 0x100, 3, 1, genMax⟩)).map
      (fun t => (t.region 1, t.byte 0x2000, t.reply)) = some (⟨false, 0, 0, 0, 0, genMax⟩, 0, .retired) := by decide

/-- A MAP that answers a handle, and the READ through it: the handle is given by then. -/
def mapThenRead (h : PortHandle) : State :=
  { State.reset with env := [.driver (.map 1 0x2000 0x10 1), .driver (.read h 0x2000 2)] }

/-- R457: a handle value that no command returned is no move, one that MAP returned reads. -/
theorem test_given :
    (after (mapThenRead ⟨0, 1, 0⟩) >>= after).map (fun t => (t.given, t.reply)) = some ([⟨0, 1, 0⟩], .bytes [0, 0]) ∧
    (after (mapThenRead ⟨0, 3, 0⟩) >>= after).map (·.reply) = some (.handle ⟨0, 1, 0⟩) := by decide

/-! ### The top of the CPU's reach (20_memory.md R98) -/

/-- A store of 2^33 bytes, x6 at `a`, a program at 0x1000 and a Region across 2^32. -/
def atTop (x : Xlen) (a : Word) : State :=
  { start x [(6, a)] 0x00032283 with
    par := { Params.defaults x with memSize := 2 ^ 33 }
    regions := [(0, ⟨true, 0x1000, 0x100, 5, 1, 0⟩), (1, ⟨true, 0xFFFFF000, 0x2000, 3, 1, 0⟩)] }

/-- At XLEN = 32 a load whose last byte lies past 2^32 - 1 is out of range; at XLEN = 64 it reads. -/
theorem test_reach :
    trapAfter (atTop .rv32 0xFFFFFFFD) = some (2, 0xFFFFFFFD, 0x1000) ∧
    regAfter 5 (atTop .rv32 0xFFFFFFFC) = some (0, 0x1004) ∧
    regAfter 5 (atTop .rv64 0xFFFFFFFE) = some (0, 0x1004) := by decide

/-! ### Rings (section 2.7) -/

/-- G1: the third frame does not fit in two slots. -/
theorem test_ring_full : tryPublish 2 ⟨2, 0, [(1, 1)]⟩ 2 = none := by decide
/-- G4: the counters wrap modulo 2^32. -/
theorem test_ring_wrap : tryPublish 8 ⟨0xFFFFFFFF, 0xFFFFFFFF, []⟩ 1 = some ⟨0, 0xFFFFFFFF, [(7, 1)]⟩ := by decide
/-- G5: the bytes of a frame, the last byte first. -/
theorem test_frame_bytes : Frame.toBits ⟨5, 1, 0x0102, 8, 0x2040, 1⟩ =
    0x01_0000000000002040_00000008_0102_0001_00000005 := by decide
/-- G6: the padding is ignored. -/
theorem test_frame_parse : frameOf 0xAAAAAAAAAAAAAAAAAAAAAA_03_1122334455667788_00000010_0009_0001_0000002A =
    ⟨42, 1, 9, 16, 0x1122334455667788, 3⟩ := by decide

/-! ### Transitions of the dispatcher (section 2.8) -/

/-- The common start after a trap of kind `k` with value 0x2000 at 0x1000. -/
def trapped (k : Kind) (s : State) : State := trapEntry k 0x2000 s

/-- The state to classify a syscall `n` with entry `e` and arguments `a0`, `a1`. -/
def calling (x : Xlen) (n : Word) (e : SvcEntry) (a0 a1 : Word) : State :=
  trapEntry .syscall 0 ((start x [(17, n), (10, a0), (11, a1)] 0x73).setSvc n.toNat e)

/-- The common start with a pool Region in slot 2. -/
def withPool (s : State) : State := s.setRegion 2 ⟨true, 0x8000, 0x1000, 0, 0, 0⟩

/-- P3: a fault goes to the armed handler, which is disarmed. -/
theorem test_deliver_handler :
    (after ((trapped .memoryViolation (start .rv32 [] 0)).writeCsr csrThandler 0x1041)).map
      (fun t => (t.pcVal, t.readCsr csrTcause, t.readCsr csrTval, t.readCsr csrTepc, t.readCsr csrThandler, t.coreState)) =
    some (0x1040, 2, 0x2000, 0x1000, 0x1040, .fetching) := by decide
/-- T1: an unregistered syscall with no handler terminates. -/
theorem test_deliver_terminates :
    (after (calling .rv32 5 SvcEntry.absent 0 0)).map (fun t => (t.coreState, t.readCsr csrTcause, t.readCsr csrTval, t.notes)) =
    some (.terminated, 4, 0x73, [⟨.trap, .syscall, 0, 0x1000, 5⟩, ⟨.terminate, .illegalInstruction, 0x73, 0x1000, 0⟩]) := by
  decide
/-- P1: EXIT. -/
theorem test_exit :
    (after (calling .rv32 0 ⟨.localCall, 0, .exit, .alloc⟩ 0x37 0)).map (fun t => (t.coreState, t.pcVal, t.notes)) =
    some (.halted, 0x1000, [⟨.trap, .syscall, 0, 0x1000, 0⟩, ⟨.halt, .syscall, 0x37, 0x1000, 0⟩]) := by decide
/-- T3: LOCAL REVOKE. -/
theorem test_local_revoke :
    (after (calling .rv32 2 ⟨.localCall, 0, .revoke, .alloc⟩ 1 0)).map (fun t => (t.cap 1, (t.region 1).gen, t.readReg 10, t.pcVal)) =
    some (⟨true, 3, 1⟩, 1, 0, 0x1004) := by decide
/-- T4: LOCAL PROTECT to W with X is a fault with the permission as its value. -/
theorem test_local_protect_fault :
    (after (calling .rv32 1 ⟨.localCall, 0, .protect, .alloc⟩ 1 6)).map (fun t => (t.readCsr csrTcause, t.readCsr csrTval, t.cap 1)) =
    some (6, 6, ⟨true, 3, 0⟩) := by decide
/-- P5: a blocking request is published. -/
theorem test_blocking :
    (after (calling .rv32 2 ⟨.blocking, 9, .exit, .alloc⟩ 0x2000 4)).map
      (fun t => (t.tdState, t.tdOut, t.tdDeadline, t.req.head, frameOf (t.req.slot 0))) =
    some (.waitResponse, ⟨true, 0, 9⟩, 1000, 1, ⟨0, 0, 9, 4, 0x2000, 0⟩) := by decide
/-- T8: no pool Region to allocate from. -/
theorem test_no_resource :
    (after (calling .rv32 3 ⟨.speculative, 7, .exit, .alloc⟩ 0x100 0)).map (fun t => (t.readReg 10, t.readReg 11, t.pcVal)) =
    some (0xFFFFFFFF, 0xFE, 0x1004) := by decide

/-- A call of class PROV_EXT. -/
def extending : State := calling .rv32 3 ⟨.speculative, 7, .exit, .ext⟩ 0x2000 4

/-- 46_speclog_ops.md R372: the default ProvExt returns None, so the call is handled as BLOCKING. -/
theorem test_provExt_default :
    (after extending).map (fun t => (t.tdState, t.tdOut, frameOf (t.req.slot 0))) =
    some (.waitResponse, ⟨true, 0, 7⟩, ⟨0, 0, 7, 4, 0x2000, 0⟩) := by decide

/-- The same call where `ProvExt` copies two cached bytes into Region 1 and returns their number (R372's example). -/
def provided (eff : Effect) : State :=
  { extending with par := { extending.par with provExt := [(extending.provInput ⟨.speculative, 7, .exit, .ext⟩, eff)] } }

/-- The effect is applied, the request published and the core resumed; one that gives W with X counts as None. -/
theorem test_provExt :
    (after (provided ⟨[⟨1, 3, 1, [(0x2000, 7), (0x2001, 8)], ⟨true, 3, 0⟩⟩], 2, 0, 0x2000, 2⟩)).map
      (fun t => (t.log.state, bytesAt t.mem 0x2000 3, t.readReg 10, t.pcVal, frameOf (t.req.slot 0))) =
      some (.pending, [7, 8, 0], 2, 0x1004, ⟨0, 0, 7, 2, 0x2000, 0⟩) ∧
    (after (provided ⟨[⟨1, 6, 1, [], ⟨true, 3, 0⟩⟩], 2, 0, 0x2000, 2⟩)).map (·.tdState) = some .waitResponse := by decide

/-- P4: a pending allocation of the pool Region in slot 2. -/
def pending (x : Xlen) : State :=
  match step (withPool (calling x 3 ⟨.speculative, 7, .exit, .alloc⟩ 0x100 0)) with
  | .next t => t
  | .fault _ | .refused _ => State.reset

theorem test_speculative :
    (pending .rv32).log.state = .pending ∧ (pending .rv32).region 2 = ⟨true, 0x8000, 0x1000, 3, 1, 0⟩ ∧
    (pending .rv32).cap 2 = ⟨true, 3, 0⟩ ∧ (pending .rv32).readReg 10 = 0x8000 ∧ (pending .rv32).readReg 11 = 2 ∧
    frameOf ((pending .rv32).req.slot 0) = ⟨0, 0, 7, 0x100, 0x8000, 0⟩ ∧ (pending .rv32).log.deadline = 1000 := by decide

/-- The state with one response queued. -/
def answered (s : State) (f : Frame) : State := { s with rsp := ⟨1, 0, [(0, f.toBits)]⟩ }

/-- P4 DENY: the rollback, its fault delivered to no handler. -/
theorem test_denied :
    (after (answered ((pending .rv32).setMem (putByte (pending .rv32).mem 0x8000 0x5A)) ⟨0, 1, 7, 0, 0, 2⟩)).map
      (fun t => (t.region 2, t.byte 0x8000, t.logLast, t.readReg 10, t.readCsr csrTcause, t.readCsr csrTval)) =
    some (⟨true, 0x8000, 0x1000, 0, 0, 1⟩, 0, ⟨0, .rolledBack, 2⟩, 0x100, 7, 2) := by decide
/-- T10: a fault with no handler armed while the entry is pending. -/
theorem test_fault_while_pending :
    (after (trapped .memoryViolation ((pending .rv32).setMem (putByte (pending .rv32).mem 0x8000 3)))).map
      (fun t => (t.coreState, t.readReg 10, t.region 2, t.byte 0x8000, t.logLast)) =
    some (.terminated, 0x8000, ⟨true, 0x8000, 0x1000, 0, 0, 1⟩, 0, ⟨0, .rolledBack, 0xFD⟩) := by decide
/-- P4 APPROVE. -/
theorem test_approved :
    (after (answered (pending .rv32) ⟨0, 1, 7, 0, 0, 1⟩)).map (fun t => (t.log.state, t.logLast, t.region 2)) =
    some (.empty, ⟨0, .committed, 0⟩, ⟨true, 0x8000, 0x1000, 3, 1, 0⟩) := by decide
/-- T11: a response of another service is consumed and discarded. -/
theorem test_discarded :
    (after (answered (pending .rv32) ⟨0, 1, 6, 0, 0, 2⟩)).map (fun t => (t.log.state, t.rsp.tail)) = some (.pending, 1) := by
  decide

/-! ## Witnesses: states and operands that meet the hypotheses of each statement, clause by clause -/

/-! ### Encoding -/

theorem witness_DecodeAfterEncode :
    (Instr.jal 1 (BitVec.ofInt 21 (-1048576))).wf .rv32 = true ∧ (Instr.bgeu 1 2 4094).wf .rv64 = true ∧
    (Instr.slli 5 6 31).wf .rv32 = true ∧ (Instr.slli 5 6 63).wf .rv64 = true ∧ (Instr.sd 5 6 2047).wf .rv64 = true := by
  decide
theorem witness_EncodeAfterDecode : decode .rv32 0x8330000F = .ok (.fence 8 3 3 0 0) := by decide
theorem witness_DecodingSelectsTheOneRow_selected : ∃ r ∈ opRows, r.selects .rv32 0x13 = true := by decide
theorem witness_DecodingSelectsTheOneRow_none : ∀ r ∈ opRows, r.selects .rv32 0 = false := by decide
theorem witness_ListedWordsAreIllegal :
    (0xFFFFFFFE : BitVec 32).toNat % 4 ≠ 3 ∧ (0x1F : BitVec 32).toNat / 4 % 8 = 7 ∧ opcodeOf 0x7 = 0b0000111 ∧
    opcodeOf 0x7B = 0b1111011 ∧ opcodeOf 0x77 = 0b1110111 ∧
    (opcodeOf 0x02000033 = 0b0110011 ∧ funct7Of 0x02000033 ≠ 0 ∧
      ¬(funct7Of 0x02000033 = 0b0100000 ∧ funct3Of 0x02000033 ∈ [0, 5])) ∧
    (opcodeOf 0x4000103B = 0b0111011 ∧ ¬(funct7Of 0x4000103B = 0 ∧ funct3Of 0x4000103B ∈ [0, 1, 5]) ∧
      ¬(funct7Of 0x4000103B = 0b0100000 ∧ funct3Of 0x4000103B ∈ [0, 5])) ∧
    opcodeOf 0x1B ∈ [0b0011011, 0b0111011] ∧
    (opcodeOf 0x02001013 = 0b0010011 ∧ funct3Of 0x02001013 ∈ [1, 5] ∧ (0x02001013 : BitVec 32).toNat / 2 ^ 25 % 2 = 1) ∧
    (opcodeOf 0x1067 = 0b1100111 ∧ funct3Of 0x1067 ≠ 0) ∧ (opcodeOf 0x7003 = 0b0000011 ∧ funct3Of 0x7003 = 7) ∧
    (opcodeOf 0x6003 = 0b0000011 ∧ funct3Of 0x6003 ∈ [3, 6]) ∧ (opcodeOf 0x4023 = 0b0100011 ∧ 4 ≤ funct3Of 0x4023) ∧
    (opcodeOf 0x3023 = 0b0100011 ∧ funct3Of 0x3023 = 3) ∧ (opcodeOf 0x3063 = 0b1100011 ∧ funct3Of 0x3063 ∈ [2, 3]) ∧
    (opcodeOf 0x100F = 0b0001111 ∧ funct3Of 0x100F ≠ 0) ∧ (opcodeOf 0x4073 = 0b1110011 ∧ funct3Of 0x4073 = 4) ∧
    (opcodeOf 0x00200073 = 0b1110011 ∧ funct3Of 0x00200073 = 0 ∧
      (0x00200073 : BitVec 32).toNat / 2 ^ 7 ∉ [0, 0x2000]) := by decide
theorem witness_ListedWordsAreIllegal_shifts :
    (opcodeOf 0x04001013 = 0b0010011 ∧ funct3Of 0x04001013 = 1 ∧ (0x04001013 : BitVec 32).toNat / 2 ^ 26 ≠ 0) ∧
    (opcodeOf 0x44005013 = 0b0010011 ∧ funct3Of 0x44005013 = 5 ∧
      (0x44005013 : BitVec 32).toNat / 2 ^ 26 ∉ [0, 0b010000]) ∧
    (opcodeOf 0x0200129B = 0b0011011 ∧ funct3Of 0x0200129B ≠ 0 ∧
      ¬(funct7Of 0x0200129B = 0 ∧ funct3Of 0x0200129B ∈ [1, 5]) ∧
      ¬(funct7Of 0x0200129B = 0b0100000 ∧ funct3Of 0x0200129B = 5)) ∧
    (opcodeOf 0x4000129B = 0b0011011 ∧ funct3Of 0x4000129B ≠ 0 ∧
      ¬(funct7Of 0x4000129B = 0 ∧ funct3Of 0x4000129B ∈ [1, 5]) ∧
      ¬(funct7Of 0x4000129B = 0b0100000 ∧ funct3Of 0x4000129B = 5)) := by decide
theorem witness_UndecodedWordTraps :
    (start .rv32 [] 0x1).fetch = .ok 0x1 ∧ ∀ i, decode (start .rv32 [] 0x1).par.xlen 0x1 ≠ .ok i := by
  refine ⟨by decide, fun i h => ?_⟩
  have e : decode (start .rv32 [] 0x1).par.xlen 0x1 = .error (.illegalInstruction 0x1) := by decide
  rw [e] at h
  cases h

/-! ### A step -/

theorem witness_StepRunsTheDecodedInstruction :
    (start .rv32 [] 0xFFF30293).par.legal = true ∧
    (start .rv32 [] 0xFFF30293).cpuAccess (start .rv32 [] 0xFFF30293).pcVal.toNat 4 .execute = .ok () ∧
    decodeBytes .rv32 (bytesAt (start .rv32 [] 0xFFF30293).mem (start .rv32 [] 0xFFF30293).pcVal.toNat 4) =
      .ok (.addi 5 6 (BitVec.ofInt 12 (-1)), []) ∧
    nextMove (start .rv32 [] 0xFFF30293) = .cpu ∧ (start .rv32 [] 0xFFF30293).coreRun = true ∧
    (start .rv32 [] 0xFFF30293).coreState = .fetching := by decide

/-- The common start stopped, with the driver's STEP to come. -/
def stepping : State := { start .rv32 [] 0xFFF30293 with coreRun := false, env := [.driverStep] }

theorem witness_StepRunsTheDecodedInstruction_driver :
    stepping.par.legal = true ∧ stepping.cpuAccess stepping.pcVal.toNat 4 .execute = .ok () ∧
    decodeBytes .rv32 (bytesAt stepping.mem stepping.pcVal.toNat 4) = .ok (.addi 5 6 (BitVec.ofInt 12 (-1)), []) ∧
    nextMove stepping = .driverStep ∧ stepping.coreRun = false ∧ stepping.coreState = .fetching ∧
    stepping.coreOwner ≠ 0 := by decide
theorem witness_StepIsOneTransition :
    stepping.par.legal = true ∧ stepping.env = .driverStep :: [] ∧ stepping.coreRun = false ∧
    (start .rv32 [] 0).par.legal = true ∧ (start .rv32 [] 0).env = [] := by decide
theorem witness_StepIsOneTransition_handles :
    (∀ h, presented .driverStep = some h → h ∈ stepping.given) ∧
    ((mapThenRead ⟨0, 3, 0⟩).env = .driver (.map 1 0x2000 0x10 1) :: [.driver (.read ⟨0, 3, 0⟩ 0x2000 2)]) ∧
    presented (.driver (.read ⟨0, 3, 0⟩ 0x2000 2)) = some ⟨0, 3, 0⟩ ∧ (⟨0, 3, 0⟩ : PortHandle) ∉ State.reset.given ∧
    (⟨0, 1, 0⟩ : PortHandle) ∈ { State.reset with given := [⟨0, 1, 0⟩] }.given :=
  ⟨fun _ h => (nomatch h), by decide, by decide, by decide, by decide⟩
theorem witness_FetchChecksThenReads :
    (start .rv32 [] 0).cpuAccess (start .rv32 [] 0).pcVal.toNat 4 .execute = .ok () ∧
    (startAt 0x10FC .rv32 [] 0).cpuAccess (startAt 0x10FC .rv32 [] 0).pcVal.toNat 4 .execute = .ok () ∧
    (startAt 0x1100 .rv32 [] 0).cpuAccess (startAt 0x1100 .rv32 [] 0).pcVal.toNat 4 .execute = .error .outOfRange ∧
    (startAt 0x2000 .rv32 [] 0).cpuAccess (startAt 0x2000 .rv32 [] 0).pcVal.toNat 4 .execute = .error .denied := by decide

/-! ### Instructions -/

theorem witness_ShiftImmediateResults :
    (31 : BitVec 6).toNat < (start .rv32 [] 0).par.xlen.bits ∧ (0 : BitVec 6).toNat < (start .rv32 [] 0).par.xlen.bits ∧
    (63 : BitVec 6).toNat < (start .rv64 [] 0).par.xlen.bits := by decide
theorem witness_RegisterShiftResults :
    1 = ((start .rv32 [(7, 0x21)] 0).readReg 7).toNat % (start .rv32 [(7, 0x21)] 0).par.xlen.bits ∧
    33 = ((start .rv64 [(7, 0x21)] 0).readReg 7).toNat % (start .rv64 [(7, 0x21)] 0).par.xlen.bits := by decide
theorem witness_WordAddSubtractResults : (start .rv64 [] 0).par.xlen = .rv64 := by decide
theorem witness_WordShiftResults :
    (start .rv64 [(7, 0x3f)] 0).par.xlen = .rv64 ∧ 31 = ((start .rv64 [(7, 0x3f)] 0).readReg 7).toNat % 32 := by decide
theorem witness_Rv64FormsTrapAtXlen32 :
    (start .rv32 [] 0).par.xlen = .rv32 ∧ (Instr.lwu 5 6 0).rv64Only = true ∧
    (Instr.slli 5 6 32).shamtFits .rv32 = false := by decide
theorem witness_JumpsLinkAndTransfer :
    (targetOf (start .rv32 [] 0) (8 : BitVec 21)).toNat % 4 = 0 ∧
    (jumpTarget (start .rv32 [(6, 0x2003)] 0) 6 1).toNat % 4 = 0 := by decide

/-- The operands of the branch vectors: x6 = 2^32 - 1, x7 = 1. -/
def branching : State := start .rv32 [(6, 0xffffffff), (7, 1)] 0

theorem witness_BranchesFollowTheirCondition :
    branching.readReg 6 ≠ branching.readReg 7 ∧ branching.readReg 6 = branching.readReg 6 ∧
    signedValue .rv32 (branching.readReg 6) < signedValue .rv32 (branching.readReg 7) ∧
    ¬signedValue .rv32 (branching.readReg 7) < signedValue .rv32 (branching.readReg 6) ∧
    (branching.readReg 7).toNat < (branching.readReg 6).toNat ∧ ¬(branching.readReg 6).toNat < (branching.readReg 7).toNat ∧
    (targetOf branching (16 : BitVec 13)).toNat % 4 = 0 := by decide
theorem witness_MisalignedTargetsTrap :
    (targetOf branching (2 : BitVec 21)).toNat % 4 ≠ 0 ∧ (targetOf branching (6 : BitVec 13)).toNat % 4 ≠ 0 ∧
    (jumpTarget (start .rv32 [(6, 0x2001)] 0) 6 1).toNat % 4 ≠ 0 ∧ branching.readReg 6 = branching.readReg 6 ∧
    branching.readReg 6 ≠ branching.readReg 7 ∧
    signedValue .rv32 (branching.readReg 6) < signedValue .rv32 (branching.readReg 7) ∧
    ¬signedValue .rv32 (branching.readReg 7) < signedValue .rv32 (branching.readReg 6) ∧
    (branching.readReg 7).toNat < (branching.readReg 6).toNat ∧
    ¬(branching.readReg 6).toNat < (branching.readReg 7).toNat := by decide
theorem witness_LoadResults :
    (start .rv64 [] 0).cpuAccess 0x20FF 1 .read = .ok () ∧ (start .rv64 [] 0).cpuAccess 0x20FE 2 .read = .ok () ∧
    (start .rv64 [] 0).cpuAccess 0x20FC 4 .read = .ok () ∧ (start .rv64 [] 0).cpuAccess 0x20F8 8 .read = .ok () ∧
    (start .rv64 [] 0).par.xlen = .rv64 ∧ (addressOf (start .rv64 [(6, 0x2100)] 0) 6 (BitVec.ofInt 12 (-8))).toNat = 0x20F8 := by
  decide
theorem witness_StoreResults :
    (start .rv64 [] 0).cpuAccess 0x20FF 1 .write = .ok () ∧ (start .rv64 [] 0).cpuAccess 0x20FE 2 .write = .ok () ∧
    (start .rv64 [] 0).cpuAccess 0x20FC 4 .write = .ok () ∧ (start .rv64 [] 0).cpuAccess 0x20F8 8 .write = .ok () ∧
    (start .rv64 [] 0).par.xlen = .rv64 ∧ (addressOf (start .rv64 [(6, 0x20FF)] 0) 6 0).toNat = 0x20FF := by decide
theorem witness_RefusedAccessesTrap :
    (start .rv64 [] 0).cpuAccess 0x2100 1 .read = .error .outOfRange ∧
    (start .rv64 [] 0).cpuAccess 0x20FF 2 .read = .error .outOfRange ∧
    (start .rv64 [] 0).cpuAccess 0x20FD 4 .read = .error .outOfRange ∧
    (start .rv64 [] 0).cpuAccess 0x20F9 8 .read = .error .outOfRange ∧
    (start .rv64 [] 0).cpuAccess 0x1000 1 .write = .error .denied ∧
    (start .rv64 [] 0).cpuAccess 0x20FF 2 .write = .error .outOfRange ∧
    (start .rv64 [] 0).cpuAccess 0x20FD 4 .write = .error .outOfRange ∧
    ((start .rv64 [] 0).setCap 1 ⟨true, 3, 1⟩).cpuAccess 0x2000 8 .write = .error .stale ∧
    (start .rv64 [] 0).par.xlen = .rv64 := by decide
theorem witness_AccessCheckOrder :
    IsStale (start .rv32 [] 0) ⟨16, 3, 0⟩ ∧ IsStale (start .rv32 [] 0) ⟨1, 3, 1⟩ ∧
    (¬IsStale (start .rv32 [] 0) ⟨1, 3, 0⟩ ∧ ¬Inside ((start .rv32 [] 0).region 1) 0x20FF 2) ∧
    (Inside ((start .rv32 [] 0).region 1) 0x20FF 1 ∧ ¬Granted 3 ((start .rv32 [] 0).region 1).perms .execute) ∧
    Granted 3 ((start .rv32 [] 0).region 1).perms .write ∧ Granted 0 0 .nothing := by
  unfold IsStale Inside
  refine ⟨by decide, by decide, by decide, ⟨by decide, ?_⟩, ?_, trivial⟩
  · show ¬(_ ∧ _)
    decide
  · show _ ∧ _
    decide
theorem witness_CpuAccessUsesTheHeldHandle :
    Candidate (start .rv32 [] 0) 0x20FF 1 ∧ ∀ j, Candidate (start .rv32 [] 0) 0x20FF j → j = 1 := by
  have one : ∀ j, j < 16 → ((start .rv32 [] 0).region j).base.toNat ≤ 0x20FF ∧
      0x20FF < ((start .rv32 [] 0).region j).base.toNat + ((start .rv32 [] 0).region j).length.toNat → j = 1 := by decide
  refine ⟨?_, fun j h => one j h.1 h.2.2.2⟩
  unfold Candidate Covers
  decide
theorem witness_CpuAccessUsesTheHeldHandle_reach :
    ¬IsStale (atTop .rv32 0) ⟨1, 3, 0⟩ ∧ ¬InReach (atTop .rv32 0) 0xFFFFFFFE 4 ∧ InReach (atTop .rv32 0) 0xFFFFFFFC 4 ∧
    IsStale ((atTop .rv32 0).setCap 1 ⟨true, 3, 1⟩) ⟨1, 3, 1⟩ := by
  unfold IsStale InReach
  decide
theorem witness_CpuAccessUsesTheHeldHandle_none : ∀ i, ¬Candidate State.reset 0x2000 i := fun _ h => Bool.noConfusion h.2.1

/-! ### Registers and faults -/

theorem witness_RegisterZeroIsHardWired : (31 : Reg) ≠ 0 := by decide
theorem witness_FaultDelivery :
    (((start .rv32 [] 0).writeCsr csrThandler 0x1041).readCsr csrThandler).toNat % 2 = 1 ∧
    ((start .rv32 [] 0).readCsr csrThandler).toNat % 2 = 0 ∧ (start .rv32 [] 0).log.state ≠ .pending := by decide
theorem witness_FaultDelivery_pending :
    ((pending .rv32).readCsr csrThandler).toNat % 2 = 0 ∧ (pending .rv32).log.state = .pending ∧ ImagesApart (pending .rv32) :=
  ⟨by decide, by decide, by decide, by decide, List.pairwise_singleton _ _, by decide⟩
theorem witness_TrapClassification :
    (trapped .noExec (start .rv32 [] 0)).tdState = .classify ∧ (trapped .noExec (start .rv32 [] 0)).tr.kind = .noExec ∧
    (trapped .misalignedTarget (start .rv32 [] 0)).tr.kind = .misalignedTarget ∧
    (trapped .breakpoint (start .rv32 [] 0)).tr.kind = .breakpoint ∧
    ((trapped .syscall (pending .rv32)).tr.kind = .syscall ∧ (trapped .syscall (pending .rv32)).log.state = .pending) ∧
    ((calling .rv32 16 SvcEntry.absent 0 0).tr.kind = .syscall ∧
      (calling .rv32 16 SvcEntry.absent 0 0).log.state ≠ .pending ∧
      (calling .rv32 16 SvcEntry.absent 0 0).par.nsys ≤ ((calling .rv32 16 SvcEntry.absent 0 0).trapReg 17).toNat) := by decide
theorem witness_Calls_unregistered : Calls (calling .rv32 15 SvcEntry.absent 0 0) SvcEntry.absent :=
  ⟨by decide, by decide, by decide, by decide, by decide⟩
theorem witness_Calls_reserved :
    Calls (calling .rv32 0 ⟨.localCall, 0, .reserved, .alloc⟩ 0 0) ⟨.localCall, 0, .reserved, .alloc⟩ :=
  ⟨by decide, by decide, by decide, by decide, by decide⟩
theorem witness_Calls_exit : Calls (calling .rv64 0 ⟨.localCall, 0, .exit, .alloc⟩ 0 0) ⟨.localCall, 0, .exit, .alloc⟩ :=
  ⟨by decide, by decide, by decide, by decide, by decide⟩

/-! ### The driver port -/

theorem witness_DriverConfiguration :
    Quiescent State.reset ∧ State.reset.coreState = .fetching ∧ (0x1000 : Word).toNat % 4 = 0 ∧ (1 : Owner) ≠ 0 ∧
    (15 : BitVec 16).toNat < State.reset.par.nregion ∧ 15 < State.reset.par.nsys := by
  unfold Quiescent
  decide
theorem witness_DriverConfiguration_refused :
    ¬Quiescent (start .rv32 [] 0) ∧ ¬(0x1002 : Word).toNat % 4 = 0 ∧ ¬(16 : BitVec 16).toNat < State.reset.par.nregion ∧
    ¬16 < State.reset.par.nsys := by
  unfold Quiescent
  decide

/-- A program stopped at a breakpoint. -/
def atBreakpoint : State := { trapped .breakpoint (start .rv32 [] 0) with tdState := .waitDebug }

theorem witness_DriverRunControl :
    (start .rv32 [] 0).coreOwner ≠ 0 ∧ State.reset.coreOwner = 0 ∧ atBreakpoint.tdState = .waitDebug ∧
    State.reset.tdState ≠ .waitDebug ∧
    (atBreakpoint.coreState = .trapped ∧ atBreakpoint.log.state ≠ .pending) ∧
    { State.reset with coreState := .halted }.coreState = .halted ∧
    ¬((start .rv32 [] 0).coreRun = false ∧ (start .rv32 [] 0).coreState = .fetching ∧ (start .rv32 [] 0).coreOwner ≠ 0) := by
  decide

/-! ### AddressSpace operations -/

theorem witness_MapOperation_refused :
    BadPerms 1 6 ∧ BadPerms 0 1 ∧ ¬BadPerms 1 5 ∧ ¬BadPerms 0 0 ∧
    State.reset.par.memSize < (0xFFFFF : BitVec 64).toNat + (2 : BitVec 64).toNat := by
  unfold BadPerms
  decide
theorem witness_MapOperation_overlap :
    ∃ j a, j < (start .rv32 [] 0).par.nregion ∧ Covers (start .rv32 [] 0) j a ∧ 0x20FF ≤ a ∧ a < 0x20FF + 0x10 := by
  refine ⟨1, 0x20FF, ?_⟩
  unfold Covers
  decide

/-- One slot, retired. -/
def retired : State :=
  { State.resetFor { Params.defaults .rv32 with nregion := 1 } with regions := [(0, ⟨false, 0, 0, 0, 0, genMax⟩)] }

theorem witness_MapOperation_noSlot :
    ∀ i, i < retired.par.nregion → (retired.region i).valid = true ∨ (retired.region i).gen.toNat = 2 ^ 64 - 1 := by decide
theorem witness_MapOperation :
    ¬BadPerms 1 3 ∧ (0x1000 : BitVec 64) ≠ 0 ∧
    (0xFF000 : BitVec 64).toNat + (0x1000 : BitVec 64).toNat ≤ State.reset.par.memSize ∧
    (∀ j a, j < State.reset.par.nregion → Covers State.reset j a →
      ¬((0xFF000 : BitVec 64).toNat ≤ a ∧ a < (0xFF000 : BitVec 64).toNat + (0x1000 : BitVec 64).toNat)) ∧
    0 < State.reset.par.nregion ∧ (State.reset.region 0).valid = false ∧ (State.reset.region 0).gen.toNat < 2 ^ 64 - 1 := by
  refine ⟨?_, by decide, by decide, fun _ _ _ h => Bool.noConfusion h.1, by decide, by decide, by decide⟩
  unfold BadPerms
  decide
theorem witness_ProtectOperation :
    IsStale (start .rv32 [] 0) (PortHandle.handle ⟨1, 3, 1⟩) ∧ ¬IsStale (start .rv32 [] 0) (PortHandle.handle ⟨1, 3, 0⟩) ∧
    BadPerms ((start .rv32 [] 0).region 1).owner 6 ∧ ¬BadPerms ((start .rv32 [] 0).region 1).owner 5 := by
  unfold IsStale BadPerms
  decide

/-- The common start with Region 1 at the last generation. -/
def lastGen : State := (withData (start .rv32 [] 0)).setRegion 1 ⟨true, 0x2000, 0x100, 3, 1, genMax⟩

theorem witness_UnmapAndRevoke :
    IsStale (start .rv32 [] 0) (PortHandle.handle ⟨1, 3, 1⟩) ∧
    (¬IsStale (start .rv32 [] 0) (PortHandle.handle ⟨1, 3, 0⟩) ∧ ((start .rv32 [] 0).region 1).gen.toNat < 2 ^ 64 - 1) ∧
    (¬IsStale lastGen (PortHandle.handle ⟨1, 3, genMax⟩) ∧ (lastGen.region 1).gen.toNat = 2 ^ 64 - 1) ∧
    Covers (start .rv32 [] 0) 1 0x20FF ∧ ¬Covers (start .rv32 [] 0) 1 0x2100 := by
  unfold IsStale Covers
  decide
theorem witness_PortAccesses :
    (start .rv32 [] 0).asCheck (PortHandle.handle ⟨1, 3, 0⟩) 0x20FE 2 .read = .ok () ∧
    (start .rv32 [] 0).asCheck (PortHandle.handle ⟨1, 3, 0⟩) 0x20FF 2 .read = .error .outOfRange ∧
    (start .rv32 [] 0).asCheck (PortHandle.handle ⟨1, 3, 0⟩) 0x20FF ([7] : List Byte).length .write = .ok () ∧
    (start .rv32 [] 0).asCheck (PortHandle.handle ⟨1, 1, 0⟩) 0x2000 ([7] : List Byte).length .write = .error .denied ∧
    (start .rv32 [] 0).asCheck (PortHandle.handle ⟨1, 3, 1⟩) 0x2000 ([7] : List Byte).length .nothing = .error .stale ∧
    ((withPool (start .rv32 [] 0)).asCheck (PortHandle.handle ⟨2, 0, 0⟩) 0x8000 ([7] : List Byte).length .nothing = .ok () ∧
      ((withPool (start .rv32 [] 0)).region 2).owner = 0) ∧
    ((start .rv32 [] 0).asCheck (PortHandle.handle ⟨0, 5, 0⟩) 0x10FF ([7] : List Byte).length .nothing = .ok () ∧
      ((start .rv32 [] 0).region 0).owner ≠ 0) := by decide

/-! ### The rings -/

/-- A ring of two slots whose counters are about to wrap, with one frame. -/
def wrapping : Ring := ⟨0, 0xFFFFFFFF, [(1, 7)]⟩

theorem witness_RingIsFifoQueue :
    (1 ≤ 31 ∧ 2 = 2 ^ 1) ∧ (wrapping.count ≤ 2 ∧ wrapping.count < 2 ∧ framesOf 2 wrapping = 7 :: []) ∧
    (Ring.count ⟨1, 0xFFFFFFFF, []⟩ = 2) ∧ framesOf 2 ⟨5, 5, []⟩ = [] ∧ Ring.count ⟨5, 5, []⟩ ≤ 2 := by decide

/-! ### Syscalls -/

/-- PROTECT and REVOKE of Region `rid`. -/
def protecting (rid p : Word) : State := calling .rv32 1 ⟨.localCall, 0, .protect, .alloc⟩ rid p
def revoking (rid : Word) : State := calling .rv32 2 ⟨.localCall, 0, .revoke, .alloc⟩ rid 0

theorem witness_LocalProtectRevoke_calls :
    (∀ rid p, Calls (protecting rid p) ⟨.localCall, 0, .protect, .alloc⟩) ∧
    ∀ rid, Calls (revoking rid) ⟨.localCall, 0, .revoke, .alloc⟩ :=
  ⟨fun _ _ => ⟨rfl, rfl, LogState.noConfusion, by show (1 : Word).toNat < 16; decide, rfl⟩,
    fun _ => ⟨rfl, rfl, LogState.noConfusion, by show (2 : Word).toNat < 16; decide, rfl⟩⟩
theorem witness_LocalProtectRevoke_held :
    (protecting 16 1).par.nregion ≤ ((protecting 16 1).trapReg 10).toNat ∧
    ((revoking 15).cap ((revoking 15).trapReg 10).toNat).valid = false ∧
    (((protecting 1 8).trapReg 10).toNat < (protecting 1 8).par.nregion ∧ ((protecting 1 8).cap 1).valid = true ∧
      8 ≤ ((protecting 1 8).trapReg 11).toNat) ∧ ((protecting 1 7).trapReg 11).toNat < 8 := by decide
theorem witness_LocalProtectRevoke_stale :
    IsStale ((protecting 1 1).setCap 1 ⟨true, 3, 1⟩) ⟨1, 3, 1⟩ ∧ ¬IsStale (protecting 1 1) ⟨1, 3, 0⟩ ∧
    BadPerms ((protecting 1 1).region 1).owner (((protecting 1 6).trapReg 11).setWidth 3) ∧
    ¬BadPerms ((protecting 1 1).region 1).owner (((protecting 1 1).trapReg 11).setWidth 3) ∧
    ¬IsStale (revoking 1) ⟨1, 3, 0⟩ ∧ ((revoking 1).region 1).gen.toNat < 2 ^ 64 - 1 := by
  unfold IsStale BadPerms
  decide

/-- REVOKE of Region 1 at its last generation. -/
def revokingLast : State := ((revoking 1).setRegion 1 ⟨true, 0x2000, 0x100, 3, 1, genMax⟩).setCap 1 ⟨true, 3, genMax⟩

theorem witness_LocalProtectRevoke_retires :
    Calls revokingLast ⟨.localCall, 0, .revoke, .alloc⟩ ∧ (revokingLast.cap 1).valid = true ∧
    ¬IsStale revokingLast ⟨1, 3, genMax⟩ ∧ (revokingLast.region 1).gen.toNat = 2 ^ 64 - 1 := by
  refine ⟨⟨by decide, by decide, by decide, by decide, by decide⟩, by decide, ?_, by decide⟩
  unfold IsStale
  decide

/-- A blocking syscall with a payload. -/
def blocked (a len : Word) : State := calling .rv32 2 ⟨.blocking, 9, .exit, .alloc⟩ a len

/-- The ring REQ full. -/
def ringFull (s : State) : State := { s with req := ⟨8, 0, []⟩ }

theorem witness_BlockingPublish :
    Calls (blocked 0x2000 4) ⟨.blocking, 9, .exit, .alloc⟩ ∧
    (4 : BitVec 32).toNat = ((blocked 0x2000 4).trapReg 11).toNat % 2 ^ 32 ∧
    (blocked 0x2000 4).cpuAccess ((blocked 0x2000 4).trapReg 10).toNat 4 .read = .ok () ∧
    (blocked 0x20FE 4).cpuAccess ((blocked 0x20FE 4).trapReg 10).toNat 4 .read = .error .outOfRange ∧
    (0 : BitVec 32).toNat = ((blocked 0x9000 0).trapReg 11).toNat % 2 ^ 32 ∧
    (blocked 0x2000 4).req.count < (blocked 0x2000 4).par.ringCap ∧ (blocked 0x2000 4).par.legal = true ∧
    (ringFull (blocked 0x2000 4)).req.count = (ringFull (blocked 0x2000 4)).par.ringCap := by
  refine ⟨⟨by decide, by decide, by decide, by decide, by decide⟩, ?_⟩
  decide

theorem witness_BlockingPublish_ext :
    Calls extending ⟨.speculative, 7, .exit, .ext⟩ ∧ (∀ eff, ¬Provides extending ⟨.speculative, 7, .exit, .ext⟩ eff) ∧
    extending.par = Params.defaults .rv32 ∧ (4 : BitVec 32).toNat = (extending.trapReg 11).toNat % 2 ^ 32 :=
  ⟨⟨by decide, by decide, by decide, by decide, by decide⟩, fun _ h => (by cases h.1), by decide, by decide⟩

/-- The same where `ProvExt` gives an effect that does not pass: W with X. -/
theorem witness_BlockingPublish_rejected :
    Calls (provided ⟨[⟨1, 6, 1, [], ⟨true, 3, 0⟩⟩], 2, 0, 0x2000, 2⟩) ⟨.speculative, 7, .exit, .ext⟩ ∧
    ∀ eff, ¬Provides (provided ⟨[⟨1, 6, 1, [], ⟨true, 3, 0⟩⟩], 2, 0, 0x2000, 2⟩) ⟨.speculative, 7, .exit, .ext⟩ eff := by
  refine ⟨⟨by decide, by decide, by decide, by decide, by decide⟩, fun eff h => ?_⟩
  have e : provExtAt (provided ⟨[⟨1, 6, 1, [], ⟨true, 3, 0⟩⟩], 2, 0, 0x2000, 2⟩).par.provExt
      ((provided ⟨[⟨1, 6, 1, [], ⟨true, 3, 0⟩⟩], 2, 0, 0x2000, 2⟩).provInput ⟨.speculative, 7, .exit, .ext⟩) =
      some ⟨[⟨1, 6, 1, [], ⟨true, 3, 0⟩⟩], 2, 0, 0x2000, 2⟩ := by decide
  obtain rfl := Option.some.inj (e.symm.trans h.1)
  exact (h.2.touches _ (List.mem_singleton_self _)).notBoth (by decide)

/-- A request outstanding, and a response queued. -/
def waiting (f : Frame) : State :=
  answered { blocked 0x2000 4 with tdState := .waitResponse, tdOut := ⟨true, 0, 9⟩ } f

theorem witness_BlockingResponse :
    (waiting ⟨0, 1, 9, 4, 0x2010, 1⟩).par.legal = true ∧
    framesOf 8 (waiting ⟨0, 1, 9, 4, 0x2010, 1⟩).rsp = Frame.toBits ⟨0, 1, 9, 4, 0x2010, 1⟩ :: [] ∧
    (frameOf (Frame.toBits ⟨0, 1, 9, 4, 0x2010, 1⟩)).tag = 1 ∧
    ¬((waiting ⟨0, 1, 9, 4, 0x2010, 1⟩).log.state = .pending) ∧
    ((waiting ⟨0, 1, 9, 4, 0x2010, 1⟩).tdOut.valid = true ∧
      (frameOf (Frame.toBits ⟨0, 1, 9, 4, 0x2010, 1⟩)).sequence = (waiting ⟨0, 1, 9, 4, 0x2010, 1⟩).tdOut.seq ∧
      (frameOf (Frame.toBits ⟨0, 1, 9, 4, 0x2010, 1⟩)).serviceId = (waiting ⟨0, 1, 9, 4, 0x2010, 1⟩).tdOut.svc) := by decide
theorem witness_BlockingResponse_discarded :
    framesOf 8 (blocked 0x2000 4).rsp = [] ∧ (frameOf (Frame.toBits ⟨0, 0, 9, 0, 0, 1⟩)).tag ≠ 1 ∧
    (frameOf (Frame.toBits ⟨1, 1, 9, 0, 0, 1⟩)).sequence ≠ (waiting ⟨1, 1, 9, 0, 0, 1⟩).tdOut.seq := by decide

/-- A speculative syscall for `n` bytes with a pool Region in slot 2. -/
def allocating (n : Word) : State := withPool (calling .rv32 3 ⟨.speculative, 7, .exit, .alloc⟩ n 0)

theorem witness_SpeculativeAllocation :
    Calls (allocating 0x1000) ⟨.speculative, 7, .exit, .alloc⟩ ∧ (allocating 0x1000).mem.wf ∧
    ((allocating 0x1000).trapReg 10).toNat = 0x1000 ∧ Serves (allocating 0x1000) 0x1000 2 ∧
    (∀ j, j < 2 → ¬Serves (allocating 0x1000) 0x1000 j) ∧
    (allocating 0x1000).req.count < (allocating 0x1000).par.ringCap ∧ (allocating 0x1000).par.legal = true ∧
    (ringFull (allocating 0x1000)).req.count = (ringFull (allocating 0x1000)).par.ringCap := by
  refine ⟨⟨by decide, by decide, by decide, by decide, by decide⟩, by decide, by decide, ?_, ?_, by decide, by decide, by decide⟩
  · unfold Serves
    decide
  · unfold Serves
    decide
theorem witness_SpeculativeAllocation_none :
    ((allocating 0).trapReg 10).toNat = 0 ∧ ∀ i, ¬Serves (allocating 0x1001) 0x1001 i := by
  have none : ∀ i, i < 16 → ¬(((allocating 0x1001).region i).owner = 0 ∧
      0x1001 ≤ ((allocating 0x1001).region i).length.toNat) := by decide
  exact ⟨by decide, fun i h => none i h.1 ⟨h.2.2.1, h.2.2.2.1⟩⟩

/-- R372's example: an effect on Region 1 that passes VALID_EFFECT. -/
def cached : State := provided ⟨[⟨1, 3, 1, [(0x2000, 7), (0x2001, 8)], ⟨true, 3, 0⟩⟩], 2, 0, 0x2000, 2⟩

theorem witness_SpeculativeAllocation_ext :
    Calls cached ⟨.speculative, 7, .exit, .ext⟩ ∧
    Provides cached ⟨.speculative, 7, .exit, .ext⟩
      ⟨[⟨1, 3, 1, [(0x2000, 7), (0x2001, 8)], ⟨true, 3, 0⟩⟩], 2, 0, 0x2000, 2⟩ ∧
    cached.req.count < cached.par.ringCap ∧ cached.par.legal = true ∧
    (ringFull cached).req.count = (ringFull cached).par.ringCap := by
  refine ⟨⟨by decide, by decide, by decide, by decide, by decide⟩, ⟨by decide, ?_⟩, by decide, by decide, by decide⟩
  exact {
    some := by decide
    distinct := by decide
    touches := by
      simp only [List.forall_mem_singleton]
      exact ⟨by decide, by decide, by decide, by decide, by unfold Covers; decide, by decide, by decide⟩
    payload := .inr ⟨1, by decide, by decide, by unfold Inside; decide⟩ }
/-- The Regions of that state lie apart. -/
theorem witness_SpeculativeAllocation_disjoint : ∀ i j a, Covers cached i a → Covers cached j a → i = j := by
  have h : ∀ i a, Covers cached i a → i = 0 ∧ a < 0x1100 ∨ i = 1 ∧ 0x2000 ≤ a := by
    rintro i a ⟨hv, h1, h2⟩
    match i with
    | 0 => exact .inl ⟨rfl, h2⟩
    | 1 => exact .inr ⟨rfl, h1⟩
    | _ + 2 => cases hv
  intro i j a hi hj
  have := h i a hi
  have := h j a hj
  omega

/-! ### The pending entry -/

theorem witness_EntryResolution :
    (pending .rv32).par.legal = true ∧ (pending .rv32).log.state = .pending ∧
    framesOf 8 (answered (pending .rv32) ⟨0, 1, 7, 0, 0, 1⟩).rsp = Frame.toBits ⟨0, 1, 7, 0, 0, 1⟩ :: [] ∧
    (frameOf (Frame.toBits ⟨0, 1, 7, 0, 0, 1⟩)).sequence = (pending .rv32).log.seq ∧
    (frameOf (Frame.toBits ⟨0, 1, 7, 0, 0, 1⟩)).serviceId = (pending .rv32).log.svc ∧
    (frameOf (Frame.toBits ⟨0, 1, 7, 0, 0, 2⟩)).status ≠ 1 ∧
    (pending .rv32).log.deadline.toNat ≤ { pending .rv32 with tdNow := 1000 }.tdNow.toNat ∧
    (pending .rv32).tdNow.toNat < (pending .rv32).log.deadline.toNat := by decide
theorem witness_RollbackRestores : ImagesApart (pending .rv32) where
  bytes := by decide
  rids := by decide
  ranges := List.pairwise_singleton _ _
  generations := by decide
theorem witness_RollbackRestores_handler :
    (((pending .rv32).writeCsr csrThandler 0x1041).readCsr csrThandler).toNat % 2 = 1 ∧
    ((pending .rv32).readCsr csrThandler).toNat % 2 = 0 ∧ (17 : Reg) ≠ 0 ∧ otherCsr 0x340 := by
  unfold otherCsr
  decide
theorem witness_TerminationRestores :
    ImagesApart (pending .rv32) ∧ (pending .rv32).log.state = .pending ∧ (pending .rv32).coreState = .fetching :=
  ⟨witness_RollbackRestores, by decide, by decide⟩
theorem witness_TimeoutsAndRetries :
    ((waiting ⟨0, 0, 0, 0, 0, 0⟩).tdState = .waitResponse ∧
      { waiting ⟨0, 0, 0, 0, 0, 0⟩ with tdDlValid := true }.tdDlValid = true ∧
      (waiting ⟨0, 0, 0, 0, 0, 0⟩).tdDeadline.toNat ≤ (waiting ⟨0, 0, 0, 0, 0, 0⟩).tdNow.toNat) ∧
    State.reset.tdDlValid = false ∧ { State.reset with tdState := .waitSlot }.tdState = .waitSlot ∧
    State.reset.req.count ≠ State.reset.par.ringCap ∧
    (ringFull State.reset).req.count = (ringFull State.reset).par.ringCap ∧
    { State.reset with tdState := .waitSpec }.tdState = .waitSpec ∧ State.reset.log.state = .empty ∧
    (pending .rv32).log.state ≠ .empty := by decide

/-! ### The machine as a whole -/

/-- The reset state with a MAP to come. -/
def mapping : State := { State.reset with env := [.driver (.map 1 0x1000 0x1000 3)] }

/-- What the step from `mapping` gives. -/
def mapped : State :=
  { State.reset with
    regions := [(0, ⟨true, 0x1000, 0x1000, 3, 1, 0⟩)]
    reply := .handle ⟨0, 3, 0⟩
    given := [⟨0, 3, 0⟩] }

theorem witness_mapping : step mapping = .next mapped := rfl
theorem witness_InstructionsLeaveProtectionState :
    exec (.sw 6 7 0) (start .rv32 [(6, 0x2010), (7, 0x12345678)] 0) =
      .next (((start .rv32 [(6, 0x2010), (7, 0x12345678)] 0).setMem [(0x2010, 0x78), (0x2011, 0x56), (0x2012, 0x34),
        (0x2013, 0x12)]).setPc 0x1004) := rfl
theorem witness_PcStaysAligned : AlignedPc mapping ∧ AlignedPc (start .rv32 [] 0x008000EF) :=
  ⟨⟨by decide, by decide, by decide⟩, ⟨by decide, by decide, by decide⟩⟩
theorem witness_WriteXorExecuteIsKept : WriteXorExecute mapping := ⟨fun _ => by show Perms.writeAndExecute 0 = false; decide, fun _ h => (List.not_mem_nil h).elim⟩
theorem witness_CrossBlockIsKept : CrossBlock mapping ∧ CrossBlock (pending .rv32) :=
  ⟨⟨by decide, by decide, by decide, by decide, by decide, by decide⟩,
    ⟨by decide, by decide, by decide, by decide, by decide, by decide⟩⟩
theorem witness_StoredFormIsKept : Canonical mapping ∧ InStore mapping ∧ RingBounds mapping :=
  ⟨⟨by decide, by decide, by decide, by decide, by decide, by decide, by decide⟩,
    ⟨fun _ => by show (0 : BitVec 64).toNat + (0 : BitVec 64).toNat ≤ 0x100000; decide,
      fun _ h => (List.not_mem_nil h).elim, fun _ _ => rfl⟩,
    by unfold RingBounds; decide⟩
theorem witness_ZeroPoolIsKept : keepsDuty mapping (nextMove mapping) ∧ ZeroPool mapping where
  left := by
    show LogState.empty ≠ .pending
    decide
  right := {
    zero := fun _ _ => rfl
    disjoint := fun _ _ _ h => Bool.noConfusion h.1
    slots := fun _ _ => rfl
    poolPerms := fun _ h => Bool.noConfusion h
    owner := fun _ => by decide
    mem := by decide
    images := fun h => LogState.noConfusion h }

/-- The reset state, halted. -/
def halted : State := { State.reset with coreState := .halted }

theorem witness_FinalStatesStay : CrossBlock halted ∧ halted.coreState = .halted ∧ after halted = some (tick halted) :=
  ⟨⟨by decide, by decide, by decide, by decide, by decide, by decide⟩, rfl, by decide⟩

end Sys2Proof.Tests
end

section
/-! The statement of the family of 00_scope.md: which transition a step is (R14, R15), and which handle values the port
agents have after it (60_exceptions.md R457). -/

namespace Sys2Proof.Machine

/-! ## Which transition a step is -/

/-- A listed choice that presents only given handle values is performed. -/
theorem transition_of_given {m : Move} {s : State} (hp : ∀ h, presented m = some h → h ∈ s.given) :
    transition m s = perform m s :=
  if_pos ((presentsGiven_iff s m).2 hp)

/-- A listed choice that presents a handle value not given passes (log entry 16). -/
theorem transition_of_not_given {m : Move} {s : State} {h : PortHandle} (hp : presented m = some h) (hg : h ∉ s.given) :
    transition m s = .next s :=
  if_neg fun hm => hg ((presentsGiven_iff s m).1 hm h hp)

theorem step_of_legal {s : State} (hl : s.par.legal = true) : step s = transition (nextMove s) (popEnv s) := if_pos hl

theorem step_of_listed {s : State} (hl : s.par.legal = true) {m : Move} {rest : List Move} (he : s.env = m :: rest) :
    step s = transition m { s with env := rest } := by
  rw [step_of_legal hl, nextMove, popEnv, he, List.tail_cons]

theorem defaultMove_cases (s : State) :
    defaultMove s = .tick ∨ (defaultMove s = .cpu ∧ cpuEnabled s = true) ∨
      ∃ d, defaultMove s = .td d ∧ tdEnabled s d = true := by
  unfold defaultMove
  split
  next d hd => exact .inr (.inr ⟨d, rfl, List.find?_some hd⟩)
  next =>
    split_ifs with hc
    · exact .inr (.inl ⟨rfl, hc⟩)
    · exact .inl rfl

/-- No move of the default order is a command at a port. -/
theorem presented_defaultMove (s : State) : presented (defaultMove s) = none := by
  obtain h | ⟨h, -⟩ | ⟨d, h, -⟩ := defaultMove_cases s <;> rw [h] <;> rfl

theorem popEnv_of_nil {s : State} (he : s.env = []) : popEnv s = s := by
  rw [popEnv, he, List.tail_nil, ← he]

theorem step_of_unlisted {s : State} (hl : s.par.legal = true) (he : s.env = []) :
    step s = perform (defaultMove s) s := by
  have hm : nextMove s = defaultMove s := by rw [nextMove, he]
  rw [step_of_legal hl, hm, popEnv_of_nil he, transition_of_none s (presented_defaultMove s)]

theorem cpuEnabled_iff (s : State) : cpuEnabled s = true ↔ s.coreRun = true ∧ s.coreState = .fetching := by
  simp [cpuEnabled]

/-- A CPU step that is not enabled changes nothing (log entry 4). -/
theorem perform_cpu_of_disabled {s : State} (h : s.coreRun = false ∨ s.coreState ≠ .fetching) :
    perform .cpu s = .next s := by
  refine if_neg fun he => ?_
  obtain ⟨hr, hf⟩ := (cpuEnabled_iff s).1 he
  obtain h | h := h
  · exact Bool.noConfusion (hr.symm.trans h)
  · exact h hf

/-! ## The handle values given to the port agents -/

/-- The CPU gives the port agents no handle value. -/
theorem given_execShape {s t : State} (h : ExecShape s t) : t.given = s.given := by
  cases h <;> simp

/-- The service port gives no handle value: only MAP, PROTECT and REVOKE do, which are the driver's (R455, R457). -/
theorem given_serviceCmd (c : ServiceCmd) (s : State) : (serviceCmd c s).given = s.given :=
  service_ind (P := fun t => t.given = s.given) (fun _ => rfl) (fun _ _ _ _ => rfl) (fun _ _ _ _ => rfl)
    fun _ _ _ _ _ => rfl

/-- Among all transitions a command of the driver alone gives a handle value, and its answer is that value (R457). -/
theorem given_transition {m : Move} {s t : State} (ht : transition m s = .next t) {h : PortHandle} (hm : h ∈ t.given) :
    h ∈ s.given ∨ t.reply = .handle h := by
  revert hm
  apply transition_ind (P := fun u => h ∈ u.given → h ∈ s.given ∨ u.reply = .handle h) ht
  case cpu => exact fun _ _ r hs hm => .inl (given_execShape hs ▸ hm)
  case td => exact fun d _ _ hm => .inl (given_tdEffect s d ▸ hm)
  case service => exact fun c _ _ hm => .inl (given_serviceCmd c s ▸ hm)
  case driver => exact fun _ _ _ hm => given_driverCmd hm
  case same | tick | refused => exact .inl

theorem given_step {s t : State} (ht : step s = .next t) {h : PortHandle} (hm : h ∈ t.given) :
    h ∈ s.given ∨ t.reply = .handle h := by
  rw [← popEnv_given s]
  exact given_transition (of_step ht).2 hm

/-- Settles O9: the choice and its guard are read off `step`, and the handle values are followed through every
transition. -/
theorem stepIsOneTransition : Obligations.StepIsOneTransition := by
  intro s hl
  refine ⟨fun m rest he => ?_, fun t h ht => given_step ht, fun he => ?_, perform_cpu_of_disabled⟩
  · rw [step_of_listed hl he]
    exact ⟨fun hp => transition_of_given hp, fun _ hp hg => transition_of_not_given hp hg⟩
  · exact ⟨defaultMove s, step_of_unlisted hl he, defaultMove_cases s⟩

end Sys2Proof.Machine
end

section
/-! The statements of the family of 10_state.md. First the parts of a step that all its invariants share: what each
transition of the dispatcher ends in, what a delivered fault leaves, and what any step does to the Region table and the
byte store. -/

namespace Sys2Proof.Machine

open Sys2Proof.Safety

/-! ## The transitions of the dispatcher -/

theorem tdEnabled_logDeadline_pending {s : State} (h : tdEnabled s .logDeadline = true) : s.log.state = .pending := by
  simp only [tdEnabled, Bool.and_eq_true, beq_iff_eq] at h
  exact h.1

/-- The states an enabled transition of the dispatcher can end in, with what was enabled or checked
(60_exceptions.md R425 to R443). -/
theorem tdEffect_ind {P : State → Prop} {d : TdMove} {s : State} (he : tdEnabled s d = true)
    (deliver : s.tdState = .classify → ∀ k v, P (deliverFault k v s.tr.savedPc s))
    (debug : s.tdState = .classify → P { s with tdState := .waitDebug })
    (wait : s.tdState = .classify → s.log.state = .pending → P { s with tdState := .waitSpec })
    (exit : s.tdState = .classify → s.log.state ≠ .pending → P (localExit s))
    (protect : s.tdState = .classify → s.log.state ≠ .pending → ∀ rid p c, rid < s.par.nregion →
      (s.region rid).valid = true → ¬BadPerms (s.region rid).owner p →
      P (resume (((s.setRegion rid { s.region rid with perms := p }).setCap rid c).writeReg 10 0)))
    (revoke : s.tdState = .classify → s.log.state ≠ .pending → ∀ rid c, rid < s.par.nregion →
      (s.region rid).valid = true → P (resume (((s.bump rid).setCap rid c).writeReg 10 0)))
    (full : s.tdState = .classify → s.log.state ≠ .pending → P { s.setDeadline with tdState := .waitSlot })
    (block : s.tdState = .classify → s.log.state ≠ .pending → ∀ svc off len, s.reqFull = false →
      P { s.setDeadline.publishRequest svc off len with tdOut := ⟨true, s.req.head, svc⟩, tdState := .waitResponse })
    (speculate : s.tdState = .classify → s.log.state ≠ .pending → ∀ svc eff,
      provAlloc s = some eff ∨ s.validEffect eff = true → s.reqFull = false →
      P (resume ((((applyProvisional eff (beginEntry s.req.head svc s.setDeadline.tdDeadline (eff.touch.map (·.rid))
        s.setDeadline)).publishRequest svc eff.reqOffset eff.reqLength).writeReg 10 eff.a0).writeReg 11 eff.a1)))
    (fail : s.tdState = .classify ∧ s.log.state ≠ .pending ∨ s.tdState = .waitResponse ∨ s.tdState = .waitSlot →
      ∀ reason, P (failRequest reason s))
    (again : s.tdState = .waitSlot ∨ s.tdState = .waitSpec ∧ s.log.state = .empty → P { s with tdState := .classify })
    (commit : ∀ b r, tryConsume s.par.ringCap s.rsp = some (b, r) → s.log.state = .pending →
      P (commit { s with rsp := r }))
    (rollback : ∀ b r reason, tryConsume s.par.ringCap s.rsp = some (b, r) → s.log.state = .pending →
      P (rollback reason { s with rsp := r }))
    (result : ∀ b r v w, tryConsume s.par.ringCap s.rsp = some (b, r) → s.tdOut.valid = true →
      P (resume
        ((({ s with rsp := r, tdOut := { s.tdOut with valid := false } } : State).writeReg 10 v).writeReg 11 w)))
    (discard : ∀ b r, tryConsume s.par.ringCap s.rsp = some (b, r) → P { s with rsp := r }) (same : P s)
    (expire : s.log.state = .pending → P (Machine.rollback 0xFF s)) : P (tdEffect s d) := by
  cases d with
  | classify =>
    have hd : s.tdState = .classify := by simpa [tdEnabled] using he
    refine classify_ind (deliver hd) (debug hd) (wait hd) fun hl => ?_
    exact syscallByClass_ind (deliver hd) (exit hd hl) (fail (.inl ⟨hd, hl⟩) _)
      (fun rid p c hi hv hb _ => protect hd hl rid p c hi hv hb) (revoke hd hl) (full hd hl) (block hd hl)
      (speculate hd hl)
  | retry =>
    simp only [tdEnabled, Bool.and_eq_true, beq_iff_eq] at he
    exact again (.inl he.1)
  | release => exact again (.inr (by simpa [tdEnabled] using he))
  | consume => exact consume_ind commit rollback result discard same
  | logDeadline => exact expire (tdEnabled_logDeadline_pending he)
  | requestDeadline =>
    simp only [tdEnabled, Bool.and_eq_true, Bool.or_eq_true, beq_iff_eq] at he
    exact fail (.inr he.1.1) _

/-! ## What restoration depends on -/

/-- The parameters, the Region table and the byte store are the same. -/
structure SameStore (s t : State) : Prop where
  par : t.par = s.par
  regions : t.regions = s.regions
  mem : t.mem = s.mem

theorem SameStore.region {s t : State} (h : SameStore s t) (i : Nat) : t.region i = s.region i := by
  rw [State.region, h.regions, State.region]

theorem SameStore.byte {s t : State} (h : SameStore s t) (a : Nat) : t.byte a = s.byte a := by
  rw [State.byte, h.mem, State.byte]

theorem SameStore.trans {s t u : State} (h : SameStore s t) (g : SameStore t u) : SameStore s u :=
  ⟨g.par.trans h.par, g.regions.trans h.regions, g.mem.trans h.mem⟩

theorem sameStore_answer (s : State) (r : Reply) : SameStore s (s.answer r) := ⟨rfl, rfl, rfl⟩

theorem sameStore_handOut (s : State) (h : Handle) : SameStore s (s.handOut h) := ⟨rfl, rfl, rfl⟩

theorem SameStore.setRegion {s t : State} (h : SameStore s t) (i : Nat) (r : Region) :
    SameStore (s.setRegion i r) (t.setRegion i r) :=
  ⟨h.par, by rw [State.setRegion_regions, h.regions, State.setRegion_regions], h.mem⟩

theorem SameStore.zeroFill {s t : State} (h : SameStore s t) (i : Nat) : SameStore (s.zeroFill i) (t.zeroFill i) :=
  ⟨h.par, h.regions, by rw [State.zeroFill_mem, h.mem, h.region, State.zeroFill_mem]⟩

theorem SameStore.bump {s t : State} (h : SameStore s t) (i : Nat) : SameStore (s.bump i) (t.bump i) := by
  unfold State.bump
  rw [h.region]
  split_ifs
  · exact h.setRegion _ _
  · exact (h.zeroFill i).setRegion _ _
  · exact h

/-- A before-image put back, the generation not yet bumped (46_speclog_ops.md R378 step 1). -/
def putBack (m : Image) (s : State) : State :=
  ((s.setRegion m.rid { m.desc with gen := (s.region m.rid).gen }).setMem
    (putImage s.mem m.desc.base.toNat m.desc.length.toNat m.bytes)).setCap m.rid m.cap

theorem restoreImage_eq (m : Image) (s : State) : restoreImage m s =
    if (s.region m.rid).owner ≠ m.desc.owner then (putBack m s).bump m.rid else putBack m s := rfl

theorem SameStore.putBack {s t : State} (h : SameStore s t) (m : Image) : SameStore (putBack m s) (putBack m t) := by
  unfold Machine.putBack
  rw [h.region, h.mem]
  have hr := h.setRegion m.rid { m.desc with gen := (s.region m.rid).gen }
  exact ⟨hr.par, hr.regions, rfl⟩

theorem SameStore.restoreImage {s t : State} (h : SameStore s t) (m : Image) :
    SameStore (restoreImage m s) (restoreImage m t) := by
  rw [restoreImage_eq, restoreImage_eq, h.region]
  split_ifs
  · exact (h.putBack m).bump _
  · exact h.putBack m

theorem SameStore.restoreImages {s t : State} (h : SameStore s t) (l : List Image) :
    SameStore (restoreImages l s) (restoreImages l t) := by
  induction l with
  | nil => exact h
  | cons m l ih => exact ih.restoreImage m

theorem SameStore.applyTouches {s t : State} (h : SameStore s t) (l : List Touch) :
    SameStore (applyTouches l s) (applyTouches l t) := by
  induction l generalizing s t with
  | nil => exact h
  | cons k l ih =>
    refine ih ⟨h.par, ?_, ?_⟩
    · show put _ _ _ t.regions = put _ _ _ s.regions
      rw [h.regions, h.region]
    · show putImage t.mem _ _ _ = putImage s.mem _ _ _
      rw [h.mem, h.region]

/-! ## Delivered faults and termination -/

theorem log_restoreAtTermination_of_pending {s : State} (h : s.log.state = .pending) :
    (restoreAtTermination s).log = { s.log with images := [], state := .empty } := by
  rw [restoreAtTermination, if_pos h, restoreImages_rest]
  rfl

theorem sameStore_restoreAtTermination {s : State} (h : s.log.state = .pending) :
    SameStore (restoreImages s.log.images s) (restoreAtTermination s) := by
  rw [restoreAtTermination, if_pos h]
  exact ⟨rfl, rfl, rfl⟩

/-- How the entry stands to the store after a trap ended: untouched, or restored and consumed. -/
structure EntryEnded (s t : State) : Prop where
  quiet : s.log.state ≠ .pending → SameStore s t ∧ t.log = s.log
  pending : s.log.state = .pending →
    SameStore (restoreImages s.log.images s) t ∧ t.log = { s.log with images := [], state := .empty }

theorem EntryEnded.of_sameStore {s u t : State} (h : EntryEnded u t) (hs : SameStore s u) (hl : u.log = s.log) :
    EntryEnded s t where
  quiet hq := by
    obtain ⟨h1, h2⟩ := h.quiet (by rwa [hl])
    exact ⟨hs.trans h1, h2.trans hl⟩
  pending hp := by
    obtain ⟨h1, h2⟩ := h.pending (by rwa [hl])
    rw [hl] at h1 h2
    exact ⟨(hs.restoreImages _).trans h1, h2⟩

theorem EntryEnded.trans {s t u : State} (h : EntryEnded s t) (ht : SameStore t u) (hl : u.log = t.log) :
    EntryEnded s u where
  quiet hq := (h.quiet hq).imp (·.trans ht) hl.trans
  pending hp := (h.pending hp).imp (·.trans ht) hl.trans

/-- What termination leaves (60_exceptions.md R417). -/
structure TerminationLeaves (s t : State) : Prop where
  coreState : t.coreState = .terminated
  tdState : t.tdState = .idle
  tr : t.tr = { s.tr with valid := false }
  tdOut : t.tdOut = { s.tdOut with valid := false }
  entry : EntryEnded s t
  rest : t = { s with
    coreState := t.coreState, regions := t.regions, mem := t.mem, caps := t.caps, log := t.log, logLast := t.logLast
    tdOut := t.tdOut, tr := t.tr, tdState := t.tdState, tdDlValid := t.tdDlValid, notes := t.notes }

theorem terminateCore_leaves (k : Kind) (v p : Word) (s : State) : TerminationLeaves s (terminateCore k v p s) := by
  rw [terminateCore_eq]
  exact {
    coreState := rfl
    tdState := rfl
    tr := rfl
    tdOut := rfl
    entry := {
      quiet := fun h => by
        rw [restoreAtTermination_quiet h]
        exact ⟨⟨rfl, rfl, rfl⟩, rfl⟩
      pending := fun h =>
        have hs := sameStore_restoreAtTermination h
        ⟨⟨by simp, hs.regions, hs.mem⟩, log_restoreAtTermination_of_pending h⟩ }
    rest := rfl }

/-- What a delivered fault leaves: the core at its handler, or terminated (60_exceptions.md R415). -/
structure DeliveryLeaves (s t : State) : Prop where
  tdState : t.tdState = .idle
  tr : t.tr = { s.tr with valid := false }
  core : t.coreState = .fetching ∧ SameStore s t ∧ t.log = s.log ∨ t.coreState = .terminated ∧ EntryEnded s t
  pc : t.pc = s.pc ∨ t.pc.toNat % 4 = 0
  tdOut : s.tdOut.valid = false → t.tdOut.valid = false
  rest : t = { s with
    csrs := t.csrs, pc := t.pc, coreState := t.coreState, regions := t.regions, mem := t.mem, caps := t.caps
    log := t.log, logLast := t.logLast, tdOut := t.tdOut, tr := t.tr, tdState := t.tdState, tdDlValid := t.tdDlValid
    notes := t.notes }

theorem and_not_three_aligned (v : Word) : (v &&& ~~~3).toNat % 4 = 0 := by
  rw [and_not_three, BitVec.toNat_ofNat]
  omega

/-- Delivery to an armed handler on every field it changes. -/
theorem deliverFault_of_armed {k : Kind} {v e : Word} {s : State} (h : s.armed = true) : deliverFault k v e s =
    { s with
      csrs := ((withCauses k v e s).writeCsr csrThandler (s.readCsr csrThandler &&& ~~~1)).csrs
      pc := trunc s.par.xlen (s.readCsr csrThandler &&& ~~~3)
      coreState := .fetching
      tr := { s.tr with valid := false }
      tdState := .idle
      tdDlValid := false } := by
  rw [deliverFault_eq, if_pos h]
  simp only [withCauses, State.writeCsr, State.setPc, State.closeTrap]

theorem deliverFault_leaves (k : Kind) (v e : Word) (s : State) : DeliveryLeaves s (deliverFault k v e s) := by
  by_cases h : s.armed = true
  · rw [deliverFault_of_armed h]
    exact {
      tdState := rfl
      tr := rfl
      core := .inl ⟨rfl, ⟨rfl, rfl, rfl⟩, rfl⟩
      pc := .inr ((trunc_mod_four _ _).trans (and_not_three_aligned _))
      tdOut := id
      rest := rfl }
  · rw [deliverFault_eq, if_neg h]
    have ht := terminateCore_leaves k v e (withCauses k v e s).closeTrap
    have hs : SameStore s (withCauses k v e s).closeTrap := 
      ⟨by simp [withCauses], by simp [withCauses], by simp [withCauses]⟩
    exact {
      tdState := ht.tdState
      tr := by rw [ht.tr]; simp [withCauses]
      core := .inr ⟨ht.coreState, ht.entry.of_sameStore hs (by simp [withCauses])⟩
      pc := .inl (by rw [ht.rest]; simp [withCauses])
      tdOut := fun _ => congrArg TdOut.valid ht.tdOut
      rest := by
        rw [ht.rest]
        simp [withCauses] }

/-- Where no entry is pending, delivery leaves the store and the entry. -/
theorem DeliveryLeaves.of_quiet {s t : State} (h : DeliveryLeaves s t) (hq : s.log.state ≠ .pending) :
    SameStore s t ∧ t.log = s.log := by
  obtain ⟨-, hs, hl⟩ | ⟨-, he⟩ := h.core
  · exact ⟨hs, hl⟩
  · exact he.quiet hq

/-- What a rollback leaves (46_speclog_ops.md R378). -/
structure RollbackLeaves (s t : State) : Prop where
  tdState : t.tdState = .idle
  tr : t.tr = { s.tr with valid := false }
  coreState : t.coreState = .fetching ∨ t.coreState = .terminated
  store : SameStore (restoreImages s.log.images s) t
  log : t.log = { s.log with images := [], state := .empty }
  pc : t.pc = trunc s.par.xlen s.log.tr.savedPc ∨ t.pc.toNat % 4 = 0
  tdOut : s.tdOut.valid = false → t.tdOut.valid = false
  regs : t.regs = s.log.tr.regs.set 0 0
  rest : t = { s with
    regs := t.regs, csrs := t.csrs, pc := t.pc, coreState := t.coreState, regions := t.regions, mem := t.mem
    caps := t.caps, log := t.log, logLast := t.logLast, tdOut := t.tdOut, tr := t.tr, tdState := t.tdState
    tdDlValid := t.tdDlValid, notes := t.notes }

/-- The state after steps 1 to 5 of a rollback, before the fault is delivered (46_speclog_ops.md R378). -/
def unwound (reason : BitVec 8) (s : State) : State :=
  { restoreImages s.log.images s with
    pc := trunc s.par.xlen s.log.tr.savedPc
    regs := s.log.tr.regs.set 0 0
    logLast := ⟨s.log.seq, .rolledBack, reason⟩
    log := { s.log with images := [], state := .empty }
    notes := s.notes ++ [⟨.rollback, .speculationRolledBack, reason.setWidth 64, trunc s.par.xlen s.log.tr.savedPc,
      s.log.tr.reg s.par.xlen 17⟩]
    tr := { s.tr with valid := false }
    tdState := .idle
    tdDlValid := false }

theorem rollback_eq_unwound (reason : BitVec 8) (s : State) : rollback reason s =
    deliverFault .speculationRolledBack (reason.setWidth 64) s.log.tr.savedPc (unwound reason s) := rollback_eq ..

theorem unwound_rest (reason : BitVec 8) (s : State) : unwound reason s = { s with
    regs := s.log.tr.regs.set 0 0, pc := trunc s.par.xlen s.log.tr.savedPc, regions := (unwound reason s).regions
    mem := (unwound reason s).mem, caps := (unwound reason s).caps, log := (unwound reason s).log
    logLast := (unwound reason s).logLast, tr := (unwound reason s).tr, tdState := .idle, tdDlValid := false
    notes := (unwound reason s).notes } := by
  rw [unwound, restoreImages_rest]

theorem rollback_leaves (reason : BitVec 8) (s : State) : RollbackLeaves s (rollback reason s) := by
  have hu : SameStore (restoreImages s.log.images s) (unwound reason s) := ⟨rfl, rfl, rfl⟩
  have hr := unwound_rest reason s
  rw [rollback_eq_unwound]
  have h := deliverFault_leaves .speculationRolledBack (reason.setWidth 64) s.log.tr.savedPc (unwound reason s)
  obtain ⟨hs, hl⟩ := h.of_quiet (by simp [unwound])
  exact {
    tdState := h.tdState
    tr := h.tr
    coreState := h.core.imp And.left And.left
    store := hu.trans hs
    log := hl
    pc := h.pc
    tdOut := fun ho => h.tdOut (by rw [hr]; exact ho)
    regs := by rw [h.rest]; rfl
    rest := by
      rw [h.rest, hr] }

/-! ## What a step does to the Region table and the byte store -/

/-- The ways a step made by the move `m` changes Region table, byte store and before-images, with what was checked first
and, for the driver's commands, what its duty (b) of 60_exceptions.md R458 says. -/
inductive StoreChange (m : Move) (s t : State) : Prop
  | same (store : SameStore s t) (log : t.log = s.log ∨ t.log = { s.log with images := [], state := .empty })
  | write (i a : Nat) (bytes : List Byte) (valid : (s.region i).valid = true)
      (inside : Inside (s.region i) a bytes.length)
      (allowed : (s.region i).perms.getLsbD 1 = true ∨ (s.region i).owner ≠ 0)
      (store : SameStore (s.setMem (putBytes s.mem a bytes)) t) (log : t.log = s.log)
  | map (i : Nat) (owner : Owner) (base len : BitVec 64) (perms : Perms) (perms_ok : ¬BadPerms owner perms)
      (fits : base.toNat + len.toNat ≤ s.par.memSize) (slot : i < s.par.nregion) (unused : (s.region i).valid = false)
      (apart : ∀ j a, j < s.par.nregion → Covers s j a → ¬(base.toNat ≤ a ∧ a < base.toNat + len.toNat))
      (duty : keepsDuty s m → s.log.state ≠ .pending)
      (store : SameStore (s.setRegion i ⟨true, base, len, perms, owner, (s.region i).gen⟩) t) (log : t.log = s.log)
  | protect (i : Nat) (perms : Perms) (perms_ok : ¬BadPerms (s.region i).owner perms) (slot : i < s.par.nregion)
      (duty : keepsDuty s m → s.log.state = .pending → i ∉ s.log.images.map (·.rid))
      (store : SameStore (s.setRegion i { s.region i with perms := perms }) t) (log : t.log = s.log)
  | revoke (i : Nat) (valid : (s.region i).valid = true) (slot : i < s.par.nregion)
      (duty : keepsDuty s m → s.log.state = .pending → i ∉ s.log.images.map (·.rid))
      (store : SameStore (s.bump i) t) (log : t.log = s.log)
  | unmap (i : Nat) (valid : (s.region i).valid = true) (slot : i < s.par.nregion)
      (duty : keepsDuty s m → s.log.state = .pending → i ∉ s.log.images.map (·.rid))
      (store : SameStore (((s.zeroFill i).setRegion i (s.region i).cleared).bump i) t) (log : t.log = s.log)
  | restore (pending : s.log.state = .pending) (store : SameStore (restoreImages s.log.images s) t)
      (log : t.log = { s.log with images := [], state := .empty })
  | speculate (eff : Effect) (busy : s.tdState = .classify)
      (checked : provAlloc s = some eff ∨ s.validEffect eff = true)
      (store : SameStore (applyTouches eff.touch s) t)
      (log : t.log.images = (eff.touch.map (·.rid)).map s.imageOf)

theorem StoreChange.of_entryEnded {m : Move} {s t : State} (h : EntryEnded s t) : StoreChange m s t := by
  by_cases hp : s.log.state = .pending
  · obtain ⟨hs, hl⟩ := h.pending hp
    exact .restore hp hs hl
  · obtain ⟨hs, hl⟩ := h.quiet hp
    exact .same hs (.inl hl)

theorem StoreChange.deliver {m : Move} (k : Kind) (v e : Word) (s : State) :
    StoreChange m s (deliverFault k v e s) := by
  obtain ⟨-, hs, hl⟩ | ⟨-, he⟩ := (deliverFault_leaves k v e s).core
  · exact .same hs (.inl hl)
  · exact .of_entryEnded he

theorem StoreChange.rollback {m : Move} {s u : State} (reason : BitVec 8) (hp : s.log.state = .pending)
    (hs : SameStore s u) (hl : u.log = s.log) : StoreChange m s (rollback reason u) := by
  have h := rollback_leaves reason u
  have hstore := h.store
  have hlog := h.log
  rw [hl] at hstore hlog
  exact .restore hp ((hs.restoreImages _).trans hstore) hlog

/-- An instruction writes bytes only where the write check passed (20_memory.md R97). -/
theorem StoreChange.of_execShape {m : Move} {s t : State} {r : Reply} (h : ExecShape (s.answer r) t) :
    StoreChange m s t := by
  cases h with
  | trap | registers | csr => exact .same ⟨rfl, rfl, rfl⟩ (.inl rfl)
  | store a bytes hc =>
    obtain ⟨i, ⟨-, -, hv, -⟩, -, hin, ⟨-, hw⟩, -⟩ := of_cpuAccess hc
    exact .write i a bytes hv hin (.inl hw) ⟨rfl, rfl, rfl⟩ rfl

theorem StoreChange.of_tdEffect {m : Move} {d : TdMove} {s : State} (he : tdEnabled s d = true) :
    StoreChange m s (tdEffect s d) := by
  apply tdEffect_ind (P := StoreChange m s) he
  case deliver => exact fun _ k v => .deliver k v _ s
  case protect => exact fun _ hl rid p c hi hv hb => .protect rid p hb hi (fun _ hp => absurd hp hl) ⟨rfl, rfl, rfl⟩ rfl
  case revoke =>
    exact fun _ hl rid c hi hv => .revoke rid hv hi (fun _ hp => absurd hp hl) ⟨rfl, rfl, rfl⟩ (State.bump_log s rid)
  case speculate =>
    intro hd hl svc eff hc hf
    have hs : SameStore s (beginEntry s.req.head svc s.setDeadline.tdDeadline (eff.touch.map (·.rid)) s.setDeadline) :=
      ⟨rfl, rfl, rfl⟩
    have ha := hs.applyTouches eff.touch
    refine .speculate eff hd hc ⟨ha.par, ha.regions, ha.mem⟩ ?_
    simp only [resume_log, State.writeReg_log, State.publishRequest_log, applyProvisional]
    rw [applyTouches_rest]
    rfl
  case commit => exact fun _ _ _ _ => .same ⟨rfl, rfl, rfl⟩ (.inr rfl)
  case rollback => exact fun _ _ reason _ hp => .rollback reason hp ⟨rfl, rfl, rfl⟩ rfl
  case expire => exact fun hp => .rollback _ hp ⟨rfl, rfl, rfl⟩ rfl
  all_goals
    intros
    exact .same ⟨rfl, rfl, rfl⟩ (.inl rfl)

/-- A write at a port goes to a Region that grants W (44_addressspace_ops.md R302). -/
theorem StoreChange.of_portWrite {m : Move} {s : State} {h : Handle} {a : Nat} {bytes : List Byte} (r : Reply)
    (hc : s.asCheck h a bytes.length .write = .ok ()) :
    StoreChange m s ((s.setMem (putBytes s.mem a bytes)).answer r) := by
  obtain ⟨-, hv, -, hin, -, hw⟩ := of_asCheck hc
  exact .write h.rid a bytes hv hin (.inl hw) ⟨rfl, rfl, rfl⟩ rfl

theorem of_not_isStale {s : State} {h : Handle} (hs : ¬IsStale s h) :
    h.rid < s.par.nregion ∧ (s.region h.rid).valid = true ∧ (s.region h.rid).gen = h.gen := by
  simpa only [IsStale, not_or, not_le, not_not, Bool.not_eq_false] using hs

theorem StoreChange.of_driverCmd (c : DriverCmd) (s : State) : StoreChange (.driver c) s (driverCmd c s) := by
  apply driver_ind (P := StoreChange (.driver c) s)
  case terminate =>
    intro x _
    have he := (terminateCore_leaves .none 0 s.pcVal s).entry
    exact .of_entryEnded (he.trans (sameStore_answer _ x) (State.answer_log ..))
  case map =>
    intro i owner base len perms g hc hb _ hf hi hu ha
    subst hc
    exact .map i owner base len perms hb hf hi hu ha id (sameStore_handOut _ g) rfl
  case protect =>
    intro h p g hc hs hb
    subst hc
    exact .protect h.rid.toNat p hb (of_not_isStale hs).1 id (sameStore_handOut _ g) rfl
  case revoke =>
    intro h g hc hs
    subst hc
    obtain ⟨hi, hv, -⟩ := of_not_isStale hs
    exact .revoke h.rid.toNat hv hi id (sameStore_handOut _ g) (by simp)
  case retire =>
    intro h x hc hs
    subst hc
    obtain ⟨hi, hv, -⟩ := of_not_isStale hs
    exact .revoke h.rid.toNat hv hi id (sameStore_answer _ x) (by simp)
  case unmap =>
    intro h x hc hs
    subst hc
    obtain ⟨hi, hv, -⟩ := of_not_isStale hs
    exact .unmap h.rid.toNat hv hi id (sameStore_answer _ x) (by simp)
  case load =>
    intro h a addr bytes x _ hc ho
    obtain ⟨-, hv, -, hin, -⟩ := of_asCheck hc
    exact .write h.rid.toNat a bytes hv hin (.inr ho) (sameStore_answer _ x) rfl
  case write => exact fun _ _ _ x hc => .of_portWrite x hc
  all_goals
    intros
    exact .same ⟨rfl, rfl, rfl⟩ (.inl rfl)

theorem step_storeChange {s t : State} (h : step s = .next t) : StoreChange (nextMove s) (popEnv s) t := by
  refine transition_ind (P := StoreChange (nextMove s) (popEnv s)) (of_step h).2 ?same
    (fun _ _ r hs => .of_execShape hs) (fun d _ he => .of_tdEffect he) ?tick (fun c _ _ => ?service) ?refused
    fun c hc _ => hc ▸ .of_driverCmd c _
  case service =>
    apply service_ind (P := StoreChange (nextMove s) (popEnv s))
    case write => exact fun _ _ _ x hc => .of_portWrite x hc
    all_goals
      intros
      exact .same ⟨rfl, rfl, rfl⟩ (.inl rfl)
  all_goals exact .same ⟨rfl, rfl, rfl⟩ (.inl rfl)

/-! ## Generations -/

/-- A descriptor put in a slot with the slot's generation keeps every generation. -/
theorem gen_setRegion {s : State} {i : Nat} {r : Region} (h : r.gen = (s.region i).gen) (j : Nat) :
    ((s.setRegion i r).region j).gen = (s.region j).gen := by
  rw [State.region_setRegion]
  split_ifs with hj
  · rw [h, hj]
  · rfl

theorem StoreChange.gen_le {m : Move} {s t : State} (h : StoreChange m s t) (j : Nat) :
    (s.region j).gen.toNat ≤ (t.region j).gen.toNat := by
  cases h with
  | same hs => rw [hs.region]
  | write i a bytes hv hin ha hs => rw [hs.region, State.setMem_region]
  | map i owner base len perms _ _ _ _ _ _ hs =>
    rw [hs.region, gen_setRegion]
    rfl
  | protect i perms _ _ _ hs =>
    rw [hs.region, gen_setRegion]
    rfl
  | revoke i _ _ _ hs =>
    rw [hs.region]
    exact s.gen_bump_le i j
  | unmap i _ _ _ hs =>
    have hg : (((s.zeroFill i).setRegion i (s.region i).cleared).region j).gen = (s.region j).gen :=
      gen_setRegion (s := s.zeroFill i) (r := (s.region i).cleared) rfl j
    rw [hs.region, ← hg]
    exact State.gen_bump_le _ i j
  | restore _ hs =>
    rw [hs.region]
    exact gen_restoreImages_le _ s j
  | speculate eff _ _ hs => rw [hs.region, gen_applyTouches]

/-- Settles O57: of the ways a step changes the Region table, BUMP alone writes a generation, and only one higher. -/
theorem generationsNeverDecrease : Obligations.GenerationsNeverDecrease :=
  fun _ _ h i => (step_storeChange h).gen_le i

/-! ## What holds of every descriptor -/

/-- The predicate holds of every Region and of every before-image's descriptor. -/
structure HoldsOfRegions (Q : Region → Prop) (s : State) : Prop where
  regions : ∀ i, Q (s.region i)
  images : ∀ m ∈ s.log.images, Q m.desc

/-- What a predicate on descriptors must allow for every step to keep it: an emptied descriptor, another generation,
other permissions without W and X together, and a new Region in the store. -/
structure RegionLaw (Q : Region → Prop) (memSize : Nat) : Prop where
  cleared : ∀ r : Region, Q r.cleared
  gen : ∀ (r : Region) g, Q r → Q { r with gen := g }
  perms : ∀ (r : Region) p owner, p.writeAndExecute = false → Q r → Q { r with perms := p, owner := owner }
  fresh : ∀ base len p owner g, p.writeAndExecute = false → base.toNat + len.toNat ≤ memSize →
    Q ⟨true, base, len, p, owner, g⟩

theorem writeAndExecute_of_not_badPerms {owner : Owner} {p : Perms} (h : ¬BadPerms owner p) :
    p.writeAndExecute = false :=
  Bool.eq_false_iff.2 fun hw => h (.inl ((Bool.and_eq_true _ _).mp hw))

section

variable {Q : Region → Prop} {n : Nat} {s : State}

theorem RegionLaw.setRegion {i : Nat} {r : Region} (hs : ∀ j, Q (s.region j)) (hr : Q r) (j : Nat) :
    Q ((s.setRegion i r).region j) := by
  rw [State.region_setRegion]
  split_ifs
  · exact hr
  · exact hs j

theorem RegionLaw.bump (h : RegionLaw Q n) (hs : ∀ j, Q (s.region j)) (i j : Nat) : Q ((s.bump i).region j) := by
  rw [State.region_bump]
  split_ifs
  · exact h.gen _ _ (hs i)
  · exact h.cleared _
  · exact hs i
  · exact hs j

theorem RegionLaw.restoreImage (h : RegionLaw Q n) (hs : ∀ j, Q (s.region j)) {m : Image} (hm : Q m.desc) (j : Nat) :
    Q ((restoreImage m s).region j) := by
  rw [region_restoreImage]
  split_ifs
  · exact h.gen _ _ hm
  · exact h.cleared _
  · exact h.gen _ _ hm
  · exact h.gen _ _ hm
  · exact hs j

theorem RegionLaw.restoreImages (h : RegionLaw Q n) (hs : ∀ j, Q (s.region j)) {l : List Image} (hl : ∀ m ∈ l, Q m.desc)
    (j : Nat) : Q ((restoreImages l s).region j) := by
  induction l generalizing j with
  | nil => exact hs j
  | cons m l ih =>
    exact h.restoreImage (ih fun k hk => hl k (List.mem_cons_of_mem _ hk)) (hl m (by simp)) j

theorem RegionLaw.applyTouches (h : RegionLaw Q n) (hs : ∀ j, Q (s.region j)) {l : List Touch}
    (hl : ∀ k ∈ l, k.perms.writeAndExecute = false) (j : Nat) : Q ((applyTouches l s).region j) := by
  induction l generalizing s with
  | nil => exact hs j
  | cons k l ih =>
    refine ih (fun i => ?_) fun x hx => hl x (List.mem_cons_of_mem _ hx)
    rw [region_applyTouch]
    split_ifs
    · exact h.perms _ _ _ (hl k (by simp)) (hs _)
    · exact hs i

end

/-- The allocation an effect record of PROV_ALLOC stands for (46_speclog_ops.md R370). -/
theorem provAlloc_touch {s : State} {eff : Effect} (h : provAlloc s = some eff) : ∃ i,
    i < s.par.nregion ∧ (s.region i).valid = true ∧ (s.region i).owner = 0 ∧
    eff.touch = [⟨i, permR ||| permW, s.coreOwner,
      cellsIn s.mem (s.region i).base.toNat (s.region i).length.toNat, ⟨true, permR ||| permW, (s.region i).gen⟩⟩] := by
  unfold provAlloc at h
  simp only at h
  split_ifs at h
  split at h
  · cases h
  · rename_i i hf
    rw [List.find?_range_eq_some] at hf
    cases h
    obtain ⟨hfit, hi, -⟩ := hf
    simp only [State.poolFits, Bool.and_eq_true, beq_iff_eq] at hfit
    exact ⟨i, by simpa using hi, hfit.1.1.1, hfit.1.1.2, rfl⟩

/-- No effect a step applies gives W and X together (46_speclog_ops.md R370, R372 b). -/
theorem touch_perms {s : State} {eff : Effect} (h : provAlloc s = some eff ∨ s.validEffect eff = true) {k : Touch}
    (hk : k ∈ eff.touch) : k.perms.writeAndExecute = false := by
  obtain h | h := h
  · obtain ⟨i, -, -, -, ht⟩ := provAlloc_touch h
    rw [ht, List.mem_singleton] at hk
    rw [hk]
    show (permR ||| permW).writeAndExecute = false
    decide
  · have hn := (((validEffect_iff s eff).1 h).touches k hk).notBoth
    exact Bool.eq_false_iff.2 fun hw => hn ((Bool.and_eq_true _ _).mp hw)

theorem HoldsOfRegions.of_storeChange {Q : Region → Prop} {m : Move} {s t : State} (hq : RegionLaw Q s.par.memSize)
    (h : StoreChange m s t) (hs : HoldsOfRegions Q s) : HoldsOfRegions Q t := by
  have kept : t.log = s.log → ∀ k ∈ t.log.images, Q k.desc := fun hl k hk => hs.images k (hl ▸ hk)
  cases h with
  | same hst hl =>
    refine ⟨fun i => hst.region i ▸ hs.regions i, ?_⟩
    obtain hl | hl := hl
    · exact kept hl
    · simp [hl]
  | write i a bytes _ _ _ hst hl => exact ⟨fun i => hst.region i ▸ hs.regions i, kept hl⟩
  | map i owner base len perms hb hf _ _ _ _ hst hl =>
    refine ⟨fun j => hst.region j ▸ RegionLaw.setRegion hs.regions ?_ j, kept hl⟩
    exact hq.fresh _ _ _ _ _ (writeAndExecute_of_not_badPerms hb) hf
  | protect i perms hb _ _ hst hl =>
    refine ⟨fun j => hst.region j ▸ RegionLaw.setRegion hs.regions ?_ j, kept hl⟩
    exact hq.perms _ _ _ (writeAndExecute_of_not_badPerms hb) (hs.regions i)
  | revoke i _ _ _ hst hl => exact ⟨fun j => hst.region j ▸ hq.bump hs.regions i j, kept hl⟩
  | unmap i _ _ _ hst hl =>
    have hc : ∀ j, Q (((s.zeroFill i).setRegion i (s.region i).cleared).region j) :=
      RegionLaw.setRegion (s := s.zeroFill i) hs.regions (hq.cleared _)
    exact ⟨fun j => hst.region j ▸ hq.bump hc i j, kept hl⟩
  | restore _ hst hl => exact ⟨fun j => hst.region j ▸ hq.restoreImages hs.regions hs.images j, by simp [hl]⟩
  | speculate eff _ hc hst hl =>
    refine ⟨fun j => hst.region j ▸ hq.applyTouches hs.regions (fun k hk => touch_perms hc hk) j, ?_⟩
    rw [hl]
    simp only [List.mem_map]
    rintro - ⟨i, -, rfl⟩
    exact hs.regions i

/-! ## W and X -/

theorem regionLaw_writeXorExecute (n : Nat) : RegionLaw (fun r => r.perms.writeAndExecute = false) n where
  cleared _ := (by decide : Perms.writeAndExecute 0 = false)
  gen _ _ h := h
  perms _ _ _ h _ := h
  fresh _ _ _ _ _ h _ := h

/-- Settles O54: no way a step changes a descriptor sets W and X together. -/
theorem writeXorExecuteIsKept : Obligations.WriteXorExecuteIsKept := by
  intro s t h hs
  have hk := HoldsOfRegions.of_storeChange (regionLaw_writeXorExecute _) (step_storeChange h) ⟨hs.regions, hs.images⟩
  exact ⟨hk.regions, hk.images⟩

/-! ## Alignment of the pc -/

theorem EntryEnded.log_tr {s t : State} (h : EntryEnded s t) : t.log.tr = s.log.tr := by
  by_cases hp : s.log.state = .pending
  · rw [(h.pending hp).2]
  · rw [(h.quiet hp).2]

theorem DeliveryLeaves.log_tr {s t : State} (h : DeliveryLeaves s t) : t.log.tr = s.log.tr := by
  obtain ⟨-, -, hl⟩ | ⟨-, he⟩ := h.core
  · rw [hl]
  · exact he.log_tr

theorem pcVal_mod_four (s : State) : s.pcVal.toNat % 4 = s.pc.toNat % 4 := trunc_mod_four _ _

theorem alignedPc_of {s t : State} (h : AlignedPc s) (hp : t.pc = s.pc ∨ t.pc.toNat % 4 = 0)
    (ht : t.tr.savedPc = s.tr.savedPc) (hl : t.log.tr = s.log.tr) : AlignedPc t where
  pc := by
    rw [pcVal_mod_four]
    obtain hp | hp := hp
    · rw [hp, ← pcVal_mod_four]
      exact h.pc
    · exact hp
  saved := ht ▸ h.saved
  logged := hl ▸ h.logged

theorem alignedPc_popEnv {s : State} (h : AlignedPc s) : AlignedPc (popEnv s) := ⟨h.pc, h.saved, h.logged⟩

theorem alignedPc_answer {s : State} (h : AlignedPc s) (r : Reply) : AlignedPc (s.answer r) :=
  ⟨h.pc, h.saved, h.logged⟩

theorem alignedPc_setPc {s : State} (h : AlignedPc s) {v : Word} (hv : v.toNat % 4 = 0) : AlignedPc (s.setPc v) :=
  alignedPc_of h (.inr ((trunc_mod_four _ _).trans hv)) rfl rfl

/-- The core resumes at an aligned pc (60_exceptions.md R429). -/
theorem alignedPc_resume {s : State} (hs : s.tr.savedPc.toNat % 4 = 0) (hl : s.log.tr.savedPc.toNat % 4 = 0) :
    AlignedPc (resume s) where
  pc := by
    rw [pcVal_mod_four, resume_pc, trunc_mod_four]
    exact add_four_aligned ((trunc_mod_four _ _).trans hs)
  saved := hs
  logged := hl

theorem alignedPc_deliverFault {s : State} (h : AlignedPc s) (k : Kind) (v e : Word) :
    AlignedPc (deliverFault k v e s) := by
  have hd := deliverFault_leaves k v e s
  exact alignedPc_of h hd.pc (by rw [hd.tr]) hd.log_tr

theorem alignedPc_terminateCore {s : State} (h : AlignedPc s) (k : Kind) (v p : Word) :
    AlignedPc (terminateCore k v p s) := by
  have ht := terminateCore_leaves k v p s
  exact alignedPc_of h (.inl (by rw [ht.rest])) (by rw [ht.tr]) ht.entry.log_tr

theorem alignedPc_rollback {s : State} (h : AlignedPc s) (reason : BitVec 8) : AlignedPc (rollback reason s) := by
  have hr := rollback_leaves reason s
  refine alignedPc_of h (.inr ?_) (by rw [hr.tr]) (by rw [hr.log])
  obtain hp | hp := hr.pc
  · rw [hp, trunc_mod_four]
    exact h.logged
  · exact hp

theorem alignedPc_execShape {s t : State} (h : AlignedPc s) (hs : ExecShape s t) : AlignedPc t := by
  have next : ∀ u : State, AlignedPc u → AlignedPc u.advance := fun u hu => alignedPc_setPc hu (add_four_aligned hu.pc)
  cases hs with
  | trap k v => exact ⟨h.pc, h.pc, h.logged⟩
  | registers rd v p hp => exact alignedPc_setPc (s := s.writeReg rd v) ⟨h.pc, h.saved, h.logged⟩ (hp h.pc)
  | csr rd v c w => exact next _ ⟨h.pc, h.saved, h.logged⟩
  | store a bytes => exact next _ ⟨h.pc, h.saved, h.logged⟩

theorem alignedPc_tdEffect {s : State} (h : AlignedPc s) {d : TdMove} (he : tdEnabled s d = true) :
    AlignedPc (tdEffect s d) := by
  apply tdEffect_ind (P := AlignedPc) he
  case deliver => exact fun _ k v => alignedPc_deliverFault h k v _
  case speculate =>
    intro _ _ svc eff _ _
    refine alignedPc_resume ?_ ?_
    · simpa [applyProvisional, beginEntry] using h.saved
    · simpa [applyProvisional, beginEntry] using h.saved
  case protect | fail | result =>
    intros
    exact alignedPc_resume h.saved h.logged
  case revoke =>
    intros
    exact alignedPc_resume (by simpa using h.saved) (by simpa using h.logged)
  case rollback =>
    exact fun b r reason _ _ => alignedPc_rollback (s := { s with rsp := r }) ⟨h.pc, h.saved, h.logged⟩ reason
  case expire => exact fun _ => alignedPc_rollback h _
  all_goals
    intros
    exact ⟨h.pc, h.saved, h.logged⟩

theorem alignedPc_driverCmd {s : State} (h : AlignedPc s) (c : DriverCmd) : AlignedPc (driverCmd c s) := by
  apply driver_ind (P := AlignedPc)
  case entry =>
    intro p owner x _ _ hp _
    have hs := alignedPc_setPc h hp
    exact ⟨hs.pc, hs.saved, hs.logged⟩
  case debug => exact fun x _ => alignedPc_answer (alignedPc_resume h.saved h.logged) x
  case terminate => exact fun x _ => alignedPc_answer (alignedPc_terminateCore h _ _ _) x
  case revoke | retire | unmap =>
    intros
    exact alignedPc_of h (.inl (by simp)) (by simp) (by simp)
  all_goals
    intros
    exact ⟨h.pc, h.saved, h.logged⟩

/-- Settles O53: every pc a step assigns is an aligned target, the pc plus 4, an aligned saved pc or that plus 4, or a
handler address with the two low bits cleared. -/
theorem pcStaysAligned : Obligations.PcStaysAligned := by
  intro s t h hs
  have hp := alignedPc_popEnv hs
  refine transition_ind (of_step h).2 hp (fun _ _ r => alignedPc_execShape (alignedPc_answer hp r))
    (fun d _ => alignedPc_tdEffect hp) ⟨hp.pc, hp.saved, hp.logged⟩ (fun c _ _ => ?_) (alignedPc_answer hp _)
    fun c _ _ => alignedPc_driverCmd hp c
  apply service_ind (P := AlignedPc)
  all_goals
    intros
    exact ⟨hp.pc, hp.saved, hp.logged⟩

/-! ## The cross-block invariants -/

/-- The dispatcher is idle, and with it the record and the outstanding request are invalid. -/
theorem crossBlock_of_idle {t : State} (hc : t.coreState ≠ .trapped) (hd : t.tdState = .idle) (hr : t.tr.valid = false)
    (ho : t.tdOut.valid = false) (hl : t.log.state = .empty ∨ t.log.state = .pending ∧ t.coreState = .fetching) :
    CrossBlock t where
  trappedBusy := by simp [hc, hd]
  trappedRecord := by simp [hc, hr]
  outstanding := by simp [ho]
  entryState := hl.imp_right And.left
  pendingQuiet _ := ⟨ho, .inl hd⟩
  ended he := by
    refine ⟨hd, hl.resolve_right fun hp => ?_, ho⟩
    rw [hp.2] at he
    simp at he

/-- The core is trapped and the dispatcher busy, with a request outstanding or an entry pending or neither. -/
theorem crossBlock_of_busy {t : State} (hc : t.coreState = .trapped) (hd : t.tdState ≠ .idle) (hr : t.tr.valid = true)
    (ho : t.tdOut.valid = true → t.tdState = .waitResponse)
    (hl : t.log.state = .empty ∨
      t.log.state = .pending ∧ (t.tdState = .classify ∨ t.tdState = .waitSpec ∨ t.tdState = .waitDebug)) :
    CrossBlock t where
  trappedBusy := by simp [hc, hd]
  trappedRecord := by simp [hc, hr]
  outstanding := ho
  entryState := hl.imp_right And.left
  pendingQuiet hp := by
    have hw := (hl.resolve_left fun he => by rw [hp] at he; cases he).2
    refine ⟨Bool.eq_false_iff.2 fun hv => ?_, .inr hw⟩
    rw [ho hv] at hw
    simp at hw
  ended he := by
    rw [hc] at he
    simp at he

section

variable {s : State} (h : CrossBlock s)

include h

theorem trapped_of_busy (hd : s.tdState ≠ .idle) : s.coreState = .trapped ∧ s.tr.valid = true :=
  have hc := h.trappedBusy.2 hd
  ⟨hc, h.trappedRecord.1 hc⟩

theorem no_request (hd : s.tdState ≠ .waitResponse) : s.tdOut.valid = false :=
  Bool.eq_false_iff.2 fun hv => hd (h.outstanding hv)

theorem no_entry (hl : s.log.state ≠ .pending) : s.log.state = .empty := h.entryState.resolve_right hl

theorem idle_of_not_trapped (hc : s.coreState ≠ .trapped) :
    s.tdState = .idle ∧ s.tr.valid = false ∧ s.tdOut.valid = false := by
  have hd : s.tdState = .idle := not_not.1 fun hd => hc (h.trappedBusy.2 hd)
  exact ⟨hd, Bool.eq_false_iff.2 fun hv => hc (h.trappedRecord.2 hv), no_request h (by simp [hd])⟩

/-- The fields the cross-block invariants speak of are the same. -/
theorem crossBlock_congr {t : State} (hc : t.coreState = s.coreState) (hd : t.tdState = s.tdState)
    (hr : t.tr.valid = s.tr.valid) (ho : t.tdOut.valid = s.tdOut.valid) (hl : t.log.state = s.log.state) :
    CrossBlock t where
  trappedBusy := by rw [hc, hd]; exact h.trappedBusy
  trappedRecord := by rw [hc, hr]; exact h.trappedRecord
  outstanding := by rw [ho, hd]; exact h.outstanding
  entryState := by rw [hl]; exact h.entryState
  pendingQuiet := by rw [hl, ho, hd]; exact h.pendingQuiet
  ended := by rw [hc, hd, hl, ho]; exact h.ended

/-- The entry consumed: nothing else the invariants speak of changed. -/
theorem crossBlock_entryConsumed {t : State} (hc : t.coreState = s.coreState) (hd : t.tdState = s.tdState)
    (hr : t.tr.valid = s.tr.valid) (ho : t.tdOut.valid = s.tdOut.valid) (hl : t.log.state = .empty) :
    CrossBlock t where
  trappedBusy := by rw [hc, hd]; exact h.trappedBusy
  trappedRecord := by rw [hc, hr]; exact h.trappedRecord
  outstanding := by rw [ho, hd]; exact h.outstanding
  entryState := .inl hl
  pendingQuiet := by simp [hl]
  ended := by rw [hc, hd, ho]; exact fun he => ⟨(h.ended he).1, hl, (h.ended he).2.2⟩

/-- A trap of a core that was fetching. -/
theorem crossBlock_execShape {t : State} (hc : s.coreState = .fetching) (hs : ExecShape s t) : CrossBlock t := by
  cases hs with
  | trap k v =>
    obtain ⟨-, -, ho⟩ := idle_of_not_trapped h (by simp [hc])
    refine crossBlock_of_busy rfl (by simp) rfl (by simp [ho]) ?_
    exact h.entryState.imp_right fun hp => ⟨hp, .inl rfl⟩
  | registers | csr | store => exact crossBlock_congr h rfl rfl rfl rfl rfl

theorem crossBlock_terminateCore (k : Kind) (v p : Word) : CrossBlock (terminateCore k v p s) := by
  have ht := terminateCore_leaves k v p s
  refine crossBlock_of_idle (by simp [ht.coreState]) ht.tdState (by rw [ht.tr]) (by rw [ht.tdOut]) (.inl ?_)
  by_cases hp : s.log.state = .pending
  · rw [(ht.entry.pending hp).2]
  · rw [(ht.entry.quiet hp).2]
    exact no_entry h hp

theorem crossBlock_deliverFault (hd : s.tdState = .classify) (k : Kind) (v e : Word) :
    CrossBlock (deliverFault k v e s) := by
  have ht := deliverFault_leaves k v e s
  have ho := ht.tdOut (no_request h (by simp [hd]))
  obtain ⟨hc, -, hl⟩ | ⟨hc, he⟩ := ht.core
  · refine crossBlock_of_idle (by simp [hc]) ht.tdState (by rw [ht.tr]) ho ?_
    rw [hl]
    exact h.entryState.imp_right fun hp => ⟨hp, hc⟩
  · refine crossBlock_of_idle (by simp [hc]) ht.tdState (by rw [ht.tr]) ho (.inl ?_)
    by_cases hp : s.log.state = .pending
    · rw [(he.pending hp).2]
    · rw [(he.quiet hp).2]
      exact no_entry h hp

theorem crossBlock_rollback (hp : s.log.state = .pending) (reason : BitVec 8) : CrossBlock (rollback reason s) := by
  have ht := rollback_leaves reason s
  refine crossBlock_of_idle ?_ ht.tdState (by rw [ht.tr]) (ht.tdOut (h.pendingQuiet hp).1) (.inl (by rw [ht.log]))
  obtain hc | hc := ht.coreState <;> simp [hc]

/-- The core resumed with no request outstanding. -/
theorem crossBlock_resume {t : State} (ho : t.tdOut.valid = false) (hl : t.log.state = s.log.state) :
    CrossBlock (resume t) := by
  refine crossBlock_of_idle (by simp) rfl rfl ho ?_
  rw [resume_log, hl]
  exact h.entryState.imp_right fun hp => ⟨hp, rfl⟩

theorem crossBlock_tdEffect {d : TdMove} (he : tdEnabled s d = true) : CrossBlock (tdEffect s d) := by
  have quiet : s.tdState = .classify → s.tdOut.valid = false := fun hd => no_request h (by simp [hd])
  have busy : ∀ {x}, s.tdState = x → x ≠ .idle → s.coreState = .trapped ∧ s.tr.valid = true :=
    fun hx hn => trapped_of_busy h (hx ▸ hn)
  have empty : s.log.state ≠ .pending → s.log.state = .empty := no_entry h
  apply tdEffect_ind (P := CrossBlock) he
  case deliver => exact fun hd k v => crossBlock_deliverFault h hd k v _
  case debug =>
    intro hd
    obtain ⟨hc, hr⟩ := busy hd (by simp)
    refine crossBlock_of_busy hc (by simp) hr (by simp [quiet hd]) ?_
    exact h.entryState.imp_right fun hp => ⟨hp, .inr (.inr rfl)⟩
  case wait =>
    intro hd hp
    obtain ⟨hc, hr⟩ := busy hd (by simp)
    exact crossBlock_of_busy hc (by simp) hr (by simp [quiet hd]) (.inr ⟨hp, .inr (.inl rfl)⟩)
  case exit =>
    exact fun hd hl => crossBlock_of_idle (by simp [localExit]) rfl rfl (quiet hd) (.inl (empty hl))
  case protect => exact fun hd _ _ _ _ _ _ _ => crossBlock_resume h (quiet hd) rfl
  case revoke => exact fun hd _ _ _ _ _ => crossBlock_resume h (by simp [quiet hd]) (by simp)
  case full =>
    intro hd hl
    obtain ⟨hc, hr⟩ := busy hd (by simp)
    exact crossBlock_of_busy hc (by simp) hr (by simp [quiet hd]) (.inl (empty hl))
  case block =>
    intro hd hl svc off len _
    obtain ⟨hc, hr⟩ := busy hd (by simp)
    exact crossBlock_of_busy hc (by simp) hr (fun _ => rfl) (.inl (empty hl))
  case speculate =>
    intro hd _ svc eff _ _
    refine crossBlock_of_idle (by simp) rfl rfl ?_ (.inr ⟨?_, rfl⟩)
    · simpa [applyProvisional, beginEntry] using quiet hd
    · simp [applyProvisional, beginEntry]
  case fail => exact fun _ _ => crossBlock_resume h rfl rfl
  case again =>
    intro hd
    obtain ⟨hc, hr⟩ : s.coreState = .trapped ∧ s.tr.valid = true :=
      hd.elim (busy · (by simp)) fun hw => busy hw.1 (by simp)
    have hn : s.tdState ≠ .waitResponse := by
      obtain hd | ⟨hd, -⟩ := hd <;> simp [hd]
    refine crossBlock_of_busy hc (by simp) hr (by simp [no_request h hn]) ?_
    exact h.entryState.imp_right fun hp => ⟨hp, .inl rfl⟩
  case commit => exact fun _ _ _ _ => crossBlock_entryConsumed h rfl rfl rfl rfl rfl
  case rollback =>
    intro _ r reason _ hp
    exact crossBlock_rollback (crossBlock_congr h (t := { s with rsp := r }) rfl rfl rfl rfl rfl) hp reason
  case result => exact fun _ _ _ _ _ _ => crossBlock_resume h rfl rfl
  case discard => exact fun _ _ _ => crossBlock_congr h rfl rfl rfl rfl rfl
  case same => exact h
  case expire => exact fun hp => crossBlock_rollback h hp _

theorem crossBlock_driverCmd (c : DriverCmd) : CrossBlock (driverCmd c s) := by
  apply driver_ind (P := CrossBlock)
  case debug =>
    intro x hd
    have hr : CrossBlock (resume s) := crossBlock_resume h (no_request h (by simp [hd])) rfl
    exact crossBlock_congr hr rfl rfl rfl rfl rfl
  case terminate =>
    exact fun x _ => crossBlock_congr (crossBlock_terminateCore h .none 0 s.pcVal) rfl rfl rfl rfl rfl
  case revoke | retire | unmap =>
    intros
    exact crossBlock_congr h (by simp) (by simp) (by simp) (by simp) (by simp)
  all_goals
    intros
    exact crossBlock_congr h rfl rfl rfl rfl rfl

end

/-- Settles O55: the CPU moves only while fetching, where the dispatcher is idle, and every transition of the dispatcher
leaves it idle with the record invalid or busy with the record valid. -/
theorem crossBlockIsKept : Obligations.CrossBlockIsKept := by
  intro s t h hs
  have hp : CrossBlock (popEnv s) := crossBlock_congr hs rfl rfl rfl rfl rfl
  refine transition_ind (of_step h).2 hp
    (fun hc _ r => crossBlock_execShape (crossBlock_congr hp (t := (popEnv s).answer r) rfl rfl rfl rfl rfl) hc)
    (fun d _ => crossBlock_tdEffect hp) (crossBlock_congr hp rfl rfl rfl rfl rfl) (fun c _ _ => ?_)
    (crossBlock_congr hp rfl rfl rfl rfl rfl) fun c _ _ => crossBlock_driverCmd hp c
  apply service_ind (P := CrossBlock)
  all_goals
    intros
    exact crossBlock_congr hp rfl rfl rfl rfl rfl

/-! ## Final states -/

/-- What a step keeps of a core that was halted or terminated. -/
structure FinalKept (s t : State) : Prop where
  coreState : t.coreState = s.coreState
  regs : t.regs = s.regs
  pc : t.pc = s.pc
  csrs : t.csrs = s.csrs
  tdState : t.tdState = .idle
  log : t.log = s.log

/-- With the dispatcher idle, no entry pending and no request outstanding it can only discard responses
(60_exceptions.md R441). -/
theorem finalKept_tdEffect {s : State} (hd : s.tdState = .idle) (hl : s.log.state = .empty)
    (ho : s.tdOut.valid = false) {d : TdMove} (he : tdEnabled s d = true) : FinalKept s (tdEffect s d) := by
  have hn : s.log.state ≠ .pending := by simp [hl]
  apply tdEffect_ind (P := FinalKept s) he
  case discard | same =>
    intros
    exact ⟨rfl, rfl, rfl, rfl, hd, rfl⟩
  case commit | rollback =>
    intros
    exact absurd ‹s.log.state = .pending› hn
  case expire => exact fun hp => absurd hp hn
  case result =>
    intro b r v w _ hv
    rw [ho] at hv
    cases hv
  all_goals
    intro hx
    simp [hd] at hx

/-- The commands that act on the core are refused (60_exceptions.md R450). -/
theorem finalKept_driverCmd {s : State} (hd : s.tdState = .idle)
    (hc : s.coreState = .halted ∨ s.coreState = .terminated) (c : DriverCmd) :
    FinalKept s (driverCmd c s) := by
  have hf : s.coreState ≠ .fetching ∧ s.coreState ≠ .trapped := by
    obtain hc | hc := hc <;> simp [hc]
  apply driver_ind (P := FinalKept s)
  case entry => exact fun _ _ _ _ hx => absurd hx hf.1
  case debug =>
    intro x hx
    simp [hd] at hx
  case terminate => exact fun x hx => absurd hx (not_or.2 hf)
  case revoke | retire | unmap =>
    intros
    exact ⟨by simp, by simp, by simp, by simp, by simpa using hd, by simp⟩
  all_goals
    intros
    exact ⟨rfl, rfl, rfl, rfl, hd, rfl⟩

/-- Settles O59: a core that is not fetching makes no CPU step, and an idle dispatcher with an empty entry has nothing
enabled that touches the core. -/
theorem finalStatesStay : Obligations.FinalStatesStay := by
  intro s t h hs hc
  obtain ⟨hd, hl, ho⟩ := hs.ended hc
  have hk : FinalKept (popEnv s) t := by
    refine transition_ind (P := FinalKept (popEnv s)) (of_step h).2 ⟨rfl, rfl, rfl, rfl, hd, rfl⟩ (fun hf => ?_)
      (fun d _ => finalKept_tdEffect (s := popEnv s) hd hl ho) ⟨rfl, rfl, rfl, rfl, hd, rfl⟩ (fun c _ _ => ?_)
      ⟨rfl, rfl, rfl, rfl, hd, rfl⟩ fun c _ _ => finalKept_driverCmd (s := popEnv s) hd hc c
    · rw [popEnv_coreState] at hf
      simp [hf] at hc
    · apply service_ind (P := FinalKept (popEnv s))
      all_goals
        intros
        exact ⟨rfl, rfl, rfl, rfl, hd, rfl⟩
  exact ⟨hk.coreState, hk.regs, hk.pc, hk.csrs, hk.tdState, hk.log⟩

/-! ## The form and the extent of the tables -/

/-- The slots of a ring are in the canonical form and its frames within its capacity. -/
structure RingFits (cap : Nat) (r : Ring) : Prop where
  slots : TableWf 0 r.slots
  count : r.count ≤ cap

theorem RingFits.publish {cap : Nat} {r r' : Ring} {f : FrameBits} (h : RingFits cap r) (hc : cap ≤ 2 ^ 31)
    (hp : tryPublish cap r f = some r') : RingFits cap r' where
  slots := by
    unfold tryPublish at hp
    split_ifs at hp
    cases hp
    exact tableWf_put _ _ h.slots
  count := by
    obtain ⟨h1, h2⟩ := count_publish hc h.count hp
    omega

theorem RingFits.consume {cap : Nat} {r r' : Ring} {f : FrameBits} (h : RingFits cap r)
    (hc : tryConsume cap r = some (f, r')) : RingFits cap r' where
  slots := by
    unfold tryConsume at hc
    split_ifs at hc
    cases hc
    exact h.slots
  count := by
    have := count_consume hc
    have := h.count
    omega

/-- The parameters are these, and the tables beside the Region table and the byte store are in their canonical form,
with the rings within their capacity. -/
structure TablesFit (p : Params) (s : State) : Prop where
  par : s.par = p
  csrs : TableWf 0 s.csrs
  caps : TableWf Cap.absent s.caps
  svcs : TableWf SvcEntry.absent s.svcs
  req : RingFits p.ringCap s.req
  rsp : RingFits p.ringCap s.rsp

theorem caps_restoreImage (m : Image) (s : State) : (restoreImage m s).caps = put Cap.absent m.rid m.cap s.caps := by
  rw [restoreImage_eq]
  split_ifs <;> simp [putBack]

theorem caps_wf_restoreImages {s : State} (h : TableWf Cap.absent s.caps) (l : List Image) :
    TableWf Cap.absent (restoreImages l s).caps := by
  induction l with
  | nil => exact h
  | cons m l ih =>
    rw [restoreImages, caps_restoreImage]
    exact tableWf_put _ _ ih

theorem caps_wf_restoreAtTermination {s : State} (h : TableWf Cap.absent s.caps) :
    TableWf Cap.absent (restoreAtTermination s).caps := by
  unfold restoreAtTermination
  split_ifs
  · exact caps_wf_restoreImages h _
  · exact h

theorem caps_wf_applyTouches {s : State} (h : TableWf Cap.absent s.caps) (l : List Touch) :
    TableWf Cap.absent (applyTouches l s).caps := by
  induction l generalizing s with
  | nil => exact h
  | cons k l ih => exact ih (tableWf_put _ _ h)

section

variable {p : Params} {s : State} (h : TablesFit p s)

include h

theorem tablesFit_writeCsr (c : CsrNum) (v : Word) : TablesFit p (s.writeCsr c v) :=
  ⟨h.par, tableWf_put _ _ h.csrs, h.caps, h.svcs, h.req, h.rsp⟩

theorem tablesFit_setCap (i : Nat) (c : Cap) : TablesFit p (s.setCap i c) :=
  ⟨h.par, h.csrs, tableWf_put _ _ h.caps, h.svcs, h.req, h.rsp⟩

theorem tablesFit_answer (r : Reply) : TablesFit p (s.answer r) := ⟨h.par, h.csrs, h.caps, h.svcs, h.req, h.rsp⟩

theorem tablesFit_bump (i : Nat) : TablesFit p (s.bump i) := by
  rw [State.bump_rest]
  exact ⟨h.par, h.csrs, h.caps, h.svcs, h.req, h.rsp⟩

theorem tablesFit_execShape {t : State} (hs : ExecShape s t) : TablesFit p t := by
  cases hs with
  | trap | registers | store => exact ⟨h.par, h.csrs, h.caps, h.svcs, h.req, h.rsp⟩
  | csr rd v c w =>
    have hc := tablesFit_writeCsr h c w
    exact ⟨hc.par, hc.csrs, hc.caps, hc.svcs, hc.req, hc.rsp⟩

theorem tablesFit_terminateCore (k : Kind) (v e : Word) : TablesFit p (terminateCore k v e s) := by
  rw [terminateCore_eq]
  exact ⟨h.par, h.csrs, caps_wf_restoreAtTermination h.caps, h.svcs, h.req, h.rsp⟩

theorem tablesFit_deliverFault (k : Kind) (v e : Word) : TablesFit p (deliverFault k v e s) := by
  have hw : TablesFit p (withCauses k v e s) :=
    tablesFit_writeCsr (tablesFit_writeCsr (tablesFit_writeCsr h _ _) _ _) _ _
  have hc : TablesFit p (withCauses k v e s).closeTrap := ⟨hw.par, hw.csrs, hw.caps, hw.svcs, hw.req, hw.rsp⟩
  rw [deliverFault_eq]
  split_ifs
  · have hh := tablesFit_writeCsr hc csrThandler (s.readCsr csrThandler &&& ~~~1)
    exact ⟨hh.par, hh.csrs, hh.caps, hh.svcs, hh.req, hh.rsp⟩
  · exact tablesFit_terminateCore hc k v e

theorem tablesFit_rollback (reason : BitVec 8) : TablesFit p (rollback reason s) := by
  rw [rollback_eq, restoreImages_rest]
  refine tablesFit_deliverFault ?_ _ _ _
  exact ⟨h.par, h.csrs, caps_wf_restoreImages h.caps _, h.svcs, h.req, h.rsp⟩

theorem tablesFit_publishRequest (hc : p.ringCap ≤ 2 ^ 31) (svc : BitVec 16) (off : BitVec 64) (len : BitVec 32) :
    TablesFit p (s.publishRequest svc off len) := by
  refine ⟨h.par, h.csrs, h.caps, h.svcs, ?_, h.rsp⟩
  rw [State.publishRequest_req, h.par]
  cases hp : tryPublish p.ringCap s.req (Frame.toBits ⟨s.req.head, 0, svc, len, off, 0⟩) with
  | none => exact h.req
  | some r => exact h.req.publish hc hp

theorem tablesFit_tdEffect (hc : p.ringCap ≤ 2 ^ 31) {d : TdMove} (he : tdEnabled s d = true) :
    TablesFit p (tdEffect s d) := by
  have consumed : ∀ b r, tryConsume s.par.ringCap s.rsp = some (b, r) → TablesFit p { s with rsp := r } :=
    fun b r hr => ⟨h.par, h.csrs, h.caps, h.svcs, h.req, h.rsp.consume (h.par ▸ hr)⟩
  apply tdEffect_ind (P := TablesFit p) he
  case deliver => exact fun _ k v => tablesFit_deliverFault h k v _
  case protect =>
    intro _ _ rid perms c _ _ _
    have hs := tablesFit_setCap h rid c
    exact ⟨hs.par, hs.csrs, hs.caps, hs.svcs, hs.req, hs.rsp⟩
  case revoke =>
    intro _ _ rid c _ _
    have hs := tablesFit_setCap (tablesFit_bump h rid) rid c
    exact ⟨hs.par, hs.csrs, hs.caps, hs.svcs, hs.req, hs.rsp⟩
  case block =>
    intro _ _ svc off len _
    have hs := tablesFit_publishRequest h hc svc off len
    exact ⟨hs.par, hs.csrs, hs.caps, hs.svcs, hs.req, hs.rsp⟩
  case speculate =>
    intro _ _ svc eff _ _
    have hb : TablesFit p
        (beginEntry s.req.head svc s.setDeadline.tdDeadline (eff.touch.map (·.rid)) s.setDeadline) :=
      ⟨h.par, h.csrs, h.caps, h.svcs, h.req, h.rsp⟩
    have ha : TablesFit p (applyProvisional eff
        (beginEntry s.req.head svc s.setDeadline.tdDeadline (eff.touch.map (·.rid)) s.setDeadline)) := by
      rw [applyProvisional, applyTouches_rest]
      exact ⟨hb.par, hb.csrs, caps_wf_applyTouches hb.caps _, hb.svcs, hb.req, hb.rsp⟩
    have hs := tablesFit_publishRequest ha hc svc eff.reqOffset eff.reqLength
    exact ⟨hs.par, hs.csrs, hs.caps, hs.svcs, hs.req, hs.rsp⟩
  case rollback => exact fun b r reason hr _ => tablesFit_rollback (consumed b r hr) reason
  case expire => exact fun _ => tablesFit_rollback h _
  case discard => exact consumed
  case commit =>
    intro b r hr _
    have hs := consumed b r hr
    exact ⟨hs.par, hs.csrs, hs.caps, hs.svcs, hs.req, hs.rsp⟩
  case result =>
    intro b r _ _ hr _
    have hs := consumed b r hr
    exact ⟨hs.par, hs.csrs, hs.caps, hs.svcs, hs.req, hs.rsp⟩
  all_goals
    intros
    exact ⟨h.par, h.csrs, h.caps, h.svcs, h.req, h.rsp⟩

theorem tablesFit_serviceCmd (hc : p.ringCap ≤ 2 ^ 31) (c : ServiceCmd) : TablesFit p (serviceCmd c s) := by
  apply service_ind (P := TablesFit p)
  case consume =>
    exact fun b r x hr => ⟨h.par, h.csrs, h.caps, h.svcs, h.req.consume (h.par ▸ hr), h.rsp⟩
  case publish =>
    exact fun f r x hr => ⟨h.par, h.csrs, h.caps, h.svcs, h.req, h.rsp.publish hc (h.par ▸ hr)⟩
  all_goals
    intros
    exact ⟨h.par, h.csrs, h.caps, h.svcs, h.req, h.rsp⟩

theorem tablesFit_driverCmd (c : DriverCmd) : TablesFit p (driverCmd c s) := by
  apply driver_ind (P := TablesFit p)
  case caps => exact fun i k x _ => tablesFit_answer (tablesFit_setCap h i k) x
  case svcs => exact fun n e x => ⟨h.par, h.csrs, h.caps, tableWf_put _ _ h.svcs, h.req, h.rsp⟩
  case terminate => exact fun x _ => tablesFit_answer (tablesFit_terminateCore h _ _ _) x
  case revoke =>
    intro g x _ _
    have hs := tablesFit_bump h g.rid.toNat
    exact ⟨hs.par, hs.csrs, hs.caps, hs.svcs, hs.req, hs.rsp⟩
  case retire => exact fun g x _ _ => tablesFit_answer (tablesFit_bump h _) x
  case unmap =>
    intro g x _ _
    refine tablesFit_answer (tablesFit_bump ?_ _) x
    exact ⟨h.par, h.csrs, h.caps, h.svcs, h.req, h.rsp⟩
  all_goals
    intros
    exact ⟨h.par, h.csrs, h.caps, h.svcs, h.req, h.rsp⟩

end

/-- A step changes no parameter and keeps these tables (log entry 1). -/
theorem tablesFit_step {s t : State} (h : step s = .next t) (hs : TablesFit s.par s) : TablesFit s.par t := by
  obtain ⟨hl, ht⟩ := of_step h
  have hc : s.par.ringCap ≤ 2 ^ 31 := by
    obtain ⟨k, hk, hr⟩ := ringCap_of_legal hl
    rw [hr]
    exact Nat.pow_le_pow_right (by norm_num) hk
  have hp : TablesFit s.par (popEnv s) := ⟨hs.par, hs.csrs, hs.caps, hs.svcs, hs.req, hs.rsp⟩
  exact transition_ind ht hp (fun _ _ r => tablesFit_execShape (tablesFit_answer hp r))
    (fun d _ => tablesFit_tdEffect hp hc) ⟨hp.par, hp.csrs, hp.caps, hp.svcs, hp.req, hp.rsp⟩
    (fun c _ _ => tablesFit_serviceCmd hp hc c) (tablesFit_answer hp _) fun c _ _ => tablesFit_driverCmd hp c

/-- The Region's range ends at address `n` or before. -/
abbrev EndsBy (n : Nat) (r : Region) : Prop := r.base.toNat + r.length.toNat ≤ n

theorem regionLaw_endsBy (n : Nat) : RegionLaw (EndsBy n) n where
  cleared _ := (Nat.zero_le n : (0 : BitVec 64).toNat + (0 : BitVec 64).toNat ≤ n)
  gen _ _ h := h
  perms _ _ _ _ h := h
  fresh _ _ _ _ _ _ h := h

theorem mem_wf_bump {s : State} (h : s.mem.wf) (i : Nat) : (s.bump i).mem.wf := by
  unfold State.bump
  split_ifs
  · exact h
  · exact clearRange_wf _ _ h
  · exact h

theorem regions_wf_bump {s : State} (h : TableWf Region.absent s.regions) (i : Nat) :
    TableWf Region.absent (s.bump i).regions := by
  unfold State.bump
  split_ifs
  · exact tableWf_put _ _ h
  · exact tableWf_put _ _ h
  · exact h

/-- The Region table and the byte store are in the canonical form. -/
structure StoreWf (s : State) : Prop where
  mem : s.mem.wf
  regions : TableWf Region.absent s.regions

theorem StoreWf.congr {s t : State} (h : StoreWf s) (hs : SameStore s t) : StoreWf t :=
  ⟨hs.mem ▸ h.mem, hs.regions ▸ h.regions⟩

theorem StoreWf.setRegion {s : State} (h : StoreWf s) (i : Nat) (r : Region) : StoreWf (s.setRegion i r) :=
  ⟨h.mem, tableWf_put _ _ h.regions⟩

theorem StoreWf.bump {s : State} (h : StoreWf s) (i : Nat) : StoreWf (s.bump i) :=
  ⟨mem_wf_bump h.mem i, regions_wf_bump h.regions i⟩

theorem StoreWf.restoreImages {s : State} (h : StoreWf s) (l : List Image) : StoreWf (restoreImages l s) := by
  induction l with
  | nil => exact h
  | cons m l ih =>
    have hp : StoreWf (putBack m (Machine.restoreImages l s)) :=
      ⟨putImage_wf _ _ _ ih.mem, tableWf_put _ _ ih.regions⟩
    rw [Machine.restoreImages, restoreImage_eq]
    split_ifs
    · exact hp.bump _
    · exact hp

theorem StoreWf.applyTouches {s : State} (h : StoreWf s) (l : List Touch) : StoreWf (applyTouches l s) := by
  induction l generalizing s with
  | nil => exact h
  | cons k l ih => exact ih ⟨putImage_wf _ _ _ h.mem, tableWf_put _ _ h.regions⟩

theorem StoreWf.of_storeChange {m : Move} {s t : State} (h : StoreChange m s t) (hs : StoreWf s) : StoreWf t := by
  cases h with
  | same hst => exact hs.congr hst
  | write i a bytes _ _ _ hst =>
    have hw : StoreWf (s.setMem (putBytes s.mem a bytes)) := ⟨putBytes_wf _ _ hs.mem, hs.regions⟩
    exact hw.congr hst
  | map i _ _ _ _ _ _ _ _ _ _ hst => exact (hs.setRegion i _).congr hst
  | protect i _ _ _ _ hst => exact (hs.setRegion i _).congr hst
  | revoke i _ _ _ hst => exact (hs.bump i).congr hst
  | unmap i _ _ _ hst =>
    have hz : StoreWf (s.zeroFill i) := ⟨clearRange_wf _ _ hs.mem, hs.regions⟩
    exact ((hz.setRegion i _).bump i).congr hst
  | restore _ hst => exact (hs.restoreImages _).congr hst
  | speculate eff _ _ hst => exact (hs.applyTouches _).congr hst

/-- Every byte from address `n` up is 0. -/
def ZeroFrom (n : Nat) (s : State) : Prop := ∀ a, n ≤ a → s.byte a = 0

theorem byteAt_putCells_of_forall_ne (m : Memory) {l : Memory} {a : Nat} (h : ∀ c ∈ l, c.1 ≠ a) :
    byteAt (putCells m l) a = byteAt m a := by
  induction l generalizing m with
  | nil => rfl
  | cons c l ih =>
    rw [putCells, ih _ fun d hd => h d (List.mem_cons_of_mem _ hd), byteAt_putByte, if_neg (h c (by simp)).symm]

/-- Replacing a range leaves every byte outside it, whatever the image lists. -/
theorem byteAt_putImage_outside (m : Memory) {base len a : Nat} (image : Memory) (h : ¬inRange base len a = true) :
    byteAt (putImage m base len image) a = byteAt m a := by
  have hc : ∀ c ∈ cellsIn image base len, c.1 ≠ a := by
    rintro c hc rfl
    exact h (List.mem_filter.1 hc).2
  rw [putImage, byteAt_putCells_of_forall_ne _ hc, byteAt_clearRange, if_neg h]

section

variable {n : Nat} {s : State}

theorem not_inRange_of_le {r : Region} (hr : EndsBy n r) {a : Nat} (ha : n ≤ a) :
    ¬inRange r.base.toNat r.length.toNat a = true := by
  rw [inRange_iff]
  omega

theorem ZeroFrom.congr {t : State} (h : ZeroFrom n s) (hs : SameStore s t) : ZeroFrom n t :=
  fun a ha => (hs.byte a).trans (h a ha)

theorem ZeroFrom.bump (h : ZeroFrom n s) (i : Nat) : ZeroFrom n (s.bump i) := by
  intro a ha
  rw [State.byte_bump]
  split_ifs
  · rfl
  · exact h a ha

theorem ZeroFrom.zeroFill (h : ZeroFrom n s) (i : Nat) : ZeroFrom n (s.zeroFill i) := by
  intro a ha
  rw [State.byte_zeroFill]
  split_ifs
  · rfl
  · exact h a ha

theorem ZeroFrom.putImage {r : Region} (h : ZeroFrom n s) (hr : EndsBy n r) (image : Memory) :
    ZeroFrom n (s.setMem (putImage s.mem r.base.toNat r.length.toNat image)) :=
  fun a ha => (byteAt_putImage_outside _ _ (not_inRange_of_le hr ha)).trans (h a ha)

theorem ZeroFrom.restoreImages (h : ZeroFrom n s) {l : List Image}
    (hl : ∀ m ∈ l, EndsBy n m.desc) : ZeroFrom n (restoreImages l s) := by
  induction l with
  | nil => exact h
  | cons m l ih =>
    have hp : ZeroFrom n (putBack m (Machine.restoreImages l s)) :=
      (ih fun k hk => hl k (List.mem_cons_of_mem _ hk)).putImage (hl m (by simp)) m.bytes
    rw [Machine.restoreImages, restoreImage_eq]
    split_ifs
    · exact hp.bump _
    · exact hp

theorem ZeroFrom.applyTouches (h : ZeroFrom n s) (hr : ∀ i, EndsBy n (s.region i)) (l : List Touch) :
    ZeroFrom n (applyTouches l s) := by
  induction l generalizing s with
  | nil => exact h
  | cons k l ih =>
    refine ih (h.putImage (hr k.rid) k.bytes) fun i => ?_
    rw [region_applyTouch]
    split_ifs
    · exact hr k.rid
    · exact hr i

theorem ZeroFrom.of_storeChange {m : Move} {t : State} (h : StoreChange m s t)
    (hr : HoldsOfRegions (EndsBy n) s) (hz : ZeroFrom n s) : ZeroFrom n t := by
  cases h with
  | same hst => exact hz.congr hst
  | write i a bytes _ hin _ hst =>
    refine ZeroFrom.congr (fun b hb => ?_) hst
    have hi := hr.regions i
    have hb' : a + bytes.length ≤ b := by
      obtain ⟨-, hlast⟩ := hin
      omega
    rw [State.byte_setMem, byteAt_putBytes_outside _ _ (.inr hb')]
    exact hz b hb
  | map i _ _ _ _ _ _ _ _ _ _ hst => exact ZeroFrom.congr (s := s.setRegion i _) hz hst
  | protect i _ _ _ _ hst => exact ZeroFrom.congr (s := s.setRegion i _) hz hst
  | revoke i _ _ _ hst => exact (hz.bump i).congr hst
  | unmap i _ _ _ hst =>
    have hc : ZeroFrom n ((s.zeroFill i).setRegion i (s.region i).cleared) := hz.zeroFill i
    exact (hc.bump i).congr hst
  | restore _ hst => exact (hz.restoreImages hr.images).congr hst
  | speculate eff _ _ hst => exact (hz.applyTouches hr.regions _).congr hst

end

/-- Settles O56: the Region table and the byte store by the ways a step changes them, the other tables by following each
transition. -/
theorem storedFormIsKept : Obligations.StoredFormIsKept := by
  intro s t h hc hi hb
  have hsc := step_storeChange h
  have ht := tablesFit_step h ⟨rfl, hc.csrs, hc.caps, hc.svcs, ⟨hc.req, hb.1⟩, ⟨hc.rsp, hb.2⟩⟩
  have hw := StoreWf.of_storeChange hsc ⟨hc.mem, hc.regions⟩
  have hr : HoldsOfRegions (EndsBy s.par.memSize) (popEnv s) := ⟨hi.regions, hi.images⟩
  have hr' : HoldsOfRegions (EndsBy s.par.memSize) t :=
    HoldsOfRegions.of_storeChange (s := popEnv s) (regionLaw_endsBy _) hsc hr
  have hz := ZeroFrom.of_storeChange hsc hr hi.bytes
  refine ⟨⟨hw.mem, ht.csrs, ht.caps, hw.regions, ht.svcs, ht.req.slots, ht.rsp.slots⟩, ?_, ?_⟩
  · rw [← ht.par] at hr' hz
    exact ⟨hr'.regions, hr'.images, hz⟩
  · rw [← ht.par] at ht
    exact ⟨ht.req.count, ht.rsp.count⟩

/-! ## The zero pool -/

/-- The clauses of the zero-pool invariant about Regions and bytes (10_state.md R35 b, e, 20_memory.md R112). -/
structure PoolClean (s : State) : Prop where
  zero : ∀ a, Free s a → s.byte a = 0
  disjoint : ∀ i j a, Covers s i a → Covers s j a → i = j
  slots : ∀ i, s.par.nregion ≤ i → (s.region i).valid = false
  poolPerms : ∀ i, (s.region i).valid = true → (s.region i).owner = 0 → (s.region i).perms = 0
  mem : s.mem.wf

theorem covers_congr {s t : State} {i : Nat} (h : t.region i = s.region i) (a : Nat) : Covers t i a ↔ Covers s i a := by
  rw [Covers, Covers, h]

theorem PoolClean.congr {s t : State} (h : PoolClean s) (hs : SameStore s t) : PoolClean t where
  zero a hf := by
    rw [hs.byte]
    refine h.zero a fun i hc => ?_
    rw [← hs.region]
    exact hf i ((covers_congr (hs.region i) a).2 hc)
  disjoint i j a hi hj := h.disjoint i j a ((covers_congr (hs.region i) a).1 hi) ((covers_congr (hs.region j) a).1 hj)
  slots i hi := by
    rw [hs.region]
    exact h.slots i (hs.par ▸ hi)
  poolPerms i := by
    rw [hs.region]
    exact h.poolPerms i
  mem := hs.mem ▸ h.mem

section

variable {s : State} (h : PoolClean s)

include h

theorem PoolClean.slot {i : Nat} (hv : (s.region i).valid = true) : i < s.par.nregion := by
  by_contra hn
  rw [h.slots i (not_lt.1 hn)] at hv
  cases hv

/-- Bytes written to a Region that is not the pool's. -/
theorem PoolClean.write {i a : Nat} {bytes : List Byte} (hv : (s.region i).valid = true)
    (hin : Inside (s.region i) a bytes.length) (ha : (s.region i).perms.getLsbD 1 = true ∨ (s.region i).owner ≠ 0) :
    PoolClean (s.setMem (putBytes s.mem a bytes)) where
  zero b hf := by
    have ho : (s.region i).owner ≠ 0 := by
      refine ha.elim (fun hp ho => ?_) id
      rw [h.poolPerms i hv ho] at hp
      cases hp
    have hout : b < a ∨ a + bytes.length ≤ b := by
      by_contra hn
      obtain ⟨h1, h2⟩ := hin
      exact ho (hf i ⟨hv, by simp only [State.setMem_region]; omega, by simp only [State.setMem_region]; omega⟩)
    rw [State.byte_setMem, byteAt_putBytes_outside _ _ hout]
    exact h.zero b hf
  disjoint := h.disjoint
  slots := h.slots
  poolPerms := h.poolPerms
  mem := putBytes_wf _ _ h.mem

/-- A descriptor of the same range and owner. -/
theorem PoolClean.redescribe {i : Nat} {r : Region} (hv : r.valid = (s.region i).valid)
    (hb : r.base = (s.region i).base) (hl : r.length = (s.region i).length) (ho : r.owner = (s.region i).owner)
    (hp : r.valid = true → r.owner = 0 → r.perms = 0) : PoolClean (s.setRegion i r) := by
  have hc : ∀ j a, Covers (s.setRegion i r) j a ↔ Covers s j a := by
    intro j a
    rw [Covers, State.region_setRegion]
    split_ifs with hj
    · rw [hv, hb, hl, hj, Covers]
    · rw [Covers]
  refine ⟨fun a hf => h.zero a fun j hj => ?_, fun j k a hj hk => h.disjoint j k a ((hc j a).1 hj) ((hc k a).1 hk),
    fun j hj => ?_, fun j => ?_, h.mem⟩
  · have ho' := hf j ((hc j a).2 hj)
    rw [State.region_setRegion] at ho'
    split_ifs at ho' with hji
    · rw [hji, ← ho, ho']
    · exact ho'
  · rw [State.region_setRegion]
    split_ifs with hji
    · rw [hv, ← hji]
      exact h.slots j hj
    · exact h.slots j hj
  · rw [State.region_setRegion]
    split_ifs
    · exact hp
    · exact h.poolPerms j

/-- A Region zero-filled and its slot emptied (44_addressspace_ops.md R307, R309). -/
theorem PoolClean.empty {i : Nat} {r : Region} (hr : r.valid = false) :
    PoolClean ((s.zeroFill i).setRegion i r) := by
  have hother : ∀ {j}, j ≠ i → ((s.zeroFill i).setRegion i r).region j = s.region j := fun hj => by
    rw [State.region_setRegion, if_neg hj, State.zeroFill_region]
  have hself : ((s.zeroFill i).setRegion i r).region i = r := by rw [State.region_setRegion, if_pos rfl]
  have hne : ∀ {j a}, Covers ((s.zeroFill i).setRegion i r) j a → j ≠ i := by
    rintro j a ⟨hv, -⟩ rfl
    rw [hself, hr] at hv
    cases hv
  refine ⟨fun a hf => ?_, fun j k a hj hk => ?_, fun j hj => ?_, fun j hv => ?_, clearRange_wf _ _ h.mem⟩
  · rw [State.setRegion_byte, State.byte_zeroFill]
    split_ifs with hin
    · rfl
    · refine h.zero a fun j hj => ?_
      have hji : j ≠ i := by
        rintro rfl
        exact hin ((inRange_iff ..).2 hj.2)
      rw [← hother hji]
      exact hf j ((covers_congr (hother hji) a).2 hj)
  · exact h.disjoint j k a ((covers_congr (hother (hne hj)) a).1 hj) ((covers_congr (hother (hne hk)) a).1 hk)
  · by_cases hji : j = i
    · rw [hji, hself, hr]
    · rw [hother hji]
      exact h.slots j hj
  · have hji : j ≠ i := by
      rintro rfl
      rw [hself, hr] at hv
      cases hv
    rw [hother hji] at hv ⊢
    exact h.poolPerms j hv

theorem PoolClean.bump (i : Nat) : PoolClean (s.bump i) := by
  unfold State.bump
  split_ifs
  · exact h.redescribe rfl rfl rfl rfl (h.poolPerms i)
  · exact h.empty rfl
  · exact h

/-- A new Region over bytes that lay in no other (44_addressspace_ops.md R304). -/
theorem PoolClean.map {i : Nat} {r : Region} (hi : i < s.par.nregion) (hu : (s.region i).valid = false)
    (hp : r.owner = 0 → r.perms = 0) (ha : ∀ j a, j < s.par.nregion → Covers s j a →
      ¬(r.base.toNat ≤ a ∧ a < r.base.toNat + r.length.toNat)) : PoolClean (s.setRegion i r) := by
  have hother : ∀ {j}, j ≠ i → (s.setRegion i r).region j = s.region j := fun hj => by
    rw [State.region_setRegion, if_neg hj]
  have hself : (s.setRegion i r).region i = r := by rw [State.region_setRegion, if_pos rfl]
  have hnew : ∀ {a}, Covers (s.setRegion i r) i a → r.base.toNat ≤ a ∧ a < r.base.toNat + r.length.toNat := by
    rintro a ⟨-, hc⟩
    rwa [hself] at hc
  have hold : ∀ {j a}, Covers s j a → j ≠ i := by
    rintro j a ⟨hv, -⟩ rfl
    rw [hu] at hv
    cases hv
  have hapart : ∀ {j a}, j ≠ i → Covers (s.setRegion i r) j a → ¬Covers (s.setRegion i r) i a := fun hj hc hn =>
    have hs := (covers_congr (hother hj) _).1 hc
    ha _ _ (h.slot hs.1) hs (hnew hn)
  refine ⟨fun a hf => h.zero a fun j hj => ?_, fun j k a hj hk => ?_, fun j hj => ?_, fun j hv => ?_, h.mem⟩
  · rw [← hother (hold hj)]
    exact hf j ((covers_congr (hother (hold hj)) a).2 hj)
  · by_cases hji : j = i <;> by_cases hki : k = i
    · rw [hji, hki]
    · exact absurd (hji ▸ hj) (hapart hki hk)
    · exact absurd (hki ▸ hk) (hapart hji hj)
    · exact h.disjoint j k a ((covers_congr (hother hji) a).1 hj) ((covers_congr (hother hki) a).1 hk)
  · have hj' : s.par.nregion ≤ j := hj
    rw [hother (by omega)]
    exact h.slots j hj
  · by_cases hji : j = i
    · rw [hji, hself]
      exact hp
    · rw [hother hji] at hv ⊢
      exact h.poolPerms j hv

/-- A Region's descriptor and bytes replaced, the range kept: as a provisional effect and the restoration of a
before-image do (46_speclog_ops.md R375, R378 step 1). -/
theorem PoolClean.replace {i : Nat} {r : Region} {image : Memory} (c : Cap) (hv : (s.region i).valid = true)
    (hr : r.valid = true) (hb : r.base = (s.region i).base) (hl : r.length = (s.region i).length) (hw : image.wf)
    (hp : r.owner = 0 → r.perms = 0 ∧ ∀ a, inRange r.base.toNat r.length.toNat a → byteAt image a = 0) :
    PoolClean (((s.setRegion i r).setMem (putImage s.mem r.base.toNat r.length.toNat image)).setCap i c) := by
  have hother : ∀ {j}, j ≠ i → (s.setRegion i r).region j = s.region j := fun hj => by
    rw [State.region_setRegion, if_neg hj]
  have hself : (s.setRegion i r).region i = r := by rw [State.region_setRegion, if_pos rfl]
  have hc : ∀ j a, Covers (s.setRegion i r) j a ↔ Covers s j a := by
    intro j a
    by_cases hji : j = i
    · rw [hji, Covers, hself, hr, hb, hl, Covers, hv]
    · exact covers_congr (hother hji) a
  refine ⟨fun a hf => ?_, fun j k a hj hk => h.disjoint j k a ((hc j a).1 hj) ((hc k a).1 hk), fun j hj => ?_,
    fun j hvj => ?_, putImage_wf _ _ _ h.mem⟩
  · have hf' : Free (s.setRegion i r) a := hf
    rw [State.setCap_byte, State.byte_setMem, byteAt_putImage _ _ _ _ hw]
    split_ifs with hin
    · have ho := hf' i ⟨by rw [hself, hr], by rw [hself]; exact (inRange_iff ..).1 hin⟩
      rw [hself] at ho
      exact (hp ho).2 a hin
    · refine h.zero a fun j hj => ?_
      have hji : j ≠ i := by
        rintro rfl
        rw [hb, hl] at hin
        exact hin ((inRange_iff ..).2 hj.2)
      rw [← hother hji]
      exact hf' j ((hc j a).2 hj)
  · have hji : j ≠ i := by
      have hi := h.slot hv
      have hj' : s.par.nregion ≤ j := hj
      omega
    show ((s.setRegion i r).region j).valid = false
    rw [hother hji]
    exact h.slots j hj
  · have hvj' : ((s.setRegion i r).region j).valid = true := hvj
    show ((s.setRegion i r).region j).owner = 0 → ((s.setRegion i r).region j).perms = 0
    by_cases hji : j = i
    · rw [hji, hself]
      exact fun ho => (hp ho).1
    · rw [hother hji] at hvj' ⊢
      exact h.poolPerms j hvj'

theorem PoolClean.restoreImage {m : Image} (hm : ImageOk s m) : PoolClean (restoreImage m s) := by
  have hp : PoolClean (putBack m s) := h.replace (r := { m.desc with gen := (s.region m.rid).gen }) m.cap hm.valid.2
    hm.valid.1 hm.range.1.symm hm.range.2.symm hm.bytes hm.pool
  rw [restoreImage_eq]
  split_ifs
  · exact hp.bump _
  · exact hp

end

theorem imageOk_congr {s t : State} {m : Image} (h : ImageOk s m) (hp : t.par = s.par)
    (hv : (t.region m.rid).valid = (s.region m.rid).valid) (hb : (t.region m.rid).base = (s.region m.rid).base)
    (hl : (t.region m.rid).length = (s.region m.rid).length) : ImageOk t m where
  slot := hp ▸ h.slot
  valid := ⟨h.valid.1, hv ▸ h.valid.2⟩
  range := ⟨hb ▸ h.range.1, hl ▸ h.range.2⟩
  pool := h.pool
  bytes := h.bytes

theorem imageOk_of_region {s t : State} {m : Image} (h : ImageOk s m) (hp : t.par = s.par)
    (hr : t.region m.rid = s.region m.rid) : ImageOk t m := imageOk_congr h hp (by rw [hr]) (by rw [hr]) (by rw [hr])

theorem PoolClean.restoreImages {s : State} (h : PoolClean s) {l : List Image} (hn : (l.map (·.rid)).Nodup)
    (hl : ∀ m ∈ l, ImageOk s m) : PoolClean (restoreImages l s) := by
  induction l with
  | nil => exact h
  | cons m l ih =>
    simp only [List.map_cons, List.nodup_cons] at hn
    refine (ih hn.2 fun k hk => hl k (List.mem_cons_of_mem _ hk)).restoreImage ?_
    exact imageOk_of_region (hl m (by simp)) (restoreImages_par ..) (restoreImages_other l s hn.1).1

/-- What keeps the pool clean when an effect touches a Region (46_speclog_ops.md R372 b). -/
structure TouchOk (s : State) (k : Touch) : Prop where
  valid : (s.region k.rid).valid = true
  bytes : k.bytes.wf
  pool : k.owner = 0 → k.perms = 0 ∧ k.bytes = []

/-- A provisional effect moves no Region (46_speclog_ops.md R375). -/
theorem range_applyTouch (k : Touch) (s : State) (j : Nat) :
    ((applyTouch k s).region j).valid = (s.region j).valid ∧ ((applyTouch k s).region j).base = (s.region j).base ∧
      ((applyTouch k s).region j).length = (s.region j).length := by
  rw [region_applyTouch]
  split_ifs with hj
  · rw [hj]
    exact ⟨rfl, rfl, rfl⟩
  · exact ⟨rfl, rfl, rfl⟩

theorem range_applyTouches (l : List Touch) (s : State) (j : Nat) :
    ((applyTouches l s).region j).valid = (s.region j).valid ∧ ((applyTouches l s).region j).base = (s.region j).base ∧
      ((applyTouches l s).region j).length = (s.region j).length := by
  induction l generalizing s with
  | nil => exact ⟨rfl, rfl, rfl⟩
  | cons k l ih =>
    obtain ⟨hv, hb, hl⟩ := ih (applyTouch k s)
    obtain ⟨hv', hb', hl'⟩ := range_applyTouch k s j
    exact ⟨hv.trans hv', hb.trans hb', hl.trans hl'⟩

theorem PoolClean.applyTouches {s : State} (h : PoolClean s) {l : List Touch} (hl : ∀ k ∈ l, TouchOk s k) :
    PoolClean (applyTouches l s) := by
  induction l generalizing s with
  | nil => exact h
  | cons k l ih =>
    have hk := hl k (by simp)
    have ha : PoolClean (applyTouch k s) := by
      refine h.replace (r := { s.region k.rid with perms := k.perms, owner := k.owner }) k.cap hk.valid hk.valid rfl rfl
        hk.bytes fun ho => ?_
      obtain ⟨hp, hb⟩ := hk.pool ho
      exact ⟨hp, fun a _ => by rw [hb]; rfl⟩
    refine ih ha fun x hx => ?_
    obtain ⟨hv, hb, hp⟩ := hl x (List.mem_cons_of_mem _ hx)
    exact ⟨(range_applyTouch k s x.rid).1.trans hv, hb, hp⟩

/-- The effect of an allocation or of a checked record leaves the pool clean, whatever the core's owner but 0, and names
distinct Regions. -/
theorem touchOk_of_checked {s : State} (h : PoolClean s) (ho : s.coreOwner ≠ 0) {eff : Effect}
    (hc : provAlloc s = some eff ∨ s.validEffect eff = true) :
    (eff.touch.map (·.rid)).Nodup ∧ ∀ k ∈ eff.touch, TouchOk s k := by
  obtain hc | hc := hc
  · obtain ⟨i, -, hv, -, ht⟩ := provAlloc_touch hc
    rw [ht]
    refine ⟨List.nodup_singleton _, fun k hk => ?_⟩
    rw [List.mem_singleton] at hk
    subst hk
    exact ⟨hv, cellsIn_wf _ _ h.mem, fun h0 => absurd h0 ho⟩
  · have he := (validEffect_iff s eff).1 hc
    exact ⟨he.distinct, fun k hk => ⟨(he.touches k hk).valid, (he.touches k hk).canonical, (he.touches k hk).pool⟩⟩

/-- A before-image taken of a valid Region is one that restores it (46_speclog_ops.md R374). -/
theorem imageOk_imageOf {s : State} (h : PoolClean s) {i : Nat} (hv : (s.region i).valid = true) :
    ImageOk s (s.imageOf i) where
  slot := h.slot hv
  valid := ⟨hv, hv⟩
  range := ⟨rfl, rfl⟩
  pool ho := by
    refine ⟨h.poolPerms i hv ho, fun a ha => ?_⟩
    rw [State.imageOf, byteAt_cellsIn]
    split_ifs with hin
    · refine h.zero a fun j hj => ?_
      rw [h.disjoint j i a hj ⟨hv, (inRange_iff ..).1 hin⟩]
      exact ho
    · rfl
  bytes := cellsIn_wf _ _ h.mem

/-- The pool is clean and the before-images of a pending entry restore what they were taken from. -/
structure PoolKept (s : State) : Prop where
  clean : PoolClean s
  images : s.log.state = .pending → (s.log.images.map (·.rid)).Nodup ∧ ∀ m ∈ s.log.images, ImageOk s m

/-- The entry stays, and no Region with a before-image changed. -/
theorem PoolKept.of_untouched {s t : State} (h : PoolKept s) (hc : PoolClean t) (hp : t.par = s.par)
    (hl : t.log = s.log) (hr : s.log.state = .pending → ∀ m ∈ s.log.images, t.region m.rid = s.region m.rid) :
    PoolKept t := by
  refine ⟨hc, fun hq => ?_⟩
  rw [hl] at hq ⊢
  obtain ⟨hn, hi⟩ := h.images hq
  exact ⟨hn, fun m hm => imageOk_of_region (hi m hm) hp (hr hq m hm)⟩

theorem PoolKept.of_consumed {s t : State} (hc : PoolClean t)
    (hl : t.log = { s.log with images := [], state := .empty }) : PoolKept t :=
  ⟨hc, fun hq => by simp [hl] at hq⟩

theorem perms_zero_of_not_badPerms {owner : Owner} {p : Perms} (h : ¬BadPerms owner p) (ho : owner = 0) : p = 0 :=
  not_not.1 fun hp => h (.inr ⟨ho, hp⟩)

theorem region_bump_ne (s : State) {i j : Nat} (h : j ≠ i) : (s.bump i).region j = s.region j := by
  rw [State.region_bump, if_neg h]

theorem PoolKept.of_storeChange {m : Move} {s t : State} (h : StoreChange m s t) (hd : keepsDuty s m)
    (ho : s.tdState = .classify → s.coreOwner ≠ 0) (hs : PoolKept s) : PoolKept t := by
  have apart : ∀ {i}, i ∉ s.log.images.map (·.rid) → ∀ k ∈ s.log.images, k.rid ≠ i :=
    fun hi k hk he => hi (he ▸ List.mem_map_of_mem hk)
  cases h with
  | same hst hl =>
    obtain hl | hl := hl
    · exact hs.of_untouched (hs.clean.congr hst) hst.par hl fun _ k _ => hst.region _
    · exact .of_consumed (hs.clean.congr hst) hl
  | write i a bytes hv hin ha hst hl =>
    exact hs.of_untouched ((hs.clean.write hv hin ha).congr hst) hst.par hl fun _ k _ => hst.region _
  | map i owner base len perms hb _ hi hu ha hduty hst hl =>
    refine hs.of_untouched ((hs.clean.map hi hu (perms_zero_of_not_badPerms hb) ha).congr hst) hst.par hl ?_
    exact fun hp => absurd hp (hduty hd)
  | protect i perms hb _ hduty hst hl =>
    have hc := hs.clean.redescribe (r := { s.region i with perms := perms }) rfl rfl rfl rfl fun _ =>
      perms_zero_of_not_badPerms hb
    refine hs.of_untouched (hc.congr hst) hst.par hl fun hp k hk => ?_
    rw [hst.region, State.region_setRegion, if_neg (apart (hduty hd hp) k hk)]
  | revoke i _ _ hduty hst hl =>
    refine hs.of_untouched ((hs.clean.bump i).congr hst) (hst.par.trans (State.bump_par s i)) hl fun hp k hk => ?_
    rw [hst.region, region_bump_ne _ (apart (hduty hd hp) k hk)]
  | unmap i _ _ hduty hst hl =>
    refine hs.of_untouched (((hs.clean.empty rfl).bump i).congr hst) (hst.par.trans (State.bump_par ..)) hl
      fun hp k hk => ?_
    have hk' := apart (hduty hd hp) k hk
    rw [hst.region, region_bump_ne _ hk', State.region_setRegion, if_neg hk', State.zeroFill_region]
  | restore hp hst hl =>
    obtain ⟨hn, hi⟩ := hs.images hp
    exact .of_consumed ((hs.clean.restoreImages hn hi).congr hst) hl
  | speculate eff hb hc hst hl =>
    obtain ⟨hn, hk⟩ := touchOk_of_checked hs.clean (ho hb) hc
    refine ⟨(hs.clean.applyTouches hk).congr hst, fun _ => ?_⟩
    rw [hl]
    refine ⟨by simpa [Function.comp_def, State.imageOf] using hn, fun m hm => ?_⟩
    simp only [List.mem_map] at hm
    obtain ⟨_, ⟨k, hkt, rfl⟩, rfl⟩ := hm
    have hr := range_applyTouches eff.touch s k.rid
    rw [← hst.region] at hr
    obtain ⟨hv, hb, hlen⟩ := hr
    have hi := imageOk_imageOf hs.clean (hk k hkt).valid
    exact imageOk_congr hi (hst.par.trans (applyTouches_par ..)) hv hb hlen

/-- A core without an owner has not run (60_exceptions.md R450). -/
def OwnerRan (s : State) : Prop := s.coreOwner = 0 → s.coreRun = false ∧ s.tdState = .idle

section

variable {s : State} (h : OwnerRan s)

include h

theorem OwnerRan.owned (hd : s.tdState ≠ .idle) : s.coreOwner ≠ 0 := fun ho => hd (h ho).2

theorem OwnerRan.congr {t : State} (ho : t.coreOwner = s.coreOwner) (hr : t.coreRun = s.coreRun)
    (hd : t.tdState = s.tdState) : OwnerRan t := by
  rw [OwnerRan, ho, hr, hd]
  exact h

theorem OwnerRan.of_idle {t : State} (ho : t.coreOwner = s.coreOwner) (hr : t.coreRun = s.coreRun)
    (hd : t.tdState = .idle) : OwnerRan t := by
  rw [OwnerRan, ho, hr, hd]
  exact fun h0 => ⟨(h h0).1, rfl⟩

theorem ownerRan_tdEffect {d : TdMove} (he : tdEnabled s d = true) : OwnerRan (tdEffect s d) := by
  have busy : ∀ {t : State} {x}, s.tdState = x → x ≠ .idle → t.coreOwner = s.coreOwner → OwnerRan t :=
    fun hx hn ho h0 => absurd (ho ▸ h0) (h.owned (hx ▸ hn))
  apply tdEffect_ind (P := OwnerRan) he
  case deliver => exact fun hd k v => busy hd (by simp) (by rw [(deliverFault_leaves k v _ s).rest])
  case fail | result =>
    intros
    exact h.of_idle rfl rfl rfl
  case again => exact fun hd => hd.elim (fun hx => busy hx (by simp) rfl) fun hx => busy hx.1 (by simp) rfl
  case commit | discard =>
    intros
    exact h.congr rfl rfl rfl
  case same => exact h
  case rollback =>
    intro b r reason _ _
    have hl := rollback_leaves reason { s with rsp := r }
    exact h.of_idle (by rw [hl.rest]) (by rw [hl.rest]) hl.tdState
  case expire =>
    intro _
    have hl := rollback_leaves 0xFF s
    exact h.of_idle (by rw [hl.rest]) (by rw [hl.rest]) hl.tdState
  case speculate => exact fun hd _ _ _ _ _ => busy hd (by simp) (by simp [applyProvisional, beginEntry])
  case revoke => exact fun hd _ _ _ _ _ => busy hd (by simp) (by simp)
  case debug => exact fun hd => busy hd (by simp) rfl
  case wait | exit | full => exact fun hd _ => busy hd (by simp) rfl
  case block => exact fun hd _ _ _ _ _ => busy hd (by simp) rfl
  case protect => exact fun hd _ _ _ _ _ _ _ => busy hd (by simp) rfl

theorem ownerRan_driverCmd (c : DriverCmd) : OwnerRan (driverCmd c s) := by
  apply driver_ind (P := OwnerRan)
  case entry => exact fun p owner x _ _ _ ho h0 => absurd h0 ho
  case run => exact fun b x _ ho h0 => absurd h0 ho
  case stop => exact fun x h0 => ⟨rfl, (h h0).2⟩
  case debug => exact fun x _ => h.of_idle rfl rfl rfl
  case terminate =>
    intro x _
    have hl := terminateCore_leaves .none 0 s.pcVal s
    have hi := h.of_idle (t := terminateCore .none 0 s.pcVal s) (by rw [hl.rest]) (by rw [hl.rest]) hl.tdState
    exact hi.congr rfl rfl rfl
  case revoke | retire | unmap =>
    intros
    exact h.congr (by simp) (by simp) (by simp)
  all_goals
    intros
    exact h.congr rfl rfl rfl

end

theorem ownerRan_step {s t : State} (h : step s = .next t) (hs : OwnerRan s) : OwnerRan t := by
  have hp : OwnerRan (popEnv s) := hs.congr rfl rfl rfl
  refine transition_ind (of_step h).2 hp (fun _ hr r hx => ?_) (fun d _ => ownerRan_tdEffect hp) (hp.congr rfl rfl rfl)
    (fun c _ _ => ?_) (hp.congr rfl rfl rfl) fun c _ _ => ownerRan_driverCmd hp c
  · have ho : (popEnv s).coreOwner ≠ 0 := hr.elim (fun hrun h0 => Bool.noConfusion (hrun.symm.trans (hp h0).1)) id
    intro h0
    exact absurd (by cases hx <;> exact h0) ho
  · apply service_ind (P := OwnerRan)
    all_goals
      intros
      exact hp.congr rfl rfl rfl

/-- Settles O58: the pool by the ways a step changes the store, each under what it checked or the duty says, and the
owner by following each transition. -/
theorem zeroPoolIsKept : Obligations.ZeroPoolIsKept := by
  intro s t h hd hs
  have hk : PoolKept (popEnv s) :=
    ⟨⟨hs.zero, hs.disjoint, hs.slots, hs.poolPerms, hs.mem⟩, fun hp =>
      (hs.images hp).imp_right fun hi m hm => imageOk_of_region (s := s) (hi m hm) rfl rfl⟩
  have hb : (popEnv s).tdState = .classify → (popEnv s).coreOwner ≠ 0 := by
    intro hb h0
    rw [popEnv_tdState, (hs.owner h0).2] at hb
    cases hb
  have ht := hk.of_storeChange (step_storeChange h) hd hb
  exact {
    zero := ht.clean.zero
    disjoint := ht.clean.disjoint
    slots := ht.clean.slots
    poolPerms := ht.clean.poolPerms
    owner := ownerRan_step h hs.owner
    mem := ht.clean.mem
    images := ht.images }

/-! ## Registers -/

/-- After a rollback the registers are those of the entry's trap record (46_speclog_ops.md R378 step 2). -/
theorem readReg_rollback (reason : BitVec 8) (s : State) {q : Reg} (hq : q ≠ 0) :
    (rollback reason s).readReg q = s.log.tr.reg s.par.xlen q := by
  have h := rollback_leaves reason s
  have hp : (rollback reason s).par = s.par := by rw [h.rest]
  have hne : (0 : Nat) ≠ q.toNat := fun h0 => hq (BitVec.eq_of_toNat_eq h0.symm)
  simp only [State.readReg, TrapRecord.reg, if_neg hq, hp, h.regs, Vector.getElem_set_ne _ _ hne]

/-- Settles O33: by the read-after-write law of the registers and what a rollback leaves in them. -/
theorem registerZeroIsHardWired : Obligations.RegisterZeroIsHardWired := by
  intro s r q v reason
  refine ⟨s.readReg_zero, writeReg_zero s v, State.readReg_zero _, fun hq => ?_, readReg_rollback reason s⟩
  rw [State.readReg_writeReg, if_neg hq, trunc_eq_wrap_toNat]

/-! ## What instructions leave unchanged -/

/-- A byte that an instruction changed lies in a range the CPU's write check passed (20_memory.md R97). -/
theorem ExecShape.byte_changed {s t : State} (h : ExecShape s t) {a : Nat} (ha : t.byte a ≠ s.byte a) :
    ∃ b n, s.cpuAccess b n .write = .ok () ∧ b ≤ a ∧ a < b + n := by
  cases h with
  | trap | registers | csr => exact absurd rfl ha
  | store b bytes hc =>
    refine ⟨b, bytes.length, hc, ?_⟩
    by_contra hn
    exact ha (byteAt_putBytes_outside _ _ (by omega))

/-- Settles O52: by the four ways an instruction can end. -/
theorem instructionsLeaveProtectionState : Obligations.InstructionsLeaveProtectionState := by
  intro i s t h
  have hs := exec_shape h
  refine ⟨?_, fun a => hs.byte_changed⟩
  cases hs <;> exact ⟨rfl, rfl, rfl, rfl, rfl, rfl, rfl, rfl, rfl, rfl, rfl, rfl, rfl, rfl, rfl⟩

/-! ## The instruction a step runs -/

/-- Four bytes are decoded as the word of their little-endian value (20_memory.md R81). -/
theorem wordOfBytes_eq (b0 b1 b2 b3 : Byte) :
    wordOfBytes b0 b1 b2 b3 = BitVec.ofNat 32 (leValue [b0, b1, b2, b3]) := by
  apply BitVec.eq_of_toNat_eq
  have := b0.isLt
  have := b1.isLt
  have := b2.isLt
  have := b3.isLt
  simp only [wordOfBytes, leValue, BitVec.toNat_append, BitVec.toNat_ofNat]
  rw [← Nat.shiftLeft_add_eq_or_of_lt (by omega), ← Nat.shiftLeft_add_eq_or_of_lt (by omega),
    ← Nat.shiftLeft_add_eq_or_of_lt (by omega)]
  simp only [Nat.shiftLeft_eq]
  omega

theorem decodeBytes_bytesAt (x : Xlen) (m : Memory) (a : Nat) : decodeBytes x (bytesAt m a 4) =
    (decode x (BitVec.ofNat 32 (leValue (bytesAt m a 4)))).map fun i => (i, []) := by
  simp only [bytesAt, decodeBytes, wordOfBytes_eq]

/-- The instruction the four bytes decode to is that of the fetched word. -/
theorem decode_of_decodeBytes {x : Xlen} {m : Memory} {a : Nat} {i : Instr}
    (h : decodeBytes x (bytesAt m a 4) = .ok (i, [])) :
    decode x (BitVec.ofNat 32 (leValue (bytesAt m a 4))) = .ok i := by
  rw [decodeBytes_bytesAt] at h
  cases hd : decode x (BitVec.ofNat 32 (leValue (bytesAt m a 4))) with
  | error e =>
    rw [hd] at h
    cases h
  | ok j =>
    rw [hd] at h
    cases h
    rfl

theorem cpuStep_of_decodeBytes {s : State} {i : Instr} (hc : s.cpuAccess s.pcVal.toNat 4 .execute = .ok ())
    (hd : decodeBytes s.par.xlen (bytesAt s.mem s.pcVal.toNat 4) = .ok (i, [])) : cpuStep s = exec i s := by
  simp only [cpuStep, State.fetch, hc, decode_of_decodeBytes hd]

/-- Settles O8: the move is the CPU's step or the driver's STEP, enabled, and fetches the bytes that decode. -/
theorem stepRunsTheDecodedInstruction : Obligations.StepRunsTheDecodedInstruction := by
  intro s i hl hc hd
  refine ⟨fun hm hr hf => ?_, fun hm hr hf ho => ?_⟩
  · rw [step_of_legal hl, hm, transition_of_none _ rfl, perform, if_pos (by simp [cpuEnabled, hr, hf])]
    exact cpuStep_of_decodeBytes (s := popEnv s) hc hd
  · rw [step_of_legal hl, hm, transition_of_none _ rfl, perform, if_pos (by simpa [stepAllowed, hr, hf] using ho)]
    exact cpuStep_of_decodeBytes (s := (popEnv s).answer .ok) hc hd

/-! ## Reset -/

section

variable (p : Params)

theorem readReg_resetFor (r : Reg) : (State.resetFor p).readReg r = 0 := by
  simp [State.readReg, State.resetFor]

theorem trapReg_resetFor (r : Reg) : (State.resetFor p).trapReg r = 0 := by
  simp [State.trapReg, TrapRecord.reg, State.resetFor, TrapRecord.absent]

theorem pcVal_resetFor : (State.resetFor p).pcVal = 0 := trunc_zero _

theorem readCsr_resetFor (c : CsrNum) : (State.resetFor p).readCsr c = 0 := trunc_zero _

theorem armed_resetFor : (State.resetFor p).armed = false := by
  rw [State.armed, readCsr_resetFor]
  rfl

theorem not_covers_resetFor (i a : Nat) : ¬Covers (State.resetFor p) i a := fun h => Bool.noConfusion h.1

end

/-- Settles O11: every read of the state after reset, with the accessors that truncate giving 0 at either width. -/
theorem resetState : Obligations.ResetState := by
  intro p
  exact ⟨_, rfl, rfl, readReg_resetFor p, pcVal_resetFor p, readCsr_resetFor p, armed_resetFor p, rfl, rfl, rfl,
    fun _ => rfl, ⟨rfl, rfl, rfl, rfl, trapReg_resetFor p⟩, fun _ => rfl, fun _ => rfl, ⟨rfl, rfl, rfl, rfl⟩,
    fun _ => ⟨rfl, rfl⟩,
    ⟨rfl, rfl, rfl, rfl, rfl, rfl⟩, rfl, ⟨rfl, rfl, rfl, rfl, rfl⟩, rfl, fun _ => rfl, rfl⟩

theorem alignedPc_resetFor (p : Params) : AlignedPc (State.resetFor p) := ⟨by rw [pcVal_resetFor]; rfl, rfl, rfl⟩

theorem writeXorExecute_resetFor (p : Params) : WriteXorExecute (State.resetFor p) where
  regions _ := (by decide : Perms.writeAndExecute 0 = false)
  images _ hm := absurd hm List.not_mem_nil

theorem crossBlock_resetFor (p : Params) : CrossBlock (State.resetFor p) :=
  crossBlock_of_idle (t := State.resetFor p) CoreState.noConfusion rfl rfl rfl (.inl rfl)

theorem inStore_resetFor (p : Params) : InStore (State.resetFor p) where
  regions _ := Nat.zero_le _
  images _ hm := absurd hm List.not_mem_nil
  bytes _ _ := rfl

theorem ringBounds_resetFor (p : Params) : RingBounds (State.resetFor p) := by
  simp [RingBounds, Ring.count, State.resetFor]

theorem zeroPool_resetFor (p : Params) : ZeroPool (State.resetFor p) where
  zero _ _ := rfl
  disjoint _ _ _ h := absurd h (not_covers_resetFor p _ _)
  slots _ _ := rfl
  poolPerms _ _ _ := rfl
  owner _ := ⟨rfl, rfl⟩
  mem := tableWf_nil _
  images h := LogState.noConfusion h

/-- Settles O60: one lemma an invariant. -/
theorem invariantsHoldAtReset : Obligations.InvariantsHoldAtReset := by
  refine ⟨rfl, fun p s hs => ?_⟩
  subst hs
  exact ⟨alignedPc_resetFor p, writeXorExecute_resetFor p, crossBlock_resetFor p, canonical_resetFor p,
    inStore_resetFor p, ringBounds_resetFor p, zeroPool_resetFor p⟩

end Sys2Proof.Machine
end

section
/-! The statements of the family of 20_memory.md: the access check and the CPU's access through the held handles (R90 to
R93, R98), and the traps of a refused fetch, load or store (R94, R95). -/

namespace Sys2Proof.Machine

open Sys2Proof.Safety

/-! ## The access check -/

theorem asCheck_of_not_inside {s : State} {h : Handle} {addr len : Nat} (hs : ¬IsStale s h)
    (hi : ¬Inside (s.region h.rid) addr len) (need : Need) : s.asCheck h addr len need = .error .outOfRange := by
  rw [← stale_iff] at hs
  rw [← contains_iff] at hi
  rw [State.asCheck, if_neg hs, if_pos (by simp [hi])]

theorem asCheck_of_not_granted {s : State} {h : Handle} {addr len : Nat} {need : Need} (hs : ¬IsStale s h)
    (hi : Inside (s.region h.rid) addr len) (hg : ¬Granted h.mask (s.region h.rid).perms need) :
    s.asCheck h addr len need = .error .denied := by
  rw [← stale_iff] at hs
  rw [← contains_iff] at hi
  rw [← grants_iff] at hg
  rw [State.asCheck, if_neg hs, if_neg (by simp [hi]), if_pos (by simp [hg])]

/-- Settles O27: one lemma a test of the check, in their order. -/
theorem accessCheckOrder : Obligations.AccessCheckOrder := by
  intro s h addr len need
  exact ⟨(asCheck_stale_iff ..).2, fun hs hi => asCheck_of_not_inside hs hi need, asCheck_of_not_granted,
    fun hs hi hg => (asCheck_ok_iff ..).2 ⟨hs, hi, hg⟩⟩

/-- Settles O28: by what the lookup gives with one candidate and with none. -/
theorem cpuAccessUsesTheHeldHandle : Obligations.CpuAccessUsesTheHeldHandle := by
  intro s addr len need
  exact ⟨fun i g hc hu hg => cpuAccess_of_one hc hu g hg, cpuAccess_of_none⟩

/-! ## Refused accesses -/

theorem fetchRaise_eq (a : Word) (e : OpError) :
    fetchRaise a e = ⟨if e = .stale then .staleHandle else .noExec, a⟩ := by
  cases e <;> rfl

theorem dataRaise_eq (a : Word) (e : OpError) :
    dataRaise a e = ⟨if e = .stale then .staleHandle else .memoryViolation, a⟩ := by
  cases e <;> rfl

/-- A permitted fetch (20_memory.md R95). -/
theorem fetch_ok {s : State} (h : s.cpuAccess s.pcVal.toNat 4 .execute = .ok ()) :
    s.fetch = .ok (BitVec.ofNat 32 (littleEndian s s.pcVal.toNat 4)) := by
  rw [State.fetch, h, ← leValue_bytesAt]

theorem fetch_error {s : State} {e : OpError} (h : s.cpuAccess s.pcVal.toNat 4 .execute = .error e) :
    s.fetch = .error (fetchRaise s.pcVal e) := by
  rw [State.fetch, h]

theorem cpuStep_of_fetch_error {s : State} {r : Raise} (h : s.fetch = .error r) : cpuStep s = raise r s := by
  rw [cpuStep, h]

/-- Settles O10: a refused fetch raises at the pc, which is an XLEN-bit value. -/
theorem fetchChecksThenReads : Obligations.FetchChecksThenReads := by
  intro s
  refine ⟨fetch_ok, fun e he => ?_⟩
  have ht := raise_trapped (fetchRaise s.pcVal e) s
  rw [← cpuStep_of_fetch_error (fetch_error he), fetchRaise_eq, State.trunc_pcVal] at ht
  exact ht

theorem addressOf_eq (s : State) (rs1 : Reg) (imm : BitVec 12) : addressOf s rs1 imm = s.effectiveAddress rs1 imm :=
  (effectiveAddress_eq s rs1 imm).symm

/-- An instruction that raises the fault of a refused access at its effective address. -/
theorem accessTraps_of_raise {i : Instr} {s : State} {rs1 : Reg} {imm : BitVec 12} {e : OpError}
    (h : exec i s = raise (dataRaise (s.effectiveAddress rs1 imm) e) s) : AccessTraps i s e (addressOf s rs1 imm) := by
  have ht := raise_trapped (dataRaise (s.effectiveAddress rs1 imm) e) s
  rw [← h, dataRaise_eq, ← addressOf_eq, addressOf, trunc_wrap] at ht
  exact ht

theorem accessTraps_load {i : Instr} {s : State} {n : Nat} {f : Word → Word} {rd rs1 : Reg} {imm : BitVec 12}
    {e : OpError} (hi : exec i s = load n f rd rs1 imm s)
    (h : s.cpuAccess (addressOf s rs1 imm).toNat n .read = .error e) : AccessTraps i s e (addressOf s rs1 imm) := by
  rw [addressOf_eq] at h
  exact accessTraps_of_raise (hi.trans (load_error h f rd))

theorem accessTraps_store {i : Instr} {s : State} {n : Nat} {rs1 rs2 : Reg} {imm : BitVec 12} {e : OpError}
    (hi : exec i s = store n rs1 rs2 imm s) (h : s.cpuAccess (addressOf s rs1 imm).toNat n .write = .error e) :
    AccessTraps i s e (addressOf s rs1 imm) := by
  rw [addressOf_eq] at h
  exact accessTraps_of_raise (hi.trans (store_error h rs2))

/-- Settles O26: each of these instructions is the load or the store of its width, the 64-bit forms at XLEN = 64. -/
theorem refusedAccessesTrap : Obligations.RefusedAccessesTrap := by
  intro s rd rs1 rs2 imm e a ha
  subst ha
  refine ⟨fun h => ⟨?lb, ?lbu⟩, fun h => ⟨?lh, ?lhu⟩, fun h => ⟨?lw, fun hx => ?lwu⟩, fun h hx => ?ld, fun h => ?sb,
    fun h => ?sh, fun h => ?sw, fun h hx => ?sd⟩
  case lb | lbu | lh | lhu | lw => exact accessTraps_load rfl h
  case lwu | ld => exact accessTraps_load (onlyRv64_of hx _ _) h
  case sb | sh | sw => exact accessTraps_store rfl h
  case sd => exact accessTraps_store (onlyRv64_of hx _ _) h

end Sys2Proof.Machine
end

section
/-! The statements of the family of 30_encoding.md about the decoder, the encoder and the table of R151: each is the other's
inverse, one row a word, the operand fields as integers (R140 to R146), and the words no row selects (R160). -/

namespace Sys2Proof

open Safety

/-! ## Selecting a row, and being well-formed -/

theorem selects_iff {r : OpRow} {x : Xlen} {w : BitVec 32} :
    r.selects x w = true ↔ r.xlen.holds x = true ∧ w &&& r.mask = r.pat := by
  rw [OpRow.selects, Bool.and_eq_true, beq_iff_eq]

theorem wf_iff {i : Instr} {x : Xlen} :
    i.wf x = true ↔ (i.rv64Only = true → x = .rv64) ∧ i.evenOffset = true ∧ i.shamtFits x = true := by
  simp [Instr.wf, and_assoc, imp_iff_not_or]

/-! ## Decoding an encoded instruction -/

section rows

variable {n : String} {rx : RowXlen} {x : Xlen} {m p : BitVec 32} {f7 : BitVec 7} {f6 : BitVec 6} {f3 : BitVec 3}
  {op : BitVec 7}

/-- A word that has the fixed bits of a row decodes to the instruction the row builds (30_encoding.md R151). -/
theorem decode_of_fixed {b : BitVec 32 → Instr} (hm : ⟨n, rx, m, p, b⟩ ∈ opRows) (hx : rx.holds x = true)
    {w : BitVec 32} (hw : w &&& m = p) {i : Instr} (hb : b w = i) : decode x w = .ok i :=
  hb ▸ decode_of_row hm (selects_iff.2 ⟨hx, hw⟩)

theorem decode_encU {c : Reg → BitVec 20 → Instr} (hm : ⟨n, rx, 0x0000007F, p, buildU c⟩ ∈ opRows)
    (hx : rx.holds x = true) (hp : encU 0 0 op = p) (rd : Reg) (imm : BitVec 20) :
    decode x (encU imm rd op) = .ok (c rd imm) := by
  refine decode_of_fixed hm hx ((encU_mask ..).trans hp) ?_
  obtain ⟨hd, hi⟩ := encU_fields rd op imm
  rw [buildU, hd, hi]

theorem decode_encJ {c : Reg → BitVec 21 → Instr} (hm : ⟨n, rx, 0x0000007F, p, buildJ c⟩ ∈ opRows)
    (hx : rx.holds x = true) (hp : encU 0 0 op = p) (rd : Reg) {off : BitVec 21} (he : off.getLsbD 0 = false) :
    decode x (encJ off rd op) = .ok (c rd off) := by
  refine decode_of_fixed hm hx ((encJ_mask ..).trans hp) ?_
  rw [buildJ, encJ_rd, encJ_imm _ _ _ he]

theorem decode_encI {c : Reg → Reg → BitVec 12 → Instr} (hm : ⟨n, rx, 0x0000707F, p, buildI c⟩ ∈ opRows)
    (hx : rx.holds x = true) (hp : encI 0 0 f3 0 op = p) (rd rs1 : Reg) (imm : BitVec 12) :
    decode x (encI imm rs1 f3 rd op) = .ok (c rd rs1 imm) := by
  refine decode_of_fixed hm hx ((encI_mask ..).trans hp) ?_
  obtain ⟨hd, h1, hi⟩ := encI_fields rs1 rd f3 op imm
  rw [buildI, hd, h1, hi]

theorem decode_encS {c : Reg → Reg → BitVec 12 → Instr} (hm : ⟨n, rx, 0x0000707F, p, buildS c⟩ ∈ opRows)
    (hx : rx.holds x = true) (hp : encI 0 0 f3 0 op = p) (rs1 rs2 : Reg) (imm : BitVec 12) :
    decode x (encS imm rs2 rs1 f3 op) = .ok (c rs1 rs2 imm) := by
  refine decode_of_fixed hm hx ((encS_mask ..).trans hp) ?_
  obtain ⟨h1, h2⟩ := encS_regs rs2 rs1 f3 op imm
  rw [buildS, h1, h2, encS_imm]

theorem decode_encB {c : Reg → Reg → BitVec 13 → Instr} (hm : ⟨n, rx, 0x0000707F, p, buildB c⟩ ∈ opRows)
    (hx : rx.holds x = true) (hp : encI 0 0 f3 0 op = p) (rs1 rs2 : Reg) {off : BitVec 13}
    (he : off.getLsbD 0 = false) : decode x (encB off rs2 rs1 f3 op) = .ok (c rs1 rs2 off) := by
  refine decode_of_fixed hm hx ((encB_mask ..).trans hp) ?_
  obtain ⟨h1, h2⟩ := encB_regs rs2 rs1 f3 op off
  rw [buildB, h1, h2, encB_imm _ _ _ _ _ he]

theorem decode_encR {c : Reg → Reg → Reg → Instr} (hm : ⟨n, rx, 0xFE00707F, p, buildR c⟩ ∈ opRows)
    (hx : rx.holds x = true) (hp : encR f7 0 0 f3 0 op = p) (rd rs1 rs2 : Reg) :
    decode x (encR f7 rs2 rs1 f3 rd op) = .ok (c rd rs1 rs2) := by
  refine decode_of_fixed hm hx ((encR_mask ..).trans hp) ?_
  obtain ⟨hd, h1, h2⟩ := encR_fields f7 rs2 rs1 rd f3 op
  rw [buildR, hd, h1, h2]

theorem shamt_getLsbD_five {k : BitVec 6} (hk : k.toNat < 32) : k.getLsbD 5 = false := Nat.testBit_lt_two_pow hk

/-- The two rows of a shift-immediate: the amount has 5 bits at XLEN = 32 and 6 bits at XLEN = 64 (30_encoding.md R145). -/
theorem decode_encShift {c : Reg → Reg → BitVec 6 → Instr}
    (h32 : ⟨n, .only32, 0xFE00707F, p, buildShift c⟩ ∈ opRows) (h64 : ⟨n, .only64, 0xFC00707F, p, buildShift c⟩ ∈ opRows)
    (hp : encShift f6 0 0 f3 0 op = p) (rd rs1 : Reg) {k : BitVec 6} (hk : k.toNat < x.bits) :
    decode x (encShift f6 k rs1 f3 rd op) = .ok (c rd rs1 k) := by
  obtain ⟨hd, h1, hn⟩ := encShift_fields f6 rs1 rd f3 op k
  have hb : buildShift c (encShift f6 k rs1 f3 rd op) = c rd rs1 k := by rw [buildShift, hd, h1, hn]
  cases x with
  | rv32 => exact decode_of_fixed h32 rfl ((encShift_mask7 _ _ _ _ _ _ (shamt_getLsbD_five hk)).trans hp) hb
  | rv64 => exact decode_of_fixed h64 rfl ((encShift_mask6 ..).trans hp) hb

theorem decode_encFence (fm pred succ : BitVec 4) (rs1 rd : Reg) :
    decode x (encode (.fence fm pred succ rs1 rd)) = .ok (.fence fm pred succ rs1 rd) :=
  decode_of_fixed (n := "FENCE") (by repeat constructor) rfl (encFence_mask ..) (encFence_fields ..)

end rows

/-- Settles O1: one lemma a format, and `repeat constructor` walks down the table to the row of the instruction. -/
theorem decodeAfterEncode : Obligations.DecodeAfterEncode := by
  intro x i h
  obtain ⟨h64, he, hs⟩ := wf_iff.1 h
  cases i with
  | lui | auipc => exact decode_encU (by repeat constructor) rfl rfl ..
  | jal => exact decode_encJ (by repeat constructor) rfl rfl _ (by simpa [Instr.evenOffset] using he)
  | beq | bne | blt | bge | bltu | bgeu =>
    exact decode_encB (by repeat constructor) rfl rfl _ _ (by simpa [Instr.evenOffset] using he)
  | jalr | lb | lh | lw | lbu | lhu | addi | slti | sltiu | xori | ori | andi | csrrw | csrrs | csrrc | csrrwi | csrrsi
  | csrrci => exact decode_encI (by repeat constructor) rfl rfl ..
  | sb | sh | sw => exact decode_encS (by repeat constructor) rfl rfl ..
  | slli | srli | srai =>
    exact decode_encShift (by repeat constructor) (by repeat constructor) rfl _ _ (of_decide_eq_true hs)
  | add | sub | sll | slt | sltu | xor | srl | sra | or | and => exact decode_encR (by repeat constructor) rfl rfl ..
  | lwu | ld | addiw =>
    cases h64 rfl
    exact decode_encI (by repeat constructor) rfl rfl ..
  | sd =>
    cases h64 rfl
    exact decode_encS (by repeat constructor) rfl rfl ..
  | slliw | srliw | sraiw | addw | subw | sllw | srlw | sraw =>
    cases h64 rfl
    exact decode_encR (by repeat constructor) rfl rfl ..
  | fence => exact decode_encFence ..
  | ecall | ebreak => exact decode_of_fixed (by repeat constructor) rfl rfl rfl

/-! ## Encoding a decoded instruction -/

section rows

variable {n : String} {rx : RowXlen} {m p : BitVec 32} {f7 : BitVec 7} {f6 : BitVec 6} {f3 : BitVec 3} {op : BitVec 7}

/-- Every word that selects the row is the encoding of the instruction the row builds, which is well-formed. -/
def OpRow.Inverts (r : OpRow) : Prop :=
  ∀ x w, r.selects x w = true → (r.build w).wf x = true ∧ encode (r.build w) = w

theorem inverts_of_fixed {b : BitVec 32 → Instr}
    (h : ∀ x w, rx.holds x = true → w &&& m = p → (b w).wf x = true ∧ encode (b w) = w) :
    OpRow.Inverts ⟨n, rx, m, p, b⟩ := fun x w hs =>
  have ⟨hx, hw⟩ := selects_iff.1 hs
  h x w hx hw

theorem inverts_buildU {c : Reg → BitVec 20 → Instr} (hc : ∀ rd imm, encode (c rd imm) = encU imm rd op)
    (hp : p = encU 0 0 op) (hw : ∀ x rd imm, (c rd imm).wf x = rx.holds x) :
    OpRow.Inverts ⟨n, rx, 0x0000007F, p, buildU c⟩ :=
  inverts_of_fixed fun x _ hx h => ⟨(hw x ..).trans hx, (hc ..).trans (encU_of_fields (h.trans hp))⟩

theorem inverts_buildJ {c : Reg → BitVec 21 → Instr} (hc : ∀ rd off, encode (c rd off) = encJ off rd op)
    (hp : p = encU 0 0 op) (hw : ∀ x rd off, (c rd off).wf x = !off.getLsbD 0) :
    OpRow.Inverts ⟨n, rx, 0x0000007F, p, buildJ c⟩ :=
  inverts_of_fixed fun x w _ h =>
    ⟨(hw x ..).trans (congrArg _ (immJOf_even w)), (hc ..).trans (encJ_of_fields (h.trans hp))⟩

theorem inverts_buildI {c : Reg → Reg → BitVec 12 → Instr}
    (hc : ∀ rd rs1 imm, encode (c rd rs1 imm) = encI imm rs1 f3 rd op) (hp : p = encI 0 0 f3 0 op)
    (hw : ∀ x rd rs1 imm, (c rd rs1 imm).wf x = rx.holds x) : OpRow.Inverts ⟨n, rx, 0x0000707F, p, buildI c⟩ :=
  inverts_of_fixed fun x _ hx h => ⟨(hw x ..).trans hx, (hc ..).trans (encI_of_fields (h.trans hp))⟩

theorem inverts_buildS {c : Reg → Reg → BitVec 12 → Instr}
    (hc : ∀ rs1 rs2 imm, encode (c rs1 rs2 imm) = encS imm rs2 rs1 f3 op) (hp : p = encI 0 0 f3 0 op)
    (hw : ∀ x rs1 rs2 imm, (c rs1 rs2 imm).wf x = rx.holds x) : OpRow.Inverts ⟨n, rx, 0x0000707F, p, buildS c⟩ :=
  inverts_of_fixed fun x _ hx h => ⟨(hw x ..).trans hx, (hc ..).trans (encS_of_fields (h.trans hp))⟩

theorem inverts_buildB {c : Reg → Reg → BitVec 13 → Instr}
    (hc : ∀ rs1 rs2 off, encode (c rs1 rs2 off) = encB off rs2 rs1 f3 op) (hp : p = encI 0 0 f3 0 op)
    (hw : ∀ x rs1 rs2 off, (c rs1 rs2 off).wf x = !off.getLsbD 0) : OpRow.Inverts ⟨n, rx, 0x0000707F, p, buildB c⟩ :=
  inverts_of_fixed fun x w _ h =>
    ⟨(hw x ..).trans (congrArg _ (immBOf_even w)), (hc ..).trans (encB_of_fields (h.trans hp))⟩

theorem inverts_buildR {c : Reg → Reg → Reg → Instr}
    (hc : ∀ rd rs1 rs2, encode (c rd rs1 rs2) = encR f7 rs2 rs1 f3 rd op) (hp : p = encR f7 0 0 f3 0 op)
    (hw : ∀ x rd rs1 rs2, (c rd rs1 rs2).wf x = rx.holds x) : OpRow.Inverts ⟨n, rx, 0xFE00707F, p, buildR c⟩ :=
  inverts_of_fixed fun x _ hx h => ⟨(hw x ..).trans hx, (hc ..).trans (encR_of_fields (h.trans hp))⟩

/-- A row of a shift-immediate at XLEN = 32, where bit 25 is fixed at 0 (30_encoding.md R145). -/
theorem inverts_buildShift32 {c : Reg → Reg → BitVec 6 → Instr}
    (hc : ∀ rd rs1 k, encode (c rd rs1 k) = encShift f6 k rs1 f3 rd op) (hp : p = encShift f6 0 0 f3 0 op)
    (hw : ∀ x rd rs1 k, (c rd rs1 k).wf x = decide (k.toNat < x.bits)) (h6 : p &&& 0xFC00707F = p)
    (h25 : p.getLsbD 25 = false) : OpRow.Inverts ⟨n, .only32, 0xFE00707F, p, buildShift c⟩ :=
  inverts_of_fixed fun x w hx h => by
    refine ⟨(hw x ..).trans (decide_eq_true ?_), (hc ..).trans (encShift_of_fields ((mask6_of_mask7 h h6).trans hp))⟩
    cases x with
    | rv32 => exact shamt6_of_mask7 h h25
    | rv64 => cases hx

theorem inverts_buildShift64 {c : Reg → Reg → BitVec 6 → Instr}
    (hc : ∀ rd rs1 k, encode (c rd rs1 k) = encShift f6 k rs1 f3 rd op) (hp : p = encShift f6 0 0 f3 0 op)
    (hw : ∀ x rd rs1 k, (c rd rs1 k).wf x = decide (k.toNat < x.bits)) :
    OpRow.Inverts ⟨n, .only64, 0xFC00707F, p, buildShift c⟩ :=
  inverts_of_fixed fun x w hx h => by
    refine ⟨(hw x ..).trans (decide_eq_true ?_), (hc ..).trans (encShift_of_fields (h.trans hp))⟩
    cases x with
    | rv32 => cases hx
    | rv64 => exact (shamt6Of w).isLt

/-- A row whose words hold no operand. -/
theorem inverts_of_whole {i : Instr} (hi : encode i = p) (hw : ∀ x, i.wf x = rx.holds x) :
    OpRow.Inverts ⟨n, rx, 0xFFFFFFFF, p, fun _ => i⟩ :=
  inverts_of_fixed fun x w hx h =>
    ⟨(hw x).trans hx, hi.trans (h.symm.trans (BitVec.and_allOnes (x := w)))⟩

end rows

theorem rowsControl_invert : ∀ r ∈ rowsControl, r.Inverts := by
  simp only [rowsControl, List.forall_mem_cons]
  refine ⟨?lui, ?auipc, ?jal, ?jalr, ?beq, ?bne, ?blt, ?bge, ?bltu, ?bgeu, List.forall_mem_nil _⟩
  case lui | auipc => exact inverts_buildU (fun _ _ => rfl) rfl fun x _ _ => by cases x <;> rfl
  case jal => exact inverts_buildJ (fun _ _ => rfl) rfl fun _ _ _ => Bool.and_true _
  case jalr => exact inverts_buildI (fun _ _ _ => rfl) rfl fun x _ _ _ => by cases x <;> rfl
  all_goals exact inverts_buildB (fun _ _ _ => rfl) rfl fun _ _ _ _ => Bool.and_true _

theorem rowsMemory_invert : ∀ r ∈ rowsMemory, r.Inverts := by
  simp only [rowsMemory, List.forall_mem_cons]
  refine ⟨?lb, ?lh, ?lw, ?lbu, ?lhu, ?lwu, ?ld, ?sb, ?sh, ?sw, ?sd, List.forall_mem_nil _⟩
  case sb | sh | sw | sd => exact inverts_buildS (fun _ _ _ => rfl) rfl fun x _ _ _ => by cases x <;> rfl
  all_goals exact inverts_buildI (fun _ _ _ => rfl) rfl fun x _ _ _ => by cases x <;> rfl

theorem rowsImmediate_invert : ∀ r ∈ rowsImmediate, r.Inverts := by
  simp only [rowsImmediate, List.forall_mem_cons]
  refine ⟨?addi, ?slti, ?sltiu, ?xori, ?ori, ?andi, ?slli32, ?slli64, ?srli32, ?srli64, ?srai32, ?srai64,
    List.forall_mem_nil _⟩
  case slli32 | srli32 | srai32 =>
    exact inverts_buildShift32 (fun _ _ _ => rfl) rfl (fun _ _ _ _ => rfl) rfl rfl
  case slli64 | srli64 | srai64 => exact inverts_buildShift64 (fun _ _ _ => rfl) rfl fun _ _ _ _ => rfl
  all_goals exact inverts_buildI (fun _ _ _ => rfl) rfl fun x _ _ _ => by cases x <;> rfl

theorem rowsRegister_invert : ∀ r ∈ rowsRegister, r.Inverts := by
  simp only [rowsRegister, List.forall_mem_cons]
  refine ⟨?add, ?sub, ?sll, ?slt, ?sltu, ?xor, ?srl, ?sra, ?or, ?and, List.forall_mem_nil _⟩
  all_goals exact inverts_buildR (fun _ _ _ => rfl) rfl fun x _ _ _ => by cases x <;> rfl

theorem rowsWord_invert : ∀ r ∈ rowsWord, r.Inverts := by
  simp only [rowsWord, List.forall_mem_cons]
  refine ⟨?addiw, ?slliw, ?srliw, ?sraiw, ?addw, ?subw, ?sllw, ?srlw, ?sraw, List.forall_mem_nil _⟩
  case addiw => exact inverts_buildI (fun _ _ _ => rfl) rfl fun x _ _ _ => by cases x <;> rfl
  all_goals exact inverts_buildR (fun _ _ _ => rfl) rfl fun x _ _ _ => by cases x <;> rfl

theorem rowsSystem_invert : ∀ r ∈ rowsSystem, r.Inverts := by
  simp only [rowsSystem, List.forall_mem_cons]
  refine ⟨?fence, ?ecall, ?ebreak, ?csrrw, ?csrrs, ?csrrc, ?csrrwi, ?csrrsi, ?csrrci, List.forall_mem_nil _⟩
  case fence => exact inverts_of_fixed fun x w _ h => ⟨by cases x <;> rfl, encFence_of_fields h⟩
  case ecall | ebreak => exact inverts_of_whole rfl fun x => by cases x <;> rfl
  all_goals exact inverts_buildI (fun _ _ _ => rfl) rfl fun x _ _ _ => by cases x <;> rfl

theorem rows_invert : ∀ r ∈ opRows, r.Inverts := by
  simp only [opRows, List.forall_mem_append]
  exact ⟨⟨⟨⟨⟨rowsControl_invert, rowsMemory_invert⟩, rowsImmediate_invert⟩, rowsRegister_invert⟩, rowsWord_invert⟩,
    rowsSystem_invert⟩

/-- Settles O2: the selected row inverts. -/
theorem encodeAfterDecode : Obligations.EncodeAfterDecode := by
  intro x w i h
  obtain ⟨r, hm, hs, rfl⟩ := decode_ok h
  exact rows_invert r hm x w hs

/-! ## One row a word -/

theorem length_le_one_of_pairwise {α : Type} {l : List α} (h : l.Pairwise fun _ _ => False) : l.length ≤ 1 := by
  match l, h with
  | [], _ | [_], _ => simp
  | _ :: b :: _, h => exact ((List.pairwise_cons.1 h).1 b List.mem_cons_self).elim

/-- At most one row selects a word, as any two rows are apart (30_encoding.md R152). -/
theorem selecting_rows_length_le (x : Xlen) (w : BitVec 32) : (opRows.filter fun r => r.selects x w).length ≤ 1 := by
  refine length_le_one_of_pairwise (List.pairwise_filter.2 (rows_apart.imp fun ha hr hq => ?_))
  rw [not_selects_both ha hr] at hq
  cases hq

/-- Settles O3: no two rows select one word, so the row found first is the only one. -/
theorem decodingSelectsTheOneRow : Obligations.DecodingSelectsTheOneRow := by
  intro x w
  exact ⟨selecting_rows_length_le x w, fun r hm => decode_of_row hm, decode_error⟩

/-! ## Operand fields as integers -/

theorem toNat_append_eq {n m : Nat} (a : BitVec n) (b : BitVec m) : (a ++ b).toNat = a.toNat * 2 ^ m + b.toNat := by
  rw [BitVec.toNat_append, ← Nat.shiftLeft_add_eq_or_of_lt b.isLt, Nat.shiftLeft_eq]

theorem extractLsb'_toNat_eq (k n : Nat) (w : BitVec 32) : (w.extractLsb' k n).toNat = w.toNat / 2 ^ k % 2 ^ n := by
  rw [BitVec.extractLsb'_toNat, Nat.shiftRight_eq_div_pow]

/-- A value whose top bit is `b` and whose other bits are `r`, read as signed. -/
theorem toInt_of_sign {n b r : Nat} {v : BitVec (n + 1)} (h : v.toNat = b * 2 ^ n + r) (hr : r < 2 ^ n) :
    v.toInt = -b * 2 ^ n + r := by
  have hv := v.isLt
  rw [pow_succ] at hv
  have hb : b < 2 := by
    by_contra hb
    have := Nat.mul_le_mul_right (2 ^ n) (not_lt.1 hb)
    omega
  rw [BitVec.toInt_eq_toNat_cond, pow_succ, h]
  interval_cases b <;> split_ifs <;> push_cast <;> omega

/-- The sign of a word is its bit 31. -/
theorem toInt_word (w : BitVec 32) : w.toInt = -(w.toNat / 2 ^ 31 : Nat) * 2 ^ 31 + (w.toNat % 2 ^ 31 : Nat) :=
  toInt_of_sign (Nat.div_add_mod' ..).symm (Nat.mod_lt _ (Nat.two_pow_pos _))

theorem immIOf_toNat (w : BitVec 32) : (immIOf w).toNat = w.toNat / 2 ^ 20 := by
  rw [immIOf, extractLsb'_toNat_eq]
  omega

theorem immIOf_toInt (w : BitVec 32) : (immIOf w).toInt = w.toInt / 2 ^ 20 := by
  rw [toInt_word, toInt_of_sign (b := w.toNat / 2 ^ 31) (r := w.toNat / 2 ^ 20 % 2 ^ 11)]
  · omega
  · rw [immIOf_toNat]
    omega
  · omega

theorem immUOf_toInt (w : BitVec 32) : (immUOf w).toInt = w.toInt / 2 ^ 12 := by
  rw [toInt_word, toInt_of_sign (b := w.toNat / 2 ^ 31) (r := w.toNat / 2 ^ 12 % 2 ^ 19)]
  · omega
  · rw [immUOf, extractLsb'_toNat_eq]
    omega
  · omega

theorem immSOf_toInt (w : BitVec 32) :
    (immSOf w).toInt = w.toInt / 2 ^ 25 * 2 ^ 5 + (w.toNat / 2 ^ 7 % 2 ^ 5 : Nat) := by
  rw [toInt_word, toInt_of_sign (b := w.toNat / 2 ^ 31)
    (r := w.toNat / 2 ^ 25 % 2 ^ 6 * 2 ^ 5 + w.toNat / 2 ^ 7 % 2 ^ 5)]
  · omega
  · simp only [immSOf, toNat_append_eq, extractLsb'_toNat_eq]
    omega
  · omega

theorem immBOf_toInt (w : BitVec 32) : (immBOf w).toInt = w.toInt / 2 ^ 31 * 2 ^ 12 +
    (w.toNat / 2 ^ 7 % 2 * 2 ^ 11 : Nat) + (w.toNat / 2 ^ 25 % 2 ^ 6 * 2 ^ 5 : Nat) +
    (w.toNat / 2 ^ 8 % 2 ^ 4 * 2 : Nat) := by
  rw [toInt_word, toInt_of_sign (b := w.toNat / 2 ^ 31)
    (r := w.toNat / 2 ^ 7 % 2 * 2 ^ 11 + w.toNat / 2 ^ 25 % 2 ^ 6 * 2 ^ 5 + w.toNat / 2 ^ 8 % 2 ^ 4 * 2)]
  · omega
  · simp only [immBOf, toNat_append_eq, extractLsb'_toNat_eq, BitVec.toNat_ofNat]
    omega
  · omega

theorem immJOf_toInt (w : BitVec 32) : (immJOf w).toInt = w.toInt / 2 ^ 31 * 2 ^ 20 +
    (w.toNat / 2 ^ 12 % 2 ^ 8 * 2 ^ 12 : Nat) + (w.toNat / 2 ^ 20 % 2 * 2 ^ 11 : Nat) +
    (w.toNat / 2 ^ 21 % 2 ^ 10 * 2 : Nat) := by
  rw [toInt_word, toInt_of_sign (b := w.toNat / 2 ^ 31)
    (r := w.toNat / 2 ^ 12 % 2 ^ 8 * 2 ^ 12 + w.toNat / 2 ^ 20 % 2 * 2 ^ 11 + w.toNat / 2 ^ 21 % 2 ^ 10 * 2)]
  · omega
  · simp only [immJOf, toNat_append_eq, extractLsb'_toNat_eq, BitVec.toNat_ofNat]
    omega
  · omega

/-- Settles O4: one lemma an immediate, each a sign bit `w[31]` over the rest of its bits. -/
theorem operandFieldsOfAWord : Obligations.OperandFieldsOfAWord := by
  intro w
  exact ⟨extractLsb'_toNat_eq .., extractLsb'_toNat_eq .., extractLsb'_toNat_eq .., immIOf_toNat w, immIOf_toInt w,
    immSOf_toInt w, immBOf_toInt w, immUOf_toInt w, immJOf_toInt w, extractLsb'_toNat_eq ..⟩

/-! ## Words no row selects -/

/-- The row fixes bits `k + n - 1 .. k` of the words that select it. -/
abbrev OpRow.Fixes (r : OpRow) (k n : Nat) : Prop := r.mask.extractLsb' k n = BitVec.allOnes n

/-- A field that a row fixes has the row's value in every word that selects the row. -/
theorem field_of_selects {r : OpRow} {x : Xlen} {w : BitVec 32} (hs : r.selects x w = true) {k n : Nat}
    (hf : r.Fixes k n) : r.pat.toNat / 2 ^ k % 2 ^ n = w.toNat / 2 ^ k % 2 ^ n := by
  obtain ⟨-, hw⟩ := selects_iff.1 hs
  have he : r.pat.extractLsb' k n = w.extractLsb' k n := by
    rw [← hw, BitVec.extractLsb'_and, hf, BitVec.and_allOnes]
  rw [← extractLsb'_toNat_eq, he, extractLsb'_toNat_eq]

section

variable {x : Xlen} {w : BitVec 32}

theorem rows_fix_opcode : ∀ r ∈ opRows, r.Fixes 0 7 := by decide

theorem opcodeOf_of_selects {r : OpRow} (hm : r ∈ opRows) (hs : r.selects x w = true) :
    opcodeOf r.pat = opcodeOf w := by
  simpa [opcodeOf] using field_of_selects hs (rows_fix_opcode r hm)

theorem rejected_of_rows (h : ∀ r ∈ opRows, r.xlen.holds x = true → r.selects x w = true →
    opcodeOf r.pat = opcodeOf w → False) : Rejected x w :=
  decode_error fun r hm => Bool.eq_false_iff.2 fun hs =>
    h r hm (selects_iff.1 hs).1 hs (opcodeOf_of_selects hm hs)

/-- Rejection by the opcode: no row of this XLEN has one with the property. -/
theorem rejected_of_opcode {Q : Nat → Prop} (h : Q (opcodeOf w))
    (ht : ∀ r ∈ opRows, r.xlen.holds x = true → ¬Q (opcodeOf r.pat)) : Rejected x w :=
  rejected_of_rows fun r hm hx _ he => ht r hm hx (he ▸ h)

/-- Rejection by opcode and funct3: no row of the opcode has a funct3 with the property. -/
theorem rejected_of_funct3 {o : Nat} (ho : opcodeOf w = o) {Q : Nat → Prop} (h : Q (funct3Of w))
    (ht : ∀ r ∈ opRows, r.xlen.holds x = true → opcodeOf r.pat = o → r.Fixes 12 3 ∧ ¬Q (funct3Of r.pat)) :
    Rejected x w := by
  refine rejected_of_rows fun r hm hx hs he => ?_
  obtain ⟨hf, hq⟩ := ht r hm hx (he.trans ho)
  have h3 : funct3Of r.pat = funct3Of w := field_of_selects hs hf
  exact hq (h3 ▸ h)

theorem upper_of_selects {r : OpRow} (hs : r.selects x w = true) {k : Nat} (hk : k ≤ 32) (hf : r.Fixes k (32 - k)) :
    r.pat.toNat / 2 ^ k = w.toNat / 2 ^ k := by
  have top (v : BitVec 32) : v.toNat / 2 ^ k < 2 ^ (32 - k) :=
    Nat.div_lt_of_lt_mul (by rw [← pow_add, Nat.add_sub_cancel' hk]; exact v.isLt)
  rw [← Nat.mod_eq_of_lt (top r.pat), field_of_selects hs hf, Nat.mod_eq_of_lt (top w)]

/-- Rejection by opcode, funct3 and bits 31:k: where funct3 has the property `Q`, each row of the opcode fixes these bits
too, at a value without the property `R`. -/
theorem rejected_of_upper {o : Nat} (ho : opcodeOf w = o) {k : Nat} (hk : k ≤ 32) {Q : Nat → Prop}
    {R : Nat → Nat → Prop} (h3 : Q (funct3Of w)) (h : R (funct3Of w) (w.toNat / 2 ^ k))
    (ht : ∀ r ∈ opRows, r.xlen.holds x = true → opcodeOf r.pat = o → r.Fixes 12 3 ∧
      (Q (funct3Of r.pat) → r.Fixes k (32 - k) ∧ ¬R (funct3Of r.pat) (r.pat.toNat / 2 ^ k))) : Rejected x w := by
  refine rejected_of_rows fun r hm hx hs he => ?_
  obtain ⟨hf, hq⟩ := ht r hm hx (he.trans ho)
  have e3 : funct3Of r.pat = funct3Of w := field_of_selects hs hf
  obtain ⟨hu, hr⟩ := hq (e3 ▸ h3)
  rw [e3, upper_of_selects hs hk hu] at hr
  exact hr h

end

/-- Settles O6: each clause names fields that no row of the table has at this XLEN. -/
theorem listedWordsAreIllegal : Obligations.ListedWordsAreIllegal := by
  intro x w
  refine ⟨fun h => ?low, fun h => ?long, fun h => ?absent, fun ho h7 h => ?op, fun ho h0 h => ?op32,
    fun ho h3 h => ?slli, fun ho h3 h => ?srli, fun ho h3 h0 h => ?opImm32, fun hx h => ?rv64, fun hx ho h3 h => ?shamt,
    fun ho h => ?jalr, fun ho h => ?load, fun ho h => ?store, fun ho h => ?branch, fun ho h => ?fence, fun ho h => ?system⟩
  case low =>
    exact rejected_of_opcode (Q := fun o => o % 4 ≠ 3) (by rw [opcodeOf]; omega) (by cases x <;> decide)
  case long =>
    exact rejected_of_opcode (Q := fun o => o / 4 % 8 = 7) (by rw [opcodeOf]; omega) (by cases x <;> decide)
  case absent => exact rejected_of_opcode h (by cases x <;> decide)
  case op =>
    exact rejected_of_upper ho (k := 25) (by decide) (Q := fun _ => True)
      (R := fun f g => g ≠ 0 ∧ ¬(g = 0b0100000 ∧ f ∈ [0, 5])) trivial ⟨h7, h⟩ (by cases x <;> decide)
  case op32 =>
    exact rejected_of_upper ho (k := 25) (by decide) (Q := fun _ => True)
      (R := fun f g => ¬(g = 0 ∧ f ∈ [0, 1, 5]) ∧ ¬(g = 0b0100000 ∧ f ∈ [0, 5])) trivial ⟨h0, h⟩ (by cases x <;> decide)
  case slli =>
    exact rejected_of_upper ho (k := 26) (by decide) (Q := (· = 1)) (R := fun _ g => g ≠ 0) h3 h (by cases x <;> decide)
  case srli =>
    exact rejected_of_upper ho (k := 26) (by decide) (Q := (· = 5)) (R := fun _ g => g ∉ [0, 0b010000]) h3 h
      (by cases x <;> decide)
  case opImm32 =>
    exact rejected_of_upper ho (k := 25) (by decide) (Q := (· ≠ 0))
      (R := fun f g => ¬(g = 0 ∧ f ∈ [1, 5]) ∧ ¬(g = 0b0100000 ∧ f = 5)) h3 ⟨h0, h⟩ (by cases x <;> decide)
  case rv64 =>
    subst hx
    exact rejected_of_opcode h (by decide)
  case shamt =>
    subst hx
    exact rejected_of_upper ho (k := 25) (by decide) (Q := (· ∈ [1, 5])) (R := fun _ g => g % 2 = 1) h3 h (by decide)
  case jalr | fence => exact rejected_of_funct3 ho (Q := (· ≠ 0)) h (by cases x <;> decide)
  case load =>
    exact rejected_of_funct3 ho (Q := fun f => f = 7 ∨ x = .rv32 ∧ f ∈ [3, 6]) h (by cases x <;> decide)
  case store =>
    exact rejected_of_funct3 ho (Q := fun f => 4 ≤ f ∨ x = .rv32 ∧ f = 3) h (by cases x <;> decide)
  case branch => exact rejected_of_funct3 ho (Q := (· ∈ [2, 3])) h (by cases x <;> decide)
  case system =>
    obtain h4 | ⟨h0, h⟩ := h
    · exact rejected_of_funct3 ho (Q := (· = 4)) h4 (by cases x <;> decide)
    · exact rejected_of_upper ho (k := 7) (by decide) (Q := (· = 0)) (R := fun _ g => g ∉ [0, 0x2000]) h0 h
        (by cases x <;> decide)

end Sys2Proof
end

section
/-! The statements of the family of 30_encoding.md about execution: a word that decodes to nothing (R160), the shifts and
their amounts (R145), and the terms that have no word at XLEN = 32. -/

namespace Sys2Proof.Machine

open Sys2Proof.Safety

/-! ## Undecoded words -/

/-- A fetched word that is no instruction is an illegal one (30_encoding.md R160). -/
theorem cpuStep_of_undecoded {s : State} {w : BitVec 32} (hf : s.fetch = .ok w)
    (hd : ∀ i, decode s.par.xlen w ≠ .ok i) : cpuStep s = illegal w s := by
  rw [cpuStep, hf]
  cases h : decode s.par.xlen w with
  | error => simp only [h]
  | ok i => exact absurd h (hd i)

/-- Settles O7: the step is the trap of an illegal word. -/
theorem undecodedWordTraps : Obligations.UndecodedWordTraps := by
  intro s w hf hd
  refine ⟨rfl, ?_⟩
  rw [cpuStep_of_undecoded hf hd]
  exact illegal_trapped w s

/-! ## Shifts -/

section shifts

variable {i : Instr} {s : State} {rd rs : Reg} {n : Nat}

theorem computes_shiftLeft (he : exec i s = retireWith rd (shiftLeft s.par.xlen (s.readReg rs) n) s) :
    Computes i s rd (wrap s.par.xlen ((s.readReg rs).toNat * 2 ^ n)) :=
  computes_of_retireWith he (by rw [shiftLeft_eq_wrap, trunc_wrap])

theorem computes_shiftRight (he : exec i s = retireWith rd (shiftRight s.par.xlen (s.readReg rs) n) s) :
    Computes i s rd (wrap s.par.xlen ((s.readReg rs).toNat / 2 ^ n)) :=
  computes_of_retireWith he (by rw [shiftRight_eq (s.readReg_lt rs), trunc_wrap]; push_cast; rfl)

theorem computes_shiftRightArith (he : exec i s = retireWith rd (shiftRightArith s.par.xlen (s.readReg rs) n) s) :
    Computes i s rd (wrap s.par.xlen (signedValue s.par.xlen (s.readReg rs) / 2 ^ n)) :=
  computes_of_retireWith he (by rw [shiftRightArith_eq (s.readReg_lt rs), trunc_wrap])

end shifts

/-- Settles O16: an amount below XLEN passes the check of the shift-immediates. -/
theorem shiftImmediateResults : Obligations.ShiftImmediateResults := by
  intro s rd rs1 n hn
  exact ⟨computes_shiftLeft (shamtBelowXlen_of hn _ _), computes_shiftRight (shamtBelowXlen_of hn _ _),
    computes_shiftRightArith (shamtBelowXlen_of hn _ _)⟩

/-- Settles O17: `shiftAmount` is `x[rs2]` modulo XLEN. -/
theorem registerShiftResults : Obligations.RegisterShiftResults := by
  intro s rd rs1 rs2 n hn
  subst hn
  exact ⟨computes_shiftLeft rfl, computes_shiftRight rfl, computes_shiftRightArith rfl⟩

/-! ## Terms without a word at XLEN = 32 -/

/-- A term of an RV64I row at XLEN = 32 (log entry 14). -/
theorem exec_of_rv64Only {s : State} (hx : s.par.xlen = .rv32) {i : Instr} (h : i.rv64Only = true) :
    exec i s = illegal (encode i) s := by
  cases i with
  | lwu | ld | sd | addiw | slliw | srliw | sraiw | addw | subw | sllw | srlw | sraw => exact onlyRv64_at32 hx _ _
  | _ => cases h

/-- A shift-immediate by XLEN or more (log entry 14). -/
theorem exec_of_not_shamtFits {s : State} {i : Instr} (h : i.shamtFits s.par.xlen = false) :
    exec i s = illegal (encode i) s := by
  cases i with
  | slli | srli | srai => exact shamtBelowXlen_not (of_decide_eq_false h) _ _
  | _ => cases h

/-- Settles O20: either form is run as an illegal word, the one it encodes to. -/
theorem rv64FormsTrapAtXlen32 : Obligations.Rv64FormsTrapAtXlen32 := by
  intro s i hx h
  have he : exec i s = illegal (encode i) s := h.elim (exec_of_rv64Only hx) fun h => exec_of_not_shamtFits (hx ▸ h)
  rw [Traps, he]
  exact illegal_trapped _ s

end Sys2Proof.Machine
end

section
/-! The statements of the family of 40_integer_computational.md: each instruction's result as integer arithmetic modulo
2^XLEN (R170 to R191, R205), the word instructions as arithmetic modulo 2^32 (R192 to R200), and the words of the spec's
examples. -/

namespace Sys2Proof.Machine

open Sys2Proof.Safety

/-! ## Upper immediates -/

/-- The U-immediate is its 20-bit field times 2^12, as a signed value (30_encoding.md R143). -/
theorem toInt_append_zero (imm : BitVec 20) : (imm ++ 0#12).toInt = imm.toInt * 2 ^ 12 := by
  rw [BitVec.toInt_append]
  simp [mul_comm]

theorem upperImm_eq_wrap (x : Xlen) (imm : BitVec 20) : upperImm x imm = wrap x (imm.toInt * 2 ^ 12) := by
  rw [upperImm, sext_eq_wrap x _ (by norm_num), toInt_append_zero]

theorem trunc_add_upperImm (x : Xlen) (a : Word) (imm : BitVec 20) :
    trunc x (a + upperImm x imm) = wrap x (a.toNat + imm.toInt * 2 ^ 12) := by
  rw [upperImm, trunc_add_sext x a _ (by norm_num), toInt_append_zero]

/-- Settles O12: the shifted immediate as an integer, alone and added to the pc. -/
theorem upperImmediateResults : Obligations.UpperImmediateResults := by
  intro s rd imm
  exact ⟨computes_of_retireWith rfl (by rw [upperImm_eq_wrap, trunc_wrap]),
    computes_of_retireWith rfl (trunc_add_upperImm ..)⟩

/-! ## Addition and subtraction -/

/-- Settles O13: truncation makes each 64-bit sum or difference one modulo 2^XLEN. -/
theorem addSubtractResults : Obligations.AddSubtractResults := by
  intro s rd rs1 rs2 imm
  exact ⟨computes_of_retireWith rfl (trunc_add_sext _ _ _ (by norm_num)),
    computes_of_retireWith rfl (trunc_add_eq_wrap ..), computes_of_retireWith rfl (trunc_sub_eq_wrap ..)⟩

/-! ## Comparisons -/

theorem lessSigned_iff (x : Xlen) (a b : Word) : lessSigned x a b = true ↔ signed x a < signed x b := decide_eq_true_iff

theorem lessUnsigned_iff (x : Xlen) (a b : Word) :
    lessUnsigned x a b = true ↔ (trunc x a).toNat < (trunc x b).toNat := decide_eq_true_iff

theorem signed_readReg (s : State) (r : Reg) :
    signed s.par.xlen (s.readReg r) = signedValue s.par.xlen (s.readReg r) := signed_eq (s.readReg_lt r)

/-- An instruction whose result is a truth value. -/
theorem computes_boolWord {i : Instr} {s : State} {rd : Reg} {b : Bool} {p : Prop} [Decidable p]
    (he : exec i s = retireWith rd (boolWord b) s) (h : b = true ↔ p) : Computes i s rd (if p then 1 else 0) :=
  computes_of_retireWith he (trunc_boolWord _ h)

/-- Settles O14: each comparison as one of integers, the immediate sign-extended before either. -/
theorem setLessResults : Obligations.SetLessResults := by
  intro s rd rs1 rs2 imm
  refine ⟨computes_boolWord rfl ?slti, computes_boolWord rfl ?sltiu, computes_boolWord rfl ?slt,
    computes_boolWord rfl ?sltu⟩
  case slti => rw [lessSigned_iff, signed_readReg, signed_sext]
  case sltiu => rw [lessUnsigned_iff, State.trunc_readReg, trunc_sext, sext_eq_wrap _ _ (by norm_num)]
  case slt => rw [lessSigned_iff, signed_readReg, signed_readReg]
  case sltu => rw [lessUnsigned_iff, State.trunc_readReg, State.trunc_readReg]

/-! ## Bitwise operations -/

/-- Settles O15: truncation passes through each operation to operands that are XLEN-bit values already. -/
theorem logicalResults : Obligations.LogicalResults := by
  intro s rd rs1 rs2 imm
  have himm : sext s.par.xlen imm = wrap s.par.xlen imm.toInt := sext_eq_wrap _ _ (by norm_num)
  refine ⟨computes_of_retireWith rfl ?xori, computes_of_retireWith rfl ?ori, computes_of_retireWith rfl ?andi,
    computes_of_retireWith rfl ?xor, computes_of_retireWith rfl ?or, computes_of_retireWith rfl ?and⟩
  case xori => rw [trunc_xor, State.trunc_readReg, trunc_sext, himm]
  case ori => rw [trunc_or, State.trunc_readReg, trunc_sext, himm]
  case andi => rw [trunc_and, State.trunc_readReg, trunc_sext, himm]
  case xor => rw [trunc_xor, State.trunc_readReg, State.trunc_readReg]
  case or => rw [trunc_or, State.trunc_readReg, State.trunc_readReg]
  case and => rw [trunc_and, State.trunc_readReg, State.trunc_readReg]

/-! ## Word instructions -/

theorem toNat_low32 (v : Word) : (low32 v).toNat = v.toNat % 2 ^ 32 := BitVec.toNat_setWidth ..

theorem toInt_low32 (v : Word) : (low32 v).toInt = Int.bmod v.toNat (2 ^ 32) := BitVec.toInt_setWidth ..

/-- A word instruction at XLEN = 64 whose 32-bit result agrees with `z` modulo 2^32. -/
theorem computes_sextWord {i : Instr} {s : State} {rd : Reg} {t : BitVec 32} {z : Int} (hx : s.par.xlen = .rv64)
    (he : exec i s = onlyRv64 i s (retireWith rd (sextWord t) s)) (hz : (t.toNat : Int) % 2 ^ 32 = z % 2 ^ 32) :
    Computes i s rd (wrap .rv64 (Int.bmod z (2 ^ 32))) :=
  computes_of_retireWith (he.trans (onlyRv64_of hx _ _)) (by rw [hx, sextWord_eq hz, trunc_wrap])

/-- A word instruction on the low word of a 64-bit result (40_integer_computational.md R192, R196, R197). -/
theorem computes_low32 {i : Instr} {s : State} {rd : Reg} {v : Word} {z : Int} (hx : s.par.xlen = .rv64)
    (he : exec i s = onlyRv64 i s (retireWith rd (sextWord (low32 v)) s))
    (hv : trunc s.par.xlen v = wrap s.par.xlen z) : Computes i s rd (wrap .rv64 (Int.bmod z (2 ^ 32))) := by
  refine computes_sextWord hx he ?_
  have hw : v.toNat = (z % 2 ^ 64).toNat := by
    rw [hx] at hv
    exact (congrArg BitVec.toNat hv).trans (wrap_toNat .rv64 z)
  rw [toNat_low32, hw]
  omega

/-- Settles O18: the sums and differences modulo 2^64 of O13, cut to their low word. -/
theorem wordAddSubtractResults : Obligations.WordAddSubtractResults := by
  intro s rd rs1 rs2 imm hx
  exact ⟨computes_low32 hx rfl (trunc_add_sext _ _ _ (by norm_num)), computes_low32 hx rfl (trunc_add_eq_wrap ..),
    computes_low32 hx rfl (trunc_sub_eq_wrap ..)⟩

section wordShifts

variable {i : Instr} {s : State} {rd : Reg} {v : Word} {n : Nat}

theorem computes_shiftLeftWord (hx : s.par.xlen = .rv64)
    (he : exec i s = onlyRv64 i s (retireWith rd (sextWord (low32 v <<< n)) s)) :
    Computes i s rd (wrap .rv64 (Int.bmod (v.toNat * 2 ^ n) (2 ^ 32))) := by
  refine computes_sextWord hx he ?_
  rw [BitVec.toNat_shiftLeft, Nat.shiftLeft_eq, toNat_low32]
  push_cast
  rw [Int.emod_emod]
  exact (Int.mod_modEq _ _).mul_right _

theorem computes_shiftRightWord (hx : s.par.xlen = .rv64)
    (he : exec i s = onlyRv64 i s (retireWith rd (sextWord (low32 v >>> n)) s)) :
    Computes i s rd (wrap .rv64 (Int.bmod (v.toNat % 2 ^ 32 / 2 ^ n) (2 ^ 32))) := by
  refine computes_sextWord hx he ?_
  rw [BitVec.toNat_ushiftRight, Nat.shiftRight_eq_div_pow, toNat_low32]
  push_cast
  rfl

theorem computes_shiftRightArithWord (hx : s.par.xlen = .rv64)
    (he : exec i s = onlyRv64 i s (retireWith rd (sextWord ((low32 v).sshiftRight n)) s)) :
    Computes i s rd (wrap .rv64 (Int.bmod v.toNat (2 ^ 32) / 2 ^ n)) := by
  refine computes_of_retireWith (he.trans (onlyRv64_of hx _ _)) ?_
  rw [hx, sextWord_eq_wrap, trunc_wrap, BitVec.toInt_sshiftRight, Int.shiftRight_eq_div_pow, toInt_low32]
  push_cast
  rfl

end wordShifts

/-- Settles O19: the shifts of the low word, by an immediate and by `x[rs2]` modulo 32. -/
theorem wordShiftResults : Obligations.WordShiftResults := by
  intro s rd rs1 rs2 k n hx hn
  subst hn
  exact ⟨computes_shiftLeftWord hx rfl, computes_shiftRightWord hx rfl, computes_shiftRightArithWord hx rfl,
    computes_shiftLeftWord hx rfl, computes_shiftRightWord hx rfl, computes_shiftRightArithWord hx rfl⟩

/-! ## The words of the spec's examples -/

/-- Settles O5: closed facts, evaluated by the decoder. -/
theorem specExampleWordsDecode : Obligations.SpecExampleWordsDecode := by
  unfold Obligations.SpecExampleWordsDecode
  decide

end Sys2Proof.Machine
end

section
/-! The statements of the family of 41_control_transfer.md: the links and targets of JAL and JALR (R230, R232, R233),
the conditions of the branches (R234 to R239), and the trap of a misaligned target (R231). -/

namespace Sys2Proof.Machine

open Sys2Proof.Safety

/-! ## Targets -/

theorem pcTarget_eq_targetOf (s : State) {n : Nat} (off : BitVec n) (h : n ≤ 64) : s.pcTarget off = targetOf s off :=
  pcTarget_eq s off h

theorem regTarget_eq_jumpTarget (s : State) (rs1 : Reg) (imm : BitVec 12) :
    s.regTarget rs1 imm = jumpTarget s rs1 imm := by
  rw [State.regTarget, and_not_one, Nat.mul_comm, jumpTarget, addressOf_eq]

@[simp] theorem State.trunc_pcTarget (s : State) {n : Nat} (off : BitVec n) :
    trunc s.par.xlen (s.pcTarget off) = s.pcTarget off := trunc_trunc _ _

/-- Clearing bit 0 keeps an XLEN-bit value one (41_control_transfer.md R233). -/
@[simp] theorem State.trunc_regTarget (s : State) (rs1 : Reg) (imm : BitVec 12) :
    trunc s.par.xlen (s.regTarget rs1 imm) = s.regTarget rs1 imm := by
  refine trunc_of_lt (lt_of_le_of_lt ?_ (trunc_lt s.par.xlen (s.readReg rs1 + sext s.par.xlen imm)))
  rw [regTarget_toNat]
  exact Nat.div_mul_le_self _ 2

@[simp] theorem State.trunc_linkValue (s : State) : trunc s.par.xlen s.linkValue = nextPc s :=
  (trunc_trunc _ _).trans (trunc_add_eq_wrap ..)

/-! ## Jumps and misaligned targets -/

section transfers

variable {i : Instr} {s : State} {p : Word} (hp : trunc s.par.xlen p = p)

include hp

theorem wrote_of_transfer {rd : Reg} (he : exec i s = transfer p (s.writeReg rd s.linkValue) s)
    (ha : p.toNat % 4 = 0) : ∃ t, exec i s = .next t ∧ Wrote s t rd (nextPc s) p := by
  have hw := wrote_setPc s rd s.linkValue p
  rw [State.trunc_linkValue, hp] at hw
  exact ⟨_, he.trans (transfer_aligned ha _ _), hw⟩

/-- The trap is taken from the state before any link (41_control_transfer.md R231). -/
theorem traps_of_transfer {s' : State} (he : exec i s = transfer p s' s) (ha : p.toNat % 4 ≠ 0) :
    Traps i s .misalignedTarget p := by
  have ht := raise_trapped ⟨.misalignedTarget, p⟩ s
  rw [hp, ← transfer_misaligned ha s' s, ← he] at ht
  exact ht

end transfers

/-- Settles O21: JAL and JALR link and transfer to an XLEN-bit target. -/
theorem jumpsLinkAndTransfer : Obligations.JumpsLinkAndTransfer := by
  intro s rd rs1 off imm
  rw [← pcTarget_eq_targetOf s off (by norm_num), ← regTarget_eq_jumpTarget]
  exact ⟨wrote_of_transfer (s.trunc_pcTarget off) rfl, wrote_of_transfer (s.trunc_regTarget rs1 imm) rfl⟩

/-! ## Branches -/

/-- The instruction is a branch by `off` whose test decides `c`. -/
def BranchesOn (i : Instr) (s : State) (off : BitVec 13) (c : Prop) : Prop :=
  ∃ b, exec i s = branch b off s ∧ (b = true ↔ c)

section branches

variable {i : Instr} {s : State} {off : BitVec 13} {c : Prop}

theorem BranchesOn.exec_of_taken (h : BranchesOn i s off c) (hc : c) : exec i s = transfer (s.pcTarget off) s s := by
  obtain ⟨b, he, hb⟩ := h
  exact he.trans (if_pos (hb.2 hc))

theorem BranchesOn.exec_of_notTaken (h : BranchesOn i s off c) (hc : ¬c) : exec i s = .next s.advance := by
  obtain ⟨b, he, hb⟩ := h
  exact he.trans (if_neg fun e => hc (hb.1 e))

theorem BranchesOn.branches (h : BranchesOn i s off c) : Branches i s c (targetOf s off) := by
  rw [← pcTarget_eq_targetOf s off (by norm_num)]
  refine ⟨fun hc ha => ?taken, fun hc => ?notTaken⟩
  case taken =>
    have ht := onlyPc_setPc s (s.pcTarget off)
    rw [State.trunc_pcTarget] at ht
    exact ⟨_, (h.exec_of_taken hc).trans (transfer_aligned ha _ _), ht⟩
  case notTaken => exact ⟨_, h.exec_of_notTaken hc, onlyPc_advance s⟩

theorem BranchesOn.traps (h : BranchesOn i s off c) (ha : (targetOf s off).toNat % 4 ≠ 0) (hc : c) :
    Traps i s .misalignedTarget (targetOf s off) := by
  rw [← pcTarget_eq_targetOf s off (by norm_num)] at ha ⊢
  exact traps_of_transfer (s.trunc_pcTarget off) (h.exec_of_taken hc) ha

end branches

/-! ## The tests of the branches -/

section tests

variable (s : State) (rs1 rs2 : Reg) (off : BitVec 13)

theorem same_readReg : same s.par.xlen (s.readReg rs1) (s.readReg rs2) = true ↔ s.readReg rs1 = s.readReg rs2 := by
  rw [same, State.trunc_readReg, State.trunc_readReg, beq_iff_eq]

theorem lessSigned_readReg : lessSigned s.par.xlen (s.readReg rs1) (s.readReg rs2) = true ↔
    signedValue s.par.xlen (s.readReg rs1) < signedValue s.par.xlen (s.readReg rs2) := by
  rw [lessSigned_iff, signed_readReg, signed_readReg]

theorem lessUnsigned_readReg : lessUnsigned s.par.xlen (s.readReg rs1) (s.readReg rs2) = true ↔
    (s.readReg rs1).toNat < (s.readReg rs2).toNat := by
  rw [lessUnsigned_iff, State.trunc_readReg, State.trunc_readReg]

theorem beq_branchesOn : BranchesOn (.beq rs1 rs2 off) s off (s.readReg rs1 = s.readReg rs2) :=
  ⟨_, rfl, same_readReg s rs1 rs2⟩

theorem bne_branchesOn : BranchesOn (.bne rs1 rs2 off) s off (s.readReg rs1 ≠ s.readReg rs2) :=
  ⟨_, rfl, Bool.not_iff_not.trans (not_congr (same_readReg s rs1 rs2))⟩

theorem blt_branchesOn : BranchesOn (.blt rs1 rs2 off) s off
    (signedValue s.par.xlen (s.readReg rs1) < signedValue s.par.xlen (s.readReg rs2)) :=
  ⟨_, rfl, lessSigned_readReg s rs1 rs2⟩

theorem bge_branchesOn : BranchesOn (.bge rs1 rs2 off) s off
    (¬signedValue s.par.xlen (s.readReg rs1) < signedValue s.par.xlen (s.readReg rs2)) :=
  ⟨_, rfl, Bool.not_iff_not.trans (not_congr (lessSigned_readReg s rs1 rs2))⟩

theorem bltu_branchesOn : BranchesOn (.bltu rs1 rs2 off) s off ((s.readReg rs1).toNat < (s.readReg rs2).toNat) :=
  ⟨_, rfl, lessUnsigned_readReg s rs1 rs2⟩

theorem bgeu_branchesOn : BranchesOn (.bgeu rs1 rs2 off) s off (¬(s.readReg rs1).toNat < (s.readReg rs2).toNat) :=
  ⟨_, rfl, Bool.not_iff_not.trans (not_congr (lessUnsigned_readReg s rs1 rs2))⟩

end tests

/-- Settles O22: each branch by what its test decides. -/
theorem branchesFollowTheirCondition : Obligations.BranchesFollowTheirCondition := by
  rintro s rs1 rs2 off _ _ rfl rfl
  exact ⟨(beq_branchesOn ..).branches, (bne_branchesOn ..).branches, (blt_branchesOn ..).branches,
    (bge_branchesOn ..).branches, (bltu_branchesOn ..).branches, (bgeu_branchesOn ..).branches⟩

/-- Settles O23: jumps and taken branches are transfers to their target, which raise where it is misaligned. -/
theorem misalignedTargetsTrap : Obligations.MisalignedTargetsTrap := by
  rintro s rd rs1 rs2 joff imm off _ _ rfl rfl
  rw [← pcTarget_eq_targetOf s joff (by norm_num), ← regTarget_eq_jumpTarget]
  exact ⟨traps_of_transfer (s.trunc_pcTarget joff) rfl, traps_of_transfer (s.trunc_regTarget rs1 imm) rfl,
    fun ha => ⟨(beq_branchesOn ..).traps ha, (bne_branchesOn ..).traps ha, (blt_branchesOn ..).traps ha,
      (bge_branchesOn ..).traps ha, (bltu_branchesOn ..).traps ha, (bgeu_branchesOn ..).traps ha⟩⟩

end Sys2Proof.Machine
end

section
/-! The statements of the family of 42_load_store.md: the value a permitted load leaves in `rd` (R251 to R257) and the
bytes a permitted store writes (R258 to R261). -/

namespace Sys2Proof.Machine

open Sys2Proof.Safety

/-! ## Loads -/

section loads

variable {i : Instr} {s : State} {n : Nat} {rd rs1 : Reg} {imm : BitVec 12}

/-- A permitted load of `n` bytes leaves what `f` makes of their value, at XLEN bits (42_load_store.md R250). -/
theorem computes_of_load {f : Word → Word} (he : exec i s = load n f rd rs1 imm s)
    (h : s.cpuAccess (addressOf s rs1 imm).toNat n .read = .ok ()) :
    Computes i s rd
      (trunc s.par.xlen (f (BitVec.ofNat 64 (littleEndian s (addressOf s rs1 imm).toNat n)))) := by
  rw [addressOf_eq] at h ⊢
  exact computes_of_retireWith (he.trans (load_ok h f rd)) rfl

/-- The low `m` bits, sign-extended, are the value modulo 2^m read as signed (00_scope.md R9). -/
theorem trunc_sext_setWidth_ofNat (x : Xlen) {m : Nat} (hm : m ≤ 64) (v : Nat) :
    trunc x (sext x ((BitVec.ofNat 64 v).setWidth m)) = wrap x (Int.bmod v (2 ^ m)) := by
  rw [trunc_sext, sext_eq_wrap x _ hm, BitVec.setWidth_ofNat_of_le hm, BitVec.toInt_ofNat']

/-- A load whose value is the low `m` bits, sign-extended (42_load_store.md R251 to R253). -/
theorem computes_sext_of_load {m : Nat} (hm : m ≤ 64)
    (he : exec i s = load n (fun v => sext s.par.xlen (v.setWidth m)) rd rs1 imm s)
    (h : s.cpuAccess (addressOf s rs1 imm).toNat n .read = .ok ()) :
    Computes i s rd
      (wrap s.par.xlen (Int.bmod (littleEndian s (addressOf s rs1 imm).toNat n) (2 ^ m))) := by
  have hc := computes_of_load he h
  rwa [trunc_sext_setWidth_ofNat _ hm] at hc

/-- The value of no more than XLEN bits' worth of bytes is an XLEN-bit value. -/
theorem trunc_littleEndian {x : Xlen} (hn : 8 * n ≤ x.bits) (s : State) (a : Nat) :
    trunc x (BitVec.ofNat 64 (littleEndian s a n)) = BitVec.ofNat 64 (littleEndian s a n) := by
  apply trunc_of_lt
  calc (BitVec.ofNat 64 (littleEndian s a n)).toNat
    _ ≤ littleEndian s a n := (BitVec.toNat_ofNat ..).trans_le (Nat.mod_le ..)
    _ < (2 ^ 8) ^ n := littleEndian_lt s a n
    _ = 2 ^ (8 * n) := (pow_mul ..).symm
    _ ≤ 2 ^ x.bits := Nat.pow_le_pow_right two_pos hn

/-- A load whose value is zero-extended (42_load_store.md R254 to R257). -/
theorem computes_zext_of_load (hn : 8 * n ≤ s.par.xlen.bits) (he : exec i s = load n id rd rs1 imm s)
    (h : s.cpuAccess (addressOf s rs1 imm).toNat n .read = .ok ()) :
    Computes i s rd (BitVec.ofNat 64 (littleEndian s (addressOf s rs1 imm).toNat n)) := by
  have hc := computes_of_load he h
  rwa [id, trunc_littleEndian hn] at hc

end loads

/-- Settles O24: each load is the sign- or the zero-extending load of its width, the 64-bit forms at XLEN = 64. -/
theorem loadResults : Obligations.LoadResults := by
  intro s rd rs1 imm a ha
  subst ha
  have hb := bits_cases s.par.xlen
  refine ⟨fun h => ⟨?lb, ?lbu⟩, fun h => ⟨?lh, ?lhu⟩, fun h => ⟨?lw, fun hx => ?lwu⟩, fun h hx => ?ld⟩
  case lb | lh | lw => exact computes_sext_of_load (by norm_num) rfl h
  case lbu | lhu => exact computes_zext_of_load (by omega) rfl h
  case lwu => exact computes_zext_of_load (by omega) (onlyRv64_of hx _ _) h
  case ld => exact computes_zext_of_load (hx ▸ le_rfl) (onlyRv64_of hx _ _) h

/-! ## Stores -/

/-- A permitted store leaves the low `n` bytes of `x[rs2]` at its effective address (42_load_store.md R250). -/
theorem stored_of_store {i : Instr} {s : State} {n : Nat} {rs1 rs2 : Reg} {imm : BitVec 12}
    (he : exec i s = store n rs1 rs2 imm s) (h : s.cpuAccess (addressOf s rs1 imm).toNat n .write = .ok ()) :
    ∃ t, exec i s = .next t ∧ Stored s t (addressOf s rs1 imm).toNat n (s.readReg rs2) := by
  rw [addressOf_eq] at h ⊢
  rw [he]
  exact store_ok h rs2

/-- Settles O25: each of these instructions is the store of its width, the 64-bit form at XLEN = 64. -/
theorem storeResults : Obligations.StoreResults := by
  intro s rs1 rs2 imm a ha
  subst ha
  exact ⟨stored_of_store rfl, stored_of_store rfl, stored_of_store rfl,
    fun h hx => stored_of_store (onlyRv64_of hx _ _) h⟩

end Sys2Proof.Machine
end

section
/-! The statements of the family of 43_system.md: FENCE (R276), the traps of ECALL and EBREAK (R277, R278), and the six
CSR instructions, which share the form of R280 and differ in their operand and in the word they write (R281 to R286). -/

namespace Sys2Proof.Machine

open Sys2Proof.Safety

/-! ## CSR access -/

/-- A bitwise and is no greater than its left side, so it stays an XLEN-bit value. -/
theorem trunc_and_of_left {x : Xlen} {a : Word} (ha : trunc x a = a) (b : Word) : trunc x (a &&& b) = a &&& b := by
  refine trunc_of_lt (lt_of_le_of_lt ?_ (trunc_lt x a))
  rw [ha, BitVec.toNat_and]
  exact Nat.and_le_left

section csrForms

variable {i : Instr} {s : State} {rd : Reg} {c : CsrNum} {v : Word}

/-- An instruction of the common form of R280 whose new word is the XLEN-bit value `w`. -/
theorem wroteCsr_of_csrUpdate {f : Word → Word} {w : Word} (he : exec i s = csrUpdate c rd f s)
    (hw : trunc s.par.xlen (f (s.readCsr c)) = w) :
    ∃ t, exec i s = .next t ∧ WroteCsr s t rd (s.readCsr c) c w := by
  rw [he, ← hw]
  exact csrUpdate_wrote c rd f s

/-- CSRRC and CSRRCI with the operand `v` (43_system.md R283, R286). -/
theorem wroteCsr_clear (he : exec i s = csrUpdate c rd (fun t => t &&& ~~~v) s) :
    ∃ t, exec i s = .next t ∧ WroteCsr s t rd (s.readCsr c) c (s.readCsr c &&& ~~~v) :=
  wroteCsr_of_csrUpdate he (trunc_and_of_left (s.trunc_readCsr c) _)

variable (hv : trunc s.par.xlen v = v)

include hv

/-- CSRRW and CSRRWI with the operand `v` (43_system.md R281, R284). -/
theorem wroteCsr_write (he : exec i s = csrUpdate c rd (fun _ => v) s) :
    ∃ t, exec i s = .next t ∧ WroteCsr s t rd (s.readCsr c) c v :=
  wroteCsr_of_csrUpdate he hv

/-- CSRRS and CSRRSI with the operand `v` (43_system.md R282, R285). -/
theorem wroteCsr_set (he : exec i s = csrUpdate c rd (fun t => t ||| v) s) :
    ∃ t, exec i s = .next t ∧ WroteCsr s t rd (s.readCsr c) c (s.readCsr c ||| v) :=
  wroteCsr_of_csrUpdate he (by rw [trunc_or, State.trunc_readCsr, hv])

end csrForms

/-- Settles O31: the operand `x[rs1]` is an XLEN-bit value. -/
theorem csrRegisterForms : Obligations.CsrRegisterForms := by
  intro s rd rs1 c old v hold hv
  subst hold hv
  have hx := s.trunc_readReg rs1
  exact ⟨wroteCsr_write hx rfl, wroteCsr_set hx rfl, wroteCsr_clear rfl⟩

/-- The zero-extended immediate as a number (30_encoding.md R146). -/
theorem immWord_eq (u : BitVec 5) : immWord u = BitVec.ofNat 64 u.toNat := (BitVec.ofNat_toNat 64 u).symm

/-- Five bits are below 2^XLEN at either width. -/
theorem trunc_immWord (x : Xlen) (u : BitVec 5) : trunc x (immWord u) = immWord u := by
  apply trunc_of_lt
  calc (immWord u).toNat
    _ = u.toNat := BitVec.toNat_setWidth_of_le (by norm_num)
    _ < 2 ^ 5 := u.isLt
    _ ≤ 2 ^ x.bits := Nat.pow_le_pow_right two_pos (by cases x <;> decide)

/-- Settles O32: the operand is the zero-extended immediate. -/
theorem csrImmediateForms : Obligations.CsrImmediateForms := by
  intro s rd u c old v hold hv
  rw [← immWord_eq] at hv
  subst hold hv
  have hu := trunc_immWord s.par.xlen u
  exact ⟨wroteCsr_write hu rfl, wroteCsr_set hu rfl, wroteCsr_clear rfl⟩

/-! ## FENCE -/

/-- Settles O29: FENCE only retires, whatever its fields. -/
theorem fenceOnlyAdvances : Obligations.FenceOnlyAdvances := by
  intro s fm pred succ rs1 rd
  exact ⟨s.advance, rfl, onlyPc_advance s⟩

/-! ## ECALL and EBREAK -/

/-- An instruction that only raises, with an XLEN-bit value, takes that trap (60_exceptions.md R410). -/
theorem traps_of_raise {i : Instr} {s : State} {k : Kind} {v : Word} (he : exec i s = raise ⟨k, v⟩ s)
    (hv : trunc s.par.xlen v = v) : Traps i s k v := by
  have ht := raise_trapped ⟨k, v⟩ s
  rw [hv, ← he] at ht
  exact ht

/-- Settles O30: both words are those the encoder gives, and both instructions only raise. -/
theorem environmentCallsTrap : Obligations.EnvironmentCallsTrap := by
  refine ⟨rfl, rfl, fun x => ⟨?ecallWord, ?ebreakWord⟩, fun s => ⟨?ecall, ?ebreak⟩⟩
  case ecallWord => exact decodeAfterEncode x .ecall rfl
  case ebreakWord => exact decodeAfterEncode x .ebreak rfl
  case ecall => exact traps_of_raise rfl (trunc_zero _)
  case ebreak => exact traps_of_raise rfl s.trunc_pcVal

end Sys2Proof.Machine
end

section
/-! The statements of the family of 44_addressspace_ops.md: MAP (R304), PROTECT (R305), UNMAP and REVOKE (R307, R308) with
the generation increment (R309), and READ, WRITE and LOAD_BYTES (R301 to R303). For each operation first what it answers on
each of its conditions, then the state its command leaves at the port. -/

namespace Sys2Proof.Machine

open Sys2Proof.Safety

/-! ## Commands that are operations -/

theorem perform_driver {c : DriverCmd} {s t : State} (h : driverCmd c s = t) : perform (.driver c) s = .next t :=
  congrArg Host.Outcome.next h

theorem perform_service {c : ServiceCmd} {s t : State} (h : serviceCmd c s = t) : perform (.service c) s = .next t :=
  congrArg Host.Outcome.next h

section commands

variable {α : Type} {s : State} {c : DriverCmd} {r : Except OpError α} {k : α → State}

/-- A command whose operation answers an error changes nothing (44_addressspace_ops.md R311). -/
theorem errs_of_answerOp {e : OpError} (hc : driverCmd c s = s.answerOp r k) (hr : r = .error e) : Errs s c e :=
  perform_driver (hc.trans (answerOp_error hr))

theorem perform_of_answerOp {v : α} {t : State} (hc : driverCmd c s = s.answerOp r k) (hr : r = .ok v) (ht : k v = t) :
    perform (.driver c) s = .next t :=
  perform_driver ((hc.trans (answerOp_ok hr)).trans ht)

end commands

/-! ## Handles and Regions -/

theorem isStale_of_invalid {s : State} {h : Handle} (hv : (s.region h.rid).valid = false) : IsStale s h := .inr (.inl hv)

theorem isStale_of_gen_ne {s : State} {h : Handle} (hg : (s.region h.rid).gen ≠ h.gen) : IsStale s h := .inr (.inr hg)

theorem not_isStale_of {s : State} {h : Handle} (hi : h.rid < s.par.nregion) (hv : (s.region h.rid).valid = true)
    (hg : (s.region h.rid).gen = h.gen) : ¬IsStale s h := by
  simp [IsStale, hi, hv, hg]

/-- The handle answered to the driver goes through the port with the region-id that came through it. -/
theorem handOut_mk (s : State) (i : BitVec 16) (m : Perms) (g : Gen) :
    s.handOut ⟨i.toNat, m, g⟩ = { s with given := s.given.insert ⟨i, m, g⟩, reply := .handle ⟨i, m, g⟩ } := by
  rw [State.handOut, PortHandle.toPort_mk]
  rfl

theorem gen_add_one_ne (g : Gen) : g + 1 ≠ g := by simp

theorem onlyRegion_answer {s t : State} {i : Nat} {r : Region} (h : OnlyRegion s t i r) (x : Reply) :
    OnlyRegion s (t.answer x) i r :=
  ⟨(t.answer_region x i).trans h.1, fun j hj => (t.answer_region x j).trans (h.2 j hj)⟩

/-! ## MAP -/

/-- A slot is taken for MAP where it holds a Region or is retired (44_addressspace_ops.md R304 check 4). -/
theorem slotFree_eq_false_iff (s : State) (i : Nat) :
    s.slotFree i = false ↔ (s.region i).valid = true ∨ (s.region i).gen.toNat = 2 ^ 64 - 1 := by
  rw [← Bool.not_eq_true, slotFree_iff, not_and_or, Bool.not_eq_false, not_not]

theorem any_overlaps_iff (s : State) (base len : Nat) :
    (List.range s.par.nregion).any (s.overlaps base len) = true ↔
      ∃ j a, j < s.par.nregion ∧ Covers s j a ∧ base ≤ a ∧ a < base + len := by
  simp only [List.any_eq_true, List.mem_range, overlaps_iff, exists_and_left]

section opMap

variable {s : State} {owner : Owner} {base len : BitVec 64} {perms : Perms}

theorem opMap_badPerms (hb : BadPerms owner perms) : opMap s owner base len perms = .error .invalidPermissions :=
  if_pos ((badPerms_iff ..).2 hb)

theorem opMap_outOfRange (hb : ¬BadPerms owner perms) (hr : len = 0 ∨ s.par.memSize < base.toNat + len.toNat) :
    opMap s owner base len perms = .error .outOfRange := by
  rw [opMap, if_neg (by rwa [badPerms_iff]), if_pos hr]

/-- MAP of a range that meets a Region (44_addressspace_ops.md R304 check 3). -/
theorem opMap_overlap (hb : ¬BadPerms owner perms) (hr : ¬(len = 0 ∨ s.par.memSize < base.toNat + len.toNat))
    (ho : ∃ j a, j < s.par.nregion ∧ Covers s j a ∧ base.toNat ≤ a ∧ a < base.toNat + len.toNat) :
    opMap s owner base len perms = .error .noSpace := by
  rw [opMap, if_neg (by rwa [badPerms_iff]), if_neg hr, if_pos ((any_overlaps_iff ..).2 ho)]

/-- MAP with no slot free: the third and the fourth check have one answer (44_addressspace_ops.md R304). -/
theorem opMap_noSlot (hb : ¬BadPerms owner perms) (hr : ¬(len = 0 ∨ s.par.memSize < base.toNat + len.toNat))
    (hs : ∀ i, i < s.par.nregion → (s.region i).valid = true ∨ (s.region i).gen.toNat = 2 ^ 64 - 1) :
    opMap s owner base len perms = .error .noSpace := by
  have hf : (List.range s.par.nregion).find? s.slotFree = none :=
    List.find?_eq_none.2 fun i hi => Bool.eq_false_iff.1 ((slotFree_eq_false_iff s i).2 (hs i (List.mem_range.1 hi)))
  rw [opMap, if_neg (by rwa [badPerms_iff]), if_neg hr, hf]
  exact ite_self _

/-- MAP into the lowest free slot (44_addressspace_ops.md R304). -/
theorem opMap_ok {i : Nat} (hb : ¬BadPerms owner perms) (hr : ¬(len = 0 ∨ s.par.memSize < base.toNat + len.toNat))
    (ho : ∀ j a, j < s.par.nregion → Covers s j a → ¬(base.toNat ≤ a ∧ a < base.toNat + len.toNat))
    (hi : i < s.par.nregion) (hv : (s.region i).valid = false) (hg : (s.region i).gen.toNat < 2 ^ 64 - 1)
    (hlow : ∀ j, j < i → (s.region j).valid = true ∨ (s.region j).gen.toNat = 2 ^ 64 - 1) :
    opMap s owner base len perms =
      .ok (⟨i, perms, (s.region i).gen⟩, s.setRegion i ⟨true, base, len, perms, owner, (s.region i).gen⟩) := by
  have ha : ¬(List.range s.par.nregion).any (s.overlaps base.toNat len.toNat) = true := by
    rw [any_overlaps_iff]
    rintro ⟨j, a, hj, hc, h⟩
    exact ho j a hj hc h
  have hf : (List.range s.par.nregion).find? s.slotFree = some i :=
    List.find?_range_eq_some.2 ⟨(slotFree_iff s i).2 ⟨hv, hg.ne⟩, List.mem_range.2 hi,
      fun j hj => congrArg not ((slotFree_eq_false_iff s j).2 (hlow j hj))⟩
  rw [opMap, if_neg (by rwa [badPerms_iff]), if_neg hr, if_neg ha, hf]

end opMap

/-- Settles O38: one lemma a check, in their order, and the lowest free slot of the table is the one found first. -/
theorem mapOperation : Obligations.MapOperation := by
  intro s owner base len perms c hc
  subst hc
  refine ⟨fun hb => ?_, fun hb hr => ?_, fun hb hl hr => ?_⟩
  · exact errs_of_answerOp rfl (opMap_badPerms hb)
  · exact errs_of_answerOp rfl (opMap_outOfRange hb hr)
  · have hr' : ¬(len = 0 ∨ s.par.memSize < base.toNat + len.toNat) := not_or.2 ⟨hl, hr.not_gt⟩
    refine ⟨fun ho => ?_, fun hs => ?_, fun i ho hi hv hg hlow => ?_⟩
    · exact errs_of_answerOp rfl (opMap_overlap hb hr' ho)
    · exact errs_of_answerOp rfl (opMap_noSlot hb hr' hs)
    · exact ⟨_, _, perform_of_answerOp rfl (opMap_ok hb hr' ho hi hv hg hlow) rfl, onlyRegion_of rfl,
        fun h16 => Handle.handle_toPort h16, rfl⟩

/-! ## PROTECT -/

theorem opProtect_stale {s : State} {h : Handle} (hs : IsStale s h) (p : Perms) : opProtect s h p = .error .stale :=
  if_pos ((stale_iff ..).2 hs)

theorem opProtect_badPerms {s : State} {h : Handle} {p : Perms} (hs : ¬IsStale s h)
    (hb : BadPerms (s.region h.rid).owner p) : opProtect s h p = .error .invalidPermissions := by
  rw [opProtect, if_neg (by rwa [stale_iff]), if_pos ((badPerms_iff ..).2 hb)]

/-- Settles O39: the two checks in their order, then one write of the Region table. -/
theorem protectOperation : Obligations.ProtectOperation := by
  intro s h h' i p hi hh
  subst hi hh
  refine ⟨fun hs => ?_, fun hs hb => ?_, fun hs hb => ?_⟩
  · exact errs_of_answerOp rfl (opProtect_stale hs p)
  · exact errs_of_answerOp rfl (opProtect_badPerms hs hb)
  · exact ⟨_, perform_of_answerOp rfl (opProtect_ok hs hb) (handOut_mk ..), onlyRegion_of rfl, rfl⟩

/-! ## UNMAP and REVOKE -/

theorem opUnmap_stale {s : State} {h : Handle} (hs : IsStale s h) : opUnmap s h = .error .stale := if_pos ((stale_iff ..).2 hs)

theorem opRevoke_stale {s : State} {h : Handle} (hs : IsStale s h) : opRevoke s h = .error .stale := if_pos ((stale_iff ..).2 hs)

/-- The state that UNMAP of slot `i` leaves (44_addressspace_ops.md R307). -/
def State.unmapped (s : State) (i : Nat) : State := ((s.zeroFill i).setRegion i (s.region i).cleared).bump i

theorem opUnmap_ok {s : State} {h : Handle} (hs : ¬IsStale s h) : opUnmap s h = .ok (s.unmapped h.rid) :=
  if_neg (by rwa [stale_iff])

/-- The slot that UNMAP leaves: its descriptor cleared and its generation increased, but for the last one, which BUMP
leaves in a slot that holds no Region (44_addressspace_ops.md R307, R309). -/
theorem onlyRegion_unmapped (s : State) (i : Nat) :
    OnlyRegion s (s.unmapped i) i ⟨false, 0, 0, 0, 0,
      if (s.region i).gen.toNat = 2 ^ 64 - 1 then (s.region i).gen else (s.region i).gen + 1⟩ := by
  have hc : (s.region i).cleared.gen = genMax ↔ (s.region i).gen.toNat = 2 ^ 64 - 1 := genMax_iff _
  refine ⟨?_, fun j hj => ?_⟩
  · rw [State.unmapped, State.region_bump, if_pos rfl, State.region_setRegion, if_pos rfl]
    by_cases hg : (s.region i).gen.toNat = 2 ^ 64 - 1
    · rw [if_neg (not_not.2 (hc.2 hg)), if_pos hg]
      rfl
    · rw [if_pos (mt hc.1 hg), if_neg hg]
      rfl
  · rw [State.unmapped, State.region_bump, if_neg hj, State.region_setRegion, if_neg hj, State.zeroFill_region]

/-- The increment after UNMAP's zero-fill writes no byte: the slot holds no Region by then. -/
theorem byte_unmapped (s : State) (i a : Nat) : (s.unmapped i).byte a = (s.zeroFill i).byte a := by
  rw [State.unmapped, State.byte_bump, State.region_setRegion, if_pos rfl]
  exact if_neg fun hc => Bool.noConfusion hc.2.1

theorem unmapped_rest (s : State) (i : Nat) :
    s.unmapped i = { s with regions := (s.unmapped i).regions, mem := (s.unmapped i).mem } :=
  State.bump_rest ..

section live

variable {s : State} {h : PortHandle}

/-- UNMAP at the driver port (44_addressspace_ops.md R307). -/
theorem unmap_live (hs : ¬IsStale s h.handle) :
    ∃ t, perform (.driver (.unmap h)) s = .next t ∧ IsStale t h.handle ∧
      OnlyRegion s t h.rid.toNat ⟨false, 0, 0, 0, 0, if (s.region h.rid.toNat).gen.toNat = 2 ^ 64 - 1
        then (s.region h.rid.toNat).gen else (s.region h.rid.toNat).gen + 1⟩ ∧
      (∀ a, Covers s h.rid.toNat a → t.byte a = 0) ∧ (∀ a, ¬Covers s h.rid.toNat a → t.byte a = s.byte a) ∧
      t = { s with regions := t.regions, mem := t.mem, reply := .ok } := by
  obtain ⟨-, hv, -⟩ := of_not_isStale hs
  have hr := onlyRegion_answer (onlyRegion_unmapped s h.rid.toNat) .ok
  have hb (a : Nat) : ((s.unmapped h.rid.toNat).answer .ok).byte a = (s.zeroFill h.rid.toNat).byte a := by
    rw [State.answer_byte, byte_unmapped]
  exact ⟨_, perform_of_answerOp rfl (opUnmap_ok hs) rfl, isStale_of_invalid (congrArg Region.valid hr.1), hr,
    fun a hc => (hb a).trans ((byte_zeroFill_covers hv a).1 hc),
    fun a hc => (hb a).trans ((byte_zeroFill_covers hv a).2 hc), congrArg (State.answer · .ok) (unmapped_rest ..)⟩

/-- REVOKE below the last generation, at the driver port (44_addressspace_ops.md R308). -/
theorem revoke_below (hs : ¬IsStale s h.handle) (hg : (s.region h.rid.toNat).gen.toNat < 2 ^ 64 - 1)
    {h' : PortHandle} (hh : h' = ⟨h.rid, h.mask, (s.region h.rid.toNat).gen + 1⟩) :
    ∃ t, perform (.driver (.revoke h)) s = .next t ∧ IsStale t h.handle ∧ ¬IsStale t h'.handle ∧
      OnlyRegion s t h.rid.toNat { s.region h.rid.toNat with gen := (s.region h.rid.toNat).gen + 1 } ∧
      t = { s with regions := t.regions, given := s.given.insert h', reply := .handle h' } := by
  subst hh
  obtain ⟨hlt, hv, hgen⟩ := of_not_isStale hs
  have hp := perform_of_answerOp (c := .revoke h) rfl (opRevoke_below hs hg) (handOut_mk ..)
  have hr : OnlyRegion s _ h.rid.toNat _ := onlyRegion_of (s.setRegion_regions h.rid.toNat
    { s.region h.rid.toNat with gen := (s.region h.rid.toNat).gen + 1 })
  have hg' := congrArg Region.gen hr.1
  exact ⟨_, hp, isStale_of_gen_ne fun he => gen_add_one_ne _ (hg'.symm.trans (he.trans hgen.symm)),
    not_isStale_of hlt ((congrArg Region.valid hr.1).trans hv) hg', hr, rfl⟩

/-- REVOKE at the last generation, at the driver port (44_addressspace_ops.md R308, R309). -/
theorem revoke_last (hs : ¬IsStale s h.handle) (hg : (s.region h.rid.toNat).gen.toNat = 2 ^ 64 - 1) :
    ∃ t, perform (.driver (.revoke h)) s = .next t ∧ IsStale t h.handle ∧
      OnlyRegion s t h.rid.toNat ⟨false, 0, 0, 0, 0, (s.region h.rid.toNat).gen⟩ ∧
      (∀ a, Covers s h.rid.toNat a → t.byte a = 0) ∧ (∀ a, ¬Covers s h.rid.toNat a → t.byte a = s.byte a) ∧
      t = { s with regions := t.regions, mem := t.mem, reply := .retired } := by
  obtain ⟨-, hv, -⟩ := of_not_isStale hs
  have hr : OnlyRegion s (((s.zeroFill h.rid.toNat).setRegion h.rid.toNat (s.region h.rid.toNat).cleared).answer .retired)
      h.rid.toNat (s.region h.rid.toNat).cleared := onlyRegion_of rfl
  exact ⟨_, perform_of_answerOp rfl (opRevoke_retires hs hg) rfl, isStale_of_invalid (congrArg Region.valid hr.1), hr,
    fun a => (byte_zeroFill_covers hv a).1, fun a => (byte_zeroFill_covers hv a).2, rfl⟩

end live

/-- Settles O40: both operations through a live handle, REVOKE apart where BUMP has no generation left. -/
theorem unmapAndRevoke : Obligations.UnmapAndRevoke := by
  intro s h h' i g hi hg hh
  subst hi hg
  exact ⟨fun hs => ⟨errs_of_answerOp rfl (opUnmap_stale hs), errs_of_answerOp rfl (opRevoke_stale hs)⟩,
    fun hs => ⟨unmap_live hs, fun hlt => revoke_below hs hlt hh, revoke_last hs⟩⟩

/-! ## READ, WRITE and LOAD_BYTES -/

theorem getElem?_eq_byteAt_putBytes (m : Memory) (a : Nat) (l : List Byte) {k : Nat} (hk : k < l.length) :
    l[k]? = some (byteAt (putBytes m a l) (a + k)) := by
  rw [byteAt_putBytes_inside m a k l hk, List.getElem?_eq_getElem hk]

/-- LOAD_BYTES past its check: a Region of the pool refuses it (44_addressspace_ops.md R303). -/
theorem opLoadBytes_checked {s : State} {h : Handle} {a : Nat} {l : List Byte}
    (hc : s.asCheck h a l.length .nothing = .ok ()) :
    opLoadBytes s h a l = if (s.region h.rid).owner = 0 then .error .denied else .ok (s.setMem (putBytes s.mem a l)) := by
  rw [opLoadBytes, hc]

theorem opLoadBytes_error {s : State} {h : Handle} {a : Nat} {l : List Byte} {e : OpError}
    (hc : s.asCheck h a l.length .nothing = .error e) : opLoadBytes s h a l = .error e := by
  rw [opLoadBytes, hc]

section accesses

variable {s : State} {h : PortHandle} {addr : BitVec 64} {e : OpError}

theorem portRead_ok {len : BitVec 64} (hc : s.asCheck h.handle addr.toNat len.toNat .read = .ok ()) :
    portRead h addr len s = { s with reply := .bytes (bytesAt s.mem addr.toNat len.toNat) } := by
  rw [portRead, opRead, hc]
  rfl

theorem portRead_error {len : BitVec 64} (hc : s.asCheck h.handle addr.toNat len.toNat .read = .error e) :
    portRead h addr len s = { s with reply := .error e } := by
  rw [portRead, opRead, hc]
  rfl

theorem portWrite_ok {l : List Byte} (hc : s.asCheck h.handle addr.toNat l.length .write = .ok ()) :
    portWrite h addr l s = { s with mem := putBytes s.mem addr.toNat l, reply := .ok } := by
  rw [portWrite, opWrite, hc]
  rfl

theorem portWrite_error {l : List Byte} (hc : s.asCheck h.handle addr.toNat l.length .write = .error e) :
    portWrite h addr l s = { s with reply := .error e } := by
  rw [portWrite, opWrite, hc]
  rfl

end accesses

/-- Settles O41: both ports run the same READ and WRITE, and what a write leaves is the read-after-write law of the byte
store. -/
theorem portAccesses : Obligations.PortAccesses := by
  intro s h addr len l e
  have hin := fun k (hk : k < l.length) => getElem?_eq_byteAt_putBytes s.mem addr.toNat l hk
  have hout := fun a (ha : a < addr.toNat ∨ addr.toNat + l.length ≤ a) => byteAt_putBytes_outside s.mem l ha
  refine ⟨fun hc => ?read, fun hc => ?readError, fun hc => ?write, fun hc => ?writeError, fun hc => ?loadError,
    fun hc ho => ?loadPool, fun hc ho => ?load⟩
  case read =>
    exact ⟨_, bytesAt_length .., fun k hk => (bytesAt_getElem? ..).trans (if_pos hk),
      perform_driver (portRead_ok hc), perform_service (portRead_ok hc)⟩
  case readError => exact ⟨perform_driver (portRead_error hc), perform_service (portRead_error hc)⟩
  case write => exact ⟨_, perform_driver (portWrite_ok hc), perform_service (portWrite_ok hc), hin, hout, rfl⟩
  case writeError => exact ⟨perform_driver (portWrite_error hc), perform_service (portWrite_error hc)⟩
  case loadError => exact errs_of_answerOp rfl (opLoadBytes_error hc)
  case loadPool => exact errs_of_answerOp rfl ((opLoadBytes_checked hc).trans (if_pos ho))
  case load =>
    exact ⟨_, perform_of_answerOp rfl ((opLoadBytes_checked hc).trans (if_neg ho)) rfl, hin, hout, rfl⟩

end Sys2Proof.Machine
end

section
/-! The statements of the family of 45_ringchannel_ops.md: the frame layout (R336), and a ring as a first-in first-out queue
under TRY_PUBLISH (R340) and TRY_CONSUME (R341), at the service port too. -/

namespace Sys2Proof.Machine

open Sys2Proof.Safety

/-! ## The frame layout -/

/-- A frame as a number: its fields at their bit positions, the padding 0 (45_ringchannel_ops.md R336). -/
theorem toNat_toBits (f : Frame) : f.toBits.toNat = f.sequence.toNat + f.tag.toNat * 2 ^ 32 +
    f.serviceId.toNat * 2 ^ 48 + f.length.toNat * 2 ^ 64 + f.payloadOffset.toNat * 2 ^ 96 + f.status.toNat * 2 ^ 160 := by
  simp only [Frame.toBits, toNat_append_eq, BitVec.toNat_ofNat]
  omega

/-- The fields of 32 bytes as numbers: what stands at each bit position (45_ringchannel_ops.md R336). -/
theorem toNat_frameOf (b : FrameBits) : (frameOf b).sequence.toNat = b.toNat % 2 ^ 32 ∧
    (frameOf b).tag.toNat = b.toNat / 2 ^ 32 % 2 ^ 16 ∧ (frameOf b).serviceId.toNat = b.toNat / 2 ^ 48 % 2 ^ 16 ∧
    (frameOf b).length.toNat = b.toNat / 2 ^ 64 % 2 ^ 32 ∧ (frameOf b).payloadOffset.toNat = b.toNat / 2 ^ 96 % 2 ^ 64 ∧
    (frameOf b).status.toNat = b.toNat / 2 ^ 160 % 2 ^ 8 := by
  simp only [frameOf, BitVec.extractLsb'_toNat, Nat.shiftRight_eq_div_pow, pow_zero, Nat.div_one, and_self]

theorem frame_ext_toNat {f g : Frame} (hq : f.sequence.toNat = g.sequence.toNat) (ht : f.tag.toNat = g.tag.toNat)
    (hi : f.serviceId.toNat = g.serviceId.toNat) (hl : f.length.toNat = g.length.toNat)
    (ho : f.payloadOffset.toNat = g.payloadOffset.toNat) (hs : f.status.toNat = g.status.toNat) : f = g := by
  cases f
  cases g
  simp only [Frame.mk.injEq, ← BitVec.toNat_inj]
  exact ⟨hq, ht, hi, hl, ho, hs⟩

theorem frameOf_toBits (f : Frame) : frameOf f.toBits = f := by
  obtain ⟨hq, ht, hi, hl, ho, hs⟩ := toNat_frameOf f.toBits
  have hb := toNat_toBits f
  have := f.sequence.isLt
  have := f.tag.isLt
  have := f.serviceId.isLt
  have := f.length.isLt
  have := f.payloadOffset.isLt
  have := f.status.isLt
  apply frame_ext_toNat <;> omega

/-- Settles O42: both directions as integer arithmetic, and reading a written frame back by comparing the numbers. -/
theorem frameLayout : Obligations.FrameLayout := ⟨fun f => ⟨frameOf_toBits f, toNat_toBits f⟩, toNat_frameOf⟩

/-! ## What the ring operations do -/

/-- A full ring takes no frame (45_ringchannel_ops.md R340). -/
theorem tryPublish_full {cap : Nat} {r : Ring} (f : FrameBits) (h : r.count = cap) : tryPublish cap r f = none :=
  if_pos (beq_iff_eq.2 h)

theorem tryPublish_space {cap : Nat} {r : Ring} (f : FrameBits) (h : r.count ≠ cap) :
    ∃ r', tryPublish cap r f = some r' :=
  ⟨_, if_neg fun he => h (beq_iff_eq.1 he)⟩

/-- What a publish leaves: the frame in the slot at the head, and the head one on (45_ringchannel_ops.md R340). -/
theorem tryPublish_some {cap : Nat} {r r' : Ring} {f : FrameBits} (h : tryPublish cap r f = some r') :
    r'.head = r.head + 1 ∧ r'.tail = r.tail ∧
    ∀ j, r'.slot j = if j = r.head.toNat % cap then f else r.slot j := by
  unfold tryPublish at h
  split_ifs at h
  cases h
  exact ⟨rfl, rfl, fun j => lookup_put ..⟩

theorem isEmpty_iff_count (r : Ring) : r.isEmpty = true ↔ r.count = 0 := by
  rw [Ring.isEmpty, beq_iff_eq, Ring.count, ← BitVec.toNat_zero, BitVec.toNat_inj, BitVec.sub_eq_iff_eq_add, BitVec.zero_add]

/-- An empty ring gives no frame (45_ringchannel_ops.md R341). -/
theorem tryConsume_empty {r : Ring} (cap : Nat) (h : r.count = 0) : tryConsume cap r = none :=
  if_pos ((isEmpty_iff_count r).2 h)

/-- What a consume gives and leaves: the frame of the slot at the tail, and the tail one on (45_ringchannel_ops.md R341). -/
theorem tryConsume_frame {r : Ring} (cap : Nat) (h : r.count ≠ 0) :
    tryConsume cap r = some (r.slot (r.tail.toNat % cap), ⟨r.head, r.tail + 1, r.slots⟩) :=
  if_neg fun he => h ((isEmpty_iff_count r).1 he)

/-! ## A ring as a queue -/

theorem length_framesOf (cap : Nat) (r : Ring) : (framesOf cap r).length = r.count := by
  rw [framesOf, List.length_map, List.length_range]

/-- Within one turn of the ring no slot number comes back. -/
theorem slotNumber_ne {cap t n k : Nat} (hk : k < n) (hn : n < cap) : (t + k) % cap ≠ (t + n) % cap := by
  intro h
  have := (Nat.ModEq.add_left_cancel' t h).eq_of_lt_of_lt (hk.trans hn) hn
  omega

theorem head_slotNumber {k : Nat} (hk : k ≤ 31) (r : Ring) :
    r.head.toNat % 2 ^ k = (r.tail.toNat + r.count) % 2 ^ k := by
  rw [← counter_mod hk, ← head_eq]

/-- A published frame goes to the end of the queue: the slot at the head is none of those in use
(45_ringchannel_ops.md R340). -/
theorem framesOf_publish {k : Nat} {r r' : Ring} {f : FrameBits} (hk : k ≤ 31) (hr : r.count < 2 ^ k)
    (h : tryPublish (2 ^ k) r f = some r') : framesOf (2 ^ k) r' = framesOf (2 ^ k) r ++ [f] := by
  have hcount := (count_publish (Nat.pow_le_pow_right (by decide) hk) hr.le h).1
  obtain ⟨-, htail, hslot⟩ := tryPublish_some h
  rw [head_slotNumber hk] at hslot
  have hold : ∀ j ∈ List.range r.count,
      r'.slot ((r.tail.toNat + j) % 2 ^ k) = r.slot ((r.tail.toNat + j) % 2 ^ k) := fun j hj =>
    (hslot _).trans (if_neg (slotNumber_ne (List.mem_range.1 hj) hr))
  have hnew : r'.slot ((r.tail.toNat + r.count) % 2 ^ k) = f := (hslot _).trans (if_pos rfl)
  rw [framesOf, hcount, htail, List.range_succ, List.map_append, List.map_congr_left hold, List.map_singleton, hnew, framesOf]

/-- The oldest frame is in the slot at the tail, and with the tail one on it is off the queue
(45_ringchannel_ops.md R341). -/
theorem framesOf_consume {k : Nat} {r r' : Ring} {f : FrameBits} (hk : k ≤ 31)
    (h : tryConsume (2 ^ k) r = some (f, r')) : framesOf (2 ^ k) r = f :: framesOf (2 ^ k) r' := by
  have hcount := count_consume h
  rw [tryConsume_frame _ (by omega), Option.some.injEq, Prod.mk.injEq] at h
  obtain ⟨rfl, rfl⟩ := h
  have htail : ∀ j, (r.tail.toNat + (j + 1)) % 2 ^ k = ((r.tail + 1).toNat + j) % 2 ^ k := fun j => by
    rw [Nat.add_comm j, ← Nat.add_assoc]
    exact (Nat.ModEq.add_right j (counter_mod hk r.tail 1)).symm
  simp only [framesOf, hcount, List.range_succ_eq_map, List.map_cons, List.map_map, Nat.add_zero, List.cons.injEq, true_and]
  exact List.map_congr_left fun j _ => congrArg r.slot (htail j)

/-- Settles O43: the slots in use follow the tail without a repetition, so the slot at the head is a new end of the queue. -/
theorem ringIsFifoQueue : Obligations.RingIsFifoQueue := by
  refine ⟨fun k cap r f hk hcap _ => ?queue, fun s f => ⟨perform_service ?rsp, perform_service ?req⟩⟩
  case rsp =>
    simp only [serviceCmd, servicePublish]
    cases tryPublish s.par.ringCap s.rsp f <;> rfl
  case req =>
    simp only [serviceCmd, serviceConsume]
    cases tryConsume s.par.ringCap s.req <;> rfl
  case queue =>
    subst hcap
    refine ⟨length_framesOf .., tryPublish_full f, fun hlt => ?publish, fun hnil => ?empty, fun g l hq => ?consume⟩
    case publish =>
      obtain ⟨r', hp⟩ := tryPublish_space f hlt.ne
      exact ⟨r', hp, framesOf_publish hk hlt hp, tryPublish_some hp⟩
    case empty => exact tryConsume_empty _ ((length_framesOf ..).symm.trans (congrArg List.length hnil))
    case consume =>
      have hne : r.count ≠ 0 := by rw [← length_framesOf (2 ^ k), hq]; exact Nat.succ_ne_zero _
      have hc := tryConsume_frame (2 ^ k) hne
      rw [framesOf_consume hk hc, List.cons.injEq] at hq
      obtain ⟨rfl, rfl⟩ := hq
      exact ⟨rfl, _, hc, rfl, rfl, rfl, rfl⟩

end Sys2Proof.Machine
end

section
/-! The statements of the family of 46_speclog_ops.md: the end of a pending entry by a response, its deadline, a rollback or
a termination (R376 to R381), and the provisional effects that open one (R370, R372, R374, R375). -/

namespace Sys2Proof.Machine

open Sys2Proof.Safety

/-! ## Reasons -/

theorem toNat_reason (r : BitVec 8) : (r.setWidth 64).toNat = r.toNat := BitVec.toNat_setWidth_of_le (by decide)

/-- A reason fits in XLEN bits, so its zero extension is the value itself. -/
theorem wrap_reason (x : Xlen) (r : BitVec 8) : wrap x r.toNat = r.setWidth 64 := by
  have h256 : r.toNat < 256 := r.isLt
  rw [← toNat_reason, ← trunc_eq_wrap_toNat, trunc_of_lt]
  rw [toNat_reason]
  rcases bits_cases x with hb | hb <;> rw [hb] <;> omega

/-! ## A response consumed, and the deadline -/

/-- The oldest response is consumed, and what it says is done on the ring without it (60_exceptions.md R438). -/
theorem perform_consume {s : State} {b : FrameBits} {l : List FrameBits} (hl : s.par.legal = true)
    (hq : framesOf s.par.ringCap s.rsp = b :: l) : ∃ r, framesOf s.par.ringCap r = l ∧
      perform (.td .consume) s = .next (dispatchResponse (frameOf b) { s with rsp := r }) := by
  obtain ⟨k, hk, hcap⟩ := ringCap_of_legal hl
  have hne : s.rsp.count ≠ 0 := by
    rw [← length_framesOf s.par.ringCap, hq]
    exact Nat.succ_ne_zero _
  have hc := tryConsume_frame s.par.ringCap hne
  have hf := framesOf_consume hk (hcap ▸ hc)
  rw [← hcap, hq, List.cons.injEq] at hf
  obtain ⟨rfl, rfl⟩ := hf
  have he : tdEnabled s .consume = true := by
    rw [tdEnabled, Bool.not_eq_true', ← Bool.not_eq_true, isEmpty_iff_count]
    exact hne
  refine ⟨_, rfl, ?_⟩
  rw [perform, tdMove, if_pos he, tdEffect, consumeResponse, hc]

theorem dispatchResponse_entry {f : Frame} {s : State} (ht : f.tag = 1) (hp : s.log.state = .pending)
    (hs : f.sequence = s.log.seq) (hi : f.serviceId = s.log.svc) : dispatchResponse f s = entryResponse f s :=
  if_pos ⟨ht, hp, hs, hi⟩

theorem tdEnabled_logDeadline_iff (s : State) :
    tdEnabled s .logDeadline = true ↔ s.log.state = .pending ∧ s.log.deadline.toNat ≤ s.tdNow.toNat := by
  rw [tdEnabled, Bool.and_eq_true, beq_iff_eq, decide_eq_true_iff]

/-- Settles O48: the response at the front of RSP is the entry's, and its status chooses COMMIT or ROLLBACK. -/
theorem entryResolution : Obligations.EntryResolution := by
  intro s hl
  refine ⟨fun b l f hf hq hp ht hs hi => ?response, fun hp hd => ?due, fun hn => ?notDue⟩
  case response =>
    subst hf
    obtain ⟨r, hr, hc⟩ := perform_consume hl hq
    have he := hc.trans (congrArg _ (dispatchResponse_entry (s := { s with rsp := r }) ht hp hs hi))
    exact ⟨fun h1 => ⟨_, he.trans (congrArg _ (if_pos h1)), hr, rfl⟩,
      fun h1 => ⟨r, he.trans (congrArg _ (if_neg h1)), hr⟩⟩
  case due => exact congrArg _ (if_pos ((tdEnabled_logDeadline_iff s).2 ⟨hp, hd⟩))
  case notDue =>
    refine congrArg _ (if_neg fun he => ?_)
    obtain ⟨hp, hd⟩ := (tdEnabled_logDeadline_iff s).1 he
    exact hn.elim (absurd hp) hd.not_gt

/-! ## Termination -/

/-- Termination with an entry pending restores the touched Regions (46_speclog_ops.md R379). -/
theorem restored_terminateCore {s : State} (k : Kind) (v p : Word) (h : ImagesApart s) (hp : s.log.state = .pending) :
    Restored s (terminateCore k v p s) := by
  rw [terminateCore_eq, restoreAtTermination, if_pos hp]
  exact restored_of h rfl rfl rfl (by rw [restoreImages_rest]; rfl)

theorem logLast_terminateCore {s : State} (k : Kind) (v p : Word) (hp : s.log.state = .pending) :
    (terminateCore k v p s).logLast = ⟨s.log.seq, .rolledBack, 0xFD⟩ := by
  rw [terminateCore_eq, restoreAtTermination, if_pos hp, State.closeLog_logLast, restoreImages_log]

/-- TERMINATE is taken where the core is fetching or trapped (60_exceptions.md R450). -/
theorem perform_terminate {s : State} (h : s.coreState = .fetching ∨ s.coreState = .trapped) :
    perform (.driver .terminate) s = .next { terminateCore .none 0 s.pcVal s with reply := .ok } :=
  perform_driver (guarded_of (by rwa [Bool.or_eq_true, beq_iff_eq, beq_iff_eq]))

/-- Settles O50: TERMINATE is `TERMINATE_CORE`, whose restoration is RESTORE_IMAGES of the entry's before-images. -/
theorem terminationRestores : Obligations.TerminationRestores := by
  intro s h hp hc
  refine ⟨_, perform_terminate hc, restored_terminateCore _ _ _ h hp, logLast_terminateCore _ _ _ hp, ?_⟩
  rw [terminateCore_eq, State.trunc_pcVal, show trunc s.par.xlen 0 = 0 from trunc_zero _]

/-! ## A delivered fault -/

/-- The CSR bank after a delivered fault: the cause words, and `thandler` disarmed where it was armed
(60_exceptions.md R415). -/
theorem readCsr_deliverFault (k : Kind) (v e : Word) (s : State) (c : CsrNum) : (deliverFault k v e s).readCsr c =
    if s.armed = true ∧ c = csrThandler then wrap s.par.xlen (2 * ((s.readCsr csrThandler).toNat / 2))
    else (withCauses k v e s).readCsr c := by
  by_cases ha : s.armed = true
  · have hbank : (deliverFault k v e s).readCsr c =
        ((withCauses k v e s).writeCsr csrThandler (s.readCsr csrThandler &&& ~~~1)).readCsr c := by
      rw [deliverFault_of_armed ha]
      rfl
    rw [hbank, State.readCsr_writeCsr, and_not_one, trunc_ofNat]
    simp only [ha, true_and]
    rfl
  · rw [if_neg fun h => ha h.1, deliverFault_eq, if_neg ha, terminateCore_eq]
    rfl

theorem causesWritten_deliverFault (k : Kind) (v e : Word) (s : State) :
    CausesWritten (deliverFault k v e s) k (wrap s.par.xlen v.toNat) (wrap s.par.xlen e.toNat) := by
  have hne : csrTcause ≠ csrThandler ∧ csrTval ≠ csrThandler ∧ csrTepc ≠ csrThandler := by decide
  constructor <;> rw [readCsr_deliverFault, readCsr_withCauses]
  · rw [if_neg fun h => hne.1 h.2, if_neg (by decide), if_neg (by decide), if_pos rfl]
  · rw [if_neg fun h => hne.2.1 h.2, if_neg (by decide), if_pos rfl, trunc_eq_wrap_toNat]
  · rw [if_neg fun h => hne.2.2 h.2, if_pos rfl, trunc_eq_wrap_toNat]

/-- A word that is none of the three cause words, nor `thandler` with a handler armed, stays. -/
theorem readCsr_deliverFault_of_ne (k : Kind) (v e : Word) {s : State} {c : CsrNum} (h1 : c ≠ csrTcause)
    (h2 : c ≠ csrTval) (h3 : c ≠ csrTepc) (h4 : s.armed = true → c ≠ csrThandler) :
    (deliverFault k v e s).readCsr c = s.readCsr c := by
  rw [readCsr_deliverFault, if_neg fun h => h4 h.1 h.2, readCsr_withCauses, if_neg h3, if_neg h2, if_neg h1]

theorem otherWords_deliverFault (k : Kind) (v e : Word) (s : State) {c : CsrNum} (hc : otherCsr c) :
    (deliverFault k v e s).readCsr c = s.readCsr c := by
  obtain ⟨h1, h2, h3, h4⟩ := hc
  exact readCsr_deliverFault_of_ne k v e h1 h2 h3 fun _ => h4

/-- A fault delivered to the armed handler (60_exceptions.md R415). -/
theorem delivered_deliverFault (k : Kind) (v e : Word) {s : State} (h : (s.readCsr csrThandler).toNat % 2 = 1) :
    Delivered s (deliverFault k v e s) k (wrap s.par.xlen v.toNat) (wrap s.par.xlen e.toNat) := by
  have ha := (armed_iff s).2 h
  have hd := deliverFault_of_armed (k := k) (v := v) (e := e) ha
  exact {
    causes := causesWritten_deliverFault k v e s
    pc := by
      rw [hd, and_not_three, trunc_ofNat]
      exact trunc_wrap ..
    disarmed := by rw [readCsr_deliverFault, if_pos ⟨ha, rfl⟩]
    otherWords := fun c => otherWords_deliverFault k v e s
    core := by rw [hd]
    dispatcher := by rw [hd]; exact ⟨rfl, rfl⟩
    record := by rw [hd]
    rest := by rw [hd] }

theorem not_armed {s : State} (h : (s.readCsr csrThandler).toNat % 2 = 0) : ¬s.armed = true := by
  rw [armed_iff, h]
  decide

/-- A fault with no handler armed and no entry pending terminates the core (60_exceptions.md R415, R417). -/
theorem terminated_deliverFault (k : Kind) (v e : Word) {s : State} (h : (s.readCsr csrThandler).toNat % 2 = 0)
    (hq : s.log.state ≠ .pending) :
    Terminated s (deliverFault k v e s) k (wrap s.par.xlen v.toNat) (wrap s.par.xlen e.toNat) := by
  have hd : deliverFault k v e s = { s with
      csrs := (withCauses k v e s).csrs
      coreState := .terminated
      tdOut := { s.tdOut with valid := false }
      tr := { s.tr with valid := false }
      tdState := .idle
      tdDlValid := false
      notes := s.notes ++ [⟨.terminate, k, wrap s.par.xlen v.toNat, wrap s.par.xlen e.toNat, 0⟩] } := by
    rw [← trunc_eq_wrap_toNat, ← trunc_eq_wrap_toNat, deliverFault_eq, if_neg (not_armed h), terminateCore_eq,
      restoreAtTermination_quiet (by exact hq)]
    simp only [withCauses, State.writeCsr, State.closeTrap]
  rw [hd]
  exact ⟨rfl, ⟨rfl, rfl, rfl⟩, rfl, rfl, rfl⟩

/-- What a delivered fault leaves with no entry pending: registers, tables, bytes and the log as before. -/
theorem deliverFault_rest_of_quiet {s t : State} {k : Kind} {v e : Word} (ht : deliverFault k v e s = t)
    (hq : s.log.state ≠ .pending) : t = { s with
      csrs := t.csrs, pc := t.pc, coreState := t.coreState, tdState := t.tdState, tdDlValid := t.tdDlValid, tr := t.tr
      tdOut := t.tdOut, notes := t.notes } := by
  subst ht
  obtain h | h := Nat.mod_two_eq_zero_or_one (s.readCsr csrThandler).toNat
  · rw [(terminated_deliverFault k v e h hq).rest]
  · rw [(delivered_deliverFault k v e h).rest]

/-! ## Rollback -/

@[simp] theorem unwound_par (reason : BitVec 8) (s : State) : (unwound reason s).par = s.par := by rw [unwound_rest]

@[simp] theorem unwound_readCsr (reason : BitVec 8) (s : State) (c : CsrNum) :
    (unwound reason s).readCsr c = s.readCsr c := by
  rw [unwound_rest]
  rfl

@[simp] theorem unwound_tdOut (reason : BitVec 8) (s : State) : (unwound reason s).tdOut = s.tdOut := by
  rw [unwound_rest]

theorem unwound_notes (reason : BitVec 8) (s : State) : (unwound reason s).notes = s.notes ++
    [⟨.rollback, .speculationRolledBack, wrap s.par.xlen reason.toNat, wrap s.par.xlen s.log.tr.savedPc.toNat,
      s.log.tr.reg s.par.xlen 17⟩] := by
  rw [wrap_reason, ← trunc_eq_wrap_toNat]
  rfl

theorem unwound_pcVal (reason : BitVec 8) (s : State) :
    (unwound reason s).pcVal = wrap s.par.xlen s.log.tr.savedPc.toNat := by
  rw [unwound_rest, ← trunc_eq_wrap_toNat]
  exact trunc_trunc ..

/-- What a rollback leaves beside what it restored: step 6 changes none of the tables, the store and the log
(46_speclog_ops.md R378). -/
theorem rollback_rest (reason : BitVec 8) (s : State) : rollback reason s = { unwound reason s with
    csrs := (rollback reason s).csrs, pc := (rollback reason s).pc, coreState := (rollback reason s).coreState
    tdState := (rollback reason s).tdState, tdDlValid := (rollback reason s).tdDlValid, tr := (rollback reason s).tr
    tdOut := (rollback reason s).tdOut, notes := (rollback reason s).notes } :=
  deliverFault_rest_of_quiet (rollback_eq_unwound reason s).symm LogState.noConfusion

theorem restored_rollback (reason : BitVec 8) {s : State} (h : ImagesApart s) : Restored s (rollback reason s) := by
  rw [rollback_rest]
  exact restored_of h rfl rfl rfl rfl

section fault

variable (reason : BitVec 8) {s : State}

/-- Step 6 with a handler armed (46_speclog_ops.md R378, R381). -/
theorem delivered_rollback (h : (s.readCsr csrThandler).toNat % 2 = 1) :
    Delivered (unwound reason s) (rollback reason s) .speculationRolledBack (wrap s.par.xlen reason.toNat)
      (wrap s.par.xlen s.log.tr.savedPc.toNat) := by
  have hd := delivered_deliverFault .speculationRolledBack (reason.setWidth 64) s.log.tr.savedPc (s := unwound reason s)
    (by rwa [unwound_readCsr])
  rwa [← rollback_eq_unwound, unwound_par, toNat_reason] at hd

/-- Step 6 with no handler armed (46_speclog_ops.md R378, R381). -/
theorem terminated_rollback (h : (s.readCsr csrThandler).toNat % 2 = 0) :
    Terminated (unwound reason s) (rollback reason s) .speculationRolledBack (wrap s.par.xlen reason.toNat)
      (wrap s.par.xlen s.log.tr.savedPc.toNat) := by
  have ht := terminated_deliverFault .speculationRolledBack (reason.setWidth 64) s.log.tr.savedPc (s := unwound reason s)
    (by rwa [unwound_readCsr]) LogState.noConfusion
  rwa [← rollback_eq_unwound, unwound_par, toNat_reason] at ht

theorem causesWritten_rollback : CausesWritten (rollback reason s) .speculationRolledBack (wrap s.par.xlen reason.toNat)
    (wrap s.par.xlen s.log.tr.savedPc.toNat) := by
  have hc := causesWritten_deliverFault .speculationRolledBack (reason.setWidth 64) s.log.tr.savedPc (unwound reason s)
  rwa [← rollback_eq_unwound, unwound_par, toNat_reason] at hc

theorem readCsr_rollback_of_ne {c : CsrNum} (h1 : c ≠ csrTcause) (h2 : c ≠ csrTval) (h3 : c ≠ csrTepc)
    (h4 : s.armed = true → c ≠ csrThandler) : (rollback reason s).readCsr c = s.readCsr c := by
  rw [rollback_eq_unwound, readCsr_deliverFault_of_ne _ _ _ h1 h2 h3, unwound_readCsr]
  rwa [State.armed, unwound_readCsr]

end fault

/-- Settles O49: steps 1 to 5 give the state `unwound`, and the fault is delivered to it with no entry pending. -/
theorem rollbackRestores : Obligations.RollbackRestores := by
  rintro s _ reason _ _ _ hi rfl rfl rfl rfl
  have hl := rollback_leaves reason s
  have hr := rollback_rest reason s
  refine ⟨restored_rollback reason hi, fun r => readReg_rollback reason s, ?outcome, causesWritten_rollback reason,
    ?record, hl.tdState, ?noDeadline, fun h => ?handler, fun h => ?terminated, fun c hc => ?otherWords, ?rest⟩
  case outcome => rw [hr]; rfl
  case record => rw [hl.tr]
  case noDeadline =>
    obtain h | h := Nat.mod_two_eq_zero_or_one (s.readCsr csrThandler).toNat
    · exact (terminated_rollback reason h).dispatcher.2.1
    · exact (delivered_rollback reason h).dispatcher.2
  case handler =>
    have hd := delivered_rollback reason h
    have hpc := hd.pc
    have hdis := hd.disarmed
    rw [unwound_par, unwound_readCsr] at hpc hdis
    exact ⟨hd.core, hpc, hdis, (congrArg State.tdOut hd.rest).trans (unwound_tdOut reason s),
      (congrArg State.notes hd.rest).trans (unwound_notes reason s)⟩
  case terminated =>
    have ht := terminated_rollback reason h
    obtain ⟨-, -, hout⟩ := ht.dispatcher
    refine ⟨ht.core, ?_, readCsr_rollback_of_ne _ (by decide) (by decide) (by decide) fun ha => absurd ha (not_armed h),
      by rw [hout, unwound_tdOut], ?_⟩
    · have hpc : (rollback reason s).pcVal = (unwound reason s).pcVal := by rw [ht.rest]; rfl
      rw [hpc, unwound_pcVal]
    · rw [ht.note, unwound_notes, List.append_assoc]
      rfl
  case otherWords =>
    obtain ⟨h1, h2, h3, h4⟩ := hc
    exact readCsr_rollback_of_ne reason h1 h2 h3 fun _ => h4
  case rest =>
    rw [← hl.tr]
    exact hl.rest

/-! ## What PROV_ALLOC gives -/

theorem poolFits_iff (s : State) {n i : Nat} (hi : i < s.par.nregion) : s.poolFits n i = true ↔ Serves s n i := by
  simp only [State.poolFits, Serves, Bool.and_eq_true, beq_iff_eq, decide_eq_true_eq, and_assoc, hi, true_and]

/-- The effect of PROV_ALLOC for `n` bytes on the pool Region in slot `i` (46_speclog_ops.md R370). -/
def poolEffect (s : State) (n i : Nat) : Effect where
  touch := [⟨i, permR ||| permW, s.coreOwner, cellsIn s.mem (s.region i).base.toNat (s.region i).length.toNat,
    ⟨true, permR ||| permW, (s.region i).gen⟩⟩]
  a0 := trunc s.par.xlen (s.region i).base
  a1 := BitVec.ofNat 64 i
  reqOffset := (s.region i).base
  reqLength := BitVec.ofNat 32 n

/-- PROV_ALLOC gives nothing for no byte, for 2^32 bytes or more, and where no pool Region fits
(46_speclog_ops.md R370). -/
theorem provAlloc_none {s : State} {n : Nat} (hn : n = (s.trapReg 10).toNat)
    (h : n = 0 ∨ 2 ^ 32 ≤ n ∨ ∀ i, ¬Serves s n i) : provAlloc s = none := by
  subst hn
  unfold provAlloc
  simp only
  split_ifs with hsize
  · rfl
  · have hf : (List.range s.par.nregion).find? (s.poolFits (s.trapReg 10).toNat) = none :=
      List.find?_eq_none.2 fun i hi hc => by
        obtain h | h | h := h
        · exact hsize (.inl h)
        · exact hsize (.inr h)
        · exact h i ((poolFits_iff s (List.mem_range.1 hi)).1 hc)
    rw [hf]

/-- PROV_ALLOC takes the lowest pool Region that fits (46_speclog_ops.md R370). -/
theorem provAlloc_lowest {s : State} {n i : Nat} (hn : n = (s.trapReg 10).toNat) (h0 : n ≠ 0) (h32 : n < 2 ^ 32)
    (hi : Serves s n i) (hlow : ∀ j, j < i → ¬Serves s n j) : provAlloc s = some (poolEffect s n i) := by
  subst hn
  have hf : (List.range s.par.nregion).find? (s.poolFits (s.trapReg 10).toNat) = some i :=
    List.find?_range_eq_some.2 ⟨(poolFits_iff s hi.1).2 hi, List.mem_range.2 hi.1, fun j hj => by
      rw [Bool.not_eq_true', ← Bool.not_eq_true, poolFits_iff s (hj.trans hi.1)]
      exact hlow j hj⟩
  unfold provAlloc
  simp only
  rw [if_neg (not_or.2 ⟨h0, h32.not_ge⟩), hf]
  rfl

/-! ## A failed request -/

/-- A failed request resumes the core with all ones and the reason (60_exceptions.md R444). -/
theorem resumed_failRequest (reason : BitVec 8) (s : State) :
    Resumed s (failRequest reason s) (allOnes s.par.xlen) (reason.setWidth 64) := by
  have h := resumed_resume (s := s) (s' := { s with tdOut := { s.tdOut with valid := false } }) allOnesWord
    (reason.setWidth 64) rfl (fun _ _ _ => rfl) rfl rfl
  rwa [← trunc_eq_wrap_toNat, trunc_allOnesWord, toNat_reason, wrap_reason] at h

theorem failRequest_rest (reason : BitVec 8) (s : State) : failRequest reason s = { s with
    regs := (failRequest reason s).regs, pc := (failRequest reason s).pc, coreState := (failRequest reason s).coreState
    tdState := (failRequest reason s).tdState, tdDlValid := (failRequest reason s).tdDlValid
    tr := (failRequest reason s).tr, tdOut := { s.tdOut with valid := false } } := rfl

/-! ## An applied effect -/

/-- The entry opened and the effect applied: BEGIN and APPLY_PROVISIONAL at the trap's deadline (46_speclog_ops.md R374,
R375, 60_exceptions.md R434 steps 3 to 5). -/
def provisional (e : SvcEntry) (eff : Effect) (s : State) : State :=
  applyProvisional eff
    (beginEntry s.req.head e.serviceId s.setDeadline.tdDeadline (eff.touch.map (·.rid)) s.setDeadline)

theorem speculate_full (e : SvcEntry) (eff : Effect) {s : State} (h : s.req.count = s.par.ringCap) :
    speculate e eff s = { s with tdDeadline := deadlineOf s, tdDlValid := true, tdState := .waitSlot } :=
  if_pos ((reqFull_iff s.setDeadline).2 h)

theorem speculate_space (e : SvcEntry) (eff : Effect) {s : State} (h : s.req.count ≠ s.par.ringCap) :
    speculate e eff s = resume ((((provisional e eff s).publishRequest e.serviceId eff.reqOffset eff.reqLength).writeReg
      10 eff.a0).writeReg 11 eff.a1) :=
  if_neg fun hf => h ((reqFull_iff s.setDeadline).1 hf)

theorem provisional_rest (e : SvcEntry) (eff : Effect) (s : State) : provisional e eff s = { s with
    regions := (provisional e eff s).regions, mem := (provisional e eff s).mem, caps := (provisional e eff s).caps
    log := ⟨.pending, s.req.head, e.serviceId, (eff.touch.map (·.rid)).map s.imageOf, deadlineOf s, s.tr⟩
    tdDeadline := deadlineOf s, tdDlValid := true } := by
  rw [provisional, applyProvisional, applyTouches_rest]
  rfl

theorem provisional_region_cap (e : SvcEntry) {eff : Effect} {s : State} (hn : (eff.touch.map (·.rid)).Nodup) {k : Touch}
    (hk : k ∈ eff.touch) :
    (provisional e eff s).region k.rid = { s.region k.rid with perms := k.perms, owner := k.owner } ∧
    (provisional e eff s).cap k.rid = k.cap := applyTouches_touched hn hk

theorem provisional_other (e : SvcEntry) {eff : Effect} (s : State) {i : Nat} (hi : i ∉ eff.touch.map (·.rid)) :
    (provisional e eff s).region i = s.region i ∧ (provisional e eff s).cap i = s.cap i := applyTouches_other _ _ hi

theorem provisional_byte (e : SvcEntry) (eff : Effect) (s : State) (a : Nat) :
    (provisional e eff s).byte a = (applyTouches eff.touch s).byte a :=
  have hs : SameStore s (beginEntry s.req.head e.serviceId s.setDeadline.tdDeadline (eff.touch.map (·.rid))
      s.setDeadline) := ⟨rfl, rfl, rfl⟩
  (hs.applyTouches eff.touch).byte a

/-- A request published to a ring with a slot free goes to its end (45_ringchannel_ops.md R340, R346). -/
theorem framesOf_publishRequest {s : State} (hl : s.par.legal = true) (hc : s.req.count < s.par.ringCap)
    (svc : BitVec 16) (off : BitVec 64) (len : BitVec 32) :
    framesOf s.par.ringCap (s.publishRequest svc off len).req =
      framesOf s.par.ringCap s.req ++ [Frame.toBits ⟨s.req.head, 0, svc, len, off, 0⟩] := by
  obtain ⟨k, hk, hcap⟩ := ringCap_of_legal hl
  obtain ⟨r, hr⟩ := tryPublish_space (Frame.toBits ⟨s.req.head, 0, svc, len, off, 0⟩) hc.ne
  rw [State.publishRequest_req, hr, Option.getD_some]
  rw [hcap] at hc hr ⊢
  exact framesOf_publish hk hc hr

/-- The before-images name the touched Regions and hold what was there (46_speclog_ops.md R374). -/
theorem imageOf_holds (s : State) (i : Nat) : (s.imageOf i).desc = s.region i ∧ (s.imageOf i).cap = s.cap i ∧
    ∀ a, Covers s i a → byteAt (s.imageOf i).bytes a = s.byte a :=
  ⟨rfl, rfl, fun _ ha => (byteAt_cellsIn ..).trans (if_pos ((inRange_iff ..).2 ha.2))⟩

/-- An effect on distinct valid Regions, applied with a slot free in REQ, where the bytes of one touched Region are not
overwritten by the effect on another. -/
theorem speculated_speculate {s : State} {e : SvcEntry} {eff : Effect} (hl : s.par.legal = true)
    (hc : s.req.count < s.par.ringCap) (hn : (eff.touch.map (·.rid)).Nodup)
    (hv : ∀ k ∈ eff.touch, (s.region k.rid).valid = true) (hw : ∀ k ∈ eff.touch, k.bytes.wf)
    (hb : ∀ k ∈ eff.touch, ∀ a, Covers s k.rid a → (applyTouches eff.touch s).byte a = byteAt k.bytes a) :
    Speculated s (speculate e eff s) e.serviceId eff := by
  rw [speculate_space e eff hc.ne]
  have hp := provisional_rest e eff s
  have himages : (provisional e eff s).log.images = (eff.touch.map (·.rid)).map s.imageOf := by rw [hp]
  exact {
    resumed := resumed_resume _ _ (by rw [State.publishRequest_par, hp])
      (fun r _ _ => by rw [State.publishRequest_readReg, hp]; rfl) (by rw [State.publishRequest_tr, hp])
      (by rw [State.publishRequest_csrs, hp])
    touched := fun k hk => by
      obtain ⟨hregion, hcap⟩ := provisional_region_cap e (s := s) hn hk
      exact ⟨hregion, hcap, fun a ha => (provisional_byte e eff s a).trans (hb k hk a ha)⟩
    others := fun i hi => provisional_other e s hi
    otherBytes := fun a ha => (provisional_byte e eff s a).trans (applyTouches_byte_other hv hw ha)
    imageOrder := by
      simp only [resume_log, State.writeReg_log, State.publishRequest_log, himages, List.map_map]
      rfl
    image := fun m hm => by
      simp only [resume_log, State.writeReg_log, State.publishRequest_log, himages, List.mem_map] at hm
      obtain ⟨i, -, rfl⟩ := hm
      exact imageOf_holds s i
    entry := by
      simp only [resume_log, State.writeReg_log, State.publishRequest_log]
      rw [hp]
    request := by
      have hf := framesOf_publishRequest (s := provisional e eff s) (by rw [hp]; exact hl) (by rw [hp]; exact hc)
        e.serviceId eff.reqOffset eff.reqLength
      rw [hp] at hf ⊢
      exact hf
    rest := by
      rw [hp]
      rfl }

/-- PROV_EXT: the touched Regions lie apart because valid Regions do (46_speclog_ops.md R372, 10_state.md R35 b). -/
theorem speculated_of_validEffect {s : State} {e : SvcEntry} {eff : Effect} (hl : s.par.legal = true)
    (hc : s.req.count < s.par.ringCap) (h : ValidEffect s eff) (hd : ∀ i j a, Covers s i a → Covers s j a → i = j) :
    Speculated s (speculate e eff s) e.serviceId eff := by
  have hv : ∀ k ∈ eff.touch, (s.region k.rid).valid = true := fun k hk => (h.touches k hk).valid
  have hw : ∀ k ∈ eff.touch, k.bytes.wf := fun k hk => (h.touches k hk).canonical
  exact speculated_speculate hl hc h.distinct hv hw fun k hk a => applyTouches_byte hv hw h.distinct hd hk

/-- The byte store, when a pool Region is given out with the bytes it has. -/
theorem byte_applyTouches_poolEffect {s : State} (hm : s.mem.wf) (n i a : Nat) :
    (applyTouches (poolEffect s n i).touch s).byte a = s.byte a := by
  refine (byte_applyTouch _ (cellsIn_wf _ _ hm) s a).trans ?_
  rw [byteAt_cellsIn]
  split_ifs <;> rfl

/-- PROV_ALLOC: one pool Region touched, with the bytes it has (46_speclog_ops.md R370). -/
theorem speculated_poolEffect {s : State} {e : SvcEntry} {n i : Nat} (hl : s.par.legal = true)
    (hc : s.req.count < s.par.ringCap) (hi : Serves s n i) (hm : s.mem.wf) :
    Speculated s (speculate e (poolEffect s n i) s) e.serviceId (poolEffect s n i) := by
  refine speculated_speculate hl hc (List.nodup_singleton i) ?_ ?_ ?_ <;>
    simp only [poolEffect, List.forall_mem_singleton]
  · exact hi.2.1
  · exact cellsIn_wf _ _ hm
  · intro a ha
    rw [byteAt_cellsIn, if_pos ((inRange_iff ..).2 ha.2)]
    exact byte_applyTouches_poolEffect hm n i a

theorem byte_speculate_poolEffect {s : State} {e : SvcEntry} {n i : Nat} (hm : s.mem.wf)
    (hc : s.req.count ≠ s.par.ringCap) (a : Nat) : (speculate e (poolEffect s n i) s).byte a = s.byte a := by
  rw [speculate_space _ _ hc, resume_byte, State.writeReg_byte, State.writeReg_byte, State.publishRequest_byte,
    provisional_byte, byte_applyTouches_poolEffect hm]

/-- The results of PROV_ALLOC: the base and the slot modulo 2^XLEN (46_speclog_ops.md R370; log entry 18). -/
theorem resumed_poolEffect {s t : State} {n i : Nat} (h : Resumed s t (wrap s.par.xlen (poolEffect s n i).a0.toNat)
    (wrap s.par.xlen (poolEffect s n i).a1.toNat)) :
    Resumed s t (wrap s.par.xlen (s.region i).base.toNat) (wrap s.par.xlen i) := by
  rwa [← trunc_eq_wrap_toNat, ← trunc_eq_wrap_toNat, poolEffect, trunc_trunc, trunc_ofNat, trunc_eq_wrap_toNat] at h

/-- The one before-image of PROV_ALLOC (46_speclog_ops.md R374). -/
theorem image_of_speculated {s t : State} {svc : BitVec 16} {n i : Nat} (h : Speculated s t svc (poolEffect s n i))
    (hi : Serves s n i) : ∃ m, t.log = ⟨.pending, s.req.head, svc, [m], deadlineOf s, s.tr⟩ ∧ m.rid = i ∧
      m.desc = s.region i ∧ m.cap = s.cap i ∧
      ∀ a, inRange (s.region i).base.toNat (s.region i).length.toNat a = true → byteAt m.bytes a = s.byte a := by
  obtain ⟨m, hm, rfl⟩ := List.map_eq_singleton_iff.1 h.imageOrder
  obtain ⟨hdesc, hcap, hbytes⟩ := h.image m (hm ▸ List.mem_singleton_self m)
  have hentry := h.entry
  rw [hm] at hentry
  exact ⟨m, hentry, rfl, hdesc, hcap, fun a ha => hbytes a ⟨hi.2.1, (inRange_iff ..).1 ha⟩⟩

/-! ## A speculative call -/

theorem perform_ext {s : State} {e : SvcEntry} {eff : Effect} (h : Calls s e) (hcls : e.cls = .speculative)
    (hprov : e.prov = .ext) (hp : Provides s e eff) : perform (.td .classify) s = .next (speculate e eff s) := by
  rw [perform_calls h, hcls]
  simp only [speculativeCall, hprov, (provides_iff s e eff).2 hp]

theorem perform_alloc {s : State} {e : SvcEntry} (h : Calls s e) (hcls : e.cls = .speculative) (hprov : e.prov = .alloc) :
    perform (.td .classify) s =
      .next ((provAlloc s).elim (failRequest 0xFE s) fun eff => speculate e eff s) := by
  rw [perform_calls h, hcls]
  simp only [speculativeCall, hprov]
  cases provAlloc s <;> rfl

/-- Settles O47: both effects are applied by one lemma; PROV_ALLOC writes back the bytes its one Region has. -/
theorem speculativeAllocation : Obligations.SpeculativeAllocation := by
  refine ⟨fun s e eff h hcls hprov hp hd => ?ext, fun s e n h hcls hprov hn hm =>
    ⟨fun hnone => ?none, fun i h0 h32 hi hlow => ?alloc⟩⟩
  case ext =>
    have hperf := perform_ext h hcls hprov hp
    exact ⟨fun hfull => hperf.trans (congrArg _ (speculate_full e eff hfull)),
      fun hc hl => ⟨_, hperf, speculated_of_validEffect hl hc hp.2 hd⟩⟩
  case none =>
    have hperf := perform_alloc h hcls hprov
    rw [provAlloc_none hn hnone] at hperf
    exact ⟨_, hperf, resumed_failRequest 0xFE s, failRequest_rest ..⟩
  case alloc =>
    have hperf := perform_alloc h hcls hprov
    rw [provAlloc_lowest hn h0 h32 hi hlow] at hperf
    refine ⟨fun hfull => hperf.trans (congrArg _ (speculate_full e _ hfull)), fun hc hl => ⟨_, hperf, ?_⟩⟩
    have hs := speculated_poolEffect (e := e) hl hc hi hm
    obtain ⟨hregion, hcap, -⟩ := hs.touched _ (List.mem_singleton_self _)
    have hother : ∀ j, j ≠ i → j ∉ (poolEffect s n i).touch.map (·.rid) := fun j hj hmem =>
      hj (List.mem_singleton.1 hmem)
    exact ⟨resumed_poolEffect hs.resumed, ⟨hregion, fun j hj => (hs.others j (hother j hj)).1⟩,
      ⟨hcap, fun j hj => (hs.others j (hother j hj)).2⟩, byte_speculate_poolEffect hm hc.ne, hs.request,
      image_of_speculated hs hi, hs.rest⟩

end Sys2Proof.Machine
end

section
/-! The statements of the family of 60_exceptions.md: the delivery of a fault (R415, R417), the classification of a trap and
the syscalls of classes LOCAL and BLOCKING (R425 to R435), responses, deadlines and retries (R436 to R445), and the commands
of the driver port (R450 to R454). -/

namespace Sys2Proof.Machine

open Sys2Proof.Safety

/-! ## Fault delivery -/

/-- The cause words and the closed trap leave the before-images and what they are put back into, so termination restores
the entry of the state before them (46_speclog_ops.md R379). -/
theorem restored_deliverFault (k : Kind) (v e : Word) {s : State} (h : (s.readCsr csrThandler).toNat % 2 = 0)
    (hp : s.log.state = .pending) (hi : ImagesApart s) : Restored s (deliverFault k v e s) := by
  have hr := restored_terminateCore (s := (withCauses k v e s).closeTrap) k v e
    ⟨hi.bytes, hi.rids, hi.ranges, hi.generations⟩ hp
  rw [deliverFault_eq, if_neg (not_armed h)]
  exact ⟨hr.regions, hr.caps, hr.bytes, hr.otherRegions, hr.otherBytes, hr.entry⟩

theorem logLast_deliverFault (k : Kind) (v e : Word) {s : State} (h : (s.readCsr csrThandler).toNat % 2 = 0)
    (hp : s.log.state = .pending) : (deliverFault k v e s).logLast = ⟨s.log.seq, .rolledBack, 0xFD⟩ := by
  rw [deliverFault_eq, if_neg (not_armed h)]
  exact logLast_terminateCore k v e hp

/-- With no handler armed, delivery keeps the registers, the pc and all else that termination keeps
(60_exceptions.md R417). -/
theorem deliverFault_rest_of_unarmed (k : Kind) (v e : Word) {s : State} (h : (s.readCsr csrThandler).toNat % 2 = 0) :
    deliverFault k v e s = { s with
      csrs := (deliverFault k v e s).csrs, coreState := .terminated, tdState := .idle, tdDlValid := false
      tdOut := { s.tdOut with valid := false }, tr := { s.tr with valid := false }
      notes := s.notes ++ [⟨.terminate, k, wrap s.par.xlen v.toNat, wrap s.par.xlen e.toNat, 0⟩]
      regions := (deliverFault k v e s).regions, caps := (deliverFault k v e s).caps
      mem := (deliverFault k v e s).mem, log := (deliverFault k v e s).log
      logLast := (deliverFault k v e s).logLast } := by
  rw [← trunc_eq_wrap_toNat, ← trunc_eq_wrap_toNat, deliverFault_eq, if_neg (not_armed h), terminateCore_eq]
  rfl

/-- Settles O34: the handler's case and the quiet one are lemmas of delivery; with an entry pending, delivery is
termination on a state with the same before-images. -/
theorem faultDelivery : Obligations.FaultDelivery := by
  rintro s k v e _ _ rfl rfl
  have hcauses := causesWritten_deliverFault k v e s
  have hwords (h : (s.readCsr csrThandler).toNat % 2 = 0) (c : CsrNum) (h1 : c ≠ csrTcause) (h2 : c ≠ csrTval)
      (h3 : c ≠ csrTepc) : (deliverFault k v e s).readCsr c = s.readCsr c :=
    readCsr_deliverFault_of_ne k v e h1 h2 h3 fun ha => absurd ha (not_armed h)
  exact ⟨delivered_deliverFault k v e,
    fun h hq => ⟨terminated_deliverFault k v e h hq, hcauses, hwords h⟩,
    fun h hp hi => ⟨_, rfl, restored_deliverFault k v e h hp hi, logLast_deliverFault k v e h hp, hcauses, hwords h,
      deliverFault_rest_of_unarmed k v e h⟩⟩

/-! ## Classification -/

theorem perform_td_of_enabled {s : State} {d : TdMove} (h : tdEnabled s d = true) :
    perform (.td d) s = .next (tdEffect s d) :=
  congrArg Host.Outcome.next (if_pos h)

/-- A transition that is not enabled passes (log entry 4). -/
theorem perform_td_of_disabled {s : State} {d : TdMove} (h : ¬tdEnabled s d = true) : perform (.td d) s = .next s :=
  congrArg Host.Outcome.next (if_neg h)

/-- What is neither a syscall nor a breakpoint is delivered as it stands (60_exceptions.md R425). -/
theorem classify_fault {s : State} (h1 : s.tr.kind ≠ .syscall) (h2 : s.tr.kind ≠ .breakpoint) :
    classify s = deliverFault s.tr.kind s.tr.addr s.tr.savedPc s := by
  unfold classify
  split
  next h => exact absurd h h1
  next h => exact absurd h h2
  all_goals rfl

theorem classify_breakpoint {s : State} (h : s.tr.kind = .breakpoint) : classify s = { s with tdState := .waitDebug } := by
  rw [classify, h]

/-- A syscall waits behind a pending entry (60_exceptions.md R426). -/
theorem classify_pending {s : State} (h : s.tr.kind = .syscall) (hp : s.log.state = .pending) :
    classify s = { s with tdState := .waitSpec } := by
  rw [classify, h]
  exact if_pos hp

/-- An id at or above NSYS is unregistered (60_exceptions.md R420, R427). -/
theorem classify_beyond {s : State} (h : s.tr.kind = .syscall) (hq : s.log.state ≠ .pending)
    (hn : s.par.nsys ≤ (s.trapReg 17).toNat) : classify s = unregisteredCall s := by
  have he : s.syscallEntry = SvcEntry.absent := if_pos hn
  rw [classify, h]
  exact (if_neg hq).trans (by rw [syscallByClass, he]; rfl)

theorem perform_unregistered {s : State} {e : SvcEntry} (h : Calls s e) (hc : e.cls = .unregistered) :
    perform (.td .classify) s = .next (unregisteredCall s) := by
  rw [perform_calls h, hc]

theorem perform_local {s : State} {e : SvcEntry} (h : Calls s e) (hc : e.cls = .localCall) :
    perform (.td .classify) s = .next (localCall e s) := by
  rw [perform_calls h, hc]

theorem localCall_exit {e : SvcEntry} (h : e.localOp = .exit) (s : State) : localCall e s = localExit s := by
  rw [localCall, h]

theorem localCall_protect {e : SvcEntry} (h : e.localOp = .protect) (s : State) : localCall e s = localProtect s := by
  rw [localCall, h]

theorem localCall_revoke {e : SvcEntry} (h : e.localOp = .revoke) (s : State) : localCall e s = localRevoke s := by
  rw [localCall, h]

theorem localCall_reserved {e : SvcEntry} (h : e.localOp = .reserved) (s : State) :
    localCall e s = unregisteredCall s := by
  rw [localCall, h]

/-- EXIT halts the core (60_exceptions.md R431). -/
theorem localExit_eq (s : State) : localExit s = { s with
    coreState := .halted, tr := { s.tr with valid := false }, tdState := .idle
    notes := s.notes ++
      [⟨.halt, .syscall, s.trapReg 10, wrap s.par.xlen s.tr.savedPc.toNat, s.trapReg 17⟩] } := by
  rw [← trunc_eq_wrap_toNat]
  rfl

/-- Settles O35: the kind of the trap and, for a syscall, the pending entry, the id and the class choose the case. -/
theorem trapClassification : Obligations.TrapClassification := by
  intro s hs
  have hperf := perform_classify hs
  refine ⟨fun hk => ?fault, fun hk => ?breakpoint, fun hk hp => ?pending, fun hk hq hn => ?beyond,
    fun e h hc => ?unregistered, fun e h hc ho => ?exit⟩
  case fault =>
    have hne (k : Kind) (hk' : k ∉ [Kind.noExec, .memoryViolation, .staleHandle, .illegalInstruction, .misalignedTarget]) :
        s.tr.kind ≠ k := fun he => hk' (he ▸ hk)
    exact hperf.trans (congrArg _ (classify_fault (hne _ (by decide)) (hne _ (by decide))))
  case breakpoint => exact hperf.trans (congrArg _ (classify_breakpoint hk))
  case pending => exact hperf.trans (congrArg _ (classify_pending hk hp))
  case beyond => exact hperf.trans (congrArg _ (classify_beyond hk hq hn))
  case unregistered =>
    obtain hc | ⟨hc, ho⟩ := hc
    · exact perform_unregistered h hc
    · exact (perform_local h hc).trans (congrArg _ (localCall_reserved ho s))
  case exit => exact (perform_local h hc).trans (congrArg _ ((localCall_exit ho s).trans (localExit_eq s)))

/-! ## LOCAL PROTECT and LOCAL REVOKE -/

theorem noLocalCap_iff (s : State) : s.noLocalCap = true ↔
    s.par.nregion ≤ (s.trapReg 10).toNat ∨ (s.cap (s.trapReg 10).toNat).valid = false := by
  simp [State.noLocalCap]

theorem trunc_zeroWord (x : Xlen) : trunc x 0 = 0 := trunc_zero x

/-- A LOCAL operation that ends well puts 0 in x10 and resumes (60_exceptions.md R432, R433). -/
theorem resumed_zero {s s' : State} (hp : s'.par = s.par) (hr : ∀ r, s'.readReg r = s.readReg r) (ht : s'.tr = s.tr)
    (hc : s'.csrs = s.csrs) : Resumed s (resume (s'.writeReg 10 0)) 0 (s.readReg 11) := by
  have h := resumed_resume_one 0 hp hr ht hc
  rwa [← trunc_eq_wrap_toNat, trunc_zeroWord] at h

theorem localProtect_noCap {s : State} (h : s.noLocalCap = true) : localProtect s = localStale s := if_pos h

theorem localRevoke_noCap {s : State} (h : s.noLocalCap = true) : localRevoke s = localStale s := if_pos h

section held

variable {s : State} (hc : ¬s.noLocalCap = true)

include hc

theorem localProtect_wide (h : 8 ≤ (s.trapReg 11).toNat) :
    localProtect s = deliverFault .invalidPermissions (s.trapReg 11) s.tr.savedPc s :=
  (if_neg hc).trans (if_pos h)

theorem localProtect_stale (hp : (s.trapReg 11).toNat < 8) (hs : IsStale s (s.heldHandle (s.trapReg 10).toNat)) :
    localProtect s = localStale s := by
  refine (if_neg hc).trans ((if_neg hp.not_ge).trans ?_)
  rw [opProtect_stale hs]

theorem localProtect_badPerms (hp : (s.trapReg 11).toNat < 8) (hs : ¬IsStale s (s.heldHandle (s.trapReg 10).toNat))
    (hb : BadPerms (s.region (s.trapReg 10).toNat).owner ((s.trapReg 11).setWidth 3)) :
    localProtect s = deliverFault .invalidPermissions (s.trapReg 11) s.tr.savedPc s := by
  refine (if_neg hc).trans ((if_neg hp.not_ge).trans ?_)
  rw [opProtect_badPerms hs hb]

theorem localProtect_ok (hp : (s.trapReg 11).toNat < 8) (hs : ¬IsStale s (s.heldHandle (s.trapReg 10).toNat))
    (hb : ¬BadPerms (s.region (s.trapReg 10).toNat).owner ((s.trapReg 11).setWidth 3)) :
    localProtect s = resume (((s.setRegion (s.trapReg 10).toNat
      { s.region (s.trapReg 10).toNat with perms := (s.trapReg 11).setWidth 3 }).setCap (s.trapReg 10).toNat
      ⟨true, (s.trapReg 11).setWidth 3, (s.cap (s.trapReg 10).toNat).gen⟩).writeReg 10 0) := by
  refine (if_neg hc).trans ((if_neg hp.not_ge).trans ?_)
  rw [opProtect_ok hs hb]
  rfl

theorem localRevoke_stale (hs : IsStale s (s.heldHandle (s.trapReg 10).toNat)) : localRevoke s = localStale s := by
  refine (if_neg hc).trans ?_
  rw [opRevoke_stale hs]

theorem localRevoke_below (hs : ¬IsStale s (s.heldHandle (s.trapReg 10).toNat))
    (hg : (s.region (s.trapReg 10).toNat).gen.toNat < 2 ^ 64 - 1) :
    localRevoke s = resume (((s.setRegion (s.trapReg 10).toNat
      { s.region (s.trapReg 10).toNat with gen := (s.region (s.trapReg 10).toNat).gen + 1 }).setCap (s.trapReg 10).toNat
      ⟨true, (s.cap (s.trapReg 10).toNat).mask, (s.region (s.trapReg 10).toNat).gen + 1⟩).writeReg 10 0) := by
  refine (if_neg hc).trans ?_
  rw [opRevoke_below hs hg]
  rfl

theorem localRevoke_retires (hs : ¬IsStale s (s.heldHandle (s.trapReg 10).toNat))
    (hg : (s.region (s.trapReg 10).toNat).gen.toNat = 2 ^ 64 - 1) :
    localRevoke s = resume ((((s.zeroFill (s.trapReg 10).toNat).setRegion (s.trapReg 10).toNat
      (s.region (s.trapReg 10).toNat).cleared).setCap (s.trapReg 10).toNat
      { s.cap (s.trapReg 10).toNat with valid := false }).writeReg 10 0) := by
  refine (if_neg hc).trans ?_
  rw [opRevoke_retires hs hg]
  rfl

end held

/-- Settles O44: each test and each outcome of the two operations is a lemma, and each outcome that resumes is one write
of the Region table and one of the capability table. -/
theorem localProtectRevoke : Obligations.LocalProtectRevoke := by
  rintro s e _ _ _ _ h hcls rfl rfl rfl rfl
  have hlocal := perform_local h hcls
  have hheld (hlt : (s.trapReg 10).toNat < s.par.nregion) (hv : (s.cap (s.trapReg 10).toNat).valid = true) :
      ¬s.noLocalCap = true := by
    rw [noLocalCap_iff, hv]
    exact not_or.2 ⟨hlt.not_ge, Bool.noConfusion⟩
  refine ⟨fun ho hn => ?noCap, fun ho hlt hv => ?protect, fun ho hlt hv => ?revoke⟩
  case noCap =>
    have hn' := (noLocalCap_iff s).2 hn
    obtain ho | ho := ho
    · exact hlocal.trans (congrArg _ ((localCall_protect ho s).trans (localProtect_noCap hn')))
    · exact hlocal.trans (congrArg _ ((localCall_revoke ho s).trans (localRevoke_noCap hn')))
  case protect =>
    have hc := hheld hlt hv
    rw [localCall_protect ho] at hlocal
    exact ⟨fun hp => hlocal.trans (congrArg _ (localProtect_wide hc hp)),
      fun hp hs => hlocal.trans (congrArg _ (localProtect_stale hc hp hs)),
      fun hp hs hb => hlocal.trans (congrArg _ (localProtect_badPerms hc hp hs hb)),
      fun hp hs hb => ⟨_, hlocal.trans (congrArg _ (localProtect_ok hc hp hs hb)),
        resumed_zero rfl (fun _ => rfl) rfl rfl, onlyRegion_of rfl, onlyCap_of rfl, rfl⟩⟩
  case revoke =>
    have hc := hheld hlt hv
    rw [localCall_revoke ho] at hlocal
    refine ⟨fun hs => hlocal.trans (congrArg _ (localRevoke_stale hc hs)),
      fun hs hg => ⟨_, hlocal.trans (congrArg _ (localRevoke_below hc hs hg)),
        resumed_zero rfl (fun _ => rfl) rfl rfl, onlyRegion_of rfl, onlyCap_of rfl, rfl⟩,
      fun hs hg => ?_⟩
    obtain ⟨-, hvalid, -⟩ := of_not_isStale hs
    exact ⟨_, hlocal.trans (congrArg _ (localRevoke_retires hc hs hg)), resumed_zero rfl (fun _ => rfl) rfl rfl,
      onlyRegion_of rfl, onlyCap_of rfl, fun a => (byte_zeroFill_covers hvalid a).1,
      fun a => (byte_zeroFill_covers hvalid a).2, rfl⟩

/-! ## A response to a blocking request -/

/-- A consumption tried on an empty ring passes (log entry 4). -/
theorem perform_consume_empty {s : State} (h : framesOf s.par.ringCap s.rsp = []) : perform (.td .consume) s = .next s := by
  have h0 : s.rsp.count = 0 := (length_framesOf ..).symm.trans (congrArg List.length h)
  refine perform_td_of_disabled ?_
  rw [tdEnabled, (isEmpty_iff_count _).2 h0]
  exact Bool.noConfusion

/-- A response that is not the entry's and is the request's (60_exceptions.md R438 b). -/
theorem dispatchResponse_request {f : Frame} {s : State} (ht : f.tag = 1)
    (he : ¬(s.log.state = .pending ∧ f.sequence = s.log.seq ∧ f.serviceId = s.log.svc))
    (hr : s.tdOut.valid = true ∧ f.sequence = s.tdOut.seq ∧ f.serviceId = s.tdOut.svc) :
    dispatchResponse f s = requestResponse f s :=
  (if_neg fun h => he h.2).trans (if_pos ⟨ht, hr⟩)

/-- Every other frame is discarded (60_exceptions.md R441). -/
theorem dispatchResponse_other {f : Frame} {s : State}
    (h : f.tag ≠ 1 ∨ ¬(s.log.state = .pending ∧ f.sequence = s.log.seq ∧ f.serviceId = s.log.svc) ∧
      ¬(s.tdOut.valid = true ∧ f.sequence = s.tdOut.seq ∧ f.serviceId = s.tdOut.svc)) : dispatchResponse f s = s := by
  obtain h | ⟨he, hr⟩ := h
  · exact (if_neg fun hc => h hc.1).trans (if_neg fun hc => h hc.1)
  · exact (if_neg fun hc => he hc.2).trans (if_neg fun hc => hr hc.2)

/-- An approved response gives its payload, a denied one all ones and its status (60_exceptions.md R440). -/
theorem resumed_requestResponse (f : Frame) (s : State) (r : Ring) :
    if f.status = 1 then Resumed s (requestResponse f { s with rsp := r }) (wrap s.par.xlen f.payloadOffset.toNat)
      (wrap s.par.xlen f.length.toNat)
    else Resumed s (requestResponse f { s with rsp := r }) (allOnes s.par.xlen) (wrap s.par.xlen f.status.toNat) := by
  have h (v w : Word) := resumed_resume (s := s)
    (s' := { s with rsp := r, tdOut := { s.tdOut with valid := false } }) v w rfl (fun _ _ _ => rfl) rfl rfl
  unfold requestResponse
  split_ifs
  · have hok := h f.payloadOffset (f.length.setWidth 64)
    rwa [BitVec.toNat_setWidth_of_le (by decide)] at hok
  · have hno := h allOnesWord (f.status.setWidth 64)
    rwa [← trunc_eq_wrap_toNat _ allOnesWord, trunc_allOnesWord, toNat_reason] at hno

theorem requestResponse_rsp (f : Frame) (s : State) : (requestResponse f s).rsp = s.rsp := by
  unfold requestResponse
  split_ifs <;> rfl

theorem requestResponse_rest (f : Frame) (s : State) : requestResponse f s = { s with
    rsp := (requestResponse f s).rsp, tdOut := { s.tdOut with valid := false }
    regs := (requestResponse f s).regs, pc := (requestResponse f s).pc
    coreState := (requestResponse f s).coreState, tdState := (requestResponse f s).tdState
    tdDlValid := (requestResponse f s).tdDlValid, tr := (requestResponse f s).tr } := by
  unfold requestResponse
  split_ifs <;> rfl

/-- Settles O46: the frame at the front of RSP is consumed, and its tag, sequence and service id say whose it is. -/
theorem blockingResponse : Obligations.BlockingResponse := by
  rintro s b l _ entry request hl rfl hentry hrequest
  refine ⟨perform_consume_empty, fun hq ht he hr => ?matched, fun hq ho => ?discarded⟩
  case matched =>
    obtain ⟨r, hrsp, hc⟩ := perform_consume hl hq
    rw [dispatchResponse_request (s := { s with rsp := r }) ht (mt hentry.2 he) (hrequest.1 hr)] at hc
    refine ⟨_, hc, ?_, resumed_requestResponse .., requestResponse_rest _ { s with rsp := r }⟩
    rw [requestResponse_rsp]
    exact hrsp
  case discarded =>
    obtain ⟨r, hrsp, hc⟩ := perform_consume hl hq
    rw [dispatchResponse_other (s := { s with rsp := r })
      (ho.imp_right fun ⟨he, hr⟩ => ⟨mt hentry.2 he, mt hrequest.2 hr⟩)] at hc
    exact ⟨_, hc, hrsp, rfl⟩

/-! ## Deadlines and retries -/

theorem tdEnabled_requestDeadline_iff (s : State) : tdEnabled s .requestDeadline = true ↔
    (s.tdState = .waitResponse ∨ s.tdState = .waitSlot) ∧ s.tdDlValid = true ∧ s.tdDeadline.toNat ≤ s.tdNow.toNat := by
  simp only [tdEnabled, Bool.and_eq_true, Bool.or_eq_true, beq_iff_eq, decide_eq_true_eq, and_assoc]

theorem tdEnabled_retry_iff (s : State) :
    tdEnabled s .retry = true ↔ s.tdState = .waitSlot ∧ s.req.count ≠ s.par.ringCap := by
  rw [tdEnabled, Bool.and_eq_true, beq_iff_eq, Bool.not_eq_true', ← Bool.not_eq_true, reqFull_iff]

theorem tdEnabled_release_iff (s : State) :
    tdEnabled s .release = true ↔ s.tdState = .waitSpec ∧ s.log.state = .empty := by
  rw [tdEnabled, Bool.and_eq_true, beq_iff_eq, beq_iff_eq]

/-- Settles O51: each transition of the dispatcher from its enabling condition. -/
theorem timeoutsAndRetries : Obligations.TimeoutsAndRetries := by
  intro s late hlate
  rw [← tdEnabled_requestDeadline_iff] at hlate
  refine ⟨rfl, fun h => ?due, fun h => ?notDue, fun h hc => ?retry, fun h => ?noRetry, fun h hl => ?release,
    fun h => ?noRelease⟩
  case due => exact ⟨_, perform_td_of_enabled (hlate.1 h), resumed_failRequest 0xFF s, failRequest_rest ..⟩
  case notDue => exact perform_td_of_disabled (mt hlate.2 h)
  case retry => exact perform_td_of_enabled ((tdEnabled_retry_iff s).2 ⟨h, hc⟩)
  case noRetry =>
    refine perform_td_of_disabled fun he => ?_
    obtain ⟨hw, hc⟩ := (tdEnabled_retry_iff s).1 he
    exact h.elim (absurd hw) hc
  case release => exact perform_td_of_enabled ((tdEnabled_release_iff s).2 ⟨h, hl⟩)
  case noRelease =>
    refine perform_td_of_disabled fun he => ?_
    obtain ⟨hw, hl⟩ := (tdEnabled_release_iff s).1 he
    exact h.elim (absurd hw) (absurd hl)

/-! ## Commands of the driver with a condition -/

section guarded

variable {s s' : State} {c : DriverCmd} {b : Bool} (hc : driverCmd c s = s.guarded b s')

include hc

theorem perform_of_guarded (hb : b = true) : perform (.driver c) s = .next { s' with reply := .ok } :=
  perform_driver (hc.trans (guarded_of hb))

/-- A command off its condition is refused (60_exceptions.md R450). -/
theorem refuses_of_guarded (hb : ¬b = true) : Refuses s c := perform_driver (hc.trans (guarded_not hb))

end guarded

/-- The condition of SET_ENTRY (60_exceptions.md R450, R451). -/
theorem setEntryAllowed_iff (s : State) (p : Word) (o : Owner) :
    (s.quiescent && s.coreState == .fetching && p.toNat % 4 == 0 && o != 0) = true ↔
      Quiescent s ∧ s.coreState = .fetching ∧ p.toNat % 4 = 0 ∧ o ≠ 0 := by
  simp only [Bool.and_eq_true, quiescent_iff, beq_iff_eq, bne_iff_ne, ne_eq, and_assoc]

theorem quiescent_and_lt_iff (s : State) (i n : Nat) : (s.quiescent && decide (i < n)) = true ↔ Quiescent s ∧ i < n := by
  rw [Bool.and_eq_true, quiescent_iff, decide_eq_true_iff]

/-- Settles O36: each command is guarded by its condition, and accepted it is one write. -/
theorem driverConfiguration : Obligations.DriverConfiguration := by
  intro s p o h i n e x
  refine ⟨fun hq hf hp ho => ?entry, fun hn => ?noEntry, fun hq hi => ?cap, fun hq hi => ?clear, fun hn => ?noCap,
    fun hn => ?noClear, fun hq hi => ?svc, fun hn => ?noSvc, fun hq => ?timeout, fun hn => ?noTimeout⟩
  case entry =>
    refine ⟨_, perform_of_guarded rfl ((setEntryAllowed_iff s p o).2 ⟨hq, hf, hp, ho⟩), ?_, rfl⟩
    rw [← trunc_eq_wrap_toNat]
    exact State.pcVal_setPc s p
  case noEntry => exact refuses_of_guarded rfl (mt (setEntryAllowed_iff s p o).1 hn)
  case cap => exact ⟨_, perform_of_guarded rfl ((quiescent_and_lt_iff ..).2 ⟨hq, hi⟩), onlyCap_of rfl, rfl⟩
  case clear => exact ⟨_, perform_of_guarded rfl ((quiescent_and_lt_iff ..).2 ⟨hq, hi⟩), onlyCap_of rfl, rfl⟩
  case noCap => exact refuses_of_guarded rfl (mt (quiescent_and_lt_iff ..).1 hn)
  case noClear => exact refuses_of_guarded rfl (mt (quiescent_and_lt_iff ..).1 hn)
  case svc =>
    exact ⟨_, perform_of_guarded rfl ((quiescent_and_lt_iff ..).2 ⟨hq, hi⟩), lookup_put_self ..,
      fun k hk => lookup_put_ne _ _ _ hk, rfl⟩
  case noSvc => exact refuses_of_guarded rfl (mt (quiescent_and_lt_iff ..).1 hn)
  case timeout => exact perform_of_guarded (c := .setTimeout x) rfl ((quiescent_iff s).2 hq)
  case noTimeout => exact refuses_of_guarded rfl (mt (quiescent_iff s).1 hn)

/-! ## Run control -/

/-- RESUME alone changes no register (60_exceptions.md R429). -/
theorem resumed_answer_resume (s : State) (r : Reply) :
    Resumed s ((resume s).answer r) (s.readReg 10) (s.readReg 11) where
  pc := pcVal_resume s
  core := rfl
  dispatcher := ⟨rfl, rfl⟩
  record := rfl
  x10 := rfl
  x11 := rfl
  others _ _ _ := rfl
  csrs := rfl

/-- Termination with no entry pending (60_exceptions.md R417). -/
theorem terminated_terminateCore (k : Kind) (v p : Word) {s : State} (hq : s.log.state ≠ .pending) :
    Terminated s (terminateCore k v p s) k (trunc s.par.xlen v) (trunc s.par.xlen p) := by
  rw [terminateCore_eq, restoreAtTermination_quiet hq]
  exact ⟨rfl, ⟨rfl, rfl, rfl⟩, rfl, rfl, rfl⟩

theorem csrs_terminateCore (k : Kind) (v p : Word) (s : State) : (terminateCore k v p s).csrs = s.csrs := by
  rw [terminateCore_eq]

/-- TERMINATE does not apply to a core that has ended (60_exceptions.md R450, R453). -/
theorem refuses_terminate {s : State} (h : s.coreState = .halted ∨ s.coreState = .terminated) : Refuses s .terminate := by
  refine refuses_of_guarded rfl ?_
  obtain h | h := h <;> rw [h] <;> decide

theorem stepAllowed_iff (s : State) :
    stepAllowed s = true ↔ s.coreRun = false ∧ s.coreState = .fetching ∧ s.coreOwner ≠ 0 := by
  simp only [stepAllowed, Bool.and_eq_true, Bool.not_eq_true', beq_iff_eq, bne_iff_ne, ne_eq, and_assoc]

/-- Settles O37: each command from its condition; TERMINATE is `TERMINATE_CORE` with nothing to restore. -/
theorem driverRunControl : Obligations.DriverRunControl := by
  intro s
  refine ⟨fun h => ?run, fun h => ?noRun, rfl, fun h => ?resume, fun h => ?noResume, fun hc hq => ?terminate,
    refuses_terminate, fun h => ?noStep, fun item => ⟨_, rfl⟩⟩
  case run => exact perform_of_guarded (c := .run) rfl (bne_iff_ne.2 h)
  case noRun => exact refuses_of_guarded rfl fun hb => bne_iff_ne.1 hb h
  case resume => exact ⟨_, perform_of_guarded rfl (beq_iff_eq.2 h), resumed_answer_resume s .ok, rfl⟩
  case noResume => exact refuses_of_guarded rfl (mt beq_iff_eq.1 h)
  case terminate =>
    have ht := terminated_terminateCore .none 0 s.pcVal hq
    rw [State.trunc_pcVal, trunc_zeroWord] at ht
    exact ⟨_, perform_terminate hc, ht, csrs_terminateCore ..⟩
  case noStep => exact if_neg (mt (stepAllowed_iff s).1 h)

/-! ## A blocking syscall -/

/-- The default `ProvExt` gives no effect (00_scope.md R8). -/
theorem not_provides_defaults {x : Xlen} {s : State} (h : s.par = Params.defaults x) (e : SvcEntry) (eff : Effect) :
    ¬Provides s e eff := by
  rintro ⟨hp, -⟩
  rw [h] at hp
  cases hp

/-- A syscall of class PROV_EXT with no effect is handled as a BLOCKING one (46_speclog_ops.md R372). -/
theorem perform_blocking {s : State} {e : SvcEntry} (h : Calls s e)
    (hb : e.cls = .blocking ∨ e.cls = .speculative ∧ e.prov = .ext ∧ ∀ eff, ¬Provides s e eff) :
    perform (.td .classify) s = .next (blockingCall e s) := by
  rw [perform_calls h]
  obtain hc | ⟨hc, hx, hn⟩ := hb
  · rw [hc]
  · rw [hc]
    simp only [speculativeCall, hx, (not_provides_iff s e).2 hn]

theorem payloadCheck_ok {s : State} (h : (s.trapReg 11).setWidth 32 = 0 ∨
    s.cpuAccess (s.trapReg 10).toNat ((s.trapReg 11).setWidth 32).toNat .read = .ok ()) : s.payloadCheck = .ok () := by
  by_cases h0 : (s.trapReg 11).setWidth 32 = 0
  · exact if_pos h0
  · exact (if_neg h0).trans (h.resolve_left h0)

theorem payloadCheck_error {s : State} {x : OpError} (h0 : (s.trapReg 11).setWidth 32 ≠ 0)
    (h : s.cpuAccess (s.trapReg 10).toNat ((s.trapReg 11).setWidth 32).toNat .read = .error x) :
    s.payloadCheck = .error x :=
  (if_neg h0).trans h

theorem blockingCall_error {s : State} {x : OpError} (e : SvcEntry) (h : s.payloadCheck = .error x) :
    blockingCall e s =
      deliverFault (if x = .stale then .staleHandle else .memoryViolation) (s.trapReg 10) s.tr.savedPc s := by
  rw [blockingCall, h]
  cases x <;> rfl

theorem blockingCall_ok {s : State} (e : SvcEntry) (h : s.payloadCheck = .ok ()) :
    blockingCall e s = blockingPublish e s := by
  rw [blockingCall, h]

theorem blockingPublish_full (e : SvcEntry) {s : State} (h : s.req.count = s.par.ringCap) :
    blockingPublish e s = { s with tdDeadline := deadlineOf s, tdDlValid := true, tdState := .waitSlot } :=
  if_pos ((reqFull_iff s.setDeadline).2 h)

theorem blockingPublish_space (e : SvcEntry) {s : State} (h : s.req.count ≠ s.par.ringCap) :
    blockingPublish e s = { s with
      req := (s.publishRequest e.serviceId (s.trapReg 10) ((s.trapReg 11).setWidth 32)).req
      tdDeadline := deadlineOf s, tdDlValid := true
      tdOut := ⟨true, s.req.head, e.serviceId⟩, tdState := .waitResponse } :=
  if_neg fun hf => h ((reqFull_iff s.setDeadline).1 hf)

end Sys2Proof.Machine

namespace Sys2Proof

open Sys2Proof.Machine Sys2Proof.Safety

/-- Settles O45: the payload check, then the published request goes to the end of the queue. -/
theorem blockingPublish : Obligations.BlockingPublish := by
  refine ⟨fun x s e eff h => not_provides_defaults h e eff, fun s e len h hb hlen => ?_⟩
  obtain rfl : len = (s.trapReg 11).setWidth 32 := BitVec.eq_of_toNat_eq (hlen.trans (BitVec.toNat_setWidth ..).symm)
  have hperf := perform_blocking h hb
  refine ⟨fun h0 x hx => hperf.trans (congrArg _ (blockingCall_error e (payloadCheck_error h0 hx))), fun hok => ?_⟩
  rw [blockingCall_ok e (payloadCheck_ok hok)] at hperf
  exact ⟨fun hfull => hperf.trans (congrArg _ (blockingPublish_full e hfull)),
    fun hc hl => ⟨_, hperf.trans (congrArg _ (blockingPublish_space e hc.ne)), framesOf_publishRequest hl hc .., rfl⟩⟩

end Sys2Proof
end
